-- ==== Sys2Proof/Word.lean ====
section
/-! DEFINITION. The two word types that the manual itself treats as bits: a byte of a link
(R165, R202) and a line time, the value of the 32-bit line clock (R199). -/

namespace Sys2Proof

/-- One byte of a frame (R165). -/
abbrev Byte := BitVec 8

/-- A line time: a value of the line clock, which counts milliseconds in 32 bits and wraps (R199). -/
abbrev Time := BitVec 32

end Sys2Proof
end

