-- ==== Sys2Proof/Syntax.lean ====
section
/-! DEFINITION. The commands of the block: one constructor of `Instr` for each row of
spec/opcode_table.json, with the row's operands. -/

namespace Sys2Proof

/-- A station S0-S3. -/
abbrev Station := Fin 4
/-- A head H0-H15. -/
abbrev Head := Fin 16
/-- A converter C0-C5. -/
abbrev Conv := Fin 6
/-- A pool converter: 0 is C4 and 1 is C5. -/
abbrev Pool := Fin 2
/-- A job slot 0-47 (R56). -/
abbrev SlotIx := Fin 48

/-- A port: SP0-SP3 of the stations, SVP of the supervisor (R189). -/
inductive Port where
  | sp (n : Station)
  | svp
deriving DecidableEq, Repr

/-- A station interlock input (R177). -/
inductive Interlock where
  | clamp | purge | permit
deriving DecidableEq, Repr

/-- A condition that a power stage reports (R27). -/
inductive FaultCond where
  | overcurrent | coolantLow | linkLow
deriving DecidableEq, Repr

/-- What a phase detector presents (R46). -/
inductive PhaseReport where
  | below | above | centered
deriving DecidableEq, Repr

/-- The reading of a pyrometer sample (R108). -/
inductive PyroReading where
  | temp (celsius : Nat)
  | under | over | noSignal
deriving DecidableEq, Repr

/-- The reading of a guard conversion (R131). -/
inductive GuardReading where
  | temp (celsius : Nat)
  | over | noSignal
deriving DecidableEq, Repr

/-- The request kinds (R204). -/
inductive ReqKind where
  | submit | submitGang | go | cancel | readJob | takeNotices | takeResults | readInputs | renew
  | stationStatus
  | setMode | setBudget | writeSegments | writeProfile | clearProfile | writeHead | forgetLearned
  | readTable | converterEnable | converterHold | converterRelease | converterClear | setDischarge
  | setLease | setGuardDwell | abortStation | lineReset | lineStatus
deriving DecidableEq, Repr

/-- A command of the block. A request command stands for the completion, at `port`, of a well-formed
frame of its kind with the payload given (R167; assumption 7). Every other row is the event of its name. -/
inductive Instr where
  -- requests on the station ports (chapters 4 and 9)
  | submit (port : Port) (payload : List Byte)
  | submitGang (port : Port) (payload : List Byte)
  | go (port : Port) (payload : List Byte)
  | cancel (port : Port) (payload : List Byte)
  | readJob (port : Port) (payload : List Byte)
  | takeNotices (port : Port) (payload : List Byte)
  | takeResults (port : Port) (payload : List Byte)
  | readInputs (port : Port) (payload : List Byte)
  | renew (port : Port) (payload : List Byte)
  | stationStatus (port : Port) (payload : List Byte)
  -- requests on the supervisor port (chapters 1, 2, 3, 5, 7, 9 and 10)
  | setMode (port : Port) (payload : List Byte)
  | setBudget (port : Port) (payload : List Byte)
  | writeSegments (port : Port) (payload : List Byte)
  | writeProfile (port : Port) (payload : List Byte)
  | clearProfile (port : Port) (payload : List Byte)
  | writeHead (port : Port) (payload : List Byte)
  | forgetLearned (port : Port) (payload : List Byte)
  | readTable (port : Port) (payload : List Byte)
  | converterEnable (port : Port) (payload : List Byte)
  | converterHold (port : Port) (payload : List Byte)
  | converterRelease (port : Port) (payload : List Byte)
  | converterClear (port : Port) (payload : List Byte)
  | setDischarge (port : Port) (payload : List Byte)
  | setLease (port : Port) (payload : List Byte)
  | setGuardDwell (port : Port) (payload : List Byte)
  | abortStation (port : Port) (payload : List Byte)
  | lineReset (port : Port) (payload : List Byte)
  | lineStatus (port : Port) (payload : List Byte)
  | unknownRequestKind (port : Port) (kind : Byte) (payload : List Byte)
  -- the links (chapter 9)
  | frameReceived (port : Port) (secondCrc : Byte)
  | receiveGapTimeout (port : Port)
  | replyComplete (port : Port)
  | byteArrival (port : Port) (byte : Byte)
  -- the line's inputs, its resets and its clock (chapters 4, 9 and 10)
  | interlockChange (station : Station) (input : Interlock) (level : Bool)
  | indexEdge
  | estopAssertion
  | estopRelease
  | powerOn
  | pinReset
  | lineClockMillisecond
  -- converters and relays (chapter 2); `level` true: the condition begins, false: it ends (assumption 4)
  | relayHoldEnd
  | converterFaultEvent (conv : Conv) (cond : FaultCond) (level : Bool)
  | warmupEnd (conv : Conv)
  | dischargeEnd (conv : Conv)
  | relayOpeningComplete (pool : Pool)
  | relayClosingComplete (pool : Pool)
  | relayConditionTimer (pool : Pool)
  -- tuning, heating and guards (chapters 3, 6 and 7)
  | settleExpiry (conv : Conv) (report : PhaseReport)
  | pyrometerSample (conv : Conv) (reading : PyroReading) (flow : Bool)
  | segmentDurationExpiry (conv : Conv)
  | segmentLimitExpiry (conv : Conv)
  | guardConversionComplete (reading : GuardReading)
  -- the timers of jobs and stations (chapters 5, 7 and 9)
  | waitLimitExpiry (slot : SlotIx)
  | leaseExpiry (station : Station)
  | coolDwellExpiry (slot : SlotIx)
  | coolingLimitExpiry (slot : SlotIx)
deriving DecidableEq, Repr

end Sys2Proof
end

