-- ==== Sys2Proof/Decode.lean ====
section
/-! DEFINITION. The kind byte of a frame decodes to a request (R168, R204), and the word decoder the
host asks for, which spells no command since no row of the opcode table gives bits (assumption 6). -/

namespace Sys2Proof

/-- The kind byte of each request (R204, second column). -/
def ReqKind.code : ReqKind → Byte
  | .submit => 0x10 | .submitGang => 0x11 | .go => 0x12 | .cancel => 0x13 | .readJob => 0x14
  | .takeNotices => 0x15 | .takeResults => 0x16 | .readInputs => 0x17 | .renew => 0x18
  | .stationStatus => 0x19
  | .setMode => 0x40 | .setBudget => 0x41 | .writeSegments => 0x42 | .writeProfile => 0x43
  | .clearProfile => 0x44 | .writeHead => 0x45 | .forgetLearned => 0x46 | .readTable => 0x47
  | .converterEnable => 0x48 | .converterHold => 0x49 | .converterRelease => 0x4A
  | .converterClear => 0x4B | .setDischarge => 0x4C | .setLease => 0x4D | .setGuardDwell => 0x4E
  | .abortStation => 0x4F | .lineReset => 0x50 | .lineStatus => 0x51

/-- Every request kind, in the order of R204. -/
def ReqKind.all : List ReqKind :=
  [.submit, .submitGang, .go, .cancel, .readJob, .takeNotices, .takeResults, .readInputs, .renew,
   .stationStatus] ++
  [.setMode, .setBudget, .writeSegments, .writeProfile, .clearProfile, .writeHead, .forgetLearned,
   .readTable, .converterEnable, .converterHold, .converterRelease, .converterClear, .setDischarge,
   .setLease, .setGuardDwell, .abortStation, .lineReset, .lineStatus]

/-- The request a kind byte names, or none for a byte that is not in the table of R204. -/
def ReqKind.ofByte (b : Byte) : Option ReqKind := ReqKind.all.find? (fun k => k.code == b)

/-- The command that a well-formed frame spells (R168). -/
def instrOfFrame (p : Port) (kind : Byte) (payload : List Byte) : Instr :=
  match ReqKind.ofByte kind with
  | none => .unknownRequestKind p kind payload
  | some .submit => .submit p payload
  | some .submitGang => .submitGang p payload
  | some .go => .go p payload
  | some .cancel => .cancel p payload
  | some .readJob => .readJob p payload
  | some .takeNotices => .takeNotices p payload
  | some .takeResults => .takeResults p payload
  | some .readInputs => .readInputs p payload
  | some .renew => .renew p payload
  | some .stationStatus => .stationStatus p payload
  | some .setMode => .setMode p payload
  | some .setBudget => .setBudget p payload
  | some .writeSegments => .writeSegments p payload
  | some .writeProfile => .writeProfile p payload
  | some .clearProfile => .clearProfile p payload
  | some .writeHead => .writeHead p payload
  | some .forgetLearned => .forgetLearned p payload
  | some .readTable => .readTable p payload
  | some .converterEnable => .converterEnable p payload
  | some .converterHold => .converterHold p payload
  | some .converterRelease => .converterRelease p payload
  | some .converterClear => .converterClear p payload
  | some .setDischarge => .setDischarge p payload
  | some .setLease => .setLease p payload
  | some .setGuardDwell => .setGuardDwell p payload
  | some .abortStation => .abortStation p payload
  | some .lineReset => .lineReset p payload
  | some .lineStatus => .lineStatus p payload

/-- The frame (port, kind byte, payload) of a request command; none for the other commands. -/
def frameOf : Instr → Option (Port × Byte × List Byte)
  | .submit p b => some (p, ReqKind.submit.code, b)
  | .submitGang p b => some (p, ReqKind.submitGang.code, b)
  | .go p b => some (p, ReqKind.go.code, b)
  | .cancel p b => some (p, ReqKind.cancel.code, b)
  | .readJob p b => some (p, ReqKind.readJob.code, b)
  | .takeNotices p b => some (p, ReqKind.takeNotices.code, b)
  | .takeResults p b => some (p, ReqKind.takeResults.code, b)
  | .readInputs p b => some (p, ReqKind.readInputs.code, b)
  | .renew p b => some (p, ReqKind.renew.code, b)
  | .stationStatus p b => some (p, ReqKind.stationStatus.code, b)
  | .setMode p b => some (p, ReqKind.setMode.code, b)
  | .setBudget p b => some (p, ReqKind.setBudget.code, b)
  | .writeSegments p b => some (p, ReqKind.writeSegments.code, b)
  | .writeProfile p b => some (p, ReqKind.writeProfile.code, b)
  | .clearProfile p b => some (p, ReqKind.clearProfile.code, b)
  | .writeHead p b => some (p, ReqKind.writeHead.code, b)
  | .forgetLearned p b => some (p, ReqKind.forgetLearned.code, b)
  | .readTable p b => some (p, ReqKind.readTable.code, b)
  | .converterEnable p b => some (p, ReqKind.converterEnable.code, b)
  | .converterHold p b => some (p, ReqKind.converterHold.code, b)
  | .converterRelease p b => some (p, ReqKind.converterRelease.code, b)
  | .converterClear p b => some (p, ReqKind.converterClear.code, b)
  | .setDischarge p b => some (p, ReqKind.setDischarge.code, b)
  | .setLease p b => some (p, ReqKind.setLease.code, b)
  | .setGuardDwell p b => some (p, ReqKind.setGuardDwell.code, b)
  | .abortStation p b => some (p, ReqKind.abortStation.code, b)
  | .lineReset p b => some (p, ReqKind.lineReset.code, b)
  | .lineStatus p b => some (p, ReqKind.lineStatus.code, b)
  | .unknownRequestKind p k b => some (p, k, b)
  | .frameReceived .. | .receiveGapTimeout .. | .replyComplete .. | .byteArrival ..
  | .interlockChange .. | .indexEdge | .estopAssertion | .estopRelease | .powerOn | .pinReset
  | .lineClockMillisecond | .relayHoldEnd | .converterFaultEvent .. | .warmupEnd ..
  | .dischargeEnd .. | .relayOpeningComplete .. | .relayClosingComplete .. | .relayConditionTimer ..
  | .settleExpiry .. | .pyrometerSample .. | .segmentDurationExpiry .. | .segmentLimitExpiry ..
  | .guardConversionComplete .. | .waitLimitExpiry .. | .leaseExpiry .. | .coolDwellExpiry ..
  | .coolingLimitExpiry .. => none

/-- The command that a word spells by the bits of the opcode table. No row of spec/opcode_table.json
gives bits ("fields" is empty in every row), so no word spells one (assumption 6). -/
def decodeTableWord (_nbits _w : Nat) : Option Instr := none

end Sys2Proof
end

