-- ==== Sys2Proof/Config.lean ====
section
/-! DEFINITION. The fixed lengths and limits of the part, and the one value the manual leaves open. -/

namespace Sys2Proof.Config

/-- Length of a converter's warm-up in ms (R23). -/
def warmupMs : Nat := 200

/-- Length of a relay opening in ms (R36). -/
def relayOpenMs : Nat := 10

/-- Length of a relay closing in ms (R36). -/
def relayCloseMs : Nat := 15

/-- Length of the relay hold after a pin reset in ms (R36, R197). -/
def relayHoldMs : Nat := 500

/-- Pyrometer settle after a relay closing in ms (R41, R109). -/
def pyroSettleMs : Nat := 20

/-- Steps a seek may take; the next one fails it (R48). -/
def seekStepLimit : Nat := 64

/-- Centred reports in a row that make a lock (R47). -/
def lockCount : Nat := 3

/-- Accepted NO_SIGNAL samples in a row that end a job (R114). -/
def noSignalLimit : Nat := 10

/-- NO_SIGNAL guard conversions in a row that end a job (R137). -/
def guardNoSignalLimit : Nat := 2

/-- Places of a notice queue (R171). -/
def noticePlaces : Nat := 16

/-- Places of a receive holding (R167). -/
def holdingPlaces : Nat := 2

/-- Jobs a station may have admitted (R61). -/
def stationJobLimit : Nat := 16

/-- Places of a station's result queue (R61, R175). -/
def resultPlaces : Nat := 32

/-- FREE VALUE (assumption 8, DESIGN CHOICE, safe): the first detail byte of a WRITE-SEGMENTS that is
refused because its payload length does not match; R12 and R204 do not state it. -/
opaque segmentsLengthDetail : List Byte → Byte

end Sys2Proof.Config
end

