-- ==== Sys2Proof/Machine/State.lean ====
section
/-! DEFINITION. Everything the manual gives the part to hold, the two reasons types of a step, and the
state after power-on. Plain data throughout. -/

namespace Sys2Proof.Machine

/-! ## Profile store and head table -/

/-- Segment kinds (R1). -/
inductive SegKind where
  | empty | rise | soak | flow | power | coast
deriving DecidableEq, Repr

/-- A segment record (R1). -/
structure Segment where
  kind : SegKind
  target : Nat
  band : Nat
  p : Nat
  q : Nat
  duration : Nat
  limit : Nat
deriving DecidableEq, Repr

/-- The segment record after power-on (R1). -/
def Segment.zero : Segment := ⟨.empty, 0, 0, 0, 0, 0, 0⟩

/-- A profile record with its valid flag (R4). -/
structure Profile where
  headStart : Nat
  headCount : Nat
  tailStart : Nat
  tailCount : Nat
  flowTemp : Nat
  minAbove : Nat
  ceiling : Nat
  guardLimit : Nat
  releaseTemp : Nat
  coolLimit : Nat
  coolDwell : Nat
  valid : Bool
deriving DecidableEq, Repr

/-- The profile record after power-on (R4). -/
def Profile.zero : Profile := ⟨0, 0, 0, 0, 0, 0, 0, 0, 0, 0, 0, false⟩

/-- A head record (R18). `learned` is none while the valid flag is clear; it then reads as 0. -/
structure HeadRec where
  owner : Option Station
  cap : Nat
  nominal : Nat
  fmin : Nat
  fmax : Nat
  step : Nat
  settle : Nat
  seekPower : Nat
  learning : Bool
  guardEnable : Bool
  learned : Option Nat
deriving DecidableEq, Repr

/-- The head record after power-on (R18). -/
def HeadRec.default : HeadRec := ⟨none, 0, 100000, 50000, 200000, 500, 5, 10, false, false, none⟩

/-! ## Jobs -/

/-- A handle: slot and generation (R57). -/
structure Handle where
  slot : SlotIx
  gen : Byte
deriving DecidableEq, Repr

/-- A trigger (R58). -/
inductive Trigger where
  | immediate
  | go (tag : Byte)
  | index
  | after (pred : Handle)
deriving DecidableEq, Repr

/-- The states of a job that occupies a slot (R59). ENDED is momentary: it is the event that frees
the slot (R78), and no job is ever seen in it. -/
inductive JobState where
  | pending | ready | connecting | seeking | aligning | heating | cooling
deriving DecidableEq, Repr

/-- The outcomes of a job (R146, R203). -/
inductive JobOutcome where
  | ok | underwet | cancelled | waitExpired | chainBroken | tuneFail | tuneLost | segmentTimeout
  | flowTimeout | overheat | sensorLost | guardOver | interlock | leaseLost | converterFault
  | gangAbort | estop | lineAbort
deriving DecidableEq, Repr

/-- How a job left COOLING (R58). -/
inductive Release where
  | none | guard | timed | limit | cut
deriving DecidableEq, Repr

/-- The two runs of a profile (R5). -/
inductive Run where
  | head | tail
deriving DecidableEq, Repr

/-- The gang field of a job record: the handle of member 0 and the member index (R58, R66). -/
structure GangTag where
  id : Handle
  member : Fin 4
deriving DecidableEq, Repr

/-- A job record (R58), with the job's two cooling timers (R140). The handle is the slot's number and
its generation (R57), so the record does not repeat it. Energy is held in 32 bits (R111). -/
structure Job where
  station : Station
  ref : BitVec 16
  head : Head
  profile : Fin 64
  trigger : Trigger
  urgency : Fin 4
  waitLimit : Nat
  gang : Option GangTag
  state : JobState
  reservation : Nat
  converter : Option Conv
  run : Run
  index : Nat
  segEntry : Option Time
  noSig : Nat
  guardNoSig : Nat
  admittedAt : Time
  readyAt : Option Time
  heatingAt : Option Time
  heatEnd : Option Time
  peak : Nat
  above : Nat
  energy : BitVec 32
  locked : Nat
  guardPeak : Nat
  outcome : Option JobOutcome
  release : Release
  coolLimitTimer : Option Nat
  coolDwellTimer : Option Nat
deriving DecidableEq, Repr

/-- A job slot (R56). -/
structure Slot where
  gen : Byte
  job : Option Job
deriving DecidableEq, Repr

/-- A result record (R145, R206). The outcome is optional only as data; R146 sets it before ENDED. -/
structure ResultRec where
  handle : Handle
  ref : BitVec 16
  head : Head
  profile : Fin 64
  gang : Nat
  outcome : Option JobOutcome
  faultPos : Option (Run × Nat)
  release : Release
  heatStart : Time
  heatDuration : Time
  peak : Nat
  above : Nat
  energy : BitVec 32
  locked : Nat
  guardPeak : Nat
  cooled : Time
deriving DecidableEq, Repr

/-- An entry of the candidate list (R83): the keys of R84, the members in member order and the wait
timer of R96. `seq` is the number of arbitrations taken when it joined (assumption 5). -/
structure Cand where
  urgency : Fin 4
  seq : Nat
  head : Head
  slot : SlotIx
  members : List SlotIx
  waitTimer : Option Nat
deriving DecidableEq, Repr

/-! ## Converters, tuning units, segment engines, relays -/

/-- Converter states (R21, R22). -/
inductive ConvState where
  | off | warmup | idle | connecting | seeking | aligned | heating | discharge | held | faulted
deriving DecidableEq, Repr

/-- Pending targets (R21). -/
inductive PendingTarget where
  | none | held | off | faulted
deriving DecidableEq, Repr

/-- Fault causes (R21). -/
inductive FaultCause where
  | none | linkLow | overcurrent | coolant
deriving DecidableEq, Repr

/-- The present levels of a converter's power-stage inputs (R27); true means the condition stands. -/
structure PowerPins where
  overcurrent : Bool
  coolantLow : Bool
  linkLow : Bool
deriving DecidableEq, Repr

/-- Phases of a tuning unit (R42). -/
inductive TunePhase where
  | stopped | seek | track | suspended
deriving DecidableEq, Repr

/-- A tuning unit (R42); the drive frequency is the converter's item. -/
structure Tuner where
  phase : TunePhase
  stepCount : Nat
  centred : Nat
  settleTimer : Option Nat
deriving DecidableEq, Repr

/-- Phases of a segment engine (R115). -/
inductive EngPhase where
  | stopped | watch | run | halted
deriving DecidableEq, Repr

/-- A segment timer (R115), with its expiry. -/
inductive SegTimer where
  | stopped
  | duration (expiry : Nat)
  | limit (expiry : Nat)
deriving DecidableEq, Repr

/-- The segment in effect: a copy of a record with its table index (R115). -/
structure SegInEffect where
  index : Nat
  seg : Segment
deriving DecidableEq, Repr

/-- A segment engine (R115). -/
structure Engine where
  phase : EngPhase
  seg : Option SegInEffect
  timer : SegTimer
  base : Nat
  zeroHold : Bool
deriving DecidableEq, Repr

/-- A converter (R21) with its warm-up and discharge timers (R23, R26), its input levels (R27), its
tuning unit (R42), its segment engine (R115) and the next sample time of its pyrometer channel (R108).
`lastOffAt` is the true time of the last switch-off, or of the reset when there was none (R36, R92);
`outputOn` is whether the output is switched on (R22). `msCommand` is the command that the converter held over
the millisecond that ended last (R111); the model's own item, written at each tick (assumption 26). -/
structure Converter where
  state : ConvState
  enabled : Bool
  pend : PendingTarget
  cause : FaultCause
  interval : Nat
  lastOff : Time
  lastOffAt : Nat
  served : Option Handle
  command : Nat
  msCommand : Nat
  outputOn : Bool
  drive : Nat
  warmTimer : Option Nat
  dischTimer : Option Nat
  pins : PowerPins
  tun : Tuner
  eng : Engine
  nextSample : Option Nat
deriving DecidableEq, Repr

/-- Where a relay is (R36). -/
inductive RelayPos where
  | open
  | closed (h : Head)
deriving DecidableEq, Repr

/-- The motion of a relay with its completion time (R36). -/
inductive RelayMotion where
  | none
  | opening (h : Head) (done : Nat)
  | closing (h : Head) (done : Nat)
deriving DecidableEq, Repr

/-- The plan of a relay (R36). -/
inductive RelayPlan where
  | empty
  | open
  | close (h : Head)
  | openThenClose (h : Head)
deriving DecidableEq, Repr

/-- A relay record (R36). `condTimer` is the matrix timer of R36, `lastClose` the true time at which the
last closing completed (R41), `openingDue` "an opening in progress or planned" (R36, R37). -/
structure Relay where
  pos : RelayPos
  motion : RelayMotion
  plan : RelayPlan
  condTimer : Option Nat
  lastClose : Option Nat
  openingDue : Bool
deriving DecidableEq, Repr

/-! ## Line supervision and ports -/

/-- Line modes (R190). -/
inductive Mode where
  | standby | run | hold
deriving DecidableEq, Repr

/-- Causes of a mode change (R192). -/
inductive ModeCause where
  | setMode | estop | lineReset
deriving DecidableEq, Repr

/-- Kinds of reset (R197). -/
inductive ResetKind where
  | powerOn | pin | lineReset
deriving DecidableEq, Repr

/-- Lease actions (R180). -/
inductive LeaseAction where
  | abort | hold
deriving DecidableEq, Repr

/-- Lease states (R180). -/
inductive LeaseState where
  | off | live | lapsed
deriving DecidableEq, Repr

/-- A lease (R180). -/
structure Lease where
  period : Nat
  action : LeaseAction
  state : LeaseState
  hold : Bool
  timer : Option Nat
deriving DecidableEq, Repr

/-- One bit for each of CLAMP, PURGE and PERMIT (R203). -/
structure Levels where
  clamp : Bool
  purge : Bool
  permit : Bool
deriving DecidableEq, Repr

/-- What a notice tells (R172, R201, R207). -/
inductive NoticeBody where
  | jobHeating (h : Handle) (ref : BitVec 16) (head : Head) (conv : Conv)
  | jobEnded (h : Handle) (ref : BitVec 16) (outcome : Option JobOutcome) (release : Release)
  | inputChanged (levels : Levels)
  | leaseExpired (st : Station) (action : LeaseAction)
  | modeChanged (mode : Mode) (cause : ModeCause)
  | converterState (c : Conv) (state : ConvState) (cause : FaultCause)
  | estop (asserted : Bool) (modeBefore : Mode)
deriving DecidableEq, Repr

/-- A notice: the line time of its event and what it tells (R171). -/
structure Notice where
  time : Time
  body : NoticeBody
deriving DecidableEq, Repr

/-- A receiver (R165). `receiving len bytes` holds the bytes that followed the length byte. -/
inductive Receiver where
  | hunting
  | synced
  | receiving (len : Nat) (bytes : List Byte)
deriving DecidableEq, Repr

/-- A request in a receive holding (R167). -/
structure Request where
  kind : Byte
  payload : List Byte
deriving DecidableEq, Repr

/-- Reply codes (R203). -/
inductive ReplyCode where
  | accepted | wrongPort | badField | badHead | badProfile | unknownJob | inUse | stationFull | noSlot
  | wrongMode | wrongState | causePresent
deriving DecidableEq, Repr

/-- A reply in transmission: the kind it answers, its code and what follows the code (R168, R202). -/
structure Reply where
  kind : Byte
  code : ReplyCode
  data : List Byte
deriving DecidableEq, Repr

/-- What every port holds (R165, R167, R169, R171). `lastByteAt` is the time of the last byte of the
frame in reception (R166). -/
structure PortSt where
  rx : Receiver
  lastByteAt : Nat
  holding : List Request
  reply : Option Reply
  notices : List Notice
  framing : Bool
  overrun : Bool
  dropped : Bool
deriving DecidableEq, Repr

/-- What a station port holds besides (R175, R177, R180). -/
structure StationSt where
  results : List ResultRec
  live : Levels
  reported : Levels
  marks : Levels
  lease : Lease
deriving DecidableEq, Repr

/-! ## The whole state -/

/-- The state of the part. The last four fields are the model's own: `now` counts milliseconds and is
never reset (assumption 2), `arbSeq` counts arbitrations and `arbCause` records that a cause of
arbitration was raised in the event in progress (assumption 5), `pending` is the queue of waiting
commands, first in first out (assumption 1). -/
structure State where
  mode : Mode
  estop : Bool
  resetKind : ResetKind
  resetTime : Time
  lineClock : Time
  segs : Vector Segment 256
  segUse : Vector Nat 256
  profs : Vector Profile 64
  profUse : Vector Nat 64
  heads : Vector HeadRec 16
  slots : Vector Slot 48
  admitted : Vector Nat 4
  budget : Nat
  committed : Nat
  cands : List Cand
  convs : Vector Converter 6
  relays : Vector Relay 2
  relayHold : Option Nat
  scanSet : List Head
  passList : List Head
  conversion : Option (Head × Nat)
  guardDwell : Nat
  ports : Vector PortSt 5
  stations : Vector StationSt 4
  now : Nat
  arbSeq : Nat
  arbCause : Bool
  pending : List Instr
deriving DecidableEq, Repr

/-- Why a machine stops: the manual describes no stop of this block (INVENTORY.md, Faults), so there is
no reason and no constructor. Safe: no command can fault. -/
inductive Fault where
deriving DecidableEq, Repr

/-- Why a command has no meaning. `notModelled` is raised only by an arm of `exec` whose row has no
meaning yet; safe, since nothing is concluded from it. -/
inductive Refusal where
  | notModelled (mnemonic : String)
deriving DecidableEq, Repr

/-! ## Reset values -/

/-- Interlock bits all clear. -/
def Levels.low : Levels := ⟨false, false, false⟩

/-- No power-stage condition stands. -/
def PowerPins.quiet : PowerPins := ⟨false, false, false⟩

/-- A tuning unit after power-on (R42). -/
def Tuner.reset : Tuner := ⟨.stopped, 0, 0, none⟩

/-- A segment engine after power-on (R115). -/
def Engine.reset : Engine := ⟨.stopped, none, .stopped, 0, false⟩

/-- A converter after a reset at true time `at_` with input levels `pins` (R21). -/
def Converter.reset (at_ : Nat) (pins : PowerPins) : Converter :=
  { state := .off, enabled := false, pend := .none, cause := .none, interval := 100, lastOff := 0,
    lastOffAt := at_, served := none, command := 0, msCommand := 0, outputOn := false, drive := 0,
    warmTimer := none, dischTimer := none, pins := pins, tun := .reset, eng := .reset, nextSample := none }

/-- A relay after power-on (R36). -/
def Relay.reset : Relay := ⟨.open, .none, .empty, none, none, false⟩

/-- A lease after power-on (R180). -/
def Lease.reset : Lease := ⟨0, .abort, .off, false, none⟩

/-- A port after power-on (R188). -/
def PortSt.reset : PortSt := ⟨.hunting, 0, [], none, [], false, false, false⟩

/-- A station port's own items after power-on with live levels `live` (R177, R180, R188). -/
def StationSt.reset (live : Levels) : StationSt := ⟨[], live, live, .low, .reset⟩

/-- A free slot of generation 0 (R56). -/
def Slot.reset : Slot := ⟨0, none⟩

/-- The part right after power-on, nothing waiting (R197). The levels of the inputs are DESIGN CHOICE
(assumption 3): ESTOP released, interlocks low, no power-stage condition. -/
def State.reset : State :=
  { mode := .standby, estop := false, resetKind := .powerOn, resetTime := 0, lineClock := 0,
    segs := Vector.replicate 256 .zero, segUse := Vector.replicate 256 0,
    profs := Vector.replicate 64 .zero, profUse := Vector.replicate 64 0,
    heads := Vector.replicate 16 .default, slots := Vector.replicate 48 .reset,
    admitted := Vector.replicate 4 0, budget := 0, committed := 0, cands := [],
    convs := Vector.replicate 6 (.reset 0 .quiet), relays := Vector.replicate 2 .reset,
    relayHold := none, scanSet := [], passList := [], conversion := none, guardDwell := 5,
    ports := Vector.replicate 5 .reset, stations := Vector.replicate 4 (.reset .low),
    now := 0, arbSeq := 0, arbCause := false, pending := [] }

end Sys2Proof.Machine
end

