-- ==== Sys2Proof/Machine/Operands.lean ====
section
/-! DEFINITION. Every operand form: byte order, the frame and its CRC (R202), the code values (R203), the
request payloads with their field checks (R2, R4, R8, R18, R20, R62, R65, R204) and the records that
cross a link (R204 to R207). -/

namespace Sys2Proof.Machine

/-! ## Bytes -/

/-- The low byte of a number. -/
def byteOf (n : Nat) : Byte := BitVec.ofNat 8 n

/-- A number in two bytes, little-endian (R202). -/
def le2 (n : Nat) : List Byte := [byteOf n, byteOf (n / 256)]

/-- A number in four bytes, little-endian (R202). -/
def le4 (n : Nat) : List Byte :=
  [byteOf n, byteOf (n / 256), byteOf (n / 65536), byteOf (n / 16777216)]

/-- A two-byte field read little-endian. -/
def rd2 (a b : Byte) : Nat := a.toNat + 256 * b.toNat

/-- A four-byte field read little-endian. -/
def rd4 (a b c d : Byte) : Nat := a.toNat + 256 * b.toNat + 65536 * c.toNat + 16777216 * d.toNat

/-- A byte as a number below `n`, none when it is not. -/
def rdFin (n : Nat) (b : Byte) : Option (Fin n) :=
  if h : b.toNat < n then some ⟨b.toNat, h⟩ else none

/-- A line time in four bytes. -/
def timeBytes (t : Time) : List Byte := le4 t.toNat

/-- An optional line time: 0 when absent (R205). -/
def optTimeBytes : Option Time → List Byte
  | none => le4 0
  | some t => timeBytes t

/-- A Bool as the byte 0 or 1. -/
def boolByte (b : Bool) : Byte := if b then 1 else 0

/-! ## Frame and CRC -/

/-- One bit of the CRC register: polynomial x¹⁶ + x¹² + x⁵ + 1 (R202). -/
def crcBit (r : BitVec 16) : BitVec 16 :=
  if r.msb then (r <<< 1) ^^^ 0x1021 else r <<< 1

/-- One byte enters the CRC register most significant bit first (R202). -/
def crcByte (r : BitVec 16) (b : Byte) : BitVec 16 :=
  crcBit <| crcBit <| crcBit <| crcBit <| crcBit <| crcBit <| crcBit <| crcBit <|
    r ^^^ ((b.setWidth 16) <<< 8)

/-- The CRC over bytes in the order sent, from 0xFFFF, not inverted at the end (R202). -/
def crc16 (bs : List Byte) : BitVec 16 := bs.foldl crcByte 0xFFFF

/-- The length byte, kind and payload of a frame: what the CRC covers (R202). -/
def frameBody (kind : Byte) (payload : List Byte) : List Byte :=
  byteOf (payload.length + 1) :: kind :: payload

/-- The bytes of a frame on the line (R202). -/
def frameBytes (kind : Byte) (payload : List Byte) : List Byte :=
  0xC3 :: (frameBody kind payload ++ le2 (crc16 (frameBody kind payload)).toNat)

/-! ## Code values (R203) -/

/-- The number of a reply code. -/
def ReplyCode.code : ReplyCode → Byte
  | .accepted => 0 | .wrongPort => 1 | .badField => 2 | .badHead => 3 | .badProfile => 4
  | .unknownJob => 5 | .inUse => 6 | .stationFull => 7 | .noSlot => 8 | .wrongMode => 9
  | .wrongState => 10 | .causePresent => 11

/-- The number of an outcome, 0xFF while absent. -/
def outcomeCode : Option JobOutcome → Byte
  | none => 0xFF
  | some .ok => 0 | some .underwet => 1 | some .cancelled => 2 | some .waitExpired => 3
  | some .chainBroken => 4 | some .tuneFail => 5 | some .tuneLost => 6 | some .segmentTimeout => 7
  | some .flowTimeout => 8 | some .overheat => 9 | some .sensorLost => 10 | some .guardOver => 11
  | some .interlock => 12 | some .leaseLost => 13 | some .converterFault => 14
  | some .gangAbort => 15 | some .estop => 16 | some .lineAbort => 17

/-- The number of a release. -/
def Release.code : Release → Byte
  | .none => 0 | .guard => 1 | .timed => 2 | .limit => 3 | .cut => 4

/-- The number of a segment kind. -/
def SegKind.code : SegKind → Byte
  | .empty => 0 | .rise => 1 | .soak => 2 | .flow => 3 | .power => 4 | .coast => 5

/-- The segment kind of a number, none for a number not listed. -/
def SegKind.ofByte (b : Byte) : Option SegKind :=
  [SegKind.empty, .rise, .soak, .flow, .power, .coast].find? (fun k => k.code == b)

/-- The number of a trigger kind. -/
def Trigger.code : Trigger → Byte
  | .immediate => 0 | .go _ => 1 | .index => 2 | .after _ => 3

/-- The stored trigger argument: the tag for GO and 0 otherwise (R62). -/
def Trigger.arg : Trigger → Byte
  | .go t => t
  | .immediate | .index | .after _ => 0

/-- The number of a job state. -/
def JobState.code : JobState → Byte
  | .pending => 0 | .ready => 1 | .connecting => 2 | .seeking => 3 | .aligning => 4 | .heating => 5
  | .cooling => 6

/-- The number of a run. -/
def Run.code : Run → Byte
  | .head => 0 | .tail => 1

/-- The number of a converter state. -/
def ConvState.code : ConvState → Byte
  | .off => 0 | .warmup => 1 | .idle => 2 | .connecting => 3 | .seeking => 4 | .aligned => 5
  | .heating => 6 | .discharge => 7 | .held => 8 | .faulted => 9

/-- The number of a pending target. -/
def PendingTarget.code : PendingTarget → Byte
  | .none => 0 | .held => 1 | .off => 2 | .faulted => 3

/-- The number of a fault cause. -/
def FaultCause.code : FaultCause → Byte
  | .none => 0 | .linkLow => 1 | .overcurrent => 2 | .coolant => 3

/-- The number of a tuning phase. -/
def TunePhase.code : TunePhase → Byte
  | .stopped => 0 | .seek => 1 | .track => 2 | .suspended => 3

/-- The byte of a relay position: 0xFF when open. -/
def RelayPos.code : RelayPos → Byte
  | .open => 0xFF
  | .closed h => byteOf h.val

/-- The number of a relay motion. -/
def RelayMotion.code : RelayMotion → Byte
  | .none => 0 | .opening _ _ => 1 | .closing _ _ => 2

/-- The head of a relay motion, 0xFF for none. -/
def RelayMotion.headCode : RelayMotion → Byte
  | .none => 0xFF
  | .opening h _ | .closing h _ => byteOf h.val

/-- The number of a line mode. -/
def Mode.code : Mode → Byte
  | .standby => 0 | .run => 1 | .hold => 2

/-- The line mode of a number. -/
def Mode.ofByte (b : Byte) : Option Mode :=
  [Mode.standby, .run, .hold].find? (fun m => m.code == b)

/-- The number of a mode change cause. -/
def ModeCause.code : ModeCause → Byte
  | .setMode => 0 | .estop => 1 | .lineReset => 2

/-- The number of a reset kind. -/
def ResetKind.code : ResetKind → Byte
  | .powerOn => 0 | .pin => 1 | .lineReset => 2

/-- The number of a lease state. -/
def LeaseState.code : LeaseState → Byte
  | .off => 0 | .live => 1 | .lapsed => 2

/-- The number of a lease action. -/
def LeaseAction.code : LeaseAction → Byte
  | .abort => 0 | .hold => 1

/-- The lease action of a number. -/
def LeaseAction.ofByte (b : Byte) : Option LeaseAction :=
  [LeaseAction.abort, .hold].find? (fun a => a.code == b)

/-- The byte of an owner: 0xFF for none. -/
def ownerCode : Option Station → Byte
  | none => 0xFF
  | some s => byteOf s.val

/-- The on/off value of a byte. -/
def onOffOfByte (b : Byte) : Option Bool :=
  if b = 0 then some false else if b = 1 then some true else none

/-- The two bytes of a handle. -/
def Handle.bytes (h : Handle) : List Byte := [byteOf h.slot.val, h.gen]

/-- A handle read from two bytes, none when its slot is above 47 (R57). -/
def parseHandle : List Byte → Option Handle
  | [s, g] => (rdFin 48 s).map (fun k => ⟨k, g⟩)
  | _ => none

/-- The one-byte payload of a request that carries a number below `n`. -/
def parseIndex (n : Nat) : List Byte → Option (Fin n)
  | [b] => rdFin n b
  | _ => none

/-! ## Job and gang descriptions -/

/-- A wait limit is 0 or 100-600000 ms (R62). -/
def waitLimitOk (w : Nat) : Bool := w == 0 || (decide (100 ≤ w) && decide (w ≤ 600000))

/-- Trigger kind, argument and predecessor handle (R62): the argument is read for GO alone, the handle
for AFTER alone. -/
def parseTrigger (kind arg ps pg : Byte) : Option Trigger :=
  if kind = 0 then some .immediate
  else if kind = 1 then some (.go arg)
  else if kind = 2 then some .index
  else if kind = 3 then (rdFin 48 ps).map (fun k => .after ⟨k, pg⟩)
  else none

/-- What a job description says (R62). -/
structure JobDesc where
  ref : BitVec 16
  head : Head
  profile : Fin 64
  trigger : Trigger
  urgency : Fin 4
  waitLimit : Nat
deriving DecidableEq, Repr

/-- The job description of SUBMIT with the field check of R62. -/
def parseSubmit : List Byte → Option JobDesc
  | [r0, r1, h, p, tk, ta, ps, pg, u, w0, w1, w2, w3] =>
    match rdFin 16 h, rdFin 64 p, parseTrigger tk ta ps pg, rdFin 4 u, waitLimitOk (rd4 w0 w1 w2 w3) with
    | some head, some profile, some trigger, some urgency, true =>
      some ⟨BitVec.ofNat 16 (rd2 r0 r1), head, profile, trigger, urgency, rd4 w0 w1 w2 w3⟩
    | _, _, _, _, _ => none
  | _ => none

/-- One member of a gang description (R65): its reference, head and profile, none when head or profile is
out of range. -/
def parseMembers : List Byte → List (Option (BitVec 16 × Head × Fin 64))
  | r0 :: r1 :: h :: p :: rest =>
    (match rdFin 16 h, rdFin 64 p with
      | some head, some profile => some (BitVec.ofNat 16 (rd2 r0 r1), head, profile)
      | _, _ => none) :: parseMembers rest
  | _ => []

/-- The job descriptions of SUBMIT-GANG in member order with the field check of R65, or the first detail
byte of its BAD_FIELD: the member index where the check is made per member, 0 otherwise (R204). The shared fields
are judged before the members (assumption 28). -/
def parseGang : List Byte → Except Nat (List JobDesc)
  | c :: tk :: ta :: ps :: pg :: u :: w0 :: w1 :: w2 :: w3 :: rest =>
    if 2 ≤ c.toNat ∧ c.toNat ≤ 4 ∧ rest.length = 4 * c.toNat then
      match parseTrigger tk ta ps pg, rdFin 4 u, waitLimitOk (rd4 w0 w1 w2 w3) with
      | some trigger, some urgency, true =>
        match (parseMembers rest).findIdx? (·.isNone) with
        | some i => .error i
        | none => .ok ((parseMembers rest).filterMap (·.map fun m =>
            ⟨m.1, m.2.1, m.2.2, trigger, urgency, rd4 w0 w1 w2 w3⟩))
      | _, _, _ => .error 0
    else .error 0
  | _ => .error 0

/-! ## Segment, profile and head records as written -/

/-- `lo ≤ n ≤ hi`. -/
def inRange (lo n hi : Nat) : Bool := decide (lo ≤ n) && decide (n ≤ hi)

/-- A segment record as it is stored when its fields pass R2: unused fields are 0. -/
def checkSegment (k : SegKind) (target band p q duration limit : Nat) : Option Segment :=
  match k with
  | .empty => some .zero
  | .rise =>
    if inRange 300 target 1100 && inRange 1 p 300 && inRange 1 limit 60000 then
      some ⟨.rise, target, 0, p, 0, 0, limit⟩ else none
  | .soak =>
    if inRange 300 target 1100 && inRange 1 band 50 && inRange 1 p 300 && decide (q ≤ p)
        && inRange 1 duration 60000 then
      some ⟨.soak, target, band, p, q, duration, 0⟩ else none
  | .flow =>
    if inRange 300 target 1100 && inRange 1 band 50 && inRange 1 p 300 && decide (q ≤ p)
        && inRange 1 limit 60000 then
      some ⟨.flow, target, band, p, q, 0, limit⟩ else none
  | .power =>
    if inRange 1 p 300 && inRange 1 duration 60000 then some ⟨.power, 0, 0, p, 0, duration, 0⟩
    else none
  | .coast =>
    if inRange 1 duration 60000 then some ⟨.coast, 0, 0, 0, 0, duration, 0⟩ else none

/-- The segment records that follow the two header bytes of WRITE-SEGMENTS, none for one that fails. -/
def parseSegments : List Byte → List (Option Segment)
  | k :: t0 :: t1 :: b :: p0 :: p1 :: q0 :: q1 :: d0 :: d1 :: l0 :: l1 :: rest =>
    (match SegKind.ofByte k with
      | some kind =>
        checkSegment kind (rd2 t0 t1) b.toNat (rd2 p0 p1) (rd2 q0 q1) (rd2 d0 d1) (rd2 l0 l1)
      | none => none) :: parseSegments rest
  | _ => []

/-- The field group of R8 over a whole profile record. -/
def profileFieldsOk (r : Profile) : Bool :=
  inRange 1 r.headCount 24 && decide (r.tailCount ≤ 24) && inRange 500 r.flowTemp 1000
    && decide (r.minAbove ≤ 60000) && inRange 300 r.ceiling 1200 && inRange 40 r.guardLimit 400
    && inRange 30 r.releaseTemp 300 && inRange 1 r.coolLimit 600 && decide (r.coolDwell ≤ 60000)
    && decide (r.releaseTemp < r.guardLimit) && decide (r.headStart + r.headCount ≤ 256)
    && (r.tailCount == 0 || decide (r.tailStart + r.tailCount ≤ 256))

/-- The payload of WRITE-PROFILE: number and record with the field group of R8. A tail run start is 0 when
there is no tail run (R5); the valid flag is set (R13). -/
def parseWriteProfile : List Byte → Option (Fin 64 × Profile)
  | [n, hs, hc, ts, tc, f0, f1, m0, m1, c0, c1, g0, g1, r0, r1, l0, l1, d0, d1] =>
    let r : Profile :=
      { headStart := hs.toNat, headCount := hc.toNat,
        tailStart := if tc.toNat = 0 then 0 else ts.toNat, tailCount := tc.toNat,
        flowTemp := rd2 f0 f1, minAbove := rd2 m0 m1, ceiling := rd2 c0 c1, guardLimit := rd2 g0 g1,
        releaseTemp := rd2 r0 r1, coolLimit := rd2 l0 l1, coolDwell := rd2 d0 d1, valid := true }
    match rdFin 64 n with
    | some i => if profileFieldsOk r then some (i, r) else none
    | none => none
  | _ => none

/-- The owner of a byte: none for 0xFF; no value at all for a number not listed (R203). -/
def ownerOfByte (b : Byte) : Option (Option Station) :=
  if b = 0xFF then some none else (rdFin 4 b).map some

/-- The ranges of R18 and the checks of R20 on the written fields of a head record. -/
def headFieldsOk (r : HeadRec) : Bool :=
  decide (r.cap ≤ 300) && inRange 10000 r.nominal 400000 && inRange 10000 r.fmin 400000
    && inRange 10000 r.fmax 400000 && decide (r.fmin < r.nominal) && decide (r.nominal < r.fmax)
    && inRange 10 r.step 5000 && inRange 1 r.settle 50 && inRange 1 r.seekPower 50
    && (r.cap == 0 || decide (r.seekPower ≤ r.cap))

/-- The payload of WRITE-HEAD: number and written fields with the checks of R20; `learned` is none. -/
def parseWriteHead : List Byte → Option (Head × HeadRec)
  | [n, o, c0, c1, n0, n1, n2, n3, i0, i1, i2, i3, a0, a1, a2, a3, s0, s1, t, p0, p1, fl] =>
    match rdFin 16 n, ownerOfByte o with
    | some h, some owner =>
      let r : HeadRec :=
        { owner := owner, cap := rd2 c0 c1, nominal := rd4 n0 n1 n2 n3, fmin := rd4 i0 i1 i2 i3,
          fmax := rd4 a0 a1 a2 a3, step := rd2 s0 s1, settle := t.toNat, seekPower := rd2 p0 p1,
          learning := fl.getLsbD 0, guardEnable := fl.getLsbD 1, learned := none }
      if headFieldsOk r && decide (fl.toNat < 4) then some (h, r) else none
    | _, _ => none
  | _ => none

/-- The payload of SET-LEASE with the checks of R183: station, period, action. -/
def parseSetLease : List Byte → Option (Station × Nat × LeaseAction)
  | [st, p0, p1, a] =>
    match rdFin 4 st, LeaseAction.ofByte a with
    | some station, some action =>
      if rd2 p0 p1 == 0 || inRange 20 (rd2 p0 p1) 10000 then some (station, rd2 p0 p1, action)
      else none
    | _, _ => none
  | _ => none

/-- The payload of SET-DISCHARGE with the checks of R35. -/
def parseSetDischarge : List Byte → Option (Conv × Nat)
  | [c, i0, i1] =>
    match rdFin 6 c with
    | some conv => if inRange 10 (rd2 i0 i1) 500 then some (conv, rd2 i0 i1) else none
    | none => none
  | _ => none

/-- The payload of CONVERTER-ENABLE (R31). -/
def parseEnable : List Byte → Option (Conv × Bool)
  | [c, v] =>
    match rdFin 6 c, onOffOfByte v with
    | some conv, some on => some (conv, on)
    | _, _ => none
  | _ => none

/-- The payload of SET-BUDGET with its range (R82). -/
def parseBudget : List Byte → Option Nat
  | [a, b] => if rd2 a b ≤ 1500 then some (rd2 a b) else none
  | _ => none

/-- A one-byte number with its range. -/
def parseCount (lo hi : Nat) : List Byte → Option Nat
  | [b] => if inRange lo b.toNat hi then some b.toNat else none
  | _ => none

/-- The tables READ-TABLE can read (R15). -/
inductive TableSel where
  | segments | profiles | heads
deriving DecidableEq, Repr

/-- The number of a table selector (R203). -/
def TableSel.code : TableSel → Byte
  | .segments => 0 | .profiles => 1 | .heads => 2

/-- The size of a table and the greatest count of a read (R15). -/
def TableSel.limits : TableSel → Nat × Nat
  | .segments => (256, 16) | .profiles => (64, 8) | .heads => (16, 8)

/-- The payload of READ-TABLE with the checks of R15. -/
def parseReadTable : List Byte → Option (TableSel × Nat × Nat)
  | [t, f, c] =>
    match [TableSel.segments, .profiles, .heads].find? (fun x => x.code == t) with
    | some sel =>
      if inRange 1 c.toNat sel.limits.2 && decide (f.toNat + c.toNat ≤ sel.limits.1) then
        some (sel, f.toNat, c.toNat)
      else none
    | none => none
  | _ => none

/-! ## Records as they cross a link -/

/-- The 12 bytes of a segment record. -/
def Segment.bytes (g : Segment) : List Byte :=
  [g.kind.code] ++ le2 g.target ++ [byteOf g.band] ++ le2 g.p ++ le2 g.q ++ le2 g.duration
    ++ le2 g.limit

/-- The 18 bytes of a profile record as written. -/
def Profile.bytes (r : Profile) : List Byte :=
  [byteOf r.headStart, byteOf r.headCount, byteOf r.tailStart, byteOf r.tailCount] ++ le2 r.flowTemp
    ++ le2 r.minAbove ++ le2 r.ceiling ++ le2 r.guardLimit ++ le2 r.releaseTemp ++ le2 r.coolLimit
    ++ le2 r.coolDwell

/-- The learned start frequency as it reads: 0 while its flag is clear (R18). -/
def HeadRec.learnedRead (r : HeadRec) : Nat := r.learned.getD 0

/-- The interlock bits byte (R203). -/
def Levels.byte (l : Levels) : Byte :=
  byteOf ((if l.clamp then 1 else 0) + (if l.purge then 2 else 0) + (if l.permit then 4 else 0))

/-- The notice kind and the six argument bytes (R207). -/
def NoticeBody.bytes : NoticeBody → Byte × List Byte
  | .jobHeating h ref head conv =>
    (1, h.bytes ++ le2 ref.toNat ++ [byteOf head.val, byteOf conv.val])
  | .jobEnded h ref o r => (2, h.bytes ++ le2 ref.toNat ++ [outcomeCode o, r.code])
  | .inputChanged l => (3, [l.byte, 0, 0, 0, 0, 0])
  | .leaseExpired st a => (4, [byteOf st.val, a.code, 0, 0, 0, 0])
  | .modeChanged m c => (5, [m.code, c.code, 0, 0, 0, 0])
  | .converterState c st f => (6, [byteOf c.val, st.code, f.code, 0, 0, 0])
  | .estop a m => (7, [boolByte a, m.code, 0, 0, 0, 0])

/-- The 11 bytes of a notice (R207). -/
def Notice.bytes (n : Notice) : List Byte := n.body.bytes.1 :: timeBytes n.time ++ n.body.bytes.2

/-- The fault position byte: run in bit 7, index in bits 0 to 6, 0xFF for none (R206). -/
def faultPosByte : Option (Run × Nat) → Byte
  | none => 0xFF
  | some (.head, i) => byteOf i
  | some (.tail, i) => byteOf (128 + i)

/-- The 38 bytes of a result record (R206). -/
def ResultRec.bytes (r : ResultRec) : List Byte :=
  r.handle.bytes ++ le2 r.ref.toNat
    ++ [byteOf r.head.val, byteOf r.profile.val, byteOf r.gang, outcomeCode r.outcome,
        faultPosByte r.faultPos, r.release.code]
    ++ timeBytes r.heatStart ++ timeBytes r.heatDuration ++ le2 r.peak ++ le4 r.above
    ++ le4 r.energy.toNat ++ le4 r.locked ++ le2 r.guardPeak ++ timeBytes r.cooled

end Sys2Proof.Machine
end

