-- ==== Sys2Proof/Machine/Flags.lean ====
section
/-! DEFINITION. The bit fields and flags: interlock bits, port flags, head flags, the presence field of a
job record (R203, R205), and the one place where a flag of each kind is read and set. -/

namespace Sys2Proof.Machine

/-- The level of one input among three. -/
def Levels.get (l : Levels) : Interlock → Bool
  | .clamp => l.clamp
  | .purge => l.purge
  | .permit => l.permit

/-- One of three bits set to a value. -/
def Levels.put (l : Levels) (i : Interlock) (v : Bool) : Levels :=
  match i with
  | .clamp => { l with clamp := v }
  | .purge => { l with purge := v }
  | .permit => { l with permit := v }

/-- CLAMP, PURGE and PERMIT are all high (R87). -/
def Levels.allHigh (l : Levels) : Bool := l.clamp && l.purge && l.permit

/-- The port flags byte (R203). -/
def PortSt.flagByte (p : PortSt) : Byte :=
  byteOf ((if p.framing then 1 else 0) + (if p.overrun then 2 else 0) + (if p.dropped then 4 else 0))

/-- The three port flags cleared (R169). -/
def PortSt.clearFlags (p : PortSt) : PortSt :=
  { p with framing := false, overrun := false, dropped := false }

/-- The ATTN output of a port (R173): high while its notice queue holds a notice. -/
def PortSt.attn (p : PortSt) : Bool := !p.notices.isEmpty

/-- The head flags byte (R203). -/
def HeadRec.flagByte (r : HeadRec) : Byte :=
  byteOf ((if r.learning then 1 else 0) + (if r.guardEnable then 2 else 0))

/-- The level of one power-stage input. -/
def PowerPins.get (p : PowerPins) : FaultCond → Bool
  | .overcurrent => p.overcurrent
  | .coolantLow => p.coolantLow
  | .linkLow => p.linkLow

/-- One power-stage input set to a level. -/
def PowerPins.put (p : PowerPins) (c : FaultCond) (v : Bool) : PowerPins :=
  match c with
  | .overcurrent => { p with overcurrent := v }
  | .coolantLow => { p with coolantLow := v }
  | .linkLow => { p with linkLow := v }

/-- The cause recorded for a condition (R27). -/
def faultCauseOf : FaultCond → FaultCause
  | .overcurrent => .overcurrent
  | .coolantLow => .coolant
  | .linkLow => .linkLow

/-- The test at the end of warm-up, in the order of R23: the cause to fault with, or none. -/
def PowerPins.firstFault (p : PowerPins) : Option FaultCause :=
  if p.overcurrent then some .overcurrent
  else if p.coolantLow then some .coolant
  else if p.linkLow then some .linkLow
  else none

/-- The predecessor handle of a trigger (R205). -/
def Trigger.pred : Trigger → Option Handle
  | .after h => some h
  | .immediate | .go _ | .index => none

/-- Bit `n` of a presence field. -/
def presentBit (n : Nat) (b : Bool) : Nat := if b then 2 ^ n else 0

/-- The presence field of a job record (R205). -/
def Job.presence (j : Job) : Byte :=
  byteOf (presentBit 0 j.gang.isSome + presentBit 1 j.converter.isSome + presentBit 2 j.outcome.isSome
    + presentBit 3 j.readyAt.isSome + presentBit 4 j.heatingAt.isSome + presentBit 5 j.heatEnd.isSome
    + presentBit 6 j.segEntry.isSome + presentBit 7 j.trigger.pred.isSome)

/-- An optional handle: two zero bytes when absent (R205). -/
def optHandleBytes : Option Handle → List Byte
  | none => [0, 0]
  | some h => h.bytes

/-- The 66 bytes of the job record of handle `h` (R205). -/
def Job.bytes (j : Job) (h : Handle) : List Byte :=
  h.bytes ++ [byteOf j.station.val] ++ le2 j.ref.toNat
    ++ [byteOf j.head.val, byteOf j.profile.val, j.trigger.code, j.trigger.arg]
    ++ optHandleBytes j.trigger.pred ++ [byteOf j.urgency.val] ++ le4 j.waitLimit
    ++ [j.state.code, j.presence] ++ optHandleBytes (j.gang.map (·.id))
    ++ [match j.gang with | some g => byteOf g.member.val | none => 0]
    ++ le2 j.reservation ++ [match j.converter with | some c => byteOf c.val | none => 0]
    ++ [j.run.code, byteOf j.index] ++ optTimeBytes j.segEntry
    ++ [byteOf j.noSig, byteOf j.guardNoSig] ++ timeBytes j.admittedAt ++ optTimeBytes j.readyAt
    ++ optTimeBytes j.heatingAt ++ optTimeBytes j.heatEnd ++ le2 j.peak ++ le4 j.above
    ++ le4 j.energy.toNat ++ le4 j.locked ++ le2 j.guardPeak ++ [outcomeCode j.outcome, j.release.code]

/-- The 25 bytes of a head record as read (R204). -/
def HeadRec.bytes (r : HeadRec) : List Byte :=
  [ownerCode r.owner] ++ le2 r.cap ++ le4 r.nominal ++ le4 r.fmin ++ le4 r.fmax ++ le2 r.step
    ++ [byteOf r.settle] ++ le2 r.seekPower ++ [r.flagByte] ++ le4 r.learnedRead

end Sys2Proof.Machine
end

