-- ==== Sys2Proof/Machine/Ops.lean ====
section
/-! DEFINITION. The named operations over the tables of State: one accessor and one update for each,
the job and handle lookups (R57, R60), the posting of notices (R171) and the test that a timer is due. -/

namespace Sys2Proof.Machine

/-! ## Index lists -/

/-- Job slots in ascending order. -/
def allSlots : List SlotIx := List.finRange 48
/-- Heads in ascending order. -/
def allHeads : List Head := List.finRange 16
/-- Converters in ascending order. -/
def allConvs : List Conv := List.finRange 6
/-- Stations in ascending order. -/
def allStations : List Station := List.finRange 4
/-- The five ports. -/
def allPorts : List Port := [.sp 0, .sp 1, .sp 2, .sp 3, .svp]

/-- The place of a port among the five. -/
def portIx : Port → Fin 5
  | .sp n => ⟨n.val, by omega⟩
  | .svp => 4

/-- The pool converter C4 or C5 (scope, "Heads, converters and channels"). -/
def poolConv (p : Pool) : Conv := ⟨p.val + 4, by omega⟩

/-- The pool number of a converter, none for a dedicated one. -/
def poolOf (c : Conv) : Option Pool := if h : 4 ≤ c.val then some ⟨c.val - 4, by omega⟩ else none

/-- The other pool converter. -/
def otherPool (p : Pool) : Pool := if p = 0 then 1 else 0

/-- The dedicated converter of a fixed head, none for a pooled head (R24). -/
def fixedConv (h : Head) : Option Conv := if h' : h.val < 4 then some ⟨h.val, by omega⟩ else none

/-! ## Accessors and updates -/

/-- The record of a converter. -/
def State.conv (s : State) (c : Conv) : Converter := s.convs[c]
/-- Writes the record of a converter. -/
def State.setConv (s : State) (c : Conv) (v : Converter) : State :=
  { s with convs := s.convs.set c.val v c.isLt }
/-- Changes the record of a converter. -/
def State.modConv (s : State) (c : Conv) (f : Converter → Converter) : State :=
  s.setConv c (f (s.conv c))

/-- The relay record of a pool converter. -/
def State.relay (s : State) (p : Pool) : Relay := s.relays[p]
/-- Writes the relay record of a pool converter. -/
def State.setRelay (s : State) (p : Pool) (v : Relay) : State :=
  { s with relays := s.relays.set p.val v p.isLt }
/-- Changes the relay record of a pool converter. -/
def State.modRelay (s : State) (p : Pool) (f : Relay → Relay) : State :=
  s.setRelay p (f (s.relay p))

/-- What a port holds. -/
def State.port (s : State) (p : Port) : PortSt := s.ports[portIx p]
/-- Writes what a port holds. -/
def State.setPort (s : State) (p : Port) (v : PortSt) : State :=
  { s with ports := s.ports.set (portIx p).val v (portIx p).isLt }
/-- Changes what a port holds. -/
def State.modPort (s : State) (p : Port) (f : PortSt → PortSt) : State :=
  s.setPort p (f (s.port p))

/-- What a station port holds besides. -/
def State.station (s : State) (n : Station) : StationSt := s.stations[n]
/-- Writes what a station port holds besides. -/
def State.setStation (s : State) (n : Station) (v : StationSt) : State :=
  { s with stations := s.stations.set n.val v n.isLt }
/-- Changes what a station port holds besides. -/
def State.modStation (s : State) (n : Station) (f : StationSt → StationSt) : State :=
  s.setStation n (f (s.station n))

/-- A head record. -/
def State.head (s : State) (h : Head) : HeadRec := s.heads[h]
/-- Writes a head record. -/
def State.setHead (s : State) (h : Head) (v : HeadRec) : State :=
  { s with heads := s.heads.set h.val v h.isLt }

/-- A profile record. -/
def State.prof (s : State) (p : Fin 64) : Profile := s.profs[p]
/-- Writes a profile record. -/
def State.setProf (s : State) (p : Fin 64) (v : Profile) : State :=
  { s with profs := s.profs.set p.val v p.isLt }

/-- The segment record at a table index; a run never reaches past 255 (R5). -/
def State.segAt (s : State) (i : Nat) : Segment := if h : i < 256 then s.segs[i] else .zero

/-- A job slot. -/
def State.slot (s : State) (k : SlotIx) : Slot := s.slots[k]
/-- Writes a job slot. -/
def State.setSlot (s : State) (k : SlotIx) (v : Slot) : State :=
  { s with slots := s.slots.set k.val v k.isLt }

/-- The job that occupies a slot. -/
def State.job (s : State) (k : SlotIx) : Option Job := (s.slot k).job
/-- Changes the job that occupies a slot; a free slot stays free. -/
def State.modJob (s : State) (k : SlotIx) (f : Job → Job) : State :=
  s.setSlot k { s.slot k with job := (s.job k).map f }

/-- The handle of the job in a slot (R57). -/
def State.handleOf (s : State) (k : SlotIx) : Handle := ⟨k, (s.slot k).gen⟩

/-- The job a handle names while it is current (R57). -/
def State.current (s : State) (h : Handle) : Option Job :=
  if (s.slot h.slot).gen = h.gen then s.job h.slot else none

/-- The slot of a converter's served job (R21). -/
def State.servedSlot (s : State) (c : Conv) : Option SlotIx :=
  match (s.conv c).served with
  | none => none
  | some h => if (s.current h).isSome then some h.slot else none

/-- The slots of the gang of the job in slot `k`, in member order; the slot alone for a single job. A
gang is the set of admitted jobs with one gang identity, and slots ascend with the member index (R66). -/
def State.membersOf (s : State) (k : SlotIx) : List SlotIx :=
  match (s.job k).bind (·.gang) with
  | none => [k]
  | some g => allSlots.filter fun m =>
      match (s.job m).bind (·.gang) with
      | some g' => g'.id == g.id
      | none => false

/-- Whether a job in slot `k` satisfies a test; a free slot does not. -/
def State.jobIs (s : State) (k : SlotIx) (f : Job → Bool) : Bool := (s.job k).any f

/-- Job states CONNECTING to HEATING: the job holds a reservation (R81). -/
def JobState.running : JobState → Bool
  | .connecting | .seeking | .aligning | .heating => true
  | .pending | .ready | .cooling => false

/-- Job states PENDING to HEATING. -/
def JobState.beforeCooling : JobState → Bool
  | .pending | .ready | .connecting | .seeking | .aligning | .heating => true
  | .cooling => false

/-- Job states that occupy a head (R60). -/
def JobState.occupies : JobState → Bool
  | .connecting | .seeking | .aligning | .heating | .cooling => true
  | .pending | .ready => false

/-- A head has an admitted job (R60). -/
def State.headAdmitted (s : State) (h : Head) : Bool :=
  allSlots.any fun k => s.jobIs k (fun j => j.head == h)

/-- The slot of the job that occupies a head (R60). -/
def State.occupant (s : State) (h : Head) : Option SlotIx :=
  allSlots.find? fun k => s.jobIs k (fun j => j.head == h && j.state.occupies)

/-- Sets the outcome of a job that has none; an outcome once set stays (R146). -/
def State.setOutcome (s : State) (k : SlotIx) (o : JobOutcome) : State :=
  s.modJob k fun j => if j.outcome.isNone then { j with outcome := some o } else j

/-! ## Notices, timers, causes of arbitration -/

/-- A notice joins the queue at the newest end, or is dropped when the queue is full (R171). -/
def PortSt.post (p : PortSt) (n : Notice) : PortSt :=
  if p.notices.length < Config.noticePlaces then { p with notices := p.notices ++ [n] }
  else { p with dropped := true }

/-- Posts a notice to a port with the line time of the event (R171). -/
def State.post (s : State) (p : Port) (b : NoticeBody) : State :=
  s.modPort p (·.post ⟨s.lineClock, b⟩)

/-- Posts a notice to all five ports (R192). -/
def State.postAll (s : State) (b : NoticeBody) : State := allPorts.foldl (fun s p => s.post p b) s

/-- A cause of arbitration is raised within the event in progress (R85, R86). -/
def State.raise (s : State) : State := { s with arbCause := true }

/-- A timer is armed and its expiry has come (assumption 2); a stopped timer does not expire (R96). -/
def State.due (s : State) : Option Nat → Bool
  | none => false
  | some e => decide (e ≤ s.now)

end Sys2Proof.Machine
end

