-- ==== Sys2Proof/Machine/Scanner.lean ====
section
/-! DEFINITION. The guard scanner: scan set, passes and conversions (R130 to R135). -/

namespace Sys2Proof.Machine

/-- A head joins an ascending list, at most once (R132). -/
def insertHead (h : Head) : List Head → List Head
  | [] => [h]
  | x :: xs => if h < x then h :: x :: xs else if h = x then x :: xs else x :: insertHead h xs

/-- A conversion starts with the head at the front of the pass list (R134). -/
def startConversion (s : State) : State :=
  match s.passList with
  | [] => s
  | h :: rest => { s with passList := rest, conversion := some (h, s.now + s.guardDwell) }

/-- A pass starts: the scan set is copied into the pass list and its first head is converted (R133). -/
def startPass (s : State) : State := startConversion { s with passList := s.scanSet }

/-- After a conversion is completed or abandoned: the next head of the pass, or the next pass, or
idleness when the scan set is empty (R133). -/
def scanNext (s : State) : State :=
  if s.passList.isEmpty then startPass s else startConversion s

/-- A head joins the scan set; a pass in progress is not changed (R132, R135). -/
def scanJoin (h : Head) (s : State) : State := { s with scanSet := insertHead h s.scanSet }

/-- A head leaves the scan set: it leaves the pass list too, and a conversion of it in progress is
abandoned, after which the next one starts at once (R135). When it was the last of the pass list and the conversion
of another head runs, the next pass starts when that conversion completes (assumption 29). -/
def scanLeave (h : Head) (s : State) : State :=
  let s := { s with scanSet := s.scanSet.filter (· != h), passList := s.passList.filter (· != h) }
  match s.conversion with
  | none => s
  | some (g, _) => if g = h then scanNext { s with conversion := none } else s

/-- At the completion of an event an idle scanner whose scan set is not empty starts a pass (R133). -/
def scanSettle (s : State) : State :=
  match s.conversion with
  | some _ => s
  | none => scanNext s

end Sys2Proof.Machine
end

