-- ==== Sys2Proof/Machine/Bank.lean ====
section
/-! DEFINITION. The converter bank and the connection matrix: state entries, resolution, discharge,
warm-up (R22 to R30) and relay plans and motions (R36 to R39). -/

namespace Sys2Proof.Machine

/-! ## The connection matrix -/

/-- The first motion of a plan, taken from where the relay stands; what is left stays planned (R36). -/
def Relay.startMotion (r : Relay) (now : Nat) : Relay :=
  match r.plan, r.pos with
  | .empty, _ => r
  | .open, .closed h =>
    { r with motion := .opening h (now + Config.relayOpenMs), plan := .empty, condTimer := none }
  | .open, .open => { r with plan := .empty, condTimer := none }
  | .close h, _ | .openThenClose h, .open =>
    { r with motion := .closing h (now + Config.relayCloseMs), plan := .empty, condTimer := none }
  | .openThenClose h, .closed g =>
    { r with motion := .opening g (now + Config.relayOpenMs), plan := .close h, condTimer := none }

/-- The matrix starts the first motion of a plan when the relay has no motion and the discharge
condition holds, and otherwise arms its timer for the time at which the condition becomes true; no motion
starts during a reset hold (R36). -/
def matrixTry (p : Pool) (s : State) : State :=
  if s.relayHold.isSome || (s.relay p).motion != .none || (s.relay p).plan == .empty
      || (s.conv (poolConv p)).outputOn then s
  else
    let ready := (s.conv (poolConv p)).lastOffAt + (s.conv (poolConv p)).interval
    if ready ≤ s.now then s.modRelay p (·.startMotion s.now)
    else s.modRelay p fun r => { r with condTimer := some ready }

/-- What a disconnect request sets (R37). A relay that is closing, which only a pin reset leaves behind
in such a converter, opens after the closing (assumption 11). -/
def Relay.disconnect (r : Relay) : Relay :=
  match r.motion, r.pos with
  | .opening _ _, _ => { r with plan := .empty, openingDue := true }
  | .closing _ _, _ => { r with plan := .open, openingDue := true }
  | .none, .closed _ => { r with plan := .open, openingDue := true }
  | .none, .open => { r with plan := .empty, condTimer := none }

/-- A disconnect request reaches the matrix from a pool converter; a dedicated one has no relay (R37). -/
def disconnect (c : Conv) (s : State) : State :=
  match poolOf c with
  | none => s
  | some p => matrixTry p (s.modRelay p Relay.disconnect)

/-- The plan that a connect request for head `h` sets on a relay at rest (R38). -/
def Relay.connectPlan (r : Relay) (h : Head) : RelayPlan :=
  match r.pos with
  | .open => .close h
  | .closed g => if g = h then .empty else .openThenClose h

/-- The relay of a pool converter is at rest: no motion and nothing planned; a dedicated converter has
none (R22, R38). -/
def relayAtRest (c : Conv) (s : State) : Bool :=
  match poolOf c with
  | none => true
  | some p => (s.relay p).motion == .none && (s.relay p).plan == .empty

/-! ## State entries of a converter -/

/-- The converter is enabled and the line mode is RUN or HOLD (R23, R25). -/
def wantsService (c : Conv) (s : State) : Bool := (s.conv c).enabled && s.mode != .standby

/-- Posts CONVERTER_STATE to the supervisor port (R30, R201). -/
def postConverterState (c : Conv) (s : State) : State :=
  s.post .svp (.converterState c (s.conv c).state (s.conv c).cause)

/-- Entry into WARMUP (R23). -/
def enterWarmup (c : Conv) (s : State) : State :=
  s.modConv c fun v => { v with state := .warmup, warmTimer := some (s.now + Config.warmupMs) }

/-- Entry into OFF; the relay is disconnected, and an enabled converter in RUN or HOLD goes on to WARMUP
at once (R23, R37). -/
def enterOff (c : Conv) (s : State) : State :=
  let s := disconnect c (s.modConv c fun v => { v with state := .off, pend := .none, warmTimer := none })
  if wantsService c s then enterWarmup c s else s

/-- Entry into HELD; the relay is disconnected (R37). -/
def enterHeld (c : Conv) (s : State) : State :=
  disconnect c (s.modConv c fun v => { v with state := .held, pend := .none })

/-- Entry into FAULTED: CONVERTER_STATE is posted and the relay is disconnected (R30, R37). -/
def enterFaulted (c : Conv) (s : State) : State :=
  disconnect c (postConverterState c
    (s.modConv c fun v => { v with state := .faulted, pend := .none, warmTimer := none }))

/-- Entry into IDLE: a cause of arbitration, with CONVERTER_STATE from WARMUP or HELD (R30). -/
def enterIdle (c : Conv) (s : State) : State :=
  let before := (s.conv c).state
  let s := s.modConv c fun v => { v with state := .idle, pend := .none }
  (if before = .warmup ∨ before = .held then postConverterState c s else s).raise

/-- A converter whose work ends is resolved by its pending target (R25). -/
def resolveConv (c : Conv) (s : State) : State :=
  match (s.conv c).pend with
  | .faulted => enterFaulted c s
  | .off => if wantsService c s then enterIdle c s else enterOff c s
  | .held => enterHeld c s
  | .none => enterIdle c s

/-- A pool converter's warm-up waits for the reset hold and for an opening in progress or planned (R23). -/
def warmupMayEnd (c : Conv) (s : State) : Bool :=
  match poolOf c with
  | none => true
  | some p => s.relayHold.isNone && !(s.relay p).openingDue

/-- The end of warm-up: the power-stage inputs are tested, then the converter is resolved (R23). -/
def endWarmup (c : Conv) (s : State) : State :=
  match (s.conv c).pins.firstFault with
  | some cause => enterFaulted c (s.modConv c fun v => { v with cause := cause })
  | none => resolveConv c s

/-- A warm-up whose 200 ms have run ends once the relay allows it (R23). -/
def warmupCheck (c : Conv) (s : State) : State :=
  if (s.conv c).state = .warmup ∧ (s.conv c).warmTimer = none ∧ warmupMayEnd c s then endWarmup c s
  else s

/-- The served job becomes none, and the job record's converter field with it (R58). -/
def clearServed (c : Conv) (s : State) : State :=
  let s' := match s.servedSlot c with
    | none => s
    | some k => s.modJob k fun j => { j with converter := none }
  s'.modConv c fun v => { v with served := none }

/-- The output is switched off, if it is on, and its line time is recorded (R22). -/
def Converter.switchOff (v : Converter) (clock : Time) (now : Nat) : Converter :=
  if v.outputOn then { v with outputOn := false, lastOff := clock, lastOffAt := now } else v

/-- A tuning unit stops (R52). -/
def Tuner.stop (t : Tuner) : Tuner := { t with phase := .stopped, settleTimer := none }

/-- A segment engine stops; the segment in effect is kept (R115, R125). -/
def Engine.stop (e : Engine) : Engine :=
  { e with phase := .stopped, timer := .stopped, base := 0, zeroHold := false }

/-- What DISCHARGE entry does to the converter, its tuning unit, engine and channel (R26, R52, R125). -/
def Converter.discharge (v : Converter) (clock : Time) (now : Nat) : Converter :=
  let v := v.switchOff clock now
  { v with
    state := .discharge, command := 0, dischTimer := some (now + v.interval), tun := v.tun.stop,
    eng := v.eng.stop, nextSample := none }

/-- Entry into DISCHARGE (R26). -/
def enterDischarge (c : Conv) (s : State) : State :=
  (clearServed c s).modConv c fun v => v.discharge s.lineClock s.now

/-- A connection without a served job is resolved when its relay has come to rest (R38). -/
def connectionCheck (c : Conv) (s : State) : State :=
  if (s.conv c).state = .connecting ∧ (s.conv c).served = none ∧ relayAtRest c s then resolveConv c s
  else s

/-- A connection is withdrawn: the served job becomes none, motions not started leave the plan, and a relay
at rest resolves the converter at once (R38). -/
def withdrawConnection (c : Conv) (s : State) : State :=
  let s := clearServed c s
  connectionCheck c (match poolOf c with
    | none => s
    | some p => s.modRelay p fun r => { r with plan := .empty, condTimer := none })

/-- The pending target becomes OFF unless it is FAULTED (R28, R31, R162). -/
def pendOff (c : Conv) (s : State) : State :=
  s.modConv c fun v => if v.pend = .faulted then v else { v with pend := .off }

/-- What STANDBY entry does to one converter by its state (R28). In CONNECTING the connection ends as R38
states: the job served there is reached, or freed, at the same event. -/
def standbyConv (c : Conv) (s : State) : State :=
  match (s.conv c).state with
  | .off | .faulted => s
  | .warmup | .discharge => pendOff c s
  | .idle | .held => enterOff c s
  | .connecting => if (s.conv c).served.isSome then withdrawConnection c (pendOff c s) else pendOff c s
  | .seeking | .aligned | .heating => enterDischarge c (pendOff c s)

/-- STANDBY entry: the bank acts on every converter (R28). The mode is already STANDBY. -/
def bankStandby (s : State) : State := allConvs.foldl (fun s c => standbyConv c s) s

/-- At the change from STANDBY to RUN or HOLD every enabled converter in OFF enters WARMUP (R29). -/
def bankStart (s : State) : State :=
  allConvs.foldl (fun s c => if (s.conv c).state = .off ∧ (s.conv c).enabled then enterWarmup c s else s) s

end Sys2Proof.Machine
end

