-- ==== Sys2Proof/Machine/JobTable.lean ====
section
/-! DEFINITION. The job table: profile tests and use counts (R5 to R11), admission (R64, R66), READY
entry and the candidate order (R67, R68, R83, R84), the result record (R145) and the end of a job with
the resolution of its successors (R73, R78). -/

namespace Sys2Proof.Machine

/-! ## Runs, peak power, the content check -/

/-- The segments of a profile in the order they are executed, each with its run (R5). -/
def Profile.runs (r : Profile) : List (Run × Nat) :=
  (List.range' r.headStart r.headCount).map (fun i => (Run.head, i))
    ++ (List.range' r.tailStart r.tailCount).map (fun i => (Run.tail, i))

/-- The peak power of a profile from the present segments (R6); a COAST record holds P = 0. -/
def State.peakPower (s : State) (r : Profile) : Nat :=
  r.runs.foldl (fun m x => max m (s.segAt x.2).p) 0

/-- A segment that a run must not hold under a ceiling (R8, R9). -/
def Segment.unfit (g : Segment) (ceiling : Nat) : Bool :=
  match g.kind with
  | .empty => true
  | .rise | .soak | .flow => decide (ceiling ≤ g.target)
  | .power | .coast => false

/-- The first segment that fails the content group, head run first (R8). -/
def State.contentFail (s : State) (r : Profile) : Option (Run × Nat) :=
  r.runs.find? fun x => (s.segAt x.2).unfit r.ceiling

/-- The admission test of the profile store (R9). -/
def State.admissible (s : State) (p : Fin 64) : Bool :=
  (s.prof p).valid && (s.contentFail (s.prof p)).isNone

/-- The reservation of a job on a head with a profile (R58). -/
def State.reservationOf (s : State) (h : Head) (p : Fin 64) : Nat :=
  max (s.peakPower (s.prof p)) (s.head h).seekPower

/-! ## Use counts -/

/-- Changes the use count of one segment. -/
def modSegUse (f : Nat → Nat) (i : Nat) (v : Vector Nat 256) : Vector Nat 256 :=
  if h : i < 256 then v.set i (f v[i]) else v

/-- Changes the use counts of a profile and of each segment of its runs, once for each run (R10, R11). -/
def State.modUse (s : State) (p : Fin 64) (f : Nat → Nat) : State :=
  { s with
    segUse := (s.prof p).runs.foldl (fun v x => modSegUse f x.2 v) s.segUse
    profUse := s.profUse.set p.val (f s.profUse[p]) p.isLt }

/-- Changes the count of admitted jobs of a station (R61). -/
def State.modAdmitted (s : State) (n : Station) (f : Nat → Nat) : State :=
  { s with admitted := s.admitted.set n.val (f s.admitted[n]) n.isLt }

/-- Results held by a station (R175). -/
def State.resultsHeld (s : State) (n : Station) : Nat := (s.station n).results.length

/-! ## Candidates -/

/-- The order of the candidate list (R84). -/
def Cand.before (a b : Cand) : Bool :=
  decide (a.urgency < b.urgency) || (a.urgency == b.urgency &&
    (decide (a.seq < b.seq) || (a.seq == b.seq &&
      (decide (a.head < b.head) || (a.head == b.head && decide (a.slot < b.slot))))))

/-- An entry joins the list at the place its keys give; the others keep their order (R84). -/
def insertCand (c : Cand) : List Cand → List Cand
  | [] => [c]
  | x :: xs => if c.before x then c :: x :: xs else x :: insertCand c xs

/-- An entry leaves the list (R83). -/
def State.dropCand (s : State) (k : SlotIx) : State :=
  { s with cands := s.cands.filter fun c => !c.members.contains k }

/-- The entry of a single job or of the PENDING members of a gang that enter READY now (R83, R96). -/
def State.newCand (s : State) (k : SlotIx) (unit : List SlotIx) (j : Job) : Cand :=
  { urgency := j.urgency, seq := s.arbSeq,
    head := unit.foldl (fun h m => match s.job m with
      | some i => if i.head < h then i.head else h
      | none => h) j.head,
    slot := k, members := unit,
    waitTimer := if j.waitLimit = 0 then none else some (s.now + j.waitLimit) }

/-- READY entry of one job record (R68). -/
def Job.ready (j : Job) (clock : Time) : Job := { j with state := .ready, readyAt := some clock }

/-- A single job, or a gang whole, enters READY at this event (R67, R68): a cause of arbitration. -/
def enterReady (unit : List SlotIx) (s : State) : State :=
  match unit with
  | [] => s
  | k :: _ =>
    match s.job k with
    | none => s
    | some j =>
      let c := s.newCand k unit j
      let s := unit.foldl (fun s m => s.modJob m (·.ready s.lineClock)) s
      { s with cands := insertCand c s.cands }.raise

/-- The members of a job's gang that are in PENDING; the job alone when it is single (R67). -/
def State.pendingUnit (s : State) (k : SlotIx) : List SlotIx :=
  (s.membersOf k).filter fun m => s.jobIs m (·.state == .pending)

/-- A trigger event fires for every PENDING job that satisfies the test (R67, R70, R71). -/
def fireTrigger (p : Job → Bool) (s : State) : State :=
  allSlots.foldl (fun s k =>
    if s.jobIs k (fun j => j.state == .pending && p j) then enterReady (s.pendingUnit k) s else s) s

/-! ## Admission -/

/-- The record of a job at admission (R58). -/
def State.newJob (s : State) (n : Station) (d : JobDesc) (g : Option GangTag) : Job :=
  { station := n, ref := d.ref, head := d.head, profile := d.profile, trigger := d.trigger,
    urgency := d.urgency, waitLimit := d.waitLimit, gang := g, state := .pending,
    reservation := s.reservationOf d.head d.profile, converter := none, run := .head, index := 0,
    segEntry := none, noSig := 0, guardNoSig := 0, admittedAt := s.lineClock, readyAt := none,
    heatingAt := none, heatEnd := none, peak := 0, above := 0, energy := 0, locked := 0,
    guardPeak := 0, outcome := none, release := .none, coolLimitTimer := none,
    coolDwellTimer := none }

/-- The free slots in ascending order (R56). -/
def State.freeSlots (s : State) : List SlotIx := allSlots.filter fun k => (s.job k).isNone

/-- A job takes a slot in PENDING; the counts rise (steps 1 to 4 of R64). -/
def admitAt (n : Station) (d : JobDesc) (g : Option GangTag) (k : SlotIx) (s : State) : State :=
  let j := s.newJob n d g
  ((s.setSlot k { s.slot k with job := some j }).modAdmitted n (· + 1)).modUse d.profile (· + 1)

/-! ## The end of a job -/

/-- The fault position of a result (R145). -/
def Job.faultPos (j : Job) : Option (Run × Nat) :=
  match j.heatingAt, j.outcome with
  | none, _ | _, some .ok | _, some .underwet => none
  | some _, _ => some (j.run, j.index)

/-- The result record of the job in slot `k` at its ENDED with release `r` (R145). -/
def State.resultOf (s : State) (k : SlotIx) (j : Job) (r : Release) : ResultRec :=
  { handle := s.handleOf k, ref := j.ref, head := j.head, profile := j.profile,
    gang := match j.gang with | none => 0 | some g => g.member.val + 1,
    outcome := j.outcome, faultPos := j.faultPos, release := r,
    heatStart := j.heatingAt.getD 0,
    heatDuration := match j.heatingAt, j.heatEnd with | some a, some b => b - a | _, _ => 0,
    peak := j.peak, above := j.above, energy := j.energy, locked := j.locked,
    guardPeak := j.guardPeak,
    cooled := match j.heatEnd with | some b => s.lineClock - b | none => 0 }

/-- Step 1 of R78: the result record joins the station's queue and the admitted count falls. -/
def writeResult (k : SlotIx) (j : Job) (r : Release) (s : State) : State :=
  (s.modStation j.station fun t => { t with results := t.results ++ [s.resultOf k j r] }).modAdmitted
    j.station (· - 1)

/-- Step 3 of R78: the slot is freed and its generation rises; a freed head leaves the scan set and a
READY job is withdrawn, both causes of arbitration (R56, R60, R83). -/
def freeSlot (k : SlotIx) (j : Job) (s : State) : State :=
  let s := s.setSlot k { gen := (s.slot k).gen + 1, job := none }
  match j.state with
  | .connecting | .cooling => (scanLeave j.head s).raise
  | .ready => (s.dropCand k).raise
  | .pending | .seeking | .aligning | .heating => s

/-- Steps 1 to 4 of R78, in their order. -/
def endSteps (k : SlotIx) (j : Job) (r : Release) (s : State) : State :=
  let h := s.handleOf k
  (freeSlot k j ((writeResult k j r s).modUse j.profile (· - 1))).post (.sp j.station)
    (.jobEnded h j.ref j.outcome r)

/-- The job in a slot waits in PENDING for the job of handle `h` (R72). -/
def State.awaits (s : State) (h : Handle) (k : SlotIx) : Bool :=
  s.jobIs k fun j => j.state == .pending && j.trigger == .after h

/-- A job reaches ENDED (R78). Step 5 resolves its successors in ascending slot order, a gang as a unit
at its first slot (R73; assumption 9): after OK they enter READY, otherwise each ends CHAIN_BROKEN unless
its outcome is set (R151), with its own R78 in full. `fuel` bounds the depth of a chain: every level frees
a slot, so 48 levels are enough. -/
def endJobFuel : Nat → SlotIx → Release → State → State
  | 0, _, _, s => s
  | fuel + 1, k, r, s =>
    match s.job k with
    | none => s
    | some j =>
      let h := s.handleOf k
      allSlots.foldl (fun s m =>
        if s.awaits h m then
          if j.outcome = some .ok then enterReady (s.pendingUnit m) s
          else
            let unit := s.pendingUnit m
            let s := unit.foldl (fun s u => s.setOutcome u .chainBroken) s
            unit.foldl (fun s u => endJobFuel fuel u .none s) s
        else s) (endSteps k j r s)

/-- A job reaches ENDED with the given release (R78). -/
def endJob (k : SlotIx) (r : Release) (s : State) : State := endJobFuel 48 k r s

end Sys2Proof.Machine
end

