-- ==== Sys2Proof/Machine/Aborts.lean ====
section
/-! DEFINITION. Cooling entry (R140), the abort path (R147 to R150), causes that reach many jobs (R151)
and the propagation of one job's failure to its gang (R159). -/

namespace Sys2Proof.Machine

/-- What COOLING entry writes in the job record (R140). A head without a guard arms the cool dwell. -/
def Job.cooling (j : Job) (p : Profile) (guarded : Bool) (clock : Time) (now : Nat) : Job :=
  { j with
    state := .cooling, heatEnd := some clock,
    coolLimitTimer := some (now + p.coolLimit * 1000),
    coolDwellTimer := if guarded then none else some (now + p.coolDwell) }

/-- Entry into COOLING; a cool dwell of 0 on a head without guard ends it at once (R140, R142). -/
def enterCooling (k : SlotIx) (s : State) : State :=
  match s.job k with
  | none => s
  | some j =>
    let p := s.prof j.profile
    let guarded := (s.head j.head).guardEnable
    let s := s.modJob k fun j => j.cooling p guarded s.lineClock s.now
    if !guarded && p.coolDwell == 0 then endJob k .timed s else s

/-- Committed power falls by a reservation, a cause of arbitration (R81, R85). -/
def State.releasePower (s : State) (n : Nat) : State :=
  { s with committed := s.committed - n }.raise

/-- The abort path of a job by the state it is in (R147 to R150). The converter is absent when it has
turned itself off at the same event (R27, R28). -/
def abortPath (k : SlotIx) (s : State) : State :=
  match s.job k with
  | none => s
  | some j =>
    match j.state with
    | .pending | .ready => endJob k .none s
    | .connecting =>
      let s := s.releasePower j.reservation
      endJob k .none (match j.converter with | some c => withdrawConnection c s | none => s)
    | .seeking | .aligning | .heating =>
      let s := s.releasePower j.reservation
      enterCooling k (match j.converter with | some c => enterDischarge c s | none => s)
    | .cooling => s

/-- The job in a slot is before COOLING and has no outcome: an abort cause can reach it (R146). -/
def State.reachable (s : State) (k : SlotIx) : Bool :=
  s.jobIs k fun j => j.outcome.isNone && j.state.beforeCooling

/-- Gives an outcome to a job that an abort cause can reach; any other job is left as it is (R146). -/
def giveOutcome (o : JobOutcome) (s : State) (k : SlotIx) : State :=
  if s.reachable k then s.setOutcome k o else s

/-- A cause that arises at one job: a failure of its own (R158) or its converter's fault (R154). The job
gets the cause and the other members of its gang without an outcome get GANG_ABORT (R159); then each takes
its abort path, the failing job first and the others in member order (assumption 10). -/
def failJob (o : JobOutcome) (k : SlotIx) (s : State) : State :=
  if s.reachable k then
    let others := (s.membersOf k).filter fun m => m != k && s.reachable m
    let s := others.foldl (giveOutcome .gangAbort) (s.setOutcome k o)
    others.foldl (fun s m => abortPath m s) (abortPath k s)
  else s

/-- The jobs that an outside cause reaches, in ascending slot order (R151). -/
def State.reached (s : State) (p : Job → Bool) : List SlotIx :=
  allSlots.filter fun k => s.reachable k && s.jobIs k p

/-- An outside cause reaches every job that satisfies the test, in the three passes of R151: outcomes,
gang propagation, abort paths in ascending slot order. A job that pass 3 finds ended, or without an
outcome, is passed by. -/
def reach (o : JobOutcome) (p : Job → Bool) (s : State) : State :=
  let hit := s.reached p
  let s := hit.foldl (giveOutcome o) s
  let s := hit.foldl (fun s k => (s.membersOf k).foldl (giveOutcome .gangAbort) s) s
  allSlots.foldl (fun s k =>
    if s.jobIs k (fun j => j.outcome.isSome && j.state.beforeCooling) then abortPath k s else s) s

end Sys2Proof.Machine
end

