-- ==== Sys2Proof/Machine/Heating.lean ====
section
/-! DEFINITION. Tuning units (R42 to R53), segment engines and pyrometer samples (R102 to R126) and guard
conversions (R131 to R141). -/

namespace Sys2Proof.Machine

/-! ## SEEKING entry -/

/-- The start frequency of a seek (R44). -/
def HeadRec.startFreq (r : HeadRec) : Nat := if r.learning then r.learned.getD r.nominal else r.nominal

/-- What SEEKING entry does to a converter and its units (R44, R102, R108, R115). -/
def Converter.seek (v : Converter) (r : HeadRec) (now : Nat) : Converter :=
  { v with
    state := .seeking, outputOn := true, command := r.seekPower, drive := r.startFreq,
    tun := ⟨.seek, 0, 0, some (now + r.settle)⟩, eng := ⟨.watch, none, .stopped, 0, false⟩,
    nextSample := some (now + 1) }

/-- The job in slot `k` and the converter that serves it enter SEEKING; a guard-enabled head joins the scan
set (R102). -/
def enterSeeking (c : Conv) (k : SlotIx) (s : State) : State :=
  match s.job k with
  | none => s
  | some j =>
    let r := s.head j.head
    let s := (s.modJob k fun j => { j with state := .seeking }).modConv c (·.seek r s.now)
    if r.guardEnable then scanJoin j.head s else s

/-! ## Segments -/

/-- The timer that a segment arms at its entry (R116). -/
def Segment.timer (g : Segment) (now : Nat) : SegTimer :=
  match g.kind with
  | .soak | .power | .coast => .duration (now + g.duration)
  | .rise | .flow => .limit (now + g.limit)
  | .empty => .stopped

/-- The initial command of a segment (R116, R117). -/
def Segment.initial (g : Segment) : Nat :=
  match g.kind with
  | .rise | .soak | .flow | .power => g.p
  | .coast | .empty => 0

/-- What a segment entry does to the converter: the copy, the base command, the timer, the output and the
tuning unit (R51, R116, R121); the zero hold stays in force (R114). -/
def Converter.enterSegment (v : Converter) (i : Nat) (g : Segment) (settle : Nat) (clock : Time)
    (now : Nat) : Converter :=
  let e : Engine := { v.eng with phase := .run, seg := some ⟨i, g⟩, timer := g.timer now, base := g.initial }
  if g.kind = .coast then
    let v := v.switchOff clock now
    { v with
      command := 0, eng := e,
      tun := if v.tun.phase = .track then { v.tun with phase := .suspended, settleTimer := none }
        else v.tun }
  else
    { v with
      outputOn := true, eng := e, command := if v.eng.zeroHold then 0 else g.initial,
      tun := if v.tun.phase = .suspended then { v.tun with phase := .track, settleTimer := some (now + settle) }
        else v.tun }

/-- First segment and number of segments of a run (R5). -/
def Profile.window (r : Profile) : Run → Nat × Nat
  | .head => (r.headStart, r.headCount)
  | .tail => (r.tailStart, r.tailCount)

/-- A segment entry for index `i` of a run (R116). -/
def enterSegment (c : Conv) (k : SlotIx) (run : Run) (i : Nat) (s : State) : State :=
  match s.job k with
  | none => s
  | some j =>
    let x := ((s.prof j.profile).window run).1 + i
    let s := s.modJob k fun j => { j with run := run, index := i, segEntry := some s.lineClock }
    s.modConv c (·.enterSegment x (s.segAt x) (s.head j.head).settle s.lineClock s.now)

/-- The learned start frequency is written after an OK heating with learning on (R53). -/
def learn (j : Job) (o : JobOutcome) (s : State) : State :=
  if o = .ok ∧ (s.head j.head).learning then
    s.setHead j.head { s.head j.head with learned := some j.locked }
  else s

/-- The outcome at the end of heating (R126). -/
def Job.heatOutcome (j : Job) (p : Profile) : JobOutcome := if p.minAbove ≤ j.above then .ok else .underwet

/-- The end of heating (R126). -/
def endHeating (c : Conv) (k : SlotIx) (s : State) : State :=
  match s.job k with
  | none => s
  | some j =>
    let o := j.heatOutcome (s.prof j.profile)
    enterCooling k (learn j o (enterDischarge c ((s.setOutcome k o).releasePower j.reservation)))

/-- A segment of a job in HEATING ends normally and the engine advances (R122). -/
def advance (c : Conv) (k : SlotIx) (s : State) : State :=
  match s.job k with
  | none => s
  | some j =>
    let r := s.prof j.profile
    if j.state ≠ .heating then s
    else if j.index + 1 < (r.window j.run).2 then enterSegment c k j.run (j.index + 1) s
    else if j.run = .head ∧ r.tailCount ≠ 0 then enterSegment c k .tail 0 s
    else endHeating c k s

/-! ## Lock and HEATING entry -/

/-- HEATING entry of one job on its converter, with JOB_HEATING (R103, R104, R106). -/
def enterHeating (s : State) (k : SlotIx) : State :=
  match s.job k with
  | none => s
  | some j =>
    match j.converter with
    | none => s
    | some c =>
      let s := s.modJob k fun j => { j with state := .heating, heatingAt := some s.lineClock }
      let s := s.modConv c fun v => { v with state := .heating }
      (enterSegment c k .head 0 s).post (.sp j.station) (.jobHeating (s.handleOf k) j.ref j.head c)

/-- The lock of the job in slot `k` on converter `c` (R49): a single job, and the last member of a gang to
lock, take HEATING entry for every member in member order (R103, R106); another member waits in
ALIGNING (R105). -/
def lock (c : Conv) (k : SlotIx) (s : State) : State :=
  let s := s.modJob k fun j => { j with locked := (s.conv c).drive }
  let members := s.membersOf k
  if members.all fun m => m == k || s.jobIs m (·.state == .aligning) then members.foldl enterHeating s
  else (s.modJob k fun j => { j with state := .aligning }).modConv c fun v => { v with state := .aligned }

/-! ## Settle expiry -/

/-- The drive frequency one step on in the direction of a report (R46). -/
def stepFreq (report : PhaseReport) (drive step : Nat) : Nat :=
  match report with
  | .below => drive + step
  | .above => drive - step
  | .centered => drive

/-- A tuning unit whose settle timer runs on with the settle time just read (R45). -/
def Tuner.rearm (t : Tuner) (settle now : Nat) : Tuner := { t with settleTimer := some (now + settle) }

/-- A settle expiry in SEEK (R47, R48). -/
def settleSeek (c : Conv) (k : SlotIx) (r : HeadRec) (report : PhaseReport) (s : State) : State :=
  let v := s.conv c
  let new := stepFreq report v.drive r.step
  match report with
  | .centered =>
    let t := { v.tun.rearm r.settle s.now with centred := v.tun.centred + 1 }
    if t.centred < Config.lockCount then s.setConv c { v with tun := t }
    else lock c k (s.setConv c { v with tun := { t with phase := .track } })
  | .below | .above =>
    if v.tun.stepCount < Config.seekStepLimit ∧ r.fmin ≤ new ∧ new ≤ r.fmax then
      s.setConv c { v with
        drive := new,
        tun := { v.tun.rearm r.settle s.now with stepCount := v.tun.stepCount + 1, centred := 0 } }
    else failJob .tuneFail k (s.setConv c { v with tun := { v.tun with settleTimer := none } })

/-- A settle expiry in TRACK (R50). -/
def settleTrack (c : Conv) (k : SlotIx) (r : HeadRec) (report : PhaseReport) (s : State) : State :=
  let v := s.conv c
  let inside := match report with
    | .centered => true
    | .below => decide (v.drive + r.step ≤ r.fmax)
    | .above => decide (r.fmin + r.step ≤ v.drive)
  if inside then
    s.setConv c { v with drive := stepFreq report v.drive r.step, tun := v.tun.rearm r.settle s.now }
  else failJob .tuneLost k (s.setConv c { v with tun := { v.tun with settleTimer := none } })

/-- The settle timer of a tuning unit expires with a phase report (R45). The unit is in SEEK only while its
converter is in SEEKING (R42), and a lock reaches a job in SEEKING (R59). -/
def settleExpiry (c : Conv) (report : PhaseReport) (s : State) : State :=
  if s.due (s.conv c).tun.settleTimer then
    match s.servedSlot c with
    | none => s
    | some k =>
      match s.job k with
      | none => s
      | some j =>
        if (s.conv c).tun.phase = .seek ∧ (s.conv c).state = .seeking ∧ j.state = .seeking then
          settleSeek c k (s.head j.head) report s
        else if (s.conv c).tun.phase = .track then settleTrack c k (s.head j.head) report s
        else s
  else s

/-! ## Pyrometer samples -/

/-- The sample falls within the pyrometer settle of a pool converter (R41, R109). -/
def sampleDiscarded (c : Conv) (s : State) : Bool :=
  match poolOf c with
  | none => false
  | some p =>
    match (s.relay p).lastClose with
    | none => false
    | some t => decide (s.now < t + Config.pyroSettleMs)

/-- Energy, peak temperature and time above flow of an accepted sample (R111, R112). -/
def Job.measure (j : Job) (command : Nat) (flowTemp : Nat) (reading : PyroReading) : Job :=
  let j := { j with energy := j.energy + BitVec.ofNat 32 command }
  match reading with
  | .temp t =>
    { j with peak := max j.peak t, above := if flowTemp ≤ t then j.above + 1 else j.above }
  | .under | .over | .noSignal => j

/-- A reading above the ceiling (R113). -/
def pyroExceeds (ceiling : Nat) : PyroReading → Bool
  | .temp t => decide (ceiling < t)
  | .over => true
  | .under | .noSignal => false

/-- The three-level rule (R117); none for a reading that does not evaluate it. -/
def Segment.level (g : Segment) : PyroReading → Option Nat
  | .temp t => some (if t + g.band < g.target then g.p else if t ≤ g.target + g.band then g.q else 0)
  | .under => some g.p
  | .over | .noSignal => none

/-- The sample ends the segment (R118, R120). -/
def Segment.endsAt (g : Segment) (reading : PyroReading) (flow : Bool) : Bool :=
  match g.kind with
  | .rise => match reading with | .temp t => decide (g.target ≤ t) | .under | .over | .noSignal => false
  | .flow => flow
  | .empty | .soak | .power | .coast => false

/-- The base command after a sample that does not end the segment (R117). -/
def Segment.baseAt (g : Segment) (base : Nat) (reading : PyroReading) : Nat :=
  match g.kind with
  | .soak | .flow => (g.level reading).getD base
  | .empty | .rise | .power | .coast => base

/-- The engine reports a failure of its job: it enters HALTED with its timer stopped and command 0 (R115),
and the job takes the abort path. -/
def engineFail (c : Conv) (k : SlotIx) (o : JobOutcome) (s : State) : State :=
  failJob o k (s.modConv c fun v =>
    { v with command := 0, eng := { v.eng with phase := .halted, timer := .stopped } })

/-- The command in force: 0 under a zero hold, otherwise the seek power in WATCH and the base command in
RUN (R114, R115). -/
def Converter.inForce (v : Converter) (seekPower : Nat) : Nat :=
  if v.eng.zeroHold then 0 else if v.eng.phase = .run then v.eng.base else seekPower

/-- Step 5 of R110: the segment's end test and the command for the next millisecond. -/
def segmentWork (c : Conv) (k : SlotIx) (reading : PyroReading) (flow : Bool) (s : State) : State :=
  match (s.conv c).eng.seg with
  | none => s
  | some e =>
    if e.seg.endsAt reading flow then advance c k s
    else s.modConv c fun v =>
      let v := { v with eng := { v.eng with base := e.seg.baseAt v.eng.base reading } }
      { v with command := v.inForce 0 }

/-- The no-signal check sets or clears the run count and the zero hold (R114). -/
def signalCheck (c : Conv) (k : SlotIx) (lost : Bool) (seekPower : Nat) (s : State) : State :=
  let s := s.modJob k fun j => { j with noSig := if lost then j.noSig + 1 else 0 }
  s.modConv c fun v =>
    let v := { v with eng := { v.eng with zeroHold := lost } }
    { v with command := v.inForce seekPower }

/-- The work at an accepted sample (R110). The energy rises by the command held over the millisecond that ended,
whatever other event of this millisecond came first (R111, R124). -/
def sampleWork (c : Conv) (k : SlotIx) (j : Job) (reading : PyroReading) (flow : Bool) (s : State) : State :=
  let p := s.prof j.profile
  let s := s.modJob k (·.measure (s.conv c).msCommand p.flowTemp reading)
  if pyroExceeds p.ceiling reading then engineFail c k .overheat s
  else if reading = .noSignal ∧ Config.noSignalLimit ≤ j.noSig + 1 then
    engineFail c k .sensorLost (s.modJob k fun j => { j with noSig := j.noSig + 1 })
  else
    let s := signalCheck c k (reading == .noSignal) (s.head j.head).seekPower s
    if (s.conv c).eng.phase = .run then segmentWork c k reading flow s else s

/-- A pyrometer sample with the level of the FLOW input (R108 to R110). -/
def pyroSample (c : Conv) (reading : PyroReading) (flow : Bool) (s : State) : State :=
  if s.due (s.conv c).nextSample then
    let s := s.modConv c fun v => { v with nextSample := some (s.now + 1) }
    if sampleDiscarded c s then s
    else
      match s.servedSlot c with
      | none => s
      | some k =>
        match s.job k with
        | none => s
        | some j =>
          match (s.conv c).eng.phase with
          | .watch | .run => sampleWork c k j reading flow s
          | .stopped | .halted => s
  else s

/-! ## Segment timers -/

/-- The expiry of a duration timer (R119, R121). -/
def durationExpiry (c : Conv) (s : State) : State :=
  match (s.conv c).eng.timer, s.servedSlot c with
  | .duration e, some k => if e ≤ s.now then advance c k s else s
  | _, _ => s

/-- The outcome that a segment reports at the expiry of its limit (R118, R120). -/
def Segment.timeout (g : Segment) : JobOutcome :=
  if g.kind = .flow then .flowTimeout else .segmentTimeout

/-- The expiry of a limit timer (R118, R120). -/
def limitExpiry (c : Conv) (s : State) : State :=
  match (s.conv c).eng.timer, s.servedSlot c, (s.conv c).eng.seg with
  | .limit e, some k, some g => if e ≤ s.now then engineFail c k g.seg.timeout s else s
  | _, _, _ => s

/-! ## Guard conversions -/

/-- The guard peak after a reading (R137, R138). -/
def Job.guardSeen (j : Job) (reading : GuardReading) : Job :=
  match reading with
  | .temp t => { j with guardPeak := max j.guardPeak t }
  | .over | .noSignal => j

/-- A guard reading above a limit (R137). -/
def guardExceeds (limit : Nat) : GuardReading → Bool
  | .temp t => decide (limit < t)
  | .over => true
  | .noSignal => false

/-- A guard reading at or below the release temperature (R138). -/
def guardReleases (temp : Nat) : GuardReading → Bool
  | .temp t => decide (t ≤ temp)
  | .over | .noSignal => false

/-- The work at a conversion for a job in SEEKING, ALIGNING or HEATING (R137). -/
def guardHot (k : SlotIx) (j : Job) (p : Profile) (reading : GuardReading) (s : State) : State :=
  let lost := reading == .noSignal
  let s := s.modJob k fun j =>
    { j.guardSeen reading with guardNoSig := if lost then j.guardNoSig + 1 else 0 }
  if lost ∧ Config.guardNoSignalLimit ≤ j.guardNoSig + 1 then failJob .sensorLost k s
  else if guardExceeds p.guardLimit reading then failJob .guardOver k s
  else s

/-- The work at a conversion for a job in COOLING (R138, R141). -/
def guardCool (k : SlotIx) (p : Profile) (reading : GuardReading) (s : State) : State :=
  let s := s.modJob k (·.guardSeen reading)
  if guardReleases p.releaseTemp reading then endJob k .guard s else s

/-- A conversion completes: its reading is worked for the job on the head, then the next conversion of the
pass starts (R134). -/
def guardComplete (reading : GuardReading) (s : State) : State :=
  match s.conversion with
  | none => s
  | some (h, done) =>
    if s.now < done then s
    else
      let s := { s with conversion := none }
      scanNext <|
        match s.occupant h with
        | none => s
        | some k =>
          match s.job k with
          | none => s
          | some j =>
            match j.state with
            | .seeking | .aligning | .heating => guardHot k j (s.prof j.profile) reading s
            | .cooling => guardCool k (s.prof j.profile) reading s
            | .pending | .ready | .connecting => s

end Sys2Proof.Machine
end

