-- ==== Sys2Proof/Machine/Arbiter.lean ====
section
/-! DEFINITION. The grant arbiter: eligibility (R87 to R89, R94), the pool converter choice (R92), grants
(R91, R95) and the walk (R90); and the completion of an event (R86, R133). -/

namespace Sys2Proof.Machine

/-! ## Eligibility -/

/-- The line and station conditions of R87. -/
def State.stationServes (s : State) (n : Station) : Bool :=
  s.mode == .run && !s.estop && (s.station n).live.allHigh && !(s.station n).lease.hold

/-- A converter is in IDLE with no pending target (R88, R89). -/
def State.convFree (s : State) (c : Conv) : Bool :=
  (s.conv c).state == .idle && (s.conv c).pend == .none

/-- A relay is closed to a head, opening from it or closing to it (R40). -/
def Relay.touches (r : Relay) (h : Head) : Bool :=
  r.pos == .closed h ||
    match r.motion with
    | .none => false
    | .opening g _ | .closing g _ => g == h

/-- A pool converter is available for a pooled head (R89); `taken` were given to earlier members. -/
def State.poolAvailable (s : State) (h : Head) (taken : List Conv) (p : Pool) : Bool :=
  s.convFree (poolConv p) && !taken.contains (poolConv p) && !(s.relay (otherPool p)).touches h

/-- The relay of a pool converter is closed to the head of a later member (R92). -/
def State.keptFor (s : State) (later : List Head) (p : Pool) : Bool :=
  match (s.relay p).pos with
  | .open => false
  | .closed g => later.contains g

/-- Of the pool converters that satisfy a test, the one whose last output-off is earliest; C4 on a tie
(step 3 of R92). -/
def State.earliestOff (s : State) (ok : Pool → Bool) : Option Pool :=
  if ok 0 && (!ok 1 || decide ((s.conv (poolConv 0)).lastOffAt ≤ (s.conv (poolConv 1)).lastOffAt)) then
    some 0
  else if ok 1 then some 1
  else none

/-- The pool converter choice for one head (R92). -/
def State.choosePool (s : State) (h : Head) (taken : List Conv) (later : List Head) : Option Pool :=
  let avail := s.poolAvailable h taken
  let free := fun p => avail p && !s.keptFor later p
  (([0, 1] : List Pool).find? fun p => avail p && (s.relay p).pos == .closed h).orElse fun _ =>
    (([0, 1] : List Pool).find? fun p => free p && (s.relay p).pos == .open).orElse fun _ =>
      s.earliestOff free

/-- A converter for each member, the members taken in ascending head order (R88, R92, R94); none when the
choice fails for one of them. -/
def State.assign (s : State) : List (Head × SlotIx) → List Conv → Option (List (SlotIx × Conv))
  | [], _ => some []
  | (h, k) :: rest, taken =>
    let choice := match fixedConv h with
      | some c => if s.convFree c && !taken.contains c then some c else none
      | none => (s.choosePool h taken (rest.map (·.1))).map poolConv
    match choice with
    | none => none
    | some c => (s.assign rest (c :: taken)).map ((k, c) :: ·)

/-- A pair of head and slot joins a list in ascending head order. -/
def insertByHead (x : Head × SlotIx) : List (Head × SlotIx) → List (Head × SlotIx)
  | [] => [x]
  | y :: ys => if x.1 < y.1 then x :: y :: ys else y :: insertByHead x ys

/-- The members of an entry with their heads, in ascending head order (R92, R95). -/
def State.byHead (s : State) (c : Cand) : List (Head × SlotIx) :=
  c.members.foldl (fun l k => match s.job k with
    | some j => insertByHead (j.head, k) l
    | none => l) []

/-- The converters that an eligible candidate would be given, in ascending head order; none when it is not
eligible (R87 to R89, R94). -/
def State.eligible (s : State) (c : Cand) : Option (List (SlotIx × Conv)) :=
  if (c.members.all fun k => s.jobIs k fun j =>
      j.state == .ready && s.stationServes j.station && (s.occupant j.head).isNone) then
    s.assign (s.byHead c) []
  else none

/-- The reservation of a candidate: the sum over its members (R90). -/
def State.candReservation (s : State) (c : Cand) : Nat :=
  (c.members.map fun k => match s.job k with | some j => j.reservation | none => 0).sum

/-! ## Grants -/

/-- A pool relay takes a connect request: it is closed to the head already, and the converter enters
SEEKING at once, or its plan is set and the converter waits in CONNECTING (R24, R38). -/
def connect (p : Pool) (h : Head) (k : SlotIx) (s : State) : State :=
  let c := poolConv p
  if (s.relay p).pos = .closed h then enterSeeking c k s
  else
    let s := s.modJob k fun j => { j with state := .connecting }
    let s := s.modConv c fun v => { v with state := .connecting }
    matrixTry p (s.modRelay p fun r => { r with plan := r.connectPlan h })

/-- The grant of one job on its converter: steps 1, 2 and 4 of R91, with the drive frequency of R43. The
job is in READY on a head that no job occupies (R59, R88), and the converter takes the grant only in IDLE
(R24). -/
def grantMember (s : State) (x : SlotIx × Conv) : State :=
  match s.job x.1 with
  | none => s
  | some j =>
    if j.state ≠ .ready ∨ !s.convFree x.2 ∨ (s.occupant j.head).isSome then s else
    let s := { s with committed := s.committed + j.reservation }
    let s := s.modConv x.2 fun v =>
      { v with served := some (s.handleOf x.1), drive := (s.head j.head).nominal }
    let s := s.modJob x.1 fun j => { j with converter := some x.2 }
    match poolOf x.2 with
    | none => enterSeeking x.2 x.1 s
    | some p => connect p j.head x.1 s

/-- The grant of a candidate: the entry leaves the list with its wait timer, and every member is granted in
ascending head order (R91, R95). -/
def grant (c : Cand) (given : List (SlotIx × Conv)) (s : State) : State :=
  given.foldl grantMember (s.dropCand c.slot)

/-- The walk of R90 over the entries that are left. -/
def walk : List Cand → State → State
  | [], s => s
  | c :: cs, s =>
    match s.eligible c with
    | none => walk cs s
    | some given =>
      if s.committed + s.candReservation c ≤ s.budget then walk cs (grant c given s) else s

/-- One arbitration: the causes gathered are spent and the list is walked (R85, R86, R90). -/
def arbitrate (s : State) : State :=
  let s := { s with arbCause := false, arbSeq := s.arbSeq + 1 }
  walk s.cands s

/-- The completion of an event: one arbitration for the causes it raised (R86), and a pass for an idle
scanner whose scan set is not empty (R133). -/
def finish (s : State) : State := scanSettle (if s.arbCause then arbitrate s else s)

end Sys2Proof.Machine
end

