-- ==== Sys2Proof/Machine/Resets.lean ====
section
/-! DEFINITION. Line modes and emergency stop (R190 to R194), the three resets (R188, R197, R198), the
line clock (R199) and leases (R180 to R183). -/

namespace Sys2Proof.Machine

/-! ## Line mode and emergency stop -/

/-- The mode becomes STANDBY and the converter bank acts (R28, R190). -/
def standby (s : State) : State := bankStandby { s with mode := .standby }

/-- Jobs in CONNECTING, SEEKING, ALIGNING and HEATING (R152, R156). -/
def Job.isRunning (j : Job) : Bool := j.state.running

/-- A SET-MODE that names another mode (R191). MODE_CHANGED precedes the JOB_ENDED notices (R192). -/
def changeMode (m : Mode) (s : State) : State :=
  let before := s.mode
  match m with
  | .standby => reach .lineAbort Job.isRunning ((standby s).postAll (.modeChanged .standby .setMode))
  | .run | .hold =>
    let s := { s with mode := m }
    let s := if before = .standby then bankStart s else s
    let s := s.postAll (.modeChanged m .setMode)
    if m = .run then s.raise else s

/-- An ESTOP assertion (R193). -/
def estopAssert (s : State) : State :=
  let before := s.mode
  let s := standby { s with estop := true }
  let s := s.post .svp (.estop true before)
  let s := if before = .standby then s else s.postAll (.modeChanged .standby .estop)
  reach .estop (fun _ => true) s

/-- An ESTOP release (R194). -/
def estopRelease (s : State) : State :=
  { s with estop := false }.post .svp (.estop false s.mode)

/-! ## Leases -/

/-- A lease restarted with its period: LIVE with an armed timer, or OFF for period 0; a hold is cleared
(R180, R183). -/
def Lease.restart (l : Lease) (now : Nat) : Lease :=
  if l.period = 0 then { l with state := .off, hold := false, timer := none }
  else { l with state := .live, hold := false, timer := some (now + l.period) }

/-- Changes the lease of a station; clearing a set hold is a cause of arbitration (R85, R182, R183). -/
def modLease (n : Station) (f : Lease → Lease) (s : State) : State :=
  let before := (s.station n).lease
  let s := s.modStation n fun t => { t with lease := f t.lease }
  if before.hold && !(f before).hold then s.raise else s

/-- An accepted request renews the lease of its station; in OFF it does nothing (R180, R182). -/
def renewLease (n : Station) (s : State) : State :=
  modLease n (fun l => if l.state = .off then l else l.restart s.now) s

/-- A lease that has run out (R181). -/
def Lease.lapse (l : Lease) : Lease :=
  { l with state := .lapsed, timer := none, hold := l.action == .hold }

/-- A lease timer expires (R153, R181). -/
def leaseExpire (n : Station) (s : State) : State :=
  let l := (s.station n).lease
  let s := s.modStation n fun t => { t with lease := l.lapse }
  let s := (s.post (.sp n) (.leaseExpired n l.action)).post .svp (.leaseExpired n l.action)
  match l.action with
  | .abort => reach .leaseLost (fun j => j.station == n) s
  | .hold => s

/-! ## Interlocks -/

/-- A change of a live level (R177, R178): the port's work first, then the abort of a fall or the cause of
arbitration of a rise. -/
def interlock (n : Station) (i : Interlock) (level : Bool) (s : State) : State :=
  let t := s.station n
  let live := t.live.put i level
  let s := s.setStation n { t with live := live, marks := t.marks.put i true }
  let s := if t.marks.get i then s else s.post (.sp n) (.inputChanged live)
  if level then (if live.allHigh then s.raise else s)
  else reach .interlock (fun j => j.station == n && j.isRunning) s

/-! ## The line clock -/

/-- A millisecond ends: the command that the converter held over it is kept for the sample that ends it (R111). -/
def Converter.tick (v : Converter) : Converter := { v with msCommand := v.command }

/-- One millisecond passes: the line clock rises and wraps (R199). -/
def tick (s : State) : State :=
  { s with now := s.now + 1, lineClock := s.lineClock + 1, convs := s.convs.map Converter.tick }

/-! ## Resets -/

/-- Power-on (R197): every item at its power-on value. The inputs keep their levels, the time goes on and
the commands that wait stay. -/
def powerOnState (s : State) : State :=
  { State.reset with
    estop := s.estop, now := s.now, arbSeq := s.arbSeq, pending := s.pending,
    convs := Vector.ofFn fun c => Converter.reset s.now (s.conv c).pins,
    stations := Vector.ofFn fun n => StationSt.reset (s.station n).live }

/-- A relay at a pin reset: plan emptied, a motion in progress goes on; a relay that is closed or in motion
counts as having an opening planned (R36). -/
def Relay.pinReset (r : Relay) : Relay :=
  { r with
    plan := .empty, condTimer := none,
    openingDue := !(r.pos == .open && r.motion == .none) }

/-- Pin reset (R197): as power-on but for the reset record and the relays, which are held for 500 ms. -/
def pinResetState (s : State) : State :=
  { powerOnState s with
    resetKind := .pin, relays := s.relays.map Relay.pinReset,
    relayHold := some (s.now + Config.relayHoldMs) }

/-- A slot at a LINE-RESET: an occupied slot is freed and its generation rises (R56). -/
def Slot.lineReset (t : Slot) : Slot :=
  if t.job.isSome then { gen := t.gen + 1, job := none } else t

/-- A port at a LINE-RESET (R188): the request being answered keeps its place until its reply is complete,
every other request held is discarded; the queue is emptied and the flags cleared. -/
def PortSt.lineReset (p : PortSt) (answering : Bool) : PortSt :=
  { p with
    holding := if answering then p.holding.take 1 else [], notices := [], framing := false,
    overrun := false, dropped := false }

/-- A station's own items at a LINE-RESET (R180, R188). -/
def StationSt.lineReset (t : StationSt) (now : Nat) : StationSt :=
  { results := [], live := t.live, reported := t.live, marks := .low, lease := t.lease.restart now }

/-- The ports at a LINE-RESET: on SVP the LINE-RESET itself is being answered (R188). -/
def portsLineReset (s : State) : State :=
  allPorts.foldl (fun s p => s.modPort p fun t => t.lineReset (p == .svp || t.reply.isSome)) s

/-- LINE-RESET (R198), in the order of its list. No arbitration follows. -/
def lineResetState (s : State) : State :=
  let s := standby s
  let s := { s with
    slots := s.slots.map Slot.lineReset, segUse := Vector.replicate 256 0,
    profUse := Vector.replicate 64 0, admitted := Vector.replicate 4 0, cands := [], committed := 0,
    scanSet := [], passList := [], conversion := none }
  let s := portsLineReset s
  let s := { s with
    stations := s.stations.map (StationSt.lineReset · s.now), resetKind := .lineReset, resetTime := s.lineClock }
  { s.postAll (.modeChanged .standby .lineReset) with arbCause := false }

end Sys2Proof.Machine
end

