-- ==== Sys2Proof/Machine/StationRequests.lean ====
section
/-! DEFINITION. The requests of a station port and the two of every port: checks in their order, effect and
reply (chapters 4 and 9). Each answers the state after the request and the reply code with what follows
it. -/

namespace Sys2Proof.Machine

/-- A reply code with the bytes that follow it (R168, R204). -/
structure Answer where
  code : ReplyCode
  data : List Byte
deriving DecidableEq, Repr

/-- A refusal: no state changes, and two detail bytes follow the code (R168, R204). -/
def refuse (code : ReplyCode) (d0 d1 : Byte) (s : State) : State × Answer := (s, ⟨code, [d0, d1]⟩)

/-- An accepted request with its reply payload. -/
def accept (data : List Byte) (s : State) : State × Answer := (s, ⟨.accepted, data⟩)

/-- The port check of a station request (R170). -/
def onStation (p : Port) (s : State) (f : Station → State × Answer) : State × Answer :=
  match p with
  | .sp n => f n
  | .svp => refuse .wrongPort 0 0 s

/-- The port check of a supervisor request (R170). -/
def onSupervisor (p : Port) (s : State) (r : State × Answer) : State × Answer :=
  match p with
  | .sp _ => refuse .wrongPort 0 0 s
  | .svp => r

/-- The field check of a request: what its payload reads as, or BAD_FIELD (R168, R203). -/
def withField {α : Type} (x : Option α) (s : State) (f : α → State × Answer) : State × Answer :=
  match x with
  | none => refuse .badField 0 0 s
  | some a => f a

/-- The payload of a request that takes no fields. -/
def parseEmpty : List Byte → Option Unit
  | [] => some ()
  | _ :: _ => none

/-! ## SUBMIT and SUBMIT-GANG -/

/-- The UNKNOWN_JOB check of an admission: an AFTER handle must be current and name a job of the same
station (R63, R65). -/
def State.predecessorOk (s : State) (n : Station) (t : Trigger) : Bool :=
  match t with
  | .after h => (s.current h).any fun j => j.station == n
  | .immediate | .go _ | .index => true

/-- The station has room for `m` more jobs (R61, R63, R65). -/
def State.hasQuota (s : State) (n : Station) (m : Nat) : Bool :=
  decide (s.admitted[n] + m ≤ Config.stationJobLimit)
    && decide (s.admitted[n] + s.resultsHeld n + m ≤ Config.resultPlaces)

/-- The BAD_PROFILE check of one job (R63, R65). -/
def State.profileOk (s : State) (d : JobDesc) : Bool :=
  s.admissible d.profile && decide (s.reservationOf d.head d.profile ≤ (s.head d.head).cap)

/-- The reply to an admission for one job: handle and reservation (R64, R66). -/
def State.admitReply (s : State) (k : SlotIx) : List Byte :=
  (s.handleOf k).bytes ++ match s.job k with | some j => le2 j.reservation | none => []

/-- SUBMIT (R62 to R64, R69). -/
def reqSubmit (p : Port) (b : List Byte) (s : State) : State × Answer :=
  onStation p s fun n => withField (parseSubmit b) s fun d =>
    if (s.head d.head).owner ≠ some n then refuse .badHead 0 0 s
    else if !s.profileOk d then refuse .badProfile 0 0 s
    else if !s.predecessorOk n d.trigger then refuse .unknownJob 0 0 s
    else if !s.hasQuota n 1 then refuse .stationFull 0 0 s
    else
      match s.freeSlots with
      | [] => refuse .noSlot 0 0 s
      | k :: _ =>
        let s := admitAt n d none k s
        accept (s.admitReply k) (if d.trigger = .immediate then enterReady [k] s else s)

/-- The first member, in member order, that fails the BAD_HEAD check of a gang (R65): a head not owned, or
one that an earlier member names. -/
def State.gangBadHead (s : State) (n : Station) (ds : List JobDesc) : Option Nat :=
  (List.range ds.length).find? fun i =>
    match ds[i]? with
    | none => false
    | some d => (s.head d.head).owner != some n || (ds.take i).any fun e => e.head == d.head

/-- The members of a gang take their slots; member `i` takes the `i`-th lowest free one (R66). -/
def admitMembers (n : Station) (id : Handle) : Nat → List (JobDesc × SlotIx) → State → State
  | _, [], s => s
  | i, (d, k) :: rest, s =>
    admitMembers n id (i + 1) rest (admitAt n d (some ⟨id, Fin.ofNat 4 i⟩) k s)

/-- SUBMIT-GANG (R65, R66, R69). -/
def reqSubmitGang (p : Port) (b : List Byte) (s : State) : State × Answer :=
  onStation p s fun n =>
    match parseGang b with
    | .error i => refuse .badField (byteOf i) 0 s
    | .ok ds =>
      match s.gangBadHead n ds with
      | some i => refuse .badHead (byteOf i) 0 s
      | none =>
        match ds.findIdx? (fun d => !s.profileOk d) with
        | some i => refuse .badProfile (byteOf i) 0 s
        | none =>
          if !ds.all (fun d => s.predecessorOk n d.trigger) then refuse .unknownJob 0 0 s
          else if !s.hasQuota n ds.length then refuse .stationFull 0 0 s
          else
            match s.freeSlots.take ds.length with
            | [] => refuse .noSlot 0 0 s
            | k :: ks =>
              if ks.length + 1 < ds.length then refuse .noSlot 0 0 s
              else
                let s := admitMembers n (s.handleOf k) 0 (ds.zip (k :: ks)) s
                accept (byteOf ds.length :: (k :: ks).flatMap s.admitReply)
                  (if ds.any (fun d => d.trigger == .immediate) then enterReady (k :: ks) s else s)

/-! ## GO, CANCEL, READ-JOB -/

/-- The payload of GO: a batch tag (R70). -/
def parseTag : List Byte → Option Byte
  | [t] => some t
  | _ => none

/-- A job that GO with a tag of a station moves (R70). -/
def Job.goes (j : Job) (n : Station) (tag : Byte) : Bool :=
  j.state == .pending && j.station == n && j.trigger == .go tag

/-- GO (R70). -/
def reqGo (p : Port) (b : List Byte) (s : State) : State × Answer :=
  onStation p s fun n => withField (parseTag b) s fun tag =>
    accept [byteOf ((allSlots.filter fun k => s.jobIs k (·.goes n tag)).length)]
      (fireTrigger (·.goes n tag) s)

/-- The jobs a CANCEL acts on, in member order (R75, R76): every member before COOLING with no outcome,
and the named one when it is in COOLING. -/
def State.cancelled (s : State) (k : SlotIx) : List SlotIx :=
  (s.membersOf k).filter fun m => s.reachable m || (m == k && s.jobIs m (·.state == .cooling))

/-- CANCEL acts on a job and its gang (R75, R76, R144): the outcomes first, then the cut of the named member and the
abort paths of the others, in one pass in member order (assumption 30). -/
def cancelJobs (k : SlotIx) (s : State) : State :=
  let hit := s.cancelled k
  let s := hit.foldl (giveOutcome .cancelled) s
  hit.foldl (fun s m =>
    if s.jobIs m (·.state == .cooling) then endJob m .cut s else abortPath m s) s

/-- CANCEL (R74). -/
def reqCancel (p : Port) (b : List Byte) (s : State) : State × Answer :=
  onStation p s fun n => withField (parseHandle b) s fun h =>
    match s.current h with
    | none => refuse .unknownJob 0 0 s
    | some j =>
      if j.station ≠ n then refuse .unknownJob 0 0 s
      else accept [j.state.code, byteOf (s.cancelled h.slot).length] (cancelJobs h.slot s)

/-- A port may read a job: the supervisor any, a station its own (R77). -/
def mayRead (p : Port) (j : Job) : Bool :=
  match p with
  | .sp n => j.station == n
  | .svp => true

/-- READ-JOB (R77, R205). -/
def reqReadJob (p : Port) (b : List Byte) (s : State) : State × Answer :=
  withField (parseHandle b) s fun h =>
    match s.current h with
    | none => refuse .unknownJob 0 0 s
    | some j => if mayRead p j then accept (j.bytes h) s else refuse .unknownJob 0 0 s

/-! ## Notices, results, inputs, lease, status -/

/-- TAKE-NOTICES (R174). -/
def reqTakeNotices (p : Port) (b : List Byte) (s : State) : State × Answer :=
  withField (parseCount 1 8 b) s fun n =>
    let q := (s.port p).notices
    accept (byteOf (q.take n).length :: byteOf (q.drop n).length :: (q.take n).flatMap Notice.bytes)
      (s.modPort p fun t => { t with notices := q.drop n })

/-- TAKE-RESULTS (R176). -/
def reqTakeResults (p : Port) (b : List Byte) (s : State) : State × Answer :=
  onStation p s fun st => withField (parseCount 1 4 b) s fun n =>
    let q := (s.station st).results
    accept (byteOf (q.take n).length :: byteOf (q.drop n).length :: (q.take n).flatMap ResultRec.bytes)
      (s.modStation st fun t => { t with results := q.drop n })

/-- READ-INPUTS (R179). -/
def reqReadInputs (p : Port) (b : List Byte) (s : State) : State × Answer :=
  onStation p s fun n => withField (parseEmpty b) s fun _ =>
    accept [(s.station n).live.byte, (s.station n).marks.byte]
      (s.modStation n fun t => { t with reported := t.live, marks := .low })

/-- RENEW (R184); the renewal is that of every accepted request (R180). -/
def reqRenew (p : Port) (b : List Byte) (s : State) : State × Answer :=
  onStation p s fun n => withField (parseEmpty b) s fun _ =>
    accept [(s.station n).lease.state.code] s

/-- The 21 bytes of STATION-STATUS (R185, R204). -/
def State.stationStatus (s : State) (n : Station) : List Byte :=
  let t := s.station n
  [byteOf s.admitted[n], byteOf t.results.length, byteOf (s.port (.sp n)).notices.length, t.live.byte,
    t.reported.byte, t.marks.byte, t.lease.state.code] ++ le2 t.lease.period
    ++ [t.lease.action.code, boolByte t.lease.hold, (s.port (.sp n)).flagByte, s.mode.code]
    ++ le2 s.budget ++ le2 s.committed ++ timeBytes s.lineClock

/-- STATION-STATUS (R185). -/
def reqStationStatus (p : Port) (b : List Byte) (s : State) : State × Answer :=
  onStation p s fun n => withField (parseEmpty b) s fun _ =>
    accept (s.stationStatus n) (s.modPort p PortSt.clearFlags)

end Sys2Proof.Machine
end

