-- ==== Sys2Proof/Machine/SupervisorRequests.lean ====
section
/-! DEFINITION. The requests of the supervisor port: checks in their order, effect and reply (chapters 1, 2,
3, 5, 7, 9 and 10). -/

namespace Sys2Proof.Machine

/-! ## Line -/

/-- The payload of SET-MODE (R191). -/
def parseMode : List Byte → Option Mode
  | [m] => Mode.ofByte m
  | _ => none

/-- SET-MODE (R191). -/
def reqSetMode (p : Port) (b : List Byte) (s : State) : State × Answer :=
  onSupervisor p s <| withField (parseMode b) s fun m =>
    if m ≠ .standby ∧ s.estop then refuse .wrongMode 0 0 s
    else accept [s.mode.code, m.code] (if m = s.mode then s else changeMode m s)

/-- SET-BUDGET (R82). -/
def reqSetBudget (p : Port) (b : List Byte) (s : State) : State × Answer :=
  onSupervisor p s <| withField (parseBudget b) s fun n =>
    accept (le2 n ++ le2 s.committed) { s with budget := n }.raise

/-- ABORT-STATION (R196, R157). -/
def reqAbortStation (p : Port) (b : List Byte) (s : State) : State × Answer :=
  onSupervisor p s <| withField (parseIndex 4 b) s fun n =>
    accept [byteOf (s.reached (fun j => j.station == n)).length]
      (reach .lineAbort (fun j => j.station == n) s)

/-- LINE-RESET (R198). -/
def reqLineReset (p : Port) (b : List Byte) (s : State) : State × Answer :=
  onSupervisor p s <| withField (parseEmpty b) s fun _ => accept [] (lineResetState s)

/-- The 18 bytes of a converter in LINE-STATUS (R200, R204). -/
def Converter.status (v : Converter) : List Byte :=
  [v.state.code, boolByte v.enabled, v.pend.code, v.cause.code] ++ le2 v.interval ++ timeBytes v.lastOff
    ++ le2 v.command ++ le4 v.drive ++ [v.tun.phase.code, byteOf v.tun.stepCount]

/-- The 4 bytes of a relay in LINE-STATUS (R200, R204). -/
def Relay.status (r : Relay) : List Byte :=
  [r.pos.code, r.motion.code, r.motion.headCode, boolByte r.openingDue]

/-- The 5 bytes of a station in LINE-STATUS (R200, R204). -/
def State.stationLine (s : State) (n : Station) : List Byte :=
  let t := s.station n
  [byteOf s.admitted[n], byteOf t.results.length, t.lease.state.code, boolByte t.lease.hold, t.live.byte]

/-- The 155 bytes of LINE-STATUS (R200, R204). -/
def State.lineStatus (s : State) : List Byte :=
  [s.mode.code, boolByte s.estop] ++ le2 s.budget ++ le2 s.committed
    ++ allConvs.flatMap (fun c => (s.conv c).status) ++ (s.relay 0).status ++ (s.relay 1).status
    ++ allStations.flatMap s.stationLine
    ++ [byteOf s.scanSet.length, byteOf s.guardDwell, s.resetKind.code]
    ++ timeBytes s.resetTime ++ timeBytes s.lineClock
    ++ [byteOf (s.port .svp).notices.length, (s.port .svp).flagByte]

/-- LINE-STATUS (R200). -/
def reqLineStatus (p : Port) (b : List Byte) (s : State) : State × Answer :=
  onSupervisor p s <| withField (parseEmpty b) s fun _ =>
    accept s.lineStatus (s.modPort .svp PortSt.clearFlags)

/-! ## Profile store and head table -/

/-- WRITE-SEGMENTS replaces consecutive records (R12). -/
def writeSegs : Nat → List Segment → Vector Segment 256 → Vector Segment 256
  | _, [], v => v
  | i, g :: rest, v => writeSegs (i + 1) rest (if h : i < 256 then v.set i g else v)

/-- The use count of a segment (R10). -/
def State.segUseAt (s : State) (i : Nat) : Nat := if h : i < 256 then s.segUse[i] else 0

/-- WRITE-SEGMENTS once its payload is split (R12): first index, count and records. -/
def writeSegments (first count : Nat) (recs : List (Option Segment)) (s : State) : State × Answer :=
  if 256 < first + count then refuse .badField (byteOf first) 0 s
  else
    match recs.findIdx? (·.isNone) with
    | some i => refuse .badField (byteOf (first + i)) 0 s
    | none =>
      match (List.range' first count).find? fun i => decide (0 < s.segUseAt i) with
      | some i => refuse .inUse (byteOf i) 0 s
      | none => accept [] { s with segs := writeSegs first (recs.filterMap id) s.segs }

/-- WRITE-SEGMENTS (R12). The count is read and checked first (R204); for a payload whose length does not
match, the detail byte is not stated: it is the free value (assumption 8). -/
def reqWriteSegments (p : Port) (b : List Byte) (s : State) : State × Answer :=
  onSupervisor p s <|
    match b with
    | f :: c :: rest =>
      if !inRange 1 c.toNat 16 then refuse .badField f 0 s
      else if rest.length ≠ 12 * c.toNat then refuse .badField (Config.segmentsLengthDetail b) 0 s
      else writeSegments f.toNat c.toNat (parseSegments rest) s
    | [] | [_] => refuse .badField (Config.segmentsLengthDetail b) 0 s

/-- WRITE-PROFILE (R8, R13). -/
def reqWriteProfile (p : Port) (b : List Byte) (s : State) : State × Answer :=
  onSupervisor p s <| withField (parseWriteProfile b) s fun x =>
    if 0 < s.profUse[x.1] then refuse .inUse 0 0 s
    else
      match s.contentFail x.2 with
      | some (run, i) => refuse .badProfile run.code (byteOf i) s
      | none => accept (le2 (s.peakPower x.2)) (s.setProf x.1 x.2)

/-- CLEAR-PROFILE (R14). -/
def reqClearProfile (p : Port) (b : List Byte) (s : State) : State × Answer :=
  onSupervisor p s <| withField (parseIndex 64 b) s fun i =>
    if 0 < s.profUse[i] then refuse .inUse 0 0 s
    else accept [] (s.setProf i { s.prof i with valid := false })

/-- The learned start frequency after a WRITE-HEAD: kept when it is valid and inside the new window
(R20). -/
def keepLearned (old : Option Nat) (new : HeadRec) : Option Nat :=
  old.filter fun f => decide (new.fmin ≤ f) && decide (f ≤ new.fmax)

/-- WRITE-HEAD (R20). -/
def reqWriteHead (p : Port) (b : List Byte) (s : State) : State × Answer :=
  onSupervisor p s <| withField (parseWriteHead b) s fun x =>
    if s.headAdmitted x.1 then refuse .inUse 0 0 s
    else accept [] (s.setHead x.1 { x.2 with learned := keepLearned (s.head x.1).learned x.2 })

/-- FORGET-LEARNED (R54). -/
def reqForgetLearned (p : Port) (b : List Byte) (s : State) : State × Answer :=
  onSupervisor p s <| withField (parseIndex 16 b) s fun h =>
    accept [] (s.setHead h { s.head h with learned := none })

/-- The peak power that READ-TABLE reports: 0 while the valid flag is clear (R6). -/
def State.peakRead (s : State) (r : Profile) : Nat := if r.valid then s.peakPower r else 0

/-- One entry of READ-TABLE (R15, R204); an index past the table has none. -/
def State.entry (s : State) (sel : TableSel) (i : Nat) : List Byte :=
  match sel with
  | .segments => (s.segAt i).bytes ++ [byteOf (s.segUseAt i)]
  | .profiles =>
    if h : i < 64 then
      (s.profs[i]).bytes ++ le2 (s.peakRead s.profs[i]) ++ [boolByte s.profs[i].valid, byteOf s.profUse[i]]
    else []
  | .heads => if h : i < 16 then (s.heads[i]).bytes else []

/-- READ-TABLE (R15). -/
def reqReadTable (p : Port) (b : List Byte) (s : State) : State × Answer :=
  onSupervisor p s <| withField (parseReadTable b) s fun x =>
    accept ([x.1.code, byteOf x.2.1, byteOf x.2.2]
      ++ (List.range' x.2.1 x.2.2).flatMap (s.entry x.1)) s

/-! ## Converters -/

/-- The effect of clearing the enabled flag, by state (R31). -/
def disableConv (c : Conv) (s : State) : State :=
  match (s.conv c).state with
  | .idle | .held => enterOff c s
  | .warmup | .connecting | .seeking | .aligned | .heating | .discharge => pendOff c s
  | .off | .faulted => s

/-- CONVERTER-ENABLE with a value the flag does not hold yet (R31). -/
def setEnabled (c : Conv) (on : Bool) (s : State) : State :=
  let s := s.modConv c fun v => { v with enabled := on }
  if on then (if (s.conv c).state = .off ∧ wantsService c s then enterWarmup c s else s)
  else disableConv c s

/-- CONVERTER-ENABLE (R31). -/
def reqConverterEnable (p : Port) (b : List Byte) (s : State) : State × Answer :=
  onSupervisor p s <| withField (parseEnable b) s fun x =>
    accept [] (if (s.conv x.1).enabled = x.2 then s else setEnabled x.1 x.2 s)

/-- CONVERTER-HOLD is refused WRONG_STATE (R32). -/
def Converter.cannotHold (v : Converter) : Bool :=
  v.state == .off || v.state == .faulted || v.state == .held || v.pend == .off || v.pend == .faulted

/-- CONVERTER-HOLD (R32). -/
def reqConverterHold (p : Port) (b : List Byte) (s : State) : State × Answer :=
  onSupervisor p s <| withField (parseIndex 6 b) s fun c =>
    if (s.conv c).cannotHold then refuse .wrongState 0 0 s
    else accept [] (if (s.conv c).state = .idle then enterHeld c s
      else s.modConv c fun v => { v with pend := .held })

/-- The relay of a pool converter has an opening in progress or planned (R33, R37). -/
def State.openingDue (s : State) (c : Conv) : Bool :=
  match poolOf c with
  | none => false
  | some p => (s.relay p).openingDue

/-- CONVERTER-RELEASE (R33). -/
def reqConverterRelease (p : Port) (b : List Byte) (s : State) : State × Answer :=
  onSupervisor p s <| withField (parseIndex 6 b) s fun c =>
    if (s.conv c).state = .held then
      if s.openingDue c then refuse .wrongState 0 0 s else accept [] (enterIdle c s)
    else if (s.conv c).pend = .held then accept [] (s.modConv c fun v => { v with pend := .none })
    else refuse .wrongState 0 0 s

/-- CONVERTER-CLEAR (R34). -/
def reqConverterClear (p : Port) (b : List Byte) (s : State) : State × Answer :=
  onSupervisor p s <| withField (parseIndex 6 b) s fun c =>
    if (s.conv c).state ≠ .faulted then refuse .wrongState 0 0 s
    else if (s.conv c).pins.overcurrent || (s.conv c).pins.coolantLow then refuse .causePresent 0 0 s
    else accept [] (enterOff c (s.modConv c fun v => { v with cause := .none }))

/-- SET-DISCHARGE (R35); a plan that waits is looked at again under the new interval (R36). -/
def reqSetDischarge (p : Port) (b : List Byte) (s : State) : State × Answer :=
  onSupervisor p s <| withField (parseSetDischarge b) s fun x =>
    let s := s.modConv x.1 fun v => { v with interval := x.2 }
    accept [] (match poolOf x.1 with | none => s | some q => matrixTry q s)

/-! ## Leases and guard dwell -/

/-- SET-LEASE (R183). -/
def reqSetLease (p : Port) (b : List Byte) (s : State) : State × Answer :=
  onSupervisor p s <| withField (parseSetLease b) s fun x =>
    accept [] (modLease x.1
      (fun l => { l with period := x.2.1, action := x.2.2 : Lease }.restart s.now) s)

/-- SET-GUARD-DWELL (R136). -/
def reqSetGuardDwell (p : Port) (b : List Byte) (s : State) : State × Answer :=
  onSupervisor p s <| withField (parseCount 2 50 b) s fun n => accept [] { s with guardDwell := n }

end Sys2Proof.Machine
end

