-- ==== Sys2Proof/Machine/Ports.lean ====
section
/-! DEFINITION. The ports: carrying out a request (R168), the receive holding and the reply (R167), and the
receiver (R165, R166). -/

namespace Sys2Proof.Machine

/-! ## Carrying out a request -/

/-- The block that owns a request carries it out; a kind byte that is not in the table is answered
BAD_FIELD and changes no state (R168). -/
def carryOut (p : Port) (kind : Byte) (b : List Byte) (s : State) : State × Answer :=
  match ReqKind.ofByte kind with
  | none => refuse .badField 0 0 s
  | some .submit => reqSubmit p b s
  | some .submitGang => reqSubmitGang p b s
  | some .go => reqGo p b s
  | some .cancel => reqCancel p b s
  | some .readJob => reqReadJob p b s
  | some .takeNotices => reqTakeNotices p b s
  | some .takeResults => reqTakeResults p b s
  | some .readInputs => reqReadInputs p b s
  | some .renew => reqRenew p b s
  | some .stationStatus => reqStationStatus p b s
  | some .setMode => reqSetMode p b s
  | some .setBudget => reqSetBudget p b s
  | some .writeSegments => reqWriteSegments p b s
  | some .writeProfile => reqWriteProfile p b s
  | some .clearProfile => reqClearProfile p b s
  | some .writeHead => reqWriteHead p b s
  | some .forgetLearned => reqForgetLearned p b s
  | some .readTable => reqReadTable p b s
  | some .converterEnable => reqConverterEnable p b s
  | some .converterHold => reqConverterHold p b s
  | some .converterRelease => reqConverterRelease p b s
  | some .converterClear => reqConverterClear p b s
  | some .setDischarge => reqSetDischarge p b s
  | some .setLease => reqSetLease p b s
  | some .setGuardDwell => reqSetGuardDwell p b s
  | some .abortStation => reqAbortStation p b s
  | some .lineReset => reqLineReset p b s
  | some .lineStatus => reqLineStatus p b s

/-- An accepted request carried by a station's port renews that station's lease (R180). -/
def renewAt (p : Port) (s : State) : State :=
  match p with
  | .sp n => renewLease n s
  | .svp => s

/-- A request is taken: carried out, its lease renewed when it is accepted, and its reply built, whose
transmission begins (R168). -/
def take (p : Port) (r : Request) (s : State) : State :=
  let x := carryOut p r.kind r.payload s
  let s := if x.2.code = .accepted then renewAt p x.1 else x.1
  s.modPort p fun t => { t with reply := some ⟨r.kind, x.2.code, x.2.data⟩ }

/-- The request at the front of a holding is taken (R167). -/
def takeFront (p : Port) (s : State) : State :=
  match (s.port p).holding with
  | [] => s
  | r :: _ => take p r s

/-- A well-formed frame is complete at a port (R167): it takes a place, and is taken at once when the
holding was empty; with both places taken it is discarded and OVERRUN is set. -/
def requestArrives (p : Port) (kind : Byte) (payload : List Byte) (s : State) : State :=
  match (s.port p).holding with
  | [] => takeFront p (s.modPort p fun t => { t with holding := [⟨kind, payload⟩] })
  | l =>
    if l.length < Config.holdingPlaces then
      s.modPort p fun t => { t with holding := l ++ [⟨kind, payload⟩] }
    else s.modPort p fun t => { t with overrun := true }

/-- The last byte of a reply has been sent (R167): its request leaves its place and the next one held is
taken. -/
def replyDone (p : Port) (s : State) : State :=
  match (s.port p).reply with
  | none => s
  | some _ =>
    takeFront p (s.modPort p fun t => { t with reply := none, holding := t.holding.tail })

/-- The bytes of a reply frame on the line (R202). -/
def Reply.frame (r : Reply) : List Byte := frameBytes r.kind (r.code.code :: r.data)

/-! ## The receiver -/

/-- A byte or a frame is discarded: FRAMING is set and the receiver hunts (R165, R166). -/
def discard (p : Port) (s : State) : State :=
  s.modPort p fun t => { t with rx := .hunting, framing := true }

/-- The second CRC byte has arrived: `len` is the length byte, `bs` the bytes after it (R165). -/
def frameComplete (p : Port) (len : Nat) (bs : List Byte) (s : State) : State :=
  match bs with
  | [] => discard p s
  | kind :: rest =>
    let payload := rest.take (len - 1)
    if rest.drop (len - 1) = le2 (crc16 (byteOf len :: kind :: payload)).toNat then
      requestArrives p kind payload (s.modPort p fun t => { t with rx := .hunting })
    else discard p s

/-- The receiver takes one byte (R165). -/
def rxByte (p : Port) (b : Byte) (s : State) : State :=
  match (s.port p).rx with
  | .hunting =>
    if b = 0xC3 then s.modPort p fun t => { t with rx := .synced, lastByteAt := s.now }
    else discard p s
  | .synced =>
    if inRange 1 b.toNat 251 then
      s.modPort p fun t => { t with rx := .receiving b.toNat [], lastByteAt := s.now }
    else discard p s
  | .receiving len bs =>
    if bs.length + 1 < len + 2 then
      s.modPort p fun t => { t with rx := .receiving len (bs ++ [b]), lastByteAt := s.now }
    else frameComplete p len (bs ++ [b]) s

/-- The receiver of a port waits for the second CRC byte of a frame. -/
def awaitsLast (p : Port) (s : State) : Bool :=
  match (s.port p).rx with
  | .receiving len bs => bs.length + 1 == len + 2
  | .hunting | .synced => false

/-- More than 1 ms has passed since the last byte of a frame in reception (R166). -/
def gapPassed (p : Port) (s : State) : Bool :=
  match (s.port p).rx with
  | .hunting => false
  | .synced | .receiving _ _ => decide ((s.port p).lastByteAt < s.now)

end Sys2Proof.Machine
end

