-- ==== Sys2Proof/Machine/RequestCommands.lean ====
section
/-! DEFINITION. The meanings of the request commands. A request command is the completion of a well-formed
frame of its kind at a port (R167; assumption 7): it is held, taken or discarded by `requestArrives`, and the
request itself, its checks, effect and reply, is the definition `req...` of its name. -/

namespace Sys2Proof.Machine

/-- The outcome of an event: the machine goes on from the state after it, its causes of arbitration
gathered (R86). -/
def done (s : State) : Host.Outcome State Fault Refusal := .next (finish s)

/-- SUBMIT (R64): a frame of its kind is complete at a port. -/
def execSubmit (p : Port) (b : List Byte) (s : State) : Host.Outcome State Fault Refusal :=
  done (requestArrives p ReqKind.submit.code b s)

/-- SUBMIT-GANG (R66): a frame of its kind is complete at a port. -/
def execSubmitGang (p : Port) (b : List Byte) (s : State) : Host.Outcome State Fault Refusal :=
  done (requestArrives p ReqKind.submitGang.code b s)

/-- GO (R70): a frame of its kind is complete at a port. -/
def execGo (p : Port) (b : List Byte) (s : State) : Host.Outcome State Fault Refusal :=
  done (requestArrives p ReqKind.go.code b s)

/-- CANCEL (R74): a frame of its kind is complete at a port. -/
def execCancel (p : Port) (b : List Byte) (s : State) : Host.Outcome State Fault Refusal :=
  done (requestArrives p ReqKind.cancel.code b s)

/-- READ-JOB (R77): a frame of its kind is complete at a port. -/
def execReadJob (p : Port) (b : List Byte) (s : State) : Host.Outcome State Fault Refusal :=
  done (requestArrives p ReqKind.readJob.code b s)

/-- TAKE-NOTICES (R174): a frame of its kind is complete at a port. -/
def execTakeNotices (p : Port) (b : List Byte) (s : State) : Host.Outcome State Fault Refusal :=
  done (requestArrives p ReqKind.takeNotices.code b s)

/-- TAKE-RESULTS (R176): a frame of its kind is complete at a port. -/
def execTakeResults (p : Port) (b : List Byte) (s : State) : Host.Outcome State Fault Refusal :=
  done (requestArrives p ReqKind.takeResults.code b s)

/-- READ-INPUTS (R179): a frame of its kind is complete at a port. -/
def execReadInputs (p : Port) (b : List Byte) (s : State) : Host.Outcome State Fault Refusal :=
  done (requestArrives p ReqKind.readInputs.code b s)

/-- RENEW (R184): a frame of its kind is complete at a port. -/
def execRenew (p : Port) (b : List Byte) (s : State) : Host.Outcome State Fault Refusal :=
  done (requestArrives p ReqKind.renew.code b s)

/-- STATION-STATUS (R185): a frame of its kind is complete at a port. -/
def execStationStatus (p : Port) (b : List Byte) (s : State) : Host.Outcome State Fault Refusal :=
  done (requestArrives p ReqKind.stationStatus.code b s)

/-- SET-MODE (R191): a frame of its kind is complete at a port. -/
def execSetMode (p : Port) (b : List Byte) (s : State) : Host.Outcome State Fault Refusal :=
  done (requestArrives p ReqKind.setMode.code b s)

/-- SET-BUDGET (R82): a frame of its kind is complete at a port. -/
def execSetBudget (p : Port) (b : List Byte) (s : State) : Host.Outcome State Fault Refusal :=
  done (requestArrives p ReqKind.setBudget.code b s)

/-- WRITE-SEGMENTS (R12): a frame of its kind is complete at a port. -/
def execWriteSegments (p : Port) (b : List Byte) (s : State) : Host.Outcome State Fault Refusal :=
  done (requestArrives p ReqKind.writeSegments.code b s)

/-- WRITE-PROFILE (R13): a frame of its kind is complete at a port. -/
def execWriteProfile (p : Port) (b : List Byte) (s : State) : Host.Outcome State Fault Refusal :=
  done (requestArrives p ReqKind.writeProfile.code b s)

/-- CLEAR-PROFILE (R14): a frame of its kind is complete at a port. -/
def execClearProfile (p : Port) (b : List Byte) (s : State) : Host.Outcome State Fault Refusal :=
  done (requestArrives p ReqKind.clearProfile.code b s)

/-- WRITE-HEAD (R20): a frame of its kind is complete at a port. -/
def execWriteHead (p : Port) (b : List Byte) (s : State) : Host.Outcome State Fault Refusal :=
  done (requestArrives p ReqKind.writeHead.code b s)

/-- FORGET-LEARNED (R54): a frame of its kind is complete at a port. -/
def execForgetLearned (p : Port) (b : List Byte) (s : State) : Host.Outcome State Fault Refusal :=
  done (requestArrives p ReqKind.forgetLearned.code b s)

/-- READ-TABLE (R15): a frame of its kind is complete at a port. -/
def execReadTable (p : Port) (b : List Byte) (s : State) : Host.Outcome State Fault Refusal :=
  done (requestArrives p ReqKind.readTable.code b s)

/-- CONVERTER-ENABLE (R31): a frame of its kind is complete at a port. -/
def execConverterEnable (p : Port) (b : List Byte) (s : State) : Host.Outcome State Fault Refusal :=
  done (requestArrives p ReqKind.converterEnable.code b s)

/-- CONVERTER-HOLD (R32): a frame of its kind is complete at a port. -/
def execConverterHold (p : Port) (b : List Byte) (s : State) : Host.Outcome State Fault Refusal :=
  done (requestArrives p ReqKind.converterHold.code b s)

/-- CONVERTER-RELEASE (R33): a frame of its kind is complete at a port. -/
def execConverterRelease (p : Port) (b : List Byte) (s : State) : Host.Outcome State Fault Refusal :=
  done (requestArrives p ReqKind.converterRelease.code b s)

/-- CONVERTER-CLEAR (R34): a frame of its kind is complete at a port. -/
def execConverterClear (p : Port) (b : List Byte) (s : State) : Host.Outcome State Fault Refusal :=
  done (requestArrives p ReqKind.converterClear.code b s)

/-- SET-DISCHARGE (R35): a frame of its kind is complete at a port. -/
def execSetDischarge (p : Port) (b : List Byte) (s : State) : Host.Outcome State Fault Refusal :=
  done (requestArrives p ReqKind.setDischarge.code b s)

/-- SET-LEASE (R183): a frame of its kind is complete at a port. -/
def execSetLease (p : Port) (b : List Byte) (s : State) : Host.Outcome State Fault Refusal :=
  done (requestArrives p ReqKind.setLease.code b s)

/-- SET-GUARD-DWELL (R136): a frame of its kind is complete at a port. -/
def execSetGuardDwell (p : Port) (b : List Byte) (s : State) : Host.Outcome State Fault Refusal :=
  done (requestArrives p ReqKind.setGuardDwell.code b s)

/-- ABORT-STATION (R196): a frame of its kind is complete at a port. -/
def execAbortStation (p : Port) (b : List Byte) (s : State) : Host.Outcome State Fault Refusal :=
  done (requestArrives p ReqKind.abortStation.code b s)

/-- LINE-RESET (R198): a frame of its kind is complete at a port. -/
def execLineReset (p : Port) (b : List Byte) (s : State) : Host.Outcome State Fault Refusal :=
  done (requestArrives p ReqKind.lineReset.code b s)

/-- LINE-STATUS (R200): a frame of its kind is complete at a port. -/
def execLineStatus (p : Port) (b : List Byte) (s : State) : Host.Outcome State Fault Refusal :=
  done (requestArrives p ReqKind.lineStatus.code b s)

/-- A frame of a kind that the manual does not name is complete at a port (R168). -/
def execUnknownRequestKind (p : Port) (kind : Byte) (b : List Byte) (s : State) :
    Host.Outcome State Fault Refusal :=
  done (requestArrives p kind b s)

end Sys2Proof.Machine
end

