-- ==== Sys2Proof/Machine/LinkCommands.lean ====
section
/-! DEFINITION. The meanings of the link events (R165 to R167). -/

namespace Sys2Proof.Machine

/-- A byte arrives at a port (R165). -/
def execByteArrival (p : Port) (b : Byte) (s : State) : Host.Outcome State Fault Refusal :=
  done (rxByte p b s)

/-- The second CRC byte of a frame arrives (R165); a receiver that does not wait for it is not reached. -/
def execFrameReceived (p : Port) (b : Byte) (s : State) : Host.Outcome State Fault Refusal :=
  done (if awaitsLast p s then rxByte p b s else s)

/-- The gap inside a frame has lasted more than 1 ms (R166). -/
def execReceiveGapTimeout (p : Port) (s : State) : Host.Outcome State Fault Refusal :=
  done (if gapPassed p s then discard p s else s)

/-- The last byte of a reply has been sent (R167). -/
def execReplyComplete (p : Port) (s : State) : Host.Outcome State Fault Refusal :=
  done (replyDone p s)

end Sys2Proof.Machine
end

