-- ==== Sys2Proof/Machine/LineCommands.lean ====
section
/-! DEFINITION. The meanings of the line's inputs, its resets, its clock and the leases. -/

namespace Sys2Proof.Machine

/-- A live level of a station input becomes `level` (R177, R178); no change, no event. -/
def execInterlockChange (n : Station) (i : Interlock) (level : Bool) (s : State) :
    Host.Outcome State Fault Refusal :=
  done (if (s.station n).live.get i = level then s else interlock n i level s)

/-- A rising edge on INDEX (R71). -/
def execIndexEdge (s : State) : Host.Outcome State Fault Refusal :=
  done (fireTrigger (fun j => j.trigger == .index) s)

/-- ESTOP changes from released to asserted (R193); an asserted input does not change. -/
def execEstopAssertion (s : State) : Host.Outcome State Fault Refusal :=
  done (if s.estop then s else estopAssert s)

/-- ESTOP changes from asserted to released (R194); a released input does not change. -/
def execEstopRelease (s : State) : Host.Outcome State Fault Refusal :=
  done (if s.estop then estopRelease s else s)

/-- Power-on (R197). -/
def execPowerOn (s : State) : Host.Outcome State Fault Refusal := done (powerOnState s)

/-- Pin reset (R197). -/
def execPinReset (s : State) : Host.Outcome State Fault Refusal := done (pinResetState s)

/-- One millisecond passes: the line clock rises and wraps (R199). -/
def execLineClockMillisecond (s : State) : Host.Outcome State Fault Refusal :=
  done (tick s)

/-- The lease timer of a station expires (R181). -/
def execLeaseExpiry (n : Station) (s : State) : Host.Outcome State Fault Refusal :=
  done (if s.due (s.station n).lease.timer then leaseExpire n s else s)

end Sys2Proof.Machine
end

