-- ==== Sys2Proof/Machine/ConverterCommands.lean ====
section
/-! DEFINITION. The meanings of the events of converters and relays (R23, R26, R27, R36 to R40). -/

namespace Sys2Proof.Machine

/-- A fault becomes the pending target, with its cause, unless one is pending already (R27, R162). -/
def pendFault (c : Conv) (cause : FaultCause) (s : State) : State :=
  s.modConv c fun v => if v.pend = .faulted then v else { v with pend := .faulted, cause := cause }

/-- The served job of a converter is reached with CONVERTER_FAULT (R154). -/
def faultJob (k : Option SlotIx) (s : State) : State :=
  match k with
  | none => s
  | some k => failJob .converterFault k s

/-- A fault event at a converter, by its state (R27, R154). -/
def convFault (c : Conv) (cause : FaultCause) (s : State) : State :=
  match (s.conv c).state with
  | .off | .faulted => s
  | .warmup | .held => enterFaulted c (s.modConv c fun v => { v with cause := cause })
  | .idle => enterDischarge c (pendFault c cause s)
  | .discharge => pendFault c cause s
  | .connecting => faultJob (s.servedSlot c) (pendFault c cause s)
  | .seeking | .aligned | .heating =>
    faultJob (s.servedSlot c) (enterDischarge c (pendFault c cause s))

/-- A power-stage condition begins (`level` true), which is the fault event of R27, or ends, which only
changes the level that R23 and R34 sample (assumption 4). -/
def execConverterFaultEvent (c : Conv) (cond : FaultCond) (level : Bool) (s : State) :
    Host.Outcome State Fault Refusal :=
  done (if (s.conv c).pins.get cond = level then s
    else
      let s := s.modConv c fun v => { v with pins := v.pins.put cond level }
      if level then convFault c (faultCauseOf cond) s else s)

/-- The 200 ms of a warm-up have run (R23). -/
def execWarmupEnd (c : Conv) (s : State) : Host.Outcome State Fault Refusal :=
  done (if (s.conv c).state = .warmup ∧ s.due (s.conv c).warmTimer then
      warmupCheck c (s.modConv c fun v => { v with warmTimer := none })
    else s)

/-- The discharge timer of a converter expires (R26). -/
def execDischargeEnd (c : Conv) (s : State) : Host.Outcome State Fault Refusal :=
  done (if (s.conv c).state = .discharge ∧ s.due (s.conv c).dischTimer then
      resolveConv c (s.modConv c fun v => { v with dischTimer := none })
    else s)

/-- An opening completes (R36, R40): the relay is open, the rest of its plan starts, a cause of arbitration;
a withdrawn connection and a warm-up that waited for it are resolved. -/
def openingDone (p : Pool) (s : State) : State :=
  let s := s.modRelay p fun r => { r with pos := .open, motion := .none, openingDue := false }
  warmupCheck (poolConv p) (connectionCheck (poolConv p) (matrixTry p s).raise)

/-- A relay opening completes (R40). -/
def execRelayOpeningComplete (p : Pool) (s : State) : Host.Outcome State Fault Refusal :=
  done (match (s.relay p).motion with
    | .opening _ t => if t ≤ s.now then openingDone p s else s
    | .none | .closing _ _ => s)

/-- The converter in CONNECTING has its served job, in CONNECTING (R38, R59). -/
def State.connectingJob (s : State) (c : Conv) : Option SlotIx :=
  if (s.conv c).state = .connecting then
    (s.servedSlot c).filter fun k => s.jobIs k (·.state == .connecting)
  else none

/-- A closing to `h` completes (R38, R39): a served converter enters SEEKING, a withdrawn connection is
resolved; what is left of a plan starts. -/
def closingDone (p : Pool) (h : Head) (s : State) : State :=
  let c := poolConv p
  let s := s.modRelay p fun r => { r with pos := .closed h, motion := .none, lastClose := some s.now }
  matrixTry p (match s.connectingJob c with
    | some k => enterSeeking c k s
    | none => connectionCheck c s)

/-- A relay closing completes (R38). -/
def execRelayClosingComplete (p : Pool) (s : State) : Host.Outcome State Fault Refusal :=
  done (match (s.relay p).motion with
    | .closing h t => if t ≤ s.now then closingDone p h s else s
    | .none | .opening _ _ => s)

/-- The matrix timer of a relay expires (R36). -/
def execRelayConditionTimer (p : Pool) (s : State) : Host.Outcome State Fault Refusal :=
  done (if s.due (s.relay p).condTimer then
      matrixTry p (s.modRelay p fun r => { r with condTimer := none })
    else s)

/-- The 500 ms of the reset hold have passed: a closed relay starts an opening, and the warm-ups that waited
for the hold go on (R23, R36). Two warm-ups that waited for it alone end at this one event, C4 before C5
(assumption 27). -/
def holdDone (s : State) : State :=
  let s := { s with relayHold := none }
  warmupCheck (poolConv 1) (warmupCheck (poolConv 0) (disconnect (poolConv 1) (disconnect (poolConv 0) s)))

/-- The reset hold of the relays ends (R36). -/
def execRelayHoldEnd (s : State) : Host.Outcome State Fault Refusal :=
  done (if s.due s.relayHold then holdDone s else s)

end Sys2Proof.Machine
end

