-- ==== Sys2Proof/Machine/HeatingCommands.lean ====
section
/-! DEFINITION. The meanings of the tuning, heating and guard events and of the timers of jobs. -/

namespace Sys2Proof.Machine

/-- The settle timer of a tuning unit expires (R45). -/
def execSettleExpiry (c : Conv) (report : PhaseReport) (s : State) : Host.Outcome State Fault Refusal :=
  done (settleExpiry c report s)

/-- A pyrometer channel takes a sample (R110). -/
def execPyrometerSample (c : Conv) (reading : PyroReading) (flow : Bool) (s : State) :
    Host.Outcome State Fault Refusal :=
  done (pyroSample c reading flow s)

/-- The duration of a segment expires (R119). -/
def execSegmentDurationExpiry (c : Conv) (s : State) : Host.Outcome State Fault Refusal :=
  done (durationExpiry c s)

/-- The limit of a segment expires (R118, R120). -/
def execSegmentLimitExpiry (c : Conv) (s : State) : Host.Outcome State Fault Refusal :=
  done (limitExpiry c s)

/-- A guard conversion completes with its reading (R134). -/
def execGuardConversionComplete (reading : GuardReading) (s : State) : Host.Outcome State Fault Refusal :=
  done (guardComplete reading s)

/-- A candidate ends by its wait limit: every member still in READY gets WAIT_EXPIRED and reaches ENDED in
member order (R96). -/
def waitExpire (c : Cand) (s : State) : State :=
  let s := c.members.foldl (giveOutcome .waitExpired) s
  c.members.foldl (fun s k => if s.jobIs k (·.state == .ready) then endJob k .none s else s) s

/-- The wait timer of the candidate that holds slot `k` expires (R96). -/
def execWaitLimitExpiry (k : SlotIx) (s : State) : Host.Outcome State Fault Refusal :=
  done (match s.cands.find? (·.members.contains k) with
    | none => s
    | some c => if s.due c.waitTimer then waitExpire c s else s)

/-- The cool dwell timer of a job expires (R142). -/
def execCoolDwellExpiry (k : SlotIx) (s : State) : Host.Outcome State Fault Refusal :=
  done (if s.jobIs k (fun j => j.state == .cooling && s.due j.coolDwellTimer) then endJob k .timed s else s)

/-- The cooling limit timer of a job expires (R143). -/
def execCoolingLimitExpiry (k : SlotIx) (s : State) : Host.Outcome State Fault Refusal :=
  done (if s.jobIs k (fun j => j.state == .cooling && s.due j.coolLimitTimer) then endJob k .limit s else s)

end Sys2Proof.Machine
end

