-- ==== Sys2Proof/Machine/Dispatch.lean ====
section
/-! DEFINITION. The meaning of every command: one arm per constructor, one call per arm. -/

namespace Sys2Proof.Machine

def exec (i : Instr) (s : State) : Host.Outcome State Fault Refusal :=
  match i with
  | .submit p b => Sys2Proof.Machine.execSubmit p b s
  | .submitGang p b => Sys2Proof.Machine.execSubmitGang p b s
  | .go p b => Sys2Proof.Machine.execGo p b s
  | .cancel p b => Sys2Proof.Machine.execCancel p b s
  | .readJob p b => Sys2Proof.Machine.execReadJob p b s
  | .takeNotices p b => Sys2Proof.Machine.execTakeNotices p b s
  | .takeResults p b => Sys2Proof.Machine.execTakeResults p b s
  | .readInputs p b => Sys2Proof.Machine.execReadInputs p b s
  | .renew p b => Sys2Proof.Machine.execRenew p b s
  | .stationStatus p b => Sys2Proof.Machine.execStationStatus p b s
  | .setMode p b => Sys2Proof.Machine.execSetMode p b s
  | .setBudget p b => Sys2Proof.Machine.execSetBudget p b s
  | .writeSegments p b => Sys2Proof.Machine.execWriteSegments p b s
  | .writeProfile p b => Sys2Proof.Machine.execWriteProfile p b s
  | .clearProfile p b => Sys2Proof.Machine.execClearProfile p b s
  | .writeHead p b => Sys2Proof.Machine.execWriteHead p b s
  | .forgetLearned p b => Sys2Proof.Machine.execForgetLearned p b s
  | .readTable p b => Sys2Proof.Machine.execReadTable p b s
  | .converterEnable p b => Sys2Proof.Machine.execConverterEnable p b s
  | .converterHold p b => Sys2Proof.Machine.execConverterHold p b s
  | .converterRelease p b => Sys2Proof.Machine.execConverterRelease p b s
  | .converterClear p b => Sys2Proof.Machine.execConverterClear p b s
  | .setDischarge p b => Sys2Proof.Machine.execSetDischarge p b s
  | .setLease p b => Sys2Proof.Machine.execSetLease p b s
  | .setGuardDwell p b => Sys2Proof.Machine.execSetGuardDwell p b s
  | .abortStation p b => Sys2Proof.Machine.execAbortStation p b s
  | .lineReset p b => Sys2Proof.Machine.execLineReset p b s
  | .lineStatus p b => Sys2Proof.Machine.execLineStatus p b s
  | .unknownRequestKind p kind b => Sys2Proof.Machine.execUnknownRequestKind p kind b s
  | .frameReceived p b => Sys2Proof.Machine.execFrameReceived p b s
  | .receiveGapTimeout p => Sys2Proof.Machine.execReceiveGapTimeout p s
  | .replyComplete p => Sys2Proof.Machine.execReplyComplete p s
  | .byteArrival p b => Sys2Proof.Machine.execByteArrival p b s
  | .interlockChange n inp level => Sys2Proof.Machine.execInterlockChange n inp level s
  | .indexEdge => Sys2Proof.Machine.execIndexEdge s
  | .estopAssertion => Sys2Proof.Machine.execEstopAssertion s
  | .estopRelease => Sys2Proof.Machine.execEstopRelease s
  | .powerOn => Sys2Proof.Machine.execPowerOn s
  | .pinReset => Sys2Proof.Machine.execPinReset s
  | .lineClockMillisecond => Sys2Proof.Machine.execLineClockMillisecond s
  | .relayHoldEnd => Sys2Proof.Machine.execRelayHoldEnd s
  | .converterFaultEvent c cond level => Sys2Proof.Machine.execConverterFaultEvent c cond level s
  | .warmupEnd c => Sys2Proof.Machine.execWarmupEnd c s
  | .dischargeEnd c => Sys2Proof.Machine.execDischargeEnd c s
  | .relayOpeningComplete p => Sys2Proof.Machine.execRelayOpeningComplete p s
  | .relayClosingComplete p => Sys2Proof.Machine.execRelayClosingComplete p s
  | .relayConditionTimer p => Sys2Proof.Machine.execRelayConditionTimer p s
  | .settleExpiry c report => Sys2Proof.Machine.execSettleExpiry c report s
  | .pyrometerSample c reading flow => Sys2Proof.Machine.execPyrometerSample c reading flow s
  | .segmentDurationExpiry c => Sys2Proof.Machine.execSegmentDurationExpiry c s
  | .segmentLimitExpiry c => Sys2Proof.Machine.execSegmentLimitExpiry c s
  | .guardConversionComplete reading => Sys2Proof.Machine.execGuardConversionComplete reading s
  | .waitLimitExpiry k => Sys2Proof.Machine.execWaitLimitExpiry k s
  | .leaseExpiry n => Sys2Proof.Machine.execLeaseExpiry n s
  | .coolDwellExpiry k => Sys2Proof.Machine.execCoolDwellExpiry k s
  | .coolingLimitExpiry k => Sys2Proof.Machine.execCoolingLimitExpiry k s

end Sys2Proof.Machine
end

