-- ==== Sys2Proof/Safety.lean ====
section
/-! DEFINITION. What it is for a state to be in order: the laws that the manual states of every state that can
be reached, as predicates of one state. -/

namespace Sys2Proof.Machine

/-! ## Converters and outputs -/

/-- Converter states in which the output may be on (R22). -/
def ConvState.drives : ConvState → Bool
  | .seeking | .aligned | .heating => true
  | .off | .warmup | .idle | .connecting | .discharge | .held | .faulted => false

/-- Converter states in which a served job is present (R22). -/
def ConvState.serves (x : ConvState) : Bool := x.drives || x == .connecting

/-- The law of the outputs (R22): outside STANDBY the emergency stop is released; a converter drives only
outside STANDBY, has its output on only while it drives, a served job only while it serves, and a segment
running only in HEATING. -/
structure State.OutputLaw (s : State) : Prop where
  stop : s.mode ≠ .standby → s.estop = false
  output : ∀ c, (s.conv c).outputOn = true → (s.conv c).state.drives = true
  drives : ∀ c, (s.conv c).state.drives = true → s.mode ≠ .standby
  served : ∀ c, (s.conv c).served ≠ none → (s.conv c).state.serves = true ∧ s.mode ≠ .standby
  engine : ∀ c, (s.conv c).eng.phase = .run ∨ (s.conv c).eng.timer ≠ .stopped →
    (s.conv c).state = .heating

/-! ## Power, counts, quotas -/

/-- The reservation that the job of a slot holds in committed power (R81). -/
def State.holds (s : State) (k : SlotIx) : Nat :=
  match s.job k with
  | some j => if j.state.running then j.reservation else 0
  | none => 0

/-- Committed power is the sum of the reservations of the jobs in CONNECTING to HEATING (R81, R90). -/
def State.PowerLaw (s : State) : Prop := s.committed = ∑ k, s.holds k

/-- The job in a slot is one that a test selects, counted 1, or not, counted 0. -/
def State.countIf (s : State) (k : SlotIx) (p : Job → Bool) : Nat := if s.jobIs k p then 1 else 0

/-- A profile's use count is the number of admitted jobs that name it (R11). -/
def State.ProfileUseLaw (s : State) : Prop :=
  ∀ p : Fin 64, s.profUse[p] = ∑ k, s.countIf k (fun j => j.profile == p)

/-- How often a segment lies in the runs of the job of a slot (R10). -/
def State.usesOf (s : State) (k : SlotIx) (i : Nat) : Nat :=
  match s.job k with
  | some j => ((s.prof j.profile).runs.filter fun x => x.2 == i).length
  | none => 0

/-- Use counts: of a profile, the admitted jobs that name it (R11); of a segment, the pairs of an admitted job
and one of its runs in which the segment lies (R10). -/
structure State.UseLaw (s : State) : Prop where
  profiles : s.ProfileUseLaw
  segments : ∀ i : Fin 256, s.segUse[i] = ∑ k, s.usesOf k i.val

/-- Admitted jobs are counted by station, never exceed 16, and with the results held never exceed 32
(R61, R175). -/
structure State.QuotaLaw (s : State) : Prop where
  counted : ∀ n : Station, s.admitted[n] = ∑ k, s.countIf k (fun j => j.station == n)
  jobs : ∀ n : Station, s.admitted[n] ≤ Config.stationJobLimit
  places : ∀ n : Station, s.admitted[n] + s.resultsHeld n ≤ Config.resultPlaces

/-! ## Heads -/

/-- At most one job occupies a head (R88). -/
def State.HeadLaw (s : State) : Prop :=
  ∀ k m i j, s.job k = some i → s.job m = some j → i.head = j.head →
    i.state.occupies = true → j.state.occupies = true → k = m

/-- The job states in which a guard-enabled head is scanned (R132). -/
def JobState.scanned (x : JobState) : Bool := x.occupies && x != .connecting

/-- At most one job occupies a head (R88), and the scan set holds exactly the guard-enabled heads whose job is
in SEEKING, ALIGNING, HEATING or COOLING (R132). -/
structure State.ScanLaw (s : State) : Prop where
  heads : s.HeadLaw
  scan : ∀ h, h ∈ s.scanSet ↔
    (s.head h).guardEnable = true ∧ ∃ k j, s.job k = some j ∧ j.head = h ∧ j.state.scanned = true

/-! ## Jobs -/

/-- OK and UNDERWET are set at the end of heating alone, so only a job in COOLING holds one of them (R126); and a job
that names a converter is the one that this converter serves (R21, R58). -/
structure State.JobLaw (s : State) : Prop where
  outcome : ∀ k j, s.job k = some j → j.outcome = some .ok ∨ j.outcome = some .underwet → j.state = .cooling
  converter : ∀ k j c, s.job k = some j → j.converter = some c →
    (s.conv c).served = some (s.handleOf k) ∧ (s.conv c).state.serves = true

/-! ## Ports, candidates, the scanner -/

/-- A notice queue holds at most 16 notices and a receive holding at most two requests (R167, R171); a reply is
in transmission exactly while a request is held (R167, R168). -/
structure State.PortLaw (s : State) : Prop where
  notices : ∀ p, (s.port p).notices.length ≤ Config.noticePlaces
  holding : ∀ p, (s.port p).holding.length ≤ Config.holdingPlaces
  reply : ∀ p, (s.port p).reply = none ↔ (s.port p).holding = []

/-- The candidate list stands in the order of its keys (R84): no entry comes before an earlier one. -/
def State.CandLaw (s : State) : Prop := s.cands.Pairwise fun a b => b.before a = false

/-- No event is in progress: no cause of arbitration is left, and a scanner without a conversion is idle with
an empty scan set (R86, R133). -/
structure State.Settled (s : State) : Prop where
  noCause : s.arbCause = false
  scanner : s.conversion = none → s.scanSet = [] ∧ s.passList = []

/-! ## Words of the statements -/

/-- A port has no request in its holding (R167). -/
abbrev State.free (s : State) (p : Port) : Prop := (s.port p).holding = []

/-- The request that completes stands in the holding of port `p` (R167). -/
def State.holdingIt (s : State) (p : Port) (kind : Byte) (b : List Byte) : State :=
  s.setPort p { s.port p with holding := [⟨kind, b⟩] }

/-- A reply is in transmission at port `p` (R168). -/
def State.replying (s : State) (p : Port) (kind : Byte) (code : ReplyCode) (data : List Byte) : State :=
  s.setPort p { s.port p with reply := some ⟨kind, code, data⟩ }

/-- A request stands in the holding of port `p` with its reply in transmission (R167, R168). -/
def State.answered (s : State) (p : Port) (kind : Byte) (b : List Byte) (code : ReplyCode)
    (data : List Byte) : State :=
  (s.holdingIt p kind b).replying p kind code data

/-- A request is refused: the step goes on, nothing changes but the port that took it, and two detail bytes
follow the code (R168, R204). -/
def Refuses (c : Instr) (p : Port) (kind : Byte) (b : List Byte) (code : ReplyCode) (d0 d1 : Byte)
    (s : State) : Prop :=
  exec c s = .next (s.answered p kind b code [d0, d1])

/-- A request of the supervisor is turned away on every station port, whatever its payload (R170). -/
def WrongOnStations (c : Port → List Byte → Instr) (kind : Byte) (s : State) : Prop :=
  ∀ n b, s.free (.sp n) → Refuses (c (.sp n) b) (.sp n) kind b .wrongPort 0 0 s

/-- A request of a station is turned away on the supervisor port, whatever its payload (R170). -/
def WrongOnSvp (c : Port → List Byte → Instr) (kind : Byte) (s : State) : Prop :=
  ∀ b, s.free .svp → Refuses (c .svp b) .svp kind b .wrongPort 0 0 s

/-- A request is accepted with effect `f`: the step goes on with the request in the holding, its effect made,
its reply in transmission and the causes of arbitration of the event gathered (R86, R168). -/
def Accepts (c : Instr) (p : Port) (kind : Byte) (b : List Byte) (data : List Byte) (s : State)
    (f : State → State) : Prop :=
  exec c s = .next (finish ((f (s.holdingIt p kind b)).replying p kind .accepted data))

/-- The time at which the discharge interval of pool converter `p` is over (R36). -/
abbrev State.relayReadyAt (s : State) (p : Pool) : Nat :=
  (s.conv (poolConv p)).lastOffAt + (s.conv (poolConv p)).interval

/-- A motion of a pool converter's relay may start at this event (R36): no reset hold, no motion, the output off and the
discharge interval over. -/
structure State.MayMove (s : State) (p : Pool) : Prop where
  hold : s.relayHold = none
  rest : (s.relay p).motion = .none
  off : (s.conv (poolConv p)).outputOn = false
  waited : s.relayReadyAt p ≤ s.now

/-- What a disconnect request that reaches relay `p` in `s` has made of it in `t` (R37, with the start of its motion
by R36). A closed relay at rest opens, or waits for the end of the discharge interval, or for the output to go off and
the reset hold to end. A relay that is closing, which only a pin reset leaves so, opens after it (assumption 11). -/
structure State.Disconnects (s t : State) (p : Pool) : Prop where
  opened : (s.relay p).pos = .open → (s.relay p).motion = .none →
    t.relay p = { s.relay p with plan := .empty, condTimer := none }
  opening : ∀ g e, (s.relay p).motion = .opening g e →
    t.relay p = { s.relay p with plan := .empty, openingDue := true }
  closing : ∀ h e, (s.relay p).motion = .closing h e →
    t.relay p = { s.relay p with plan := .open, openingDue := true }
  moves : ∀ g, (s.relay p).pos = .closed g → s.MayMove p →
    t.relay p = { s.relay p with
      motion := .opening g (s.now + 10), plan := .empty, condTimer := none, openingDue := true }
  waits : ∀ g, (s.relay p).pos = .closed g → (s.relay p).motion = .none → s.relayHold = none →
    (s.conv (poolConv p)).outputOn = false → s.now < s.relayReadyAt p →
    t.relay p = { s.relay p with plan := .open, condTimer := some (s.relayReadyAt p), openingDue := true }
  stays : ∀ g, (s.relay p).pos = .closed g → (s.relay p).motion = .none →
    s.relayHold ≠ none ∨ (s.conv (poolConv p)).outputOn = true →
    ∃ x, t.relay p = { s.relay p with plan := .open, condTimer := x, openingDue := true }

/-- The pending target that an entry into STANDBY leaves: OFF, unless it is FAULTED (R28). -/
def Converter.offPending (v : Converter) : PendingTarget := if v.pend = .faulted then .faulted else .off

/-- What an entry into STANDBY at `s` has made of converter `c` in `t`, by its state (R28). -/
structure State.StandbyRow (s t : State) (c : Conv) : Prop where
  rest : (s.conv c).state = .off ∨ (s.conv c).state = .faulted → t.conv c = s.conv c
  timed : (s.conv c).state = .warmup ∨ (s.conv c).state = .discharge →
    t.conv c = { s.conv c with pend := (s.conv c).offPending }
  off : (s.conv c).state = .idle ∨ (s.conv c).state = .held →
    t.conv c = { s.conv c with state := .off, pend := .none, warmTimer := none } ∧
    ∀ p, poolOf c = some p → s.Disconnects t p
  drives : (s.conv c).state.drives = true →
    (t.conv c).state = .discharge ∧ (t.conv c).outputOn = false ∧ (t.conv c).command = 0 ∧
    (t.conv c).served = none ∧ (t.conv c).pend = (s.conv c).offPending ∧
    (t.conv c).dischTimer = some (s.now + (s.conv c).interval) ∧ (t.conv c).tun.phase = .stopped ∧
    (t.conv c).eng.phase = .stopped ∧ (t.conv c).nextSample = none ∧
    ((s.conv c).outputOn = true → (t.conv c).lastOff = s.lineClock) ∧
    ((s.conv c).outputOn = false → (t.conv c).lastOff = (s.conv c).lastOff)
  connecting : (s.conv c).state = .connecting →
    (t.conv c).served = none ∧ (t.conv c).outputOn = (s.conv c).outputOn
  withdrawn : (s.conv c).state = .connecting → (s.conv c).served = none →
    (t.conv c).state = .connecting ∧ (t.conv c).pend = (s.conv c).offPending
  moving : ∀ p, poolOf c = some p → (s.conv c).state = .connecting → (s.conv c).served ≠ none →
    (s.relay p).motion ≠ .none → (t.conv c).state = .connecting ∧ (t.conv c).pend = (s.conv c).offPending ∧
    t.relay p = { s.relay p with plan := .empty, condTimer := none }
  stopped : ∀ p, poolOf c = some p → (s.conv c).state = .connecting → (s.conv c).served ≠ none →
    (s.relay p).motion = .none → (t.conv c).pend = .none ∧ s.Disconnects t p ∧
    (t.conv c).state = if (s.conv c).pend = .faulted then .faulted else .off

/-- A converter whose work has ended stands in `t` where its pending target in `s` takes it (R25). In RUN an arbitration
follows an entry into IDLE and may grant the converter at the same event, so IDLE itself is seen outside RUN. -/
structure State.Resolved (s t : State) (c : Conv) : Prop where
  faulted : (s.conv c).pend = .faulted → (t.conv c).state = .faulted ∧ (t.conv c).pend = .none
  held : (s.conv c).pend = .held → (t.conv c).state = .held ∧ (t.conv c).pend = .none
  off : (s.conv c).pend = .off → ((s.conv c).enabled = false ∨ s.mode = .standby) →
    (t.conv c).state = .off ∧ (t.conv c).pend = .none
  idle : ((s.conv c).pend = .none ∨ (s.conv c).pend = .off ∧ (s.conv c).enabled = true ∧ s.mode ≠ .standby) →
    s.mode ≠ .run → (t.conv c).state = .idle ∧ (t.conv c).pend = .none

/-- Member `i` of a gang description fails the BAD_HEAD check (R65): its head is not the station's, or an earlier member
names the same head. -/
def State.BadMember (s : State) (n : Station) (ds : List JobDesc) (i : Nat) : Prop :=
  ∃ d, ds[i]? = some d ∧
    ((s.head d.head).owner ≠ some n ∨ ∃ m e, m < i ∧ ds[m]? = some e ∧ e.head = d.head)

/-- The record of a job after an accepted sample at a converter (R111, R112, R114): the command held over the last
millisecond is added to the energy, a temperature raises the peak and counts time above flow, and NO_SIGNAL is counted,
any other reading ends its run. -/
def Job.sampled (j : Job) (held flowTemp : Nat) (reading : PyroReading) : Job :=
  { j with
    energy := j.energy + BitVec.ofNat 32 held
    peak := match reading with
      | .temp t => max j.peak t
      | .under | .over | .noSignal => j.peak
    above := match reading with
      | .temp t => if flowTemp ≤ t then j.above + 1 else j.above
      | .under | .over | .noSignal => j.above
    noSig := if reading = .noSignal then j.noSig + 1 else 0 }

/-- The record `i` of a job after the arbitration of an event: `j` as it was, or `j` granted from READY, in SEEKING or
CONNECTING with its converter (R91). -/
def Job.OrGranted (j i : Job) : Prop :=
  i = j ∨ j.state = .ready ∧
    ∃ c, i = { j with state := .seeking, converter := some c } ∨
      i = { j with state := .connecting, converter := some c }

/-- Job states in which an aborted job ends at once and its head was not heated: PENDING, READY and CONNECTING
(R147, R148). -/
def JobState.endsAtOnce : JobState → Bool
  | .pending | .ready | .connecting => true
  | .seeking | .aligning | .heating | .cooling => false

/-- The job `j` that stood in slot `k` of `s` is stopped with outcome `o` in `t` (R147 to R150): it has ended and its
result carries the outcome, with release NONE when it ended at once; or its head was energised, and it cools with the
outcome set. -/
def State.Stopped (s t : State) (k : SlotIx) (j : Job) (o : JobOutcome) : Prop :=
  (t.job k = none ∧ ∃ r ∈ (t.station j.station).results, r.handle = s.handleOf k ∧ r.outcome = some o ∧
    (j.state.endsAtOnce = true → r.release = .none)) ∨
  (j.state.endsAtOnce = false ∧ ∃ i, t.job k = some i ∧ i.state = .cooling ∧ i.outcome = some o)

/-- A cause that gives outcome `o` to the jobs of certain slots has reached the job table (R146, R151): every such job
before COOLING that had no outcome is stopped with it, every other member of its gang with GANG_ABORT, and a job in
COOLING goes on as it was. -/
structure State.ReachedBy (s t : State) (o : JobOutcome) (hit : SlotIx → Prop) : Prop where
  jobs : ∀ k j, hit k → s.job k = some j → j.outcome = none → j.state ≠ .cooling → s.Stopped t k j o
  gangs : ∀ k j m i, hit k → s.job k = some j → j.outcome = none → j.state ≠ .cooling →
    m ∈ s.membersOf k → ¬ hit m → s.job m = some i → i.outcome = none → i.state ≠ .cooling →
    s.Stopped t m i .gangAbort
  cooling : ∀ k j, s.job k = some j → j.state = .cooling → ∃ i, t.job k = some { j with converter := i }

/-- What an event of heating, cooling or the bank leaves as it is: the line mode and inputs, the tables but for the
learned start frequencies, the settings, the clock, the command held over the last millisecond, the receivers and
the holdings, and of every job that stays its description (R58). -/
structure State.SameSettings (s t : State) : Prop where
  line : t.mode = s.mode ∧ t.estop = s.estop ∧ t.resetKind = s.resetKind ∧ t.resetTime = s.resetTime ∧
    t.lineClock = s.lineClock ∧ t.now = s.now ∧ t.pending = s.pending
  tables : t.segs = s.segs ∧ t.profs = s.profs ∧ t.budget = s.budget ∧ t.guardDwell = s.guardDwell ∧
    t.relayHold = s.relayHold
  heads : ∀ h, t.head h = { s.head h with learned := (t.head h).learned }
  convs : ∀ c, (t.conv c).enabled = (s.conv c).enabled ∧ (t.conv c).interval = (s.conv c).interval ∧
    (t.conv c).pins = (s.conv c).pins ∧ (t.conv c).msCommand = (s.conv c).msCommand
  stations : ∀ n, (t.station n).live = (s.station n).live ∧ (t.station n).reported = (s.station n).reported ∧
    (t.station n).marks = (s.station n).marks ∧ (t.station n).lease = (s.station n).lease
  links : ∀ p, (t.port p).rx = (s.port p).rx ∧ (t.port p).lastByteAt = (s.port p).lastByteAt ∧
    (t.port p).holding = (s.port p).holding ∧ (t.port p).reply = (s.port p).reply ∧
    (t.port p).framing = (s.port p).framing ∧ (t.port p).overrun = (s.port p).overrun
  free : ∀ k, s.job k = none → t.slot k = s.slot k
  jobs : ∀ k i j, s.job k = some i → t.job k = some j →
    (t.slot k).gen = (s.slot k).gen ∧ j.station = i.station ∧ j.ref = i.ref ∧ j.head = i.head ∧
    j.profile = i.profile ∧ j.trigger = i.trigger ∧ j.urgency = i.urgency ∧ j.waitLimit = i.waitLimit ∧
    j.gang = i.gang ∧ j.reservation = i.reservation ∧ j.admittedAt = i.admittedAt

/-- A command is an event of the bank, of heating, of a guard or of a job's timer. -/
def isWorkEvent : Instr → Bool
  | .indexEdge | .warmupEnd _ | .dischargeEnd _ | .relayOpeningComplete _ | .relayClosingComplete _
  | .relayConditionTimer _ | .settleExpiry _ _ | .pyrometerSample _ _ _ | .segmentDurationExpiry _
  | .segmentLimitExpiry _ | .guardConversionComplete _ | .waitLimitExpiry _ | .coolDwellExpiry _
  | .coolingLimitExpiry _ => true
  | _ => false

/-- The requests that only a station port takes (R170). -/
def stationRequests : List ReqKind :=
  [.submit, .submitGang, .go, .cancel, .takeResults, .readInputs, .renew, .stationStatus]

/-- The requests that only the supervisor port takes (R170). -/
def supervisorRequests : List ReqKind :=
  [.setMode, .setBudget, .writeSegments, .writeProfile, .clearProfile, .writeHead, .forgetLearned,
   .readTable, .converterEnable, .converterHold, .converterRelease, .converterClear, .setDischarge,
   .setLease, .setGuardDwell, .abortStation, .lineReset, .lineStatus]

end Sys2Proof.Machine
end

