-- ==== Sys2Proof/Certificates/Slice0/Obligations.lean ====
section
/-! DEFINITION. The statements for the provers. Each says in its own words what a rule of the manual says a
command or the part does; the words used are those of Safety.lean. -/

open Sys2Proof Sys2Proof.Machine

/-! ## The queue and the end of an event -/

/-- A step with a command at the front of the queue is that command on the rest; on an empty queue the block
idles (the model's choice, assumption 1). -/
def Obligations.StepRunsFront : Prop :=
  (∀ (c : Instr) (rest : List Instr) (s : State),
    step { s with pending := c :: rest } = exec c { s with pending := rest }) ∧
  ∀ s : State, s.pending = [] → step s = .next s

/-- Every command completes, and leaves no cause of arbitration behind and no idle scanner with a head to
scan; the end of an event does nothing in a settled state, and never touches what is listed. -/
def Obligations.StepsSettle : Prop :=
  (∀ (c : Instr) (s : State), ∃ t, exec c s = .next t ∧ t.Settled) ∧
  ((∀ s : State, s.Settled → finish s = s) ∧
  ∀ s : State,
    (finish s).mode = s.mode ∧ (finish s).estop = s.estop ∧ (finish s).budget = s.budget ∧
    (finish s).segs = s.segs ∧ (finish s).segUse = s.segUse ∧ (finish s).profs = s.profs ∧
    (finish s).profUse = s.profUse ∧ (finish s).heads = s.heads ∧ (finish s).admitted = s.admitted ∧
    (finish s).ports = s.ports ∧ (finish s).stations = s.stations ∧
    (finish s).guardDwell = s.guardDwell ∧ (finish s).lineClock = s.lineClock ∧
    (finish s).resetKind = s.resetKind ∧ (finish s).resetTime = s.resetTime ∧
    (finish s).relayHold = s.relayHold ∧ (finish s).pending = s.pending ∧
    ∀ k, ((finish s).slot k).gen = (s.slot k).gen ∧ ((finish s).job k).isSome = (s.job k).isSome)

/-! ## Resets -/

/-- The values the manual gives after power-on. -/
def Obligations.ResetValues : Prop :=
  State.reset.mode = .standby ∧ State.reset.resetKind = .powerOn ∧ State.reset.resetTime = 0 ∧
  State.reset.lineClock = 0 ∧ State.reset.budget = 0 ∧ State.reset.committed = 0 ∧
  State.reset.cands = [] ∧ State.reset.scanSet = [] ∧ State.reset.passList = [] ∧
  State.reset.conversion = none ∧ State.reset.guardDwell = 5 ∧ State.reset.relayHold = none ∧
  (∀ i : Fin 256, State.reset.segs[i] = ⟨.empty, 0, 0, 0, 0, 0, 0⟩ ∧ State.reset.segUse[i] = 0) ∧
  (∀ p : Fin 64, State.reset.prof p = ⟨0, 0, 0, 0, 0, 0, 0, 0, 0, 0, 0, false⟩ ∧
    State.reset.profUse[p] = 0) ∧
  (∀ h, State.reset.head h = ⟨none, 0, 100000, 50000, 200000, 500, 5, 10, false, false, none⟩) ∧
  (∀ k, State.reset.slot k = ⟨0, none⟩) ∧
  (∀ c, (State.reset.conv c).state = .off ∧ (State.reset.conv c).enabled = false ∧
    (State.reset.conv c).pend = .none ∧ (State.reset.conv c).cause = .none ∧
    (State.reset.conv c).interval = 100 ∧ (State.reset.conv c).lastOff = 0 ∧
    (State.reset.conv c).served = none ∧ (State.reset.conv c).command = 0 ∧
    (State.reset.conv c).outputOn = false ∧ (State.reset.conv c).drive = 0 ∧
    (State.reset.conv c).tun = ⟨.stopped, 0, 0, none⟩ ∧
    (State.reset.conv c).eng = ⟨.stopped, none, .stopped, 0, false⟩ ∧
    (State.reset.conv c).nextSample = none) ∧
  (∀ p, (State.reset.relay p).pos = .open ∧ (State.reset.relay p).motion = .none ∧
    (State.reset.relay p).plan = .empty) ∧
  (∀ p, (State.reset.port p).rx = .hunting ∧ (State.reset.port p).holding = [] ∧
    (State.reset.port p).reply = none ∧ (State.reset.port p).notices = [] ∧
    (State.reset.port p).attn = false ∧ (State.reset.port p).framing = false ∧
    (State.reset.port p).overrun = false ∧ (State.reset.port p).dropped = false) ∧
  ∀ n, (State.reset.station n).results = [] ∧
    (State.reset.station n).reported = (State.reset.station n).live ∧
    (State.reset.station n).marks = ⟨false, false, false⟩ ∧ State.reset.admitted[n] = 0 ∧
    (State.reset.station n).lease = ⟨0, .abort, .off, false, none⟩

/-- Power-on takes every item to its value after power-on. A pin reset leaves what power-on leaves, every
field of it, but for the reset record, which names it, the relays, which keep their positions and motions with
every plan emptied, and the reset hold, which runs for 500 ms. RELAY_HOLD_END before its time changes nothing;
at its time the hold ends, a closed relay at rest with the output off starts its opening, or waits for the end
of its discharge interval, and a pool converter whose warm-up had waited for the hold alone enters FAULTED by
the first power-stage condition that stands, or is resolved. The model's choices: the inputs keep the levels
found at a reset (assumption 3); the count `now` goes on, the hold is timed on it, and an event before its
time does nothing (2, 23); an opening is due from a pin reset for every relay that is closed or in motion
(13); the condition timers stop and a relay keeps the time of its last closing (24); of two warm-ups that end
at this event, C4's comes before C5's (27). -/
def Obligations.PowerOnAndPinReset : Prop :=
  (∀ s : State, ∃ t, exec .powerOn s = .next t ∧
    t.estop = s.estop ∧ t.pending = s.pending ∧ t.now = s.now ∧
    (∀ c, t.conv c = { State.reset.conv c with pins := (s.conv c).pins, lastOffAt := s.now }) ∧
    (∀ n, t.station n = { State.reset.station n with
      live := (s.station n).live, reported := (s.station n).live }) ∧
    t.mode = .standby ∧ t.resetKind = .powerOn ∧ t.resetTime = 0 ∧ t.lineClock = 0 ∧
    t.segs = State.reset.segs ∧ t.segUse = State.reset.segUse ∧ t.profs = State.reset.profs ∧
    t.profUse = State.reset.profUse ∧ t.heads = State.reset.heads ∧ t.slots = State.reset.slots ∧
    t.admitted = State.reset.admitted ∧ t.budget = 0 ∧ t.committed = 0 ∧ t.cands = [] ∧
    t.relays = State.reset.relays ∧ t.relayHold = none ∧ t.scanSet = [] ∧ t.passList = [] ∧
    t.conversion = none ∧ t.guardDwell = 5 ∧ t.ports = State.reset.ports) ∧
  ((∀ s : State, ∃ u t, exec .powerOn s = .next u ∧ exec .pinReset s = .next t ∧
    t = { u with resetKind := .pin, relays := t.relays, relayHold := some (s.now + 500) } ∧
    ∀ p, t.relay p = { s.relay p with
      plan := .empty, condTimer := none,
      openingDue := !decide ((s.relay p).pos = .open ∧ (s.relay p).motion = .none) }) ∧
  ∀ (s : State) (e : Nat), s.relayHold = some e →
    (s.now < e → s.Settled → exec .relayHoldEnd s = .next s) ∧
    (e ≤ s.now → ∃ t, exec .relayHoldEnd s = .next t ∧ t.relayHold = none ∧
      State.SameSettings { s with relayHold := none } t ∧
      (∀ p h, (s.relay p).pos = .closed h → (s.relay p).motion = .none →
        (s.conv (poolConv p)).outputOn = false →
        ((s.conv (poolConv p)).lastOffAt + (s.conv (poolConv p)).interval ≤ s.now →
          (t.relay p).motion = .opening h (s.now + 10)) ∧
        ((s.conv (poolConv p)).state ≠ .idle →
          s.now < (s.conv (poolConv p)).lastOffAt + (s.conv (poolConv p)).interval →
          (t.relay p).motion = .none ∧ (t.relay p).plan = .open ∧
          (t.relay p).condTimer = some ((s.conv (poolConv p)).lastOffAt + (s.conv (poolConv p)).interval))) ∧
      ∀ p, (s.conv (poolConv p)).state = .warmup → (s.conv (poolConv p)).warmTimer = none →
        (s.relay p).openingDue = false → (s.relay p).pos = .open → (s.relay p).motion = .none →
        (∀ f, (s.conv (poolConv p)).pins.firstFault = some f →
          (t.conv (poolConv p)).state = .faulted ∧ (t.conv (poolConv p)).cause = f) ∧
        ((s.conv (poolConv p)).pins.firstFault = none → s.Resolved t (poolConv p))))

/-- LINE-RESET frees every job without a result, keeps the tables and settings, enters STANDBY and posts
MODE_CHANGED to the five emptied queues. -/
def Obligations.LineResetFrees : Prop :=
  ∀ s : State, s.free .svp → ∃ t, exec (.lineReset .svp []) s = .next t ∧
    (t.port .svp).reply = some ⟨0x50, .accepted, []⟩ ∧
    t.mode = .standby ∧ t.resetKind = .lineReset ∧ t.resetTime = s.lineClock ∧
    t.lineClock = s.lineClock ∧ t.estop = s.estop ∧
    t.segs = s.segs ∧ t.profs = s.profs ∧ t.heads = s.heads ∧ t.budget = s.budget ∧
    t.guardDwell = s.guardDwell ∧ t.committed = 0 ∧ t.cands = [] ∧ t.scanSet = [] ∧
    t.passList = [] ∧ t.conversion = none ∧
    (∀ i : Fin 256, t.segUse[i] = 0) ∧ (∀ p : Fin 64, t.profUse[p] = 0) ∧
    (∀ k, t.job k = none ∧
      (t.slot k).gen = if (s.job k).isSome then (s.slot k).gen + 1 else (s.slot k).gen) ∧
    (∀ n, t.admitted[n] = 0 ∧ (t.station n).results = [] ∧
      (t.station n).live = (s.station n).live ∧ (t.station n).reported = (s.station n).live ∧
      (t.station n).marks = ⟨false, false, false⟩ ∧
      (t.station n).lease.period = (s.station n).lease.period ∧
      (t.station n).lease.action = (s.station n).lease.action ∧
      (t.station n).lease.hold = false ∧
      ((s.station n).lease.period = 0 →
        (t.station n).lease.state = .off ∧ (t.station n).lease.timer = none) ∧
      ((s.station n).lease.period ≠ 0 → (t.station n).lease.state = .live ∧
        (t.station n).lease.timer = some (s.now + (s.station n).lease.period))) ∧
    (∀ c, (t.conv c).enabled = (s.conv c).enabled ∧ (t.conv c).interval = (s.conv c).interval ∧
      (t.conv c).cause = (s.conv c).cause) ∧
    (∀ p, (t.port p).notices = [⟨s.lineClock, .modeChanged .standby .lineReset⟩] ∧
      (t.port p).rx = (s.port p).rx ∧ (t.port p).framing = false ∧ (t.port p).overrun = false ∧
      (t.port p).dropped = false)

/-! ## Ports: holding, refusals -/

/-- A request that completes at a port with an empty holding is taken at that event; behind one held request
it waits, behind two it is discarded with OVERRUN; the completion of a reply frees its place and takes the
next request. That a request command is the completion of a frame is the model's choice (assumption 7), and so
is that the completion of a reply changes nothing where none is in transmission (assumption 23). -/
def Obligations.HoldingServesInOrder : Prop :=
  (∀ (s : State) (p : Port) (kind : Byte) (b : List Byte), s.free p →
    exec (instrOfFrame p kind b) s =
      .next (finish (take p ⟨kind, b⟩ (s.setPort p { s.port p with holding := [⟨kind, b⟩] })))) ∧
  (∀ (s : State) (p : Port) (kind : Byte) (b : List Byte), s.Settled →
    (∀ r, (s.port p).holding = [r] → exec (instrOfFrame p kind b) s =
      .next (s.setPort p { s.port p with holding := [r, ⟨kind, b⟩] })) ∧
    ∀ q r l, (s.port p).holding = q :: r :: l → exec (instrOfFrame p kind b) s =
      .next (s.setPort p { s.port p with overrun := true })) ∧
  (∀ (s : State) (p : Port),
    (∀ q x, (s.port p).reply = some x → (s.port p).holding = [q] → s.Settled →
      exec (.replyComplete p) s = .next (s.setPort p { s.port p with holding := [], reply := none })) ∧
    (∀ q r x, (s.port p).reply = some x → (s.port p).holding = [q, r] →
      exec (.replyComplete p) s =
        .next (finish (take p r (s.setPort p { s.port p with holding := [r], reply := none })))) ∧
    ((s.port p).reply = none → s.Settled → exec (.replyComplete p) s = .next s))

/-- A station request on SVP and a supervisor request on a station port are answered WRONG_PORT; a kind byte
that the manual does not name, and a payload where a request takes none, are answered BAD_FIELD; no other
state changes. -/
def Obligations.RequestsTurnedAway : Prop :=
  (∀ (s : State) (k : ReqKind) (b : List Byte), s.Settled →
    (k ∈ stationRequests → s.free .svp →
      Refuses (instrOfFrame .svp k.code b) .svp k.code b .wrongPort 0 0 s) ∧
    ∀ n, k ∈ supervisorRequests → s.free (.sp n) →
      Refuses (instrOfFrame (.sp n) k.code b) (.sp n) k.code b .wrongPort 0 0 s) ∧
  (∀ (s : State) (p : Port) (kind : Byte) (b : List Byte), s.Settled → s.free p →
    (∀ k : ReqKind, k.code ≠ kind) →
    Refuses (.unknownRequestKind p kind b) p kind b .badField 0 0 s) ∧
  (∀ (s : State) (x : Byte) (b : List Byte), s.Settled →
    (∀ n, s.free (.sp n) →
      Refuses (.readInputs (.sp n) (x :: b)) (.sp n) 0x17 (x :: b) .badField 0 0 s ∧
      Refuses (.renew (.sp n) (x :: b)) (.sp n) 0x18 (x :: b) .badField 0 0 s ∧
      Refuses (.stationStatus (.sp n) (x :: b)) (.sp n) 0x19 (x :: b) .badField 0 0 s) ∧
    (s.free .svp →
      Refuses (.lineReset .svp (x :: b)) .svp 0x50 (x :: b) .badField 0 0 s ∧
      Refuses (.lineStatus .svp (x :: b)) .svp 0x51 (x :: b) .badField 0 0 s))

/-! ## The receiver -/

/-- What the receiver does with a byte before the body of a frame, and a gap inside a frame of at least one
tick (the grain of time is the model's choice, assumption 7). -/
def Obligations.ReceiverDiscipline : Prop :=
  (∀ (s : State) (p : Port) (b : Byte), s.Settled →
    ((s.port p).rx = .hunting → b = 0xC3 → exec (.byteArrival p b) s =
      .next (s.setPort p { s.port p with rx := .synced, lastByteAt := s.now })) ∧
    ((s.port p).rx = .hunting → b ≠ 0xC3 → exec (.byteArrival p b) s =
      .next (s.setPort p { s.port p with framing := true })) ∧
    ((s.port p).rx = .synced → 1 ≤ b.toNat → b.toNat ≤ 251 → exec (.byteArrival p b) s =
      .next (s.setPort p { s.port p with rx := .receiving b.toNat [], lastByteAt := s.now })) ∧
    ((s.port p).rx = .synced → (b.toNat = 0 ∨ 252 ≤ b.toNat) → exec (.byteArrival p b) s =
      .next (s.setPort p { s.port p with rx := .hunting, framing := true }))) ∧
  (∀ (s : State) (p : Port), s.Settled →
    ((s.port p).rx ≠ .hunting → (s.port p).lastByteAt < s.now → exec (.receiveGapTimeout p) s =
      .next (s.setPort p { s.port p with rx := .hunting, framing := true })) ∧
    ((s.port p).rx = .hunting → exec (.receiveGapTimeout p) s = .next s))

/-- The second CRC byte completes a frame: a frame whose CRC agrees is offered to the holding, another is
discarded with FRAMING; in either case the receiver hunts. -/
def Obligations.FrameCompletion : Prop :=
  ∀ (s : State) (p : Port) (kind lo hi : Byte) (payload : List Byte), payload.length ≤ 250 →
    (s.port p).rx = .receiving (payload.length + 1) (kind :: payload ++ [lo]) →
    ([lo, hi] = le2 (crc16 (frameBody kind payload)).toNat →
      exec (.frameReceived p hi) s =
        .next (finish (requestArrives p kind payload (s.setPort p { s.port p with rx := .hunting })))) ∧
    ([lo, hi] ≠ le2 (crc16 (frameBody kind payload)).toNat → s.Settled →
      exec (.frameReceived p hi) s =
        .next (s.setPort p { s.port p with rx := .hunting, framing := true }))

/-- Every frame that the layout writes is read back: the bytes of any kind and payload, given one by one to a
hunting receiver, complete exactly that request. -/
def Obligations.FrameRoundTrip : Prop :=
  ∀ (s : State) (p : Port) (kind : Byte) (payload : List Byte), payload.length ≤ 250 →
    (s.port p).rx = .hunting →
    (frameBytes kind payload).foldl (fun s b => rxByte p b s) s =
      requestArrives p kind payload (s.setPort p { s.port p with rx := .hunting, lastByteAt := s.now })

/-! ## Requests of a station: jobs -/

/-- SUBMIT with every check passed admits the job into the lowest free slot, in PENDING or, for IMMEDIATE, in
READY, renews the lease and answers handle and reservation. -/
def Obligations.SubmitAdmits : Prop :=
  ∀ (s : State) (n : Station) (b : List Byte) (d : JobDesc) (k : SlotIx),
    s.free (.sp n) → parseSubmit b = some d → (s.head d.head).owner = some n →
    (s.prof d.profile).valid = true →
    (∀ x ∈ (s.prof d.profile).runs, (s.segAt x.2).unfit (s.prof d.profile).ceiling = false) →
    max (s.peakPower (s.prof d.profile)) (s.head d.head).seekPower ≤ (s.head d.head).cap →
    s.predecessorOk n d.trigger = true →
    s.admitted[n] < 16 → s.admitted[n] + (s.station n).results.length < 32 →
    s.job k = none → (∀ m, m < k → (s.job m).isSome = true) →
    Accepts (.submit (.sp n) b) (.sp n) 0x10 b
      ([byteOf k.val, (s.slot k).gen] ++
        le2 (max (s.peakPower (s.prof d.profile)) (s.head d.head).seekPower)) s
      (fun s => renewLease n (if d.trigger = .immediate then enterReady [k] (admitAt n d none k s)
        else admitAt n d none k s))

/-- The record of an admitted job and the counts that rise. -/
def Obligations.AdmissionRecord : Prop :=
  ∀ (s : State) (n : Station) (d : JobDesc) (g : Option GangTag) (k : SlotIx),
    (∃ j, (admitAt n d g k s).job k = some j ∧
      j.station = n ∧ j.ref = d.ref ∧ j.head = d.head ∧ j.profile = d.profile ∧
      j.trigger = d.trigger ∧ j.urgency = d.urgency ∧ j.waitLimit = d.waitLimit ∧ j.gang = g ∧
      j.state = .pending ∧
      j.reservation = max (s.peakPower (s.prof d.profile)) (s.head d.head).seekPower ∧
      j.converter = none ∧ j.run = .head ∧ j.index = 0 ∧ j.segEntry = none ∧ j.noSig = 0 ∧
      j.guardNoSig = 0 ∧ j.admittedAt = s.lineClock ∧ j.readyAt = none ∧ j.heatingAt = none ∧
      j.heatEnd = none ∧ j.peak = 0 ∧ j.above = 0 ∧ j.energy = 0 ∧ j.locked = 0 ∧ j.guardPeak = 0 ∧
      j.outcome = none ∧ j.release = .none) ∧
    ((admitAt n d g k s).slot k).gen = (s.slot k).gen ∧
    (∀ m, m ≠ k → (admitAt n d g k s).slot m = s.slot m) ∧
    (admitAt n d g k s).admitted[n] = s.admitted[n] + 1 ∧
    (∀ m, m ≠ n → (admitAt n d g k s).admitted[m] = s.admitted[m]) ∧
    (admitAt n d g k s).profUse[d.profile] = s.profUse[d.profile] + 1 ∧
    (∀ p, p ≠ d.profile → (admitAt n d g k s).profUse[p] = s.profUse[p]) ∧
    (∀ i : Fin 256, (admitAt n d g k s).segUse[i] =
      s.segUse[i] + ((s.prof d.profile).runs.filter fun x => x.2 == i.val).length) ∧
    (admitAt n d g k s).cands = s.cands ∧ (admitAt n d g k s).ports = s.ports ∧
    (admitAt n d g k s).committed = s.committed ∧ (admitAt n d g k s).convs = s.convs

/-- A SUBMIT is answered by the first check that fails and then changes nothing but its port: BAD_FIELD,
BAD_HEAD, BAD_PROFILE, UNKNOWN_JOB, STATION_FULL, NO_SLOT. A SUBMIT-GANG likewise, with the index of the
lowest member that fails as the first detail byte of BAD_HEAD and BAD_PROFILE, 0 for UNKNOWN_JOB, STATION_FULL
and NO_SLOT. Its BAD_FIELD carries the index of the first member record that fails, and 0 where the length,
the count or a shared field fails; that the shared fields are judged before the members and answered with 0 is
the model's choice (assumption 28). -/
def Obligations.SubmitRefusals : Prop :=
  (∀ (s : State) (n : Station) (b : List Byte), s.Settled → s.free (.sp n) →
      (parseSubmit b = none → Refuses (.submit (.sp n) b) (.sp n) 0x10 b .badField 0 0 s) ∧
      ∀ d, parseSubmit b = some d →
        ((s.head d.head).owner ≠ some n →
          Refuses (.submit (.sp n) b) (.sp n) 0x10 b .badHead 0 0 s) ∧
        ((s.head d.head).owner = some n → s.profileOk d = false →
          Refuses (.submit (.sp n) b) (.sp n) 0x10 b .badProfile 0 0 s) ∧
        ((s.head d.head).owner = some n → s.profileOk d = true → s.predecessorOk n d.trigger = false →
          Refuses (.submit (.sp n) b) (.sp n) 0x10 b .unknownJob 0 0 s) ∧
        ((s.head d.head).owner = some n → s.profileOk d = true → s.predecessorOk n d.trigger = true →
          (16 ≤ s.admitted[n] ∨ 32 ≤ s.admitted[n] + (s.station n).results.length) →
          Refuses (.submit (.sp n) b) (.sp n) 0x10 b .stationFull 0 0 s) ∧
        ((s.head d.head).owner = some n → s.profileOk d = true → s.predecessorOk n d.trigger = true →
          s.admitted[n] < 16 → s.admitted[n] + (s.station n).results.length < 32 →
          (∀ k, (s.job k).isSome = true) →
          Refuses (.submit (.sp n) b) (.sp n) 0x10 b .noSlot 0 0 s)) ∧
  (∀ (s : State) (n : Station) (b : List Byte), s.Settled → s.free (.sp n) →
    (∀ i, parseGang b = .error i → Refuses (.submitGang (.sp n) b) (.sp n) 0x11 b .badField (byteOf i) 0 s) ∧
    ∀ ds, parseGang b = .ok ds →
      (∀ i, s.BadMember n ds i → (∀ m, m < i → ¬ s.BadMember n ds m) →
        Refuses (.submitGang (.sp n) b) (.sp n) 0x11 b .badHead (byteOf i) 0 s) ∧
      ((∀ i, ¬ s.BadMember n ds i) →
        (∀ i d, ds[i]? = some d → s.profileOk d = false →
          (∀ m e, m < i → ds[m]? = some e → s.profileOk e = true) →
          Refuses (.submitGang (.sp n) b) (.sp n) 0x11 b .badProfile (byteOf i) 0 s) ∧
        ((∀ d ∈ ds, s.profileOk d = true) →
          (∀ d ∈ ds, s.predecessorOk n d.trigger = false →
            Refuses (.submitGang (.sp n) b) (.sp n) 0x11 b .unknownJob 0 0 s) ∧
          ((∀ d ∈ ds, s.predecessorOk n d.trigger = true) →
            ((16 < s.admitted[n] + ds.length ∨
                32 < s.admitted[n] + (s.station n).results.length + ds.length) →
              Refuses (.submitGang (.sp n) b) (.sp n) 0x11 b .stationFull 0 0 s) ∧
            (s.admitted[n] + ds.length ≤ 16 →
              s.admitted[n] + (s.station n).results.length + ds.length ≤ 32 → s.freeSlots.length < ds.length →
              Refuses (.submitGang (.sp n) b) (.sp n) 0x11 b .noSlot 0 0 s))))) ∧
  (∀ b : List Byte, b.length < 10 → parseGang b = .error 0) ∧
  ∀ (c tk ta ps pg u w0 w1 w2 w3 : Byte) (rest : List Byte),
    (c.toNat < 2 ∨ 4 < c.toNat ∨ rest.length ≠ 4 * c.toNat ∨ parseTrigger tk ta ps pg = none ∨ 3 < u.toNat ∨
        waitLimitOk (rd4 w0 w1 w2 w3) = false →
      parseGang (c :: tk :: ta :: ps :: pg :: u :: w0 :: w1 :: w2 :: w3 :: rest) = .error 0) ∧
    ∀ i, 2 ≤ c.toNat → c.toNat ≤ 4 → rest.length = 4 * c.toNat → (parseTrigger tk ta ps pg).isSome = true →
      u.toNat ≤ 3 → waitLimitOk (rd4 w0 w1 w2 w3) = true → (parseMembers rest)[i]? = some none →
      (∀ m, m < i → (parseMembers rest)[m]? ≠ some none) →
      parseGang (c :: tk :: ta :: ps :: pg :: u :: w0 :: w1 :: w2 :: w3 :: rest) = .error i

/-- SUBMIT-GANG with every check passed admits every member: member `i` takes the `i`-th lowest free slot and
carries the handle of member 0 as the gang identity. -/
def Obligations.GangAdmits : Prop :=
  ∀ (s : State) (n : Station) (b : List Byte) (ds : List JobDesc) (k : SlotIx) (ks : List SlotIx),
    s.free (.sp n) → parseGang b = .ok ds → s.gangBadHead n ds = none →
    (∀ d ∈ ds, s.profileOk d = true ∧ s.predecessorOk n d.trigger = true) →
    s.hasQuota n ds.length = true → s.freeSlots.take ds.length = k :: ks → ks.length + 1 = ds.length →
    Accepts (.submitGang (.sp n) b) (.sp n) 0x11 b
      (byteOf ds.length :: (ds.zip (k :: ks)).flatMap fun x =>
        [byteOf x.2.val, (s.slot x.2).gen] ++
          le2 (max (s.peakPower (s.prof x.1.profile)) (s.head x.1.head).seekPower)) s
      (fun s => renewLease n
        (if (ds.any fun d => d.trigger == .immediate) = true then
          enterReady (k :: ks) (admitMembers n (s.handleOf k) 0 (ds.zip (k :: ks)) s)
        else admitMembers n (s.handleOf k) 0 (ds.zip (k :: ks)) s)) ∧
    (admitMembers n (s.handleOf k) 0 (ds.zip (k :: ks)) s).admitted[n] = s.admitted[n] + ds.length ∧
    (∀ m, m ∉ k :: ks → (admitMembers n (s.handleOf k) 0 (ds.zip (k :: ks)) s).slot m = s.slot m) ∧
    ∀ i d m, ds[i]? = some d → (k :: ks)[i]? = some m →
      ∃ j, (admitMembers n (s.handleOf k) 0 (ds.zip (k :: ks)) s).slot m = ⟨(s.slot m).gen, some j⟩ ∧
        j.station = n ∧ j.ref = d.ref ∧ j.head = d.head ∧ j.profile = d.profile ∧
        j.trigger = d.trigger ∧ j.state = .pending ∧ j.gang = some ⟨s.handleOf k, Fin.ofNat 4 i⟩

/-- A trigger event moves every PENDING job that it is for to READY with the line time, joins it to the
candidates, and leaves the jobs that it is not for, and no gang mate of which it is for, as they were. GO
fires it for the station's PENDING jobs with its tag and answers their number; on SVP, or with a payload that
is not one byte, it is refused. The INDEX edge fires it for every PENDING job with trigger INDEX. -/
def Obligations.TriggersFire : Prop :=
  (∀ (s : State) (p : Job → Bool) (k : SlotIx) (j : Job), s.job k = some j →
    (j.state = .pending → p j = true →
      (fireTrigger p s).job k = some { j with state := .ready, readyAt := some s.lineClock } ∧
      (fireTrigger p s).arbCause = true ∧ ∃ c ∈ (fireTrigger p s).cands, k ∈ c.members) ∧
    (j.state ≠ .pending → (fireTrigger p s).job k = some j) ∧
    ((∀ m ∈ allSlots, s.jobIs m (fun i => i.state == .pending && p i) = true → k ∉ s.membersOf m) →
      (fireTrigger p s).job k = some j)) ∧
  ((∀ (s : State) (n : Station) (tag : Byte), s.free (.sp n) →
    Accepts (.go (.sp n) [tag]) (.sp n) 0x12 [tag]
      [byteOf ((allSlots.filter fun k => s.jobIs k fun j =>
        j.state == .pending && j.station == n && j.trigger == .go tag).length)] s
      (fun s => renewLease n (fireTrigger (fun j => j.state == .pending && j.station == n && j.trigger == .go tag) s))) ∧
  ((∀ (s : State), s.Settled → WrongOnSvp .go 0x12 s ∧ ∀ (n : Station) (b : List Byte), s.free (.sp n) →
    b.length ≠ 1 → Refuses (.go (.sp n) b) (.sp n) 0x12 b .badField 0 0 s) ∧
  ∀ s : State, exec .indexEdge s = .next (finish (fireTrigger (fun j => j.trigger == .index) s))))

/-- CANCEL of a single job, by its state: PENDING and READY end at once with CANCELLED, a running job takes
the abort path with it, and COOLING is cut with the outcome kept. CANCEL of a gang member stops with CANCELLED
every member before COOLING that has no outcome, cuts the named member when it cools, leaves the other cooling
members, and answers the state of the named member and how many it stopped. A payload that is no handle, and a
handle that names no job of the station, are refused, and SVP is a wrong port. -/
def Obligations.CancelSingle : Prop :=
  (∀ (s : State) (n : Station) (k : SlotIx) (j : Job), s.free (.sp n) →
      s.job k = some j → j.station = n → j.gang = none →
      (j.outcome = none → j.state ≠ .cooling →
        Accepts (.cancel (.sp n) [byteOf k.val, (s.slot k).gen]) (.sp n) 0x13
          [byteOf k.val, (s.slot k).gen] [j.state.code, 1] s
          (fun s => renewLease n (abortPath k (s.setOutcome k .cancelled)))) ∧
      (j.state = .cooling →
        Accepts (.cancel (.sp n) [byteOf k.val, (s.slot k).gen]) (.sp n) 0x13
          [byteOf k.val, (s.slot k).gen] [6, 1] s (fun s => renewLease n (endJob k .cut s)))) ∧
  (∀ (s : State) (n : Station) (k : SlotIx) (j : Job) (g : GangTag), s.free (.sp n) →
    s.job k = some j → j.station = n → j.gang = some g →
    ∃ t, exec (.cancel (.sp n) [byteOf k.val, (s.slot k).gen]) s = .next t ∧
      (t.port (.sp n)).reply = some ⟨0x13, .accepted, [j.state.code,
        byteOf (((s.membersOf k).filter fun m => s.jobIs m fun i => i.outcome.isNone && i.state != .cooling).length
          + if j.state = .cooling then 1 else 0)]⟩ ∧
      (∀ m i, m ∈ s.membersOf k → s.job m = some i → i.outcome = none → i.state ≠ .cooling →
        s.Stopped t m i .cancelled) ∧
      (j.state = .cooling → t.job k = none ∧ ∃ r ∈ (t.station n).results,
        r.handle = s.handleOf k ∧ r.outcome = j.outcome ∧ r.release = .cut) ∧
      ∀ m i, m ≠ k → s.job m = some i → i.state = .cooling → ∃ c, t.job m = some { i with converter := c }) ∧
  ∀ s : State, s.Settled → WrongOnSvp .cancel 0x13 s ∧ ∀ (n : Station) (b : List Byte), s.free (.sp n) →
    ((∀ x g, b = [x, g] → 47 < x.toNat) → Refuses (.cancel (.sp n) b) (.sp n) 0x13 b .badField 0 0 s) ∧
    ∀ (k : SlotIx) (g : Byte), b = [byteOf k.val, g] →
      ((s.slot k).gen ≠ g ∨ s.job k = none ∨ ∃ j, s.job k = some j ∧ j.station ≠ n) →
      Refuses (.cancel (.sp n) b) (.sp n) 0x13 b .unknownJob 0 0 s

/-- READ-JOB on a port that may read the job answers its record of 66 bytes and changes nothing else. A
payload that is no handle is refused BAD_FIELD, and a handle that names no job, or a job of another station on
a station port, UNKNOWN_JOB. -/
def Obligations.ReadJobReports : Prop :=
  (∀ (s : State) (p : Port) (k : SlotIx) (j : Job), s.free p → s.job k = some j → mayRead p j = true →
      Accepts (.readJob p [byteOf k.val, (s.slot k).gen]) p 0x14 [byteOf k.val, (s.slot k).gen]
        (j.bytes ⟨k, (s.slot k).gen⟩) s (fun s => renewAt p s) ∧
      (j.bytes ⟨k, (s.slot k).gen⟩).length = 66) ∧
  ∀ (s : State) (p : Port) (b : List Byte), s.Settled → s.free p →
    ((∀ x g, b = [x, g] → 47 < x.toNat) → Refuses (.readJob p b) p 0x14 b .badField 0 0 s) ∧
    ∀ (k : SlotIx) (g : Byte), b = [byteOf k.val, g] →
      ((s.slot k).gen ≠ g ∨ s.job k = none ∨ ∃ j, s.job k = some j ∧ mayRead p j = false) →
      Refuses (.readJob p b) p 0x14 b .unknownJob 0 0 s

/-! ## Requests of a station: notices, results, inputs, lease -/

/-- TAKE-NOTICES and TAKE-RESULTS answer the oldest notices or results, at most the count, with the numbers
removed and left, and remove them. A count out of range, and TAKE-RESULTS on SVP, are refused. -/
def Obligations.TakesRemoveOldest : Prop :=
  (∀ (s : State) (p : Port) (c : Byte), s.free p → 1 ≤ c.toNat → c.toNat ≤ 8 →
    Accepts (.takeNotices p [c]) p 0x15 [c]
      (byteOf (min c.toNat (s.port p).notices.length)
        :: byteOf ((s.port p).notices.length - c.toNat)
        :: ((s.port p).notices.take c.toNat).flatMap Notice.bytes) s
      (fun s => renewAt p (s.setPort p { s.port p with notices := (s.port p).notices.drop c.toNat }))) ∧
  (∀ (s : State) (n : Station) (c : Byte), s.free (.sp n) → 1 ≤ c.toNat → c.toNat ≤ 4 →
    Accepts (.takeResults (.sp n) [c]) (.sp n) 0x16 [c]
      (byteOf (min c.toNat (s.station n).results.length)
        :: byteOf ((s.station n).results.length - c.toNat)
        :: ((s.station n).results.take c.toNat).flatMap ResultRec.bytes) s
      (fun s => renewLease n (s.setStation n
        { s.station n with results := (s.station n).results.drop c.toNat }))) ∧
  ∀ s : State, s.Settled →
    (∀ (p : Port) (b : List Byte), s.free p → (∀ c, b = [c] → c.toNat = 0 ∨ 8 < c.toNat) →
      Refuses (.takeNotices p b) p 0x15 b .badField 0 0 s) ∧
    WrongOnSvp .takeResults 0x16 s ∧
    ∀ (n : Station) (b : List Byte), s.free (.sp n) → (∀ c, b = [c] → c.toNat = 0 ∨ 4 < c.toNat) →
      Refuses (.takeResults (.sp n) b) (.sp n) 0x16 b .badField 0 0 s

/-- A change of an interlock: the live level follows, the mark is set, and INPUT_CHANGED is posted unless the
input was marked; posted to a full queue it is dropped with DROPPED set. A fall reaches every job of the
station from CONNECTING to HEATING with INTERLOCK. A rise reaches none: every job stands as it stood, or, from
READY, is granted by the arbitration that follows when every input of the station is high; no result is
written and no converter outside IDLE is touched, and while an input of the station is low no arbitration
follows at all. READ-INPUTS answers levels and marks, sets the reported levels to the live levels and clears
the marks; on SVP or with a payload it is refused. That a change to the level already held does nothing is the
model's choice (assumption 23). -/
def Obligations.InputsReported : Prop :=
  (∀ (s : State) (n : Station) (i : Interlock) (level : Bool),
    ((s.station n).live.get i = level → s.Settled → exec (.interlockChange n i level) s = .next s) ∧
    ((s.station n).live.get i ≠ level → ∃ t, exec (.interlockChange n i level) s = .next t ∧
      (t.station n).live = (s.station n).live.put i level ∧
      (t.station n).marks = (s.station n).marks.put i true ∧
      (t.station n).reported = (s.station n).reported ∧
      (t.station n).lease = (s.station n).lease ∧
      t.mode = s.mode ∧ t.heads = s.heads ∧
      (level = false → s.ReachedBy t .interlock
        fun k => s.jobIs k (fun j => j.station == n && j.state.running) = true) ∧
      (level = false → (s.station n).marks.get i = false → (s.port (.sp n)).notices.length < 16 →
        (s.port (.sp n)).notices ++ [⟨s.lineClock, .inputChanged ((s.station n).live.put i level)⟩]
          <+: (t.port (.sp n)).notices) ∧
      (level = true → (s.station n).marks.get i = false → (s.port (.sp n)).notices.length < 16 →
        (t.port (.sp n)).notices = (s.port (.sp n)).notices ++
          [⟨s.lineClock, .inputChanged ((s.station n).live.put i level)⟩]) ∧
      (level = true → (s.station n).marks.get i = true →
        (t.port (.sp n)).notices = (s.port (.sp n)).notices) ∧
      ((s.station n).marks.get i = false → 16 ≤ (s.port (.sp n)).notices.length →
        (t.port (.sp n)).notices = (s.port (.sp n)).notices ∧ (t.port (.sp n)).dropped = true) ∧
      (level = true →
        (∀ k j, s.job k = some j → ∃ i, t.job k = some i ∧ j.OrGranted i) ∧
        (∀ k, s.job k = none → t.slot k = s.slot k) ∧
        (∀ m, (t.station m).results = (s.station m).results) ∧
        (∀ c, (s.conv c).state ≠ .idle → t.conv c = s.conv c) ∧
        (s.Settled → ((s.station n).live.put i level).allHigh = true → t.arbSeq = s.arbSeq + 1) ∧
        (s.Settled → ((s.station n).live.put i level).allHigh = false →
          t.slots = s.slots ∧ t.convs = s.convs ∧ t.cands = s.cands)))) ∧
  (∀ (s : State) (n : Station), s.free (.sp n) →
    Accepts (.readInputs (.sp n) []) (.sp n) 0x17 []
      [(s.station n).live.byte, (s.station n).marks.byte] s
      (fun s => renewLease n (s.setStation n
        { s.station n with reported := (s.station n).live, marks := ⟨false, false, false⟩ }))) ∧
  ∀ s : State, s.Settled → WrongOnSvp .readInputs 0x17 s ∧
    ∀ (n : Station) (x : Byte) (b : List Byte), s.free (.sp n) →
      Refuses (.readInputs (.sp n) (x :: b)) (.sp n) 0x17 (x :: b) .badField 0 0 s

/-- RENEW answers the lease state before and renews the lease: OFF stays as it is; LIVE and LAPSED become LIVE
with the timer armed for one period and the hold clear, and clearing a set hold causes an arbitration.
SET-LEASE stores period and action and restarts the lease. Both are refused on the other kind of port, with a
value out of range, and with a payload of another shape. -/
def Obligations.LeasesRenewAndRestart : Prop :=
  (∀ (s : State) (n : Station), s.free (.sp n) →
    Accepts (.renew (.sp n) []) (.sp n) 0x18 [] [(s.station n).lease.state.code] s (fun s => renewLease n s) ∧
    ((s.station n).lease.state = .off → renewLease n s = s) ∧
    ((s.station n).lease.state ≠ .off → (s.station n).lease.period ≠ 0 →
      renewLease n s =
        { s.setStation n { s.station n with lease :=
            { (s.station n).lease with
              state := .live, hold := false, timer := some (s.now + (s.station n).lease.period) } } with
          arbCause := s.arbCause || (s.station n).lease.hold })) ∧
  (∀ (s : State) (n : Station) (lo hi : Byte) (a : LeaseAction), s.free .svp →
    (lo.toNat + 256 * hi.toNat = 0 ∨
      20 ≤ lo.toNat + 256 * hi.toNat ∧ lo.toNat + 256 * hi.toNat ≤ 10000) →
    Accepts (.setLease .svp [byteOf n.val, lo, hi, a.code]) .svp 0x4D [byteOf n.val, lo, hi, a.code] [] s
      (fun s => { s.setStation n { s.station n with lease :=
          if lo.toNat + 256 * hi.toNat = 0 then ⟨0, a, .off, false, none⟩
          else ⟨lo.toNat + 256 * hi.toNat, a, .live, false,
            some (s.now + (lo.toNat + 256 * hi.toNat))⟩ } with
        arbCause := s.arbCause || (s.station n).lease.hold })) ∧
  ∀ s : State, s.Settled → WrongOnSvp .renew 0x18 s ∧ WrongOnStations .setLease 0x4D s ∧
    (∀ (n : Station) (x : Byte) (b : List Byte), s.free (.sp n) →
      Refuses (.renew (.sp n) (x :: b)) (.sp n) 0x18 (x :: b) .badField 0 0 s) ∧
    ∀ b : List Byte, s.free .svp → (∀ st lo hi a, b = [st, lo, hi, a] → 3 < st.toNat ∨ 1 < a.toNat ∨
        0 < lo.toNat + 256 * hi.toNat ∧ lo.toNat + 256 * hi.toNat < 20 ∨ 10000 < lo.toNat + 256 * hi.toNat) →
      Refuses (.setLease .svp b) .svp 0x4D b .badField 0 0 s

/-- A lease that expires lapses and is reported to the station and to SVP; a notice to a full queue is dropped
with DROPPED set and the queue kept. With action HOLD the hold is set and no job is reached; with action ABORT
every job of the station before COOLING is reached with LEASE_LOST. That an expiry before its time changes
nothing is the model's choice (assumptions 2 and 23). -/
def Obligations.LeaseExpires : Prop :=
  ∀ (s : State) (n : Station) (e : Nat), (s.station n).lease.timer = some e →
    (s.now < e → s.Settled → exec (.leaseExpiry n) s = .next s) ∧
    (e ≤ s.now → ∃ t, exec (.leaseExpiry n) s = .next t ∧
      (t.station n).lease.state = .lapsed ∧ (t.station n).lease.timer = none ∧
      ((t.station n).lease.hold = true ↔ (s.station n).lease.action = .hold) ∧
      ((s.port (.sp n)).notices.length < 16 →
        (s.port (.sp n)).notices ++ [⟨s.lineClock, .leaseExpired n (s.station n).lease.action⟩]
          <+: (t.port (.sp n)).notices) ∧
      ((s.port .svp).notices.length < 16 →
        (s.port .svp).notices ++ [⟨s.lineClock, .leaseExpired n (s.station n).lease.action⟩]
          <+: (t.port .svp).notices) ∧
      (∀ p, p = .sp n ∨ p = .svp → 16 ≤ (s.port p).notices.length →
        (t.port p).notices = (s.port p).notices ∧ (t.port p).dropped = true) ∧
      ((s.station n).lease.action = .abort → s.ReachedBy t .leaseLost
        fun k => s.jobIs k (fun j => j.station == n) = true) ∧
      ((s.station n).lease.action = .hold → s.Settled → t.slots = s.slots ∧ t.convs = s.convs ∧
        t.cands = s.cands))

/-- STATION-STATUS answers its 21 bytes, changes nothing but the flags of its port, which it clears, and
renews the lease. LINE-STATUS answers 155 bytes and clears the flags of SVP. Both are refused on the other
kind of port, and STATION-STATUS with a payload. -/
def Obligations.StatusReports : Prop :=
  (∀ (s : State) (n : Station), s.free (.sp n) →
    Accepts (.stationStatus (.sp n) []) (.sp n) 0x19 []
      ([byteOf s.admitted[n], byteOf (s.station n).results.length,
        byteOf (s.port (.sp n)).notices.length, (s.station n).live.byte,
        (s.station n).reported.byte, (s.station n).marks.byte, (s.station n).lease.state.code]
        ++ le2 (s.station n).lease.period
        ++ [(s.station n).lease.action.code, boolByte (s.station n).lease.hold,
          (s.port (.sp n)).flagByte, s.mode.code]
        ++ le2 s.budget ++ le2 s.committed ++ timeBytes s.lineClock) s
      (fun s => renewLease n (s.setPort (.sp n)
        { s.port (.sp n) with framing := false, overrun := false, dropped := false }))) ∧
  (∀ s : State, s.Settled → s.free .svp →
    exec (.lineStatus .svp []) s = .next ((s.setPort .svp
      { s.port .svp with framing := false, overrun := false, dropped := false }).answered
        .svp 0x51 [] .accepted s.lineStatus) ∧
    s.lineStatus.length = 155) ∧
  ∀ s : State, s.Settled → WrongOnSvp .stationStatus 0x19 s ∧ WrongOnStations .lineStatus 0x51 s ∧
    ∀ (n : Station) (x : Byte) (b : List Byte), s.free (.sp n) →
      Refuses (.stationStatus (.sp n) (x :: b)) (.sp n) 0x19 (x :: b) .badField 0 0 s

/-! ## Requests of the supervisor -/

/-- SET-MODE: a payload that is not one mode value is refused BAD_FIELD; RUN and HOLD are refused WRONG_MODE
while ESTOP is asserted; the mode named again does nothing; RUN and HOLD set the mode and post MODE_CHANGED to
every port. STANDBY reaches every job from CONNECTING to HEATING with LINE_ABORT, and leaving STANDBY starts
the warm-up of every enabled converter in OFF. -/
def Obligations.SetModeChanges : Prop :=
  ∀ (s : State) (m : Mode), s.free .svp →
    (m ≠ .standby → s.estop = true → s.Settled →
      Refuses (.setMode .svp [m.code]) .svp 0x40 [m.code] .wrongMode 0 0 s) ∧
    ((m = .standby ∨ s.estop = false) → m = s.mode → s.Settled →
      exec (.setMode .svp [m.code]) s =
        .next (s.answered .svp 0x40 [m.code] .accepted [m.code, m.code])) ∧
    ((m = .standby ∨ s.estop = false) → m ≠ s.mode →
      ∃ t, exec (.setMode .svp [m.code]) s = .next t ∧ t.mode = m ∧ t.estop = s.estop ∧
        (t.port .svp).reply = some ⟨0x40, .accepted, [s.mode.code, m.code]⟩ ∧
        t.budget = s.budget ∧ t.heads = s.heads ∧ t.segs = s.segs ∧ t.profs = s.profs ∧
        (m ≠ .standby → ∀ p, (s.port p).notices.length < 16 →
          (t.port p).notices = (s.port p).notices ++ [⟨s.lineClock, .modeChanged m .setMode⟩]) ∧
        (m = .standby → s.ReachedBy t .lineAbort fun k => s.jobIs k (fun j => j.state.running) = true) ∧
        (s.mode = .standby → ∀ c, (s.conv c).enabled = true → (s.conv c).state = .off →
          (t.conv c).state = .warmup ∧ (t.conv c).warmTimer = some (s.now + 200))) ∧
    ∀ b : List Byte, s.Settled → (∀ x, b = [x] → 2 < x.toNat) →
      Refuses (.setMode .svp b) .svp 0x40 b .badField 0 0 s

/-- Entry into STANDBY acts on each converter by its state, whether it is the operation itself, a SET-MODE, an
assertion of ESTOP or a LINE-RESET that enters: OFF and FAULTED stay; WARMUP and DISCHARGE take pending target
OFF unless it is FAULTED; IDLE and HELD go to OFF with a disconnect of the relay; an energised converter stops
and discharges with that pending target; CONNECTING takes that pending target and waits while its relay is in
motion, and with the relay at rest goes to OFF, or FAULTED, at once with a disconnect of it. A SET-MODE and an
ESTOP then reach the jobs too, and there it is a premise that a job is the one that its converter serves
(JobLaw, which O59 states of every step). What is made of a relay that is closing at a disconnect, and from
when an opening is due, are the model's (assumptions 11 and 13). -/
def Obligations.StandbyActsOnConverters : Prop :=
  (∀ s : State, (standby s).mode = .standby ∧ ∀ c, s.StandbyRow (standby s) c) ∧
  (∀ s : State, s.JobLaw →
    (s.free .svp → s.mode ≠ .standby → ∃ t, exec (.setMode .svp [Mode.standby.code]) s = .next t ∧
      t.mode = .standby ∧ ∀ c, s.StandbyRow t c) ∧
    (s.estop = false → ∃ t, exec .estopAssertion s = .next t ∧ t.mode = .standby ∧ ∀ c, s.StandbyRow t c)) ∧
  ∀ s : State, s.free .svp → ∃ t, exec (.lineReset .svp []) s = .next t ∧
    t.mode = .standby ∧ ∀ c, s.StandbyRow t c

/-- SET-BUDGET stores the budget, answers it with committed power, and causes an arbitration; while committed
power is above the budget nothing is granted. SET-DISCHARGE stores the interval, and the relay of a pool
converter is looked at again under it: without a plan, with a motion in progress, with the output on or in a
reset hold it stays; before the end of the interval it waits for that end; otherwise the motion that its plan
asks for starts, an opening of 10 ms or a closing of 15 ms. A value out of range, a converter number above 5,
a payload of another length and a station port are refused. -/
def Obligations.BudgetAndDischargeStored : Prop :=
  ((∀ (s : State) (lo hi : Byte), s.free .svp →
      (lo.toNat + 256 * hi.toNat ≤ 1500 →
        Accepts (.setBudget .svp [lo, hi]) .svp 0x41 [lo, hi] (le2 (lo.toNat + 256 * hi.toNat) ++ le2 s.committed)
          s (fun s => { s with budget := lo.toNat + 256 * hi.toNat, arbCause := true })) ∧
      (1500 < lo.toNat + 256 * hi.toNat → s.Settled →
        Refuses (.setBudget .svp [lo, hi]) .svp 0x41 [lo, hi] .badField 0 0 s)) ∧
    (∀ s : State, s.Settled → WrongOnStations .setBudget 0x41 s ∧ WrongOnStations .setDischarge 0x4C s ∧
      ∀ b : List Byte, s.free .svp → b.length ≠ 2 → Refuses (.setBudget .svp b) .svp 0x41 b .badField 0 0 s) ∧
    (∀ s : State, s.budget < s.committed → (finish s).slots = s.slots ∧ (finish s).convs = s.convs ∧
      (finish s).committed = s.committed) ∧
    (∀ (s : State) (c : Conv) (lo hi : Byte), s.free .svp →
      (10 ≤ lo.toNat + 256 * hi.toNat → lo.toNat + 256 * hi.toNat ≤ 500 →
        Accepts (.setDischarge .svp [byteOf c.val, lo, hi]) .svp 0x4C [byteOf c.val, lo, hi] [] s
          (fun s => match poolOf c with
            | none => s.setConv c { s.conv c with interval := lo.toNat + 256 * hi.toNat }
            | some p => matrixTry p
              (s.setConv c { s.conv c with interval := lo.toNat + 256 * hi.toNat }))) ∧
      ((lo.toNat + 256 * hi.toNat < 10 ∨ 500 < lo.toNat + 256 * hi.toNat) → s.Settled →
        Refuses (.setDischarge .svp [byteOf c.val, lo, hi]) .svp 0x4C [byteOf c.val, lo, hi] .badField 0 0 s))) ∧
  (∀ (s : State) (p : Pool),
    (s.relayHold ≠ none ∨ (s.relay p).motion ≠ .none ∨ (s.relay p).plan = .empty ∨
        (s.conv (poolConv p)).outputOn = true → matrixTry p s = s) ∧
    (s.relayHold = none → (s.relay p).motion = .none → (s.relay p).plan ≠ .empty →
      (s.conv (poolConv p)).outputOn = false → s.now < s.relayReadyAt p →
      matrixTry p s = s.setRelay p { s.relay p with condTimer := some (s.relayReadyAt p) }) ∧
    (s.MayMove p → ∀ g h : Head,
      ((s.relay p).plan = .open → (s.relay p).pos = .closed g → matrixTry p s = s.setRelay p { s.relay p with
        motion := .opening g (s.now + 10), plan := .empty, condTimer := none }) ∧
      ((s.relay p).plan = .openThenClose h → (s.relay p).pos = .closed g →
        matrixTry p s = s.setRelay p { s.relay p with
          motion := .opening g (s.now + 10), plan := .close h, condTimer := none }) ∧
      ((s.relay p).plan = .close h ∨ (s.relay p).plan = .openThenClose h ∧ (s.relay p).pos = .open →
        matrixTry p s = s.setRelay p { s.relay p with
          motion := .closing h (s.now + 15), plan := .empty, condTimer := none }))) ∧
  ∀ (s : State) (b : List Byte), s.Settled → s.free .svp →
    (∀ c lo hi, b = [c, lo, hi] → 5 < c.toNat ∨ lo.toNat + 256 * hi.toNat < 10 ∨ 500 < lo.toNat + 256 * hi.toNat) →
    Refuses (.setDischarge .svp b) .svp 0x4C b .badField 0 0 s

/-- SET-GUARD-DWELL stores the dwell; a conversion in progress keeps its completion, and a conversion that
starts takes the dwell in force. A dwell out of range and a station port are refused. -/
def Obligations.GuardDwellStored : Prop :=
  (∀ (s : State) (d : Byte), s.Settled → s.free .svp →
    (2 ≤ d.toNat → d.toNat ≤ 50 → exec (.setGuardDwell .svp [d]) s =
      .next ({ s with guardDwell := d.toNat }.answered .svp 0x4E [d] .accepted [])) ∧
    (d.toNat < 2 ∨ 50 < d.toNat → Refuses (.setGuardDwell .svp [d]) .svp 0x4E [d] .badField 0 0 s)) ∧
  (∀ s : State, s.Settled → WrongOnStations .setGuardDwell 0x4E s ∧ ∀ b : List Byte, s.free .svp →
    b.length ≠ 1 → Refuses (.setGuardDwell .svp b) .svp 0x4E b .badField 0 0 s) ∧
  ∀ (s : State) (h : Head) (rest : List Head), s.passList = h :: rest →
    (startConversion s).conversion = some (h, s.now + s.guardDwell)

/-- WRITE-SEGMENTS: all records are written at one event, or none. It is refused on a station port, with the
first index for a count or range that is wrong, with the index of the first record that fails, and with the
lowest index in use. The record checks: which written records are stored, and as what. -/
def Obligations.WriteSegmentsWhole : Prop :=
  (∀ (s : State) (f c : Byte) (body : List Byte) (gs : List Segment), s.Settled → s.free .svp →
    1 ≤ c.toNat → c.toNat ≤ 16 → body.length = 12 * c.toNat → f.toNat + c.toNat ≤ 256 →
    parseSegments body = gs.map some →
    ((∀ i : Fin 256, f.toNat ≤ i.val → i.val < f.toNat + c.toNat → s.segUse[i] = 0) →
      ∃ t, exec (.writeSegments .svp (f :: c :: body)) s = .next t ∧
        (t.port .svp).reply = some ⟨0x42, .accepted, []⟩ ∧
        (∀ i g, gs[i]? = some g → t.segAt (f.toNat + i) = g) ∧
        (∀ i, (i < f.toNat ∨ f.toNat + gs.length ≤ i) → t.segAt i = s.segAt i) ∧
        t.segUse = s.segUse ∧ t.profs = s.profs ∧ t.profUse = s.profUse ∧ t.slots = s.slots ∧
        t.convs = s.convs ∧ t.heads = s.heads) ∧
    ∀ i : Fin 256, f.toNat ≤ i.val → i.val < f.toNat + c.toNat → 0 < s.segUse[i] →
      (∀ m : Fin 256, f.toNat ≤ m.val → m < i → s.segUse[m] = 0) →
      Refuses (.writeSegments .svp (f :: c :: body)) .svp 0x42 (f :: c :: body) .inUse (byteOf i.val) 0 s) ∧
  (∀ s : State, s.Settled → WrongOnStations .writeSegments 0x42 s) ∧
  (∀ (s : State) (f c : Byte) (body : List Byte), s.Settled → s.free .svp → body.length = 12 * c.toNat →
    ((c.toNat = 0 ∨ 16 < c.toNat ∨ 256 < f.toNat + c.toNat) →
      Refuses (.writeSegments .svp (f :: c :: body)) .svp 0x42 (f :: c :: body) .badField f 0 s) ∧
    ∀ i, 1 ≤ c.toNat → c.toNat ≤ 16 → f.toNat + c.toNat ≤ 256 → (parseSegments body)[i]? = some none →
      (∀ m, m < i → (parseSegments body)[m]? ≠ some none) →
      Refuses (.writeSegments .svp (f :: c :: body)) .svp 0x42 (f :: c :: body) .badField
        (byteOf (f.toNat + i)) 0 s) ∧
  (∀ (k : SegKind) (target band p q duration limit : Nat) (g : Segment),
    checkSegment k target band p q duration limit = some g ↔
      match k with
      | .empty => g = ⟨.empty, 0, 0, 0, 0, 0, 0⟩
      | .rise => g = ⟨.rise, target, 0, p, 0, 0, limit⟩ ∧ 300 ≤ target ∧ target ≤ 1100 ∧ 1 ≤ p ∧
          p ≤ 300 ∧ 1 ≤ limit ∧ limit ≤ 60000
      | .soak => g = ⟨.soak, target, band, p, q, duration, 0⟩ ∧ 300 ≤ target ∧ target ≤ 1100 ∧
          1 ≤ band ∧ band ≤ 50 ∧ 1 ≤ p ∧ p ≤ 300 ∧ q ≤ p ∧ 1 ≤ duration ∧ duration ≤ 60000
      | .flow => g = ⟨.flow, target, band, p, q, 0, limit⟩ ∧ 300 ≤ target ∧ target ≤ 1100 ∧
          1 ≤ band ∧ band ≤ 50 ∧ 1 ≤ p ∧ p ≤ 300 ∧ q ≤ p ∧ 1 ≤ limit ∧ limit ≤ 60000
      | .power => g = ⟨.power, 0, 0, p, 0, duration, 0⟩ ∧ 1 ≤ p ∧ p ≤ 300 ∧ 1 ≤ duration ∧
          duration ≤ 60000
      | .coast => g = ⟨.coast, 0, 0, 0, 0, duration, 0⟩ ∧ 1 ≤ duration ∧ duration ≤ 60000)

/-- WRITE-PROFILE stores the record and sets its valid flag, unless the profile is in use or a segment of its
runs is EMPTY or has a target at or above the ceiling. CLEAR-PROFILE clears the valid flag and nothing else,
so that admissions naming the profile fail; a profile in use is refused. A payload that fails its checks and a
station port are refused. -/
def Obligations.ProfilesWrittenAndCleared : Prop :=
  (∀ (s : State) (b : List Byte) (i : Fin 64) (r : Profile), s.Settled → s.free .svp →
    parseWriteProfile b = some (i, r) →
    r.valid = true ∧
    (0 < s.profUse[i] → Refuses (.writeProfile .svp b) .svp 0x43 b .inUse 0 0 s) ∧
    (s.profUse[i] = 0 → ∀ run m, s.contentFail r = some (run, m) →
      Refuses (.writeProfile .svp b) .svp 0x43 b .badProfile run.code (byteOf m) s) ∧
    (s.profUse[i] = 0 → s.contentFail r = none →
      exec (.writeProfile .svp b) s =
        .next ((s.setProf i r).answered .svp 0x43 b .accepted (le2 (s.peakPower r))))) ∧
  (∀ (s : State) (i : Fin 64), s.Settled → s.free .svp →
    (s.profUse[i] = 0 → exec (.clearProfile .svp [byteOf i.val]) s =
      .next ((s.setProf i { s.prof i with valid := false }).answered
        .svp 0x44 [byteOf i.val] .accepted [])) ∧
    (s.setProf i { s.prof i with valid := false }).admissible i = false ∧
    (0 < s.profUse[i] →
      Refuses (.clearProfile .svp [byteOf i.val]) .svp 0x44 [byteOf i.val] .inUse 0 0 s)) ∧
  ∀ s : State, s.Settled → WrongOnStations .writeProfile 0x43 s ∧ WrongOnStations .clearProfile 0x44 s ∧
    (∀ b : List Byte, s.free .svp → parseWriteProfile b = none →
      Refuses (.writeProfile .svp b) .svp 0x43 b .badField 0 0 s) ∧
    ∀ b : List Byte, s.free .svp → (∀ x, b = [x] → 63 < x.toNat) →
      Refuses (.clearProfile .svp b) .svp 0x44 b .badField 0 0 s

/-- WRITE-HEAD replaces the written fields and keeps a learned frequency that lies in the new window; a head
with an admitted job is refused IN_USE. Which payloads pass the field checks, and as what record; every other
payload is refused BAD_FIELD. -/
def Obligations.WriteHeadStores : Prop :=
  (∀ (s : State) (b : List Byte) (h : Head) (r : HeadRec), s.Settled → s.free .svp →
      parseWriteHead b = some (h, r) →
      ((∀ k j, s.job k = some j → j.head ≠ h) → ∃ l,
        exec (.writeHead .svp b) s =
          .next ((s.setHead h { r with learned := l }).answered .svp 0x45 b .accepted []) ∧
        (∀ f, l = some f ↔ (s.head h).learned = some f ∧ r.fmin ≤ f ∧ f ≤ r.fmax)) ∧
      (∀ k j, s.job k = some j → j.head = h → Refuses (.writeHead .svp b) .svp 0x45 b .inUse 0 0 s)) ∧
  (∀ (s : State) (b : List Byte), s.Settled → s.free .svp → parseWriteHead b = none →
    Refuses (.writeHead .svp b) .svp 0x45 b .badField 0 0 s) ∧
  (∀ b : List Byte, b.length ≠ 22 → parseWriteHead b = none) ∧
  ∀ (n o c0 c1 n0 n1 n2 n3 i0 i1 i2 i3 a0 a1 a2 a3 s0 s1 t p0 p1 fl : Byte) (h : Head) (r : HeadRec),
    parseWriteHead [n, o, c0, c1, n0, n1, n2, n3, i0, i1, i2, i3, a0, a1, a2, a3, s0, s1, t, p0, p1, fl] =
        some (h, r) ↔
      h.val = n.toNat ∧ fl.toNat < 4 ∧
      (o = 0xFF ∧ r.owner = none ∨ ∃ st : Station, st.val = o.toNat ∧ r.owner = some st) ∧
      r.cap = rd2 c0 c1 ∧ r.nominal = rd4 n0 n1 n2 n3 ∧ r.fmin = rd4 i0 i1 i2 i3 ∧ r.fmax = rd4 a0 a1 a2 a3 ∧
      r.step = rd2 s0 s1 ∧ r.settle = t.toNat ∧ r.seekPower = rd2 p0 p1 ∧ r.learning = fl.getLsbD 0 ∧
      r.guardEnable = fl.getLsbD 1 ∧ r.learned = none ∧
      r.cap ≤ 300 ∧ 10000 ≤ r.fmin ∧ r.fmin < r.nominal ∧ r.nominal < r.fmax ∧ r.fmax ≤ 400000 ∧
      10 ≤ r.step ∧ r.step ≤ 5000 ∧ 1 ≤ r.settle ∧ r.settle ≤ 50 ∧ 1 ≤ r.seekPower ∧ r.seekPower ≤ 50 ∧
      (r.cap = 0 ∨ r.seekPower ≤ r.cap)

/-- FORGET-LEARNED clears the learned start frequency of one head, in any mode, and changes nothing else: it
then reads as 0 and a seek starts at the nominal frequency. A head number above 15 and a station port are
refused. -/
def Obligations.ForgetLearnedClears : Prop :=
  ∀ s : State, s.Settled →
    (∀ (x : Byte) (h : Head), s.free .svp → h.val = x.toNat → exec (.forgetLearned .svp [x]) s =
      .next ((s.setHead h { s.head h with learned := none }).answered .svp 0x46 [x] .accepted []) ∧
      ({ s.head h with learned := none } : HeadRec).learnedRead = 0 ∧
      ({ s.head h with learned := none } : HeadRec).startFreq = (s.head h).nominal) ∧
    WrongOnStations .forgetLearned 0x46 s ∧
    ∀ b : List Byte, s.free .svp → (∀ x, b = [x] → 15 < x.toNat) →
      Refuses (.forgetLearned .svp b) .svp 0x46 b .badField 0 0 s

/-- READ-TABLE answers the entries of a range of a table and changes nothing. A range outside the table, a
count of 0 or above the table's limit, an unknown selector and a payload of another length are refused. -/
def Obligations.ReadTableReads : Prop :=
  (∀ (s : State) (sel : TableSel) (f c : Byte), s.Settled → s.free .svp →
      (1 ≤ c.toNat → c.toNat ≤ sel.limits.2 → f.toNat + c.toNat ≤ sel.limits.1 →
        exec (.readTable .svp [sel.code, f, c]) s =
          .next (s.answered .svp 0x47 [sel.code, f, c] .accepted
            ([sel.code, f, c] ++ (List.range' f.toNat c.toNat).flatMap (s.entry sel)))) ∧
      ((c.toNat = 0 ∨ sel.limits.2 < c.toNat ∨ sel.limits.1 < f.toNat + c.toNat) →
        Refuses (.readTable .svp [sel.code, f, c]) .svp 0x47 [sel.code, f, c] .badField 0 0 s)) ∧
  ∀ (s : State) (b : List Byte), s.Settled → s.free .svp → (∀ x f c, b = [x, f, c] → 2 < x.toNat) →
    Refuses (.readTable .svp b) .svp 0x47 b .badField 0 0 s

/-- CONVERTER-ENABLE sets the flag, with its effect by the state of the converter; the relay of a pool
converter that it takes from IDLE or HELD to OFF is disconnected: it opens at once or waits for the end of the
discharge interval. A station port and a payload out of range are refused. What is made of a closing relay at
a disconnect, and from when an opening is due, are the model's (assumptions 11 and 13). -/
def Obligations.ConverterEnableActs : Prop :=
  ∀ (s : State) (c : Conv), s.free .svp →
    (∀ on, (s.conv c).enabled = on → s.Settled →
      exec (.converterEnable .svp [byteOf c.val, boolByte on]) s =
        .next (s.answered .svp 0x48 [byteOf c.val, boolByte on] .accepted [])) ∧
    ((s.conv c).enabled = false → (s.conv c).state = .off → s.mode ≠ .standby →
      Accepts (.converterEnable .svp [byteOf c.val, 1]) .svp 0x48 [byteOf c.val, 1] [] s
        (fun s => s.setConv c { s.conv c with
          enabled := true, state := .warmup, warmTimer := some (s.now + 200) })) ∧
    ((s.conv c).enabled = false → ((s.conv c).state ≠ .off ∨ s.mode = .standby) →
      Accepts (.converterEnable .svp [byteOf c.val, 1]) .svp 0x48 [byteOf c.val, 1] [] s
        (fun s => s.setConv c { s.conv c with enabled := true })) ∧
    ((s.conv c).enabled = true → ((s.conv c).state = .off ∨ (s.conv c).state = .faulted) →
      Accepts (.converterEnable .svp [byteOf c.val, 0]) .svp 0x48 [byteOf c.val, 0] [] s
        (fun s => s.setConv c { s.conv c with enabled := false })) ∧
    ((s.conv c).enabled = true → ((s.conv c).state = .idle ∨ (s.conv c).state = .held) →
      Accepts (.converterEnable .svp [byteOf c.val, 0]) .svp 0x48 [byteOf c.val, 0] [] s
        (fun s => disconnect c (s.setConv c { s.conv c with
          enabled := false, state := .off, pend := .none, warmTimer := none }))) ∧
    ((s.conv c).enabled = true → (s.conv c).state ∉ [.off, .faulted, .idle, .held] →
      Accepts (.converterEnable .svp [byteOf c.val, 0]) .svp 0x48 [byteOf c.val, 0] [] s
        (fun s => s.setConv c { s.conv c with
          enabled := false, pend := if (s.conv c).pend = .faulted then .faulted else .off })) ∧
    ((s.conv c).enabled = true → ((s.conv c).state = .idle ∨ (s.conv c).state = .held) →
      ∀ p, poolOf c = some p → ∃ t, exec (.converterEnable .svp [byteOf c.val, 0]) s = .next t ∧
        (t.conv c).state = .off ∧ s.Disconnects t p) ∧
    (s.Settled → WrongOnStations .converterEnable 0x48 s ∧
      ∀ b : List Byte, (∀ x v, b = [x, v] → 5 < x.toNat ∨ 1 < v.toNat) →
        Refuses (.converterEnable .svp b) .svp 0x48 b .badField 0 0 s)

/-- CONVERTER-HOLD: IDLE enters HELD and its relay is disconnected, a busy converter gets pending target HELD.
CONVERTER-RELEASE: HELD enters IDLE with CONVERTER_STATE and an arbitration, unless its relay has an opening
in progress or planned, and a pending HELD is cleared. Every other case is refused WRONG_STATE; a station port
and a converter number above 5 are refused too. A disconnect does nothing at a fixed converter; at a pool
converter it opens the relay at once or leaves it waiting for the end of the discharge interval, and touches
nothing else. What is made of a closing relay, and from when an opening is due, are the model's (assumptions
11 and 13). -/
def Obligations.ConverterHoldAndRelease : Prop :=
  (∀ (s : State) (c : Conv), s.free .svp →
    ((s.conv c).state = .idle → (s.conv c).pend = .none ∨ (s.conv c).pend = .held →
      Accepts (.converterHold .svp [byteOf c.val]) .svp 0x49 [byteOf c.val] [] s
        (fun s => disconnect c (s.setConv c { s.conv c with state := .held, pend := .none }))) ∧
    ((s.conv c).state ∉ [.off, .faulted, .held, .idle] →
      (s.conv c).pend = .none ∨ (s.conv c).pend = .held →
      Accepts (.converterHold .svp [byteOf c.val]) .svp 0x49 [byteOf c.val] [] s
        (fun s => s.setConv c { s.conv c with pend := .held })) ∧
    (((s.conv c).state ∈ [.off, .faulted, .held] ∨ (s.conv c).pend ∈ [.off, .faulted]) → s.Settled →
      Refuses (.converterHold .svp [byteOf c.val]) .svp 0x49 [byteOf c.val] .wrongState 0 0 s)) ∧
  (∀ (s : State) (c : Conv), s.free .svp →
    ((s.conv c).state = .held → s.openingDue c = false →
      Accepts (.converterRelease .svp [byteOf c.val]) .svp 0x4A [byteOf c.val] [] s
        (fun s => ((s.setConv c { s.conv c with state := .idle, pend := .none }).post .svp
          (.converterState c .idle (s.conv c).cause)).raise)) ∧
    ((s.conv c).state = .held → s.openingDue c = true → s.Settled →
      Refuses (.converterRelease .svp [byteOf c.val]) .svp 0x4A [byteOf c.val] .wrongState 0 0 s) ∧
    ((s.conv c).state ≠ .held → (s.conv c).pend = .held →
      Accepts (.converterRelease .svp [byteOf c.val]) .svp 0x4A [byteOf c.val] [] s
        (fun s => s.setConv c { s.conv c with pend := .none })) ∧
    ((s.conv c).state ≠ .held → (s.conv c).pend ≠ .held → s.Settled →
      Refuses (.converterRelease .svp [byteOf c.val]) .svp 0x4A [byteOf c.val] .wrongState 0 0 s)) ∧
  (∀ (s : State) (c : Conv), (poolOf c = none → disconnect c s = s) ∧
    ∀ p, poolOf c = some p → s.Disconnects (disconnect c s) p ∧
      disconnect c s = { s with relays := (disconnect c s).relays } ∧
      (∀ q, q ≠ p → (disconnect c s).relay q = s.relay q) ∧
      (s.free .svp → (s.conv c).state = .idle → (s.conv c).pend = .none ∨ (s.conv c).pend = .held →
        ∃ t, exec (.converterHold .svp [byteOf c.val]) s = .next t ∧ (t.conv c).state = .held ∧
          s.Disconnects t p)) ∧
  ∀ s : State, s.Settled → WrongOnStations .converterHold 0x49 s ∧ WrongOnStations .converterRelease 0x4A s ∧
    ∀ b : List Byte, s.free .svp → (∀ x, b = [x] → 5 < x.toNat) →
      Refuses (.converterHold .svp b) .svp 0x49 b .badField 0 0 s ∧
      Refuses (.converterRelease .svp b) .svp 0x4A b .badField 0 0 s

/-- CONVERTER-CLEAR: a FAULTED converter without overcurrent and with good coolant enters OFF with its cause
cleared, and WARMUP at once when it is enabled outside STANDBY; otherwise, on a station port and with a number
above 5, it is refused. -/
def Obligations.ConverterClearActs : Prop :=
  ∀ (s : State) (c : Conv), s.free .svp →
    ((s.conv c).state = .faulted → (s.conv c).pins.overcurrent = false →
      (s.conv c).pins.coolantLow = false →
      ∃ t, exec (.converterClear .svp [byteOf c.val]) s = .next t ∧
        (t.port .svp).reply = some ⟨0x4B, .accepted, []⟩ ∧ (t.conv c).cause = .none ∧
        (t.conv c).pend = .none ∧
        ((s.conv c).enabled = true → s.mode ≠ .standby →
          (t.conv c).state = .warmup ∧ (t.conv c).warmTimer = some (s.now + 200)) ∧
        ((s.conv c).enabled = false ∨ s.mode = .standby → (t.conv c).state = .off)) ∧
    ((s.conv c).state ≠ .faulted → s.Settled →
      Refuses (.converterClear .svp [byteOf c.val]) .svp 0x4B [byteOf c.val] .wrongState 0 0 s) ∧
    ((s.conv c).state = .faulted →
      (s.conv c).pins.overcurrent = true ∨ (s.conv c).pins.coolantLow = true → s.Settled →
      Refuses (.converterClear .svp [byteOf c.val]) .svp 0x4B [byteOf c.val] .causePresent 0 0 s) ∧
    (s.Settled → WrongOnStations .converterClear 0x4B s ∧ ∀ b : List Byte, (∀ x, b = [x] → 5 < x.toNat) →
      Refuses (.converterClear .svp b) .svp 0x4B b .badField 0 0 s)

/-! ## The end of a job and aborts -/

/-- An outside cause stops every job that it is for before COOLING with its outcome, every other member of
such a job's gang with GANG_ABORT, and leaves the jobs in COOLING; no job that it is for is left before
COOLING. ABORT-STATION is such a cause, LINE_ABORT, for the jobs of a station, and answers how many of them it
reached; a station above 3 is refused. -/
def Obligations.CauseLeavesNone : Prop :=
  ((∀ (s : State) (o : JobOutcome) (p : Job → Bool) (k : SlotIx) (j : Job),
      (reach o p s).job k = some j → s.jobIs k p = true → j.state = .cooling) ∧
    (∀ (s : State) (n : Station), s.free .svp →
      Accepts (.abortStation .svp [byteOf n.val]) .svp 0x4F [byteOf n.val]
        [byteOf ((allSlots.filter fun k => s.jobIs k fun j =>
          j.outcome.isNone && j.state != .cooling && j.station == n).length)] s
        (fun s => reach .lineAbort (fun j => j.station == n) s))) ∧
  (∀ (s : State) (o : JobOutcome) (p : Job → Bool),
    s.ReachedBy (reach o p s) o fun k => s.jobIs k p = true) ∧
  ∀ s : State, s.free .svp →
    (∀ n : Station, ∃ t, exec (.abortStation .svp [byteOf n.val]) s = .next t ∧
      s.ReachedBy t .lineAbort fun k => s.jobIs k (fun j => j.station == n) = true) ∧
    ∀ b : List Byte, s.Settled → (∀ x, b = [x] → 3 < x.toNat) →
      Refuses (.abortStation .svp b) .svp 0x4F b .badField 0 0 s

/-- A job's ENDED: its result joins the station's queue, its slot is freed with the generation raised, its
station's count falls by at least 1 and no count rises, and JOB_ENDED is posted, or dropped with DROPPED set
when the queue is full. Its successors in PENDING are resolved at the same event, a gang whole (assumption 9):
after OK they enter READY at this line time with a candidate entry and an arbitration caused; after any other
outcome they end with release NONE and CHAIN_BROKEN, or the outcome they had (the premise JobLaw, which O59
states of every step, says that a PENDING job has no OK). The ends of the cool dwell and of the cooling limit
are this ENDED with release TIMED and LIMIT. -/
def Obligations.EndedReports : Prop :=
  (∀ (s : State) (k : SlotIx) (j : Job) (r : Release), s.job k = some j →
    (endJob k r s).slot k = ⟨(s.slot k).gen + 1, none⟩ ∧
    (s.station j.station).results ++ [s.resultOf k j r] <+: ((endJob k r s).station j.station).results ∧
    ((s.port (.sp j.station)).notices.length < 16 →
      (s.port (.sp j.station)).notices ++
        [⟨s.lineClock, .jobEnded (s.handleOf k) j.ref j.outcome r⟩]
        <+: ((endJob k r s).port (.sp j.station)).notices) ∧
    (16 ≤ (s.port (.sp j.station)).notices.length →
      ((endJob k r s).port (.sp j.station)).notices = (s.port (.sp j.station)).notices ∧
      ((endJob k r s).port (.sp j.station)).dropped = true) ∧
    (endJob k r s).admitted[j.station] ≤ s.admitted[j.station] - 1 ∧
    (∀ n : Station, (endJob k r s).admitted[n] ≤ s.admitted[n]) ∧
    (endJob k r s).mode = s.mode ∧ (endJob k r s).heads = s.heads ∧ (endJob k r s).convs = s.convs ∧
    (endJob k r s).relays = s.relays ∧ (endJob k r s).committed = s.committed ∧
    (endJob k r s).segs = s.segs ∧ (endJob k r s).profs = s.profs ∧
    ∀ m i, m ≠ k → s.job m = some i → i.trigger ≠ .after (s.handleOf k) → i.state ≠ .pending →
      (endJob k r s).job m = some i) ∧
  (∀ (s : State) (k : SlotIx) (j : Job) (r : Release) (m n : SlotIx) (i w : Job), s.job k = some j →
    m ≠ k → s.job m = some i → i.state = .pending → i.trigger = .after (s.handleOf k) →
    n ∈ s.membersOf m → n ≠ k → s.job n = some w → w.state = .pending →
    (j.outcome = some .ok →
      (endJob k r s).job n = some { w with state := .ready, readyAt := some s.lineClock } ∧
      (endJob k r s).arbCause = true ∧ ∃ c ∈ (endJob k r s).cands, n ∈ c.members) ∧
    (s.JobLaw → j.outcome ≠ some .ok → (endJob k r s).job n = none ∧
      ∃ x ∈ ((endJob k r s).station w.station).results, x.handle = s.handleOf n ∧ x.release = .none ∧
        x.outcome = some (w.outcome.getD .chainBroken))) ∧
  ∀ (s : State) (k : SlotIx) (j : Job) (e : Nat), s.job k = some j → j.state = .cooling → e ≤ s.now →
    (j.coolDwellTimer = some e → exec (.coolDwellExpiry k) s = .next (finish (endJob k .timed s))) ∧
    (j.coolLimitTimer = some e → exec (.coolingLimitExpiry k) s = .next (finish (endJob k .limit s)))

/-- The output-off path of a running job: committed power falls by its reservation, its converter enters
DISCHARGE with the output off, and the job cools, or ends at once when its cool dwell is 0. A failure of one
job stops it with its own outcome and every other member of its gang before COOLING with GANG_ABORT (that the
failing member comes first, and that a converter's fault is such a failure, are readings of the model,
assumptions 10 and 25). -/
def Obligations.AbortOfRunningJob : Prop :=
  (∀ (s : State) (k : SlotIx) (j : Job) (c : Conv), s.job k = some j → j.converter = some c →
      j.state.running = true → j.state ≠ .connecting →
      (abortPath k s).committed = s.committed - j.reservation ∧ (abortPath k s).arbCause = true ∧
      ((abortPath k s).conv c).state = .discharge ∧ ((abortPath k s).conv c).outputOn = false ∧
      ((abortPath k s).conv c).command = 0 ∧ ((abortPath k s).conv c).served = none ∧
      ((abortPath k s).conv c).pend = (s.conv c).pend ∧
      (((s.head j.head).guardEnable = true ∨ (s.prof j.profile).coolDwell ≠ 0) →
        ∃ i, (abortPath k s).job k = some i ∧ i.state = .cooling ∧ i.heatEnd = some s.lineClock ∧
          i.outcome = j.outcome ∧ i.run = j.run ∧ i.index = j.index ∧ i.peak = j.peak ∧
          i.energy = j.energy ∧
          i.coolLimitTimer = some (s.now + (s.prof j.profile).coolLimit * 1000)) ∧
      ((s.head j.head).guardEnable = false → (s.prof j.profile).coolDwell = 0 →
        (abortPath k s).job k = none)) ∧
  ∀ (s : State) (o : JobOutcome) (k : SlotIx), s.ReachedBy (failJob o k s) o fun m => m = k

/-! ## Line inputs and clock -/

/-- An ESTOP assertion: STANDBY, no output on, ESTOP posted to SVP before MODE_CHANGED, and every job before
COOLING reached with the outcome ESTOP; a release posts ESTOP and changes nothing else. With the queue of SVP
full its notices stay and DROPPED is set. That an assertion while asserted and a release while released do
nothing is the model's choice (assumption 23). -/
def Obligations.EstopActs : Prop :=
  (∀ s : State, s.estop = false → ∃ t, exec .estopAssertion s = .next t ∧
    t.estop = true ∧ t.mode = .standby ∧ (s.OutputLaw → ∀ c, (t.conv c).outputOn = false) ∧
    s.ReachedBy t .estop (fun _ => True) ∧
    (16 ≤ (s.port .svp).notices.length →
      (t.port .svp).notices = (s.port .svp).notices ∧ (t.port .svp).dropped = true) ∧
    (s.mode ≠ .standby → (s.port .svp).notices = [] →
      ([⟨s.lineClock, .estop true s.mode⟩, ⟨s.lineClock, .modeChanged .standby .estop⟩] : List Notice) <+:
        ((t.port .svp).notices.filter fun x => match x.body with
          | .converterState _ _ _ => false
          | _ => true))) ∧
  (∀ s : State, s.estop = true → s.Settled → (s.port .svp).notices.length < 16 →
    exec .estopRelease s = .next { s.setPort .svp { s.port .svp with
      notices := (s.port .svp).notices ++ [⟨s.lineClock, .estop false s.mode⟩] } with estop := false }) ∧
  (∀ s : State, s.estop = true → s.Settled → 16 ≤ (s.port .svp).notices.length →
    exec .estopRelease s =
      .next { s.setPort .svp { s.port .svp with dropped := true } with estop := false }) ∧
  ∀ s : State, s.Settled → (s.estop = true → exec .estopAssertion s = .next s) ∧
    (s.estop = false → exec .estopRelease s = .next s)

/-- The line clock rises by 1 and wraps. The model's own count rises with it (assumption 2), the command of
each converter is taken down as the one that its output held over the millisecond that ended (assumption 26),
and nothing else changes. -/
def Obligations.ClockCounts : Prop :=
  ∀ s : State, s.Settled → ∃ t, exec .lineClockMillisecond s = .next t ∧
    t = { s with
      now := s.now + 1, lineClock := BitVec.ofNat 32 (s.lineClock.toNat + 1), convs := t.convs } ∧
    ∀ c, t.conv c = { s.conv c with msCommand := (s.conv c).command }

/-! ## Converters and relays -/

/-- A fault event at a converter, by its state; the level of the condition is an operand by the model's choice
(assumption 4). The job served in SEEKING, ALIGNED, HEATING or CONNECTING is reached with CONVERTER_FAULT (as
one failing job with propagation to its gang, assumption 25). In CONNECTING a converter whose relay is in
motion waits in CONNECTING with pending target FAULTED, and with its relay at rest it enters FAULTED. -/
def Obligations.FaultByState : Prop :=
  (∀ (s : State) (c : Conv) (cond : FaultCond), (s.conv c).pins.get cond = false →
      ∃ t, exec (.converterFaultEvent c cond true) s = .next t ∧ (t.conv c).pins.get cond = true ∧
        (((s.conv c).state = .off ∨ (s.conv c).state = .faulted) → s.Settled →
          t = s.setConv c { s.conv c with pins := (s.conv c).pins.put cond true }) ∧
        (((s.conv c).state = .warmup ∨ (s.conv c).state = .held) →
          (t.conv c).state = .faulted ∧ (t.conv c).cause = faultCauseOf cond ∧ (t.conv c).pend = .none) ∧
        ((s.conv c).state = .idle → (s.conv c).pend = .none →
          (t.conv c).state = .discharge ∧ (t.conv c).pend = .faulted ∧
          (t.conv c).cause = faultCauseOf cond) ∧
        ((s.conv c).state = .discharge → (s.conv c).pend ≠ .faulted →
          (t.conv c).state = .discharge ∧ (t.conv c).pend = .faulted ∧
          (t.conv c).cause = faultCauseOf cond ∧ (t.conv c).dischTimer = (s.conv c).dischTimer) ∧
        ((s.conv c).state = .discharge → (s.conv c).pend = .faulted →
          (t.conv c).cause = (s.conv c).cause) ∧
        ((s.conv c).state.drives = true → (s.conv c).pend ≠ .faulted →
          (t.conv c).outputOn = false ∧ (t.conv c).state = .discharge ∧ (t.conv c).pend = .faulted ∧
          (t.conv c).cause = faultCauseOf cond)) ∧
  ∀ (s : State) (c : Conv) (cond : FaultCond) (k : SlotIx) (j : Job), (s.conv c).pins.get cond = false →
    (s.conv c).served = some (s.handleOf k) → s.job k = some j → j.outcome = none → j.state ≠ .cooling →
    ((s.conv c).state.drives = true → ∃ t, exec (.converterFaultEvent c cond true) s = .next t ∧
      s.ReachedBy t .converterFault fun m => m = k) ∧
    ((s.conv c).state = .connecting → (s.conv c).pend ≠ .faulted →
      ∃ t, exec (.converterFaultEvent c cond true) s = .next t ∧
        s.ReachedBy t .converterFault (fun m => m = k) ∧
        ∀ p, poolOf c = some p → j.state = .connecting → j.converter = some c →
          (∀ m i, m ∈ s.membersOf k → m ≠ k → s.job m = some i → i.converter ≠ some c) →
          (t.conv c).served = none ∧ (t.conv c).cause = faultCauseOf cond ∧
          ((s.relay p).motion ≠ .none → (t.conv c).state = .connecting ∧ (t.conv c).pend = .faulted) ∧
          ((s.relay p).motion = .none → (t.conv c).state = .faulted ∧ (t.conv c).pend = .none))

/-- The end of a discharge resolves a converter by its pending target. The end of warm-up tests the
power-stage inputs in their order and otherwise resolves the converter by its pending target; while a pool
converter's relay is not open and at rest, or the reset hold is on, it waits. That either event before its
time changes nothing is the model's choice (assumptions 2 and 23). -/
def Obligations.ConvertersResolve : Prop :=
  (∀ (s : State) (c : Conv) (e : Nat), (s.conv c).state = .discharge → (s.conv c).dischTimer = some e →
    (s.now < e → s.Settled → exec (.dischargeEnd c) s = .next s) ∧
    (e ≤ s.now →
      ((s.conv c).pend = .faulted → ∃ t, exec (.dischargeEnd c) s = .next t ∧
        (t.conv c).state = .faulted ∧ (t.conv c).pend = .none) ∧
      ((s.conv c).pend = .held → ∃ t, exec (.dischargeEnd c) s = .next t ∧
        (t.conv c).state = .held ∧ (t.conv c).pend = .none) ∧
      ((s.conv c).pend = .off → ((s.conv c).enabled = false ∨ s.mode = .standby) →
        ∃ t, exec (.dischargeEnd c) s = .next t ∧ (t.conv c).state = .off ∧ (t.conv c).pend = .none) ∧
      (((s.conv c).pend = .none ∨
          (s.conv c).pend = .off ∧ (s.conv c).enabled = true ∧ s.mode ≠ .standby) →
        exec (.dischargeEnd c) s = .next (finish
          (s.setConv c { s.conv c with state := .idle, pend := .none, dischTimer := none }).raise)))) ∧
  (∀ (s : State) (c : Conv) (e : Nat), (s.conv c).state = .warmup → (s.conv c).warmTimer = some e →
    e ≤ s.now → warmupMayEnd c s = true →
    ((s.conv c).pins.overcurrent = true → ∃ t, exec (.warmupEnd c) s = .next t ∧
      (t.conv c).state = .faulted ∧ (t.conv c).cause = .overcurrent) ∧
    ((s.conv c).pins.overcurrent = false → (s.conv c).pins.coolantLow = true →
      ∃ t, exec (.warmupEnd c) s = .next t ∧ (t.conv c).state = .faulted ∧
        (t.conv c).cause = .coolant) ∧
    ((s.conv c).pins = ⟨false, false, true⟩ → ∃ t, exec (.warmupEnd c) s = .next t ∧
      (t.conv c).state = .faulted ∧ (t.conv c).cause = .linkLow) ∧
    ((s.conv c).pins = ⟨false, false, false⟩ → (s.conv c).pend = .none →
      exec (.warmupEnd c) s = .next (finish
        ((s.setConv c { s.conv c with state := .idle, pend := .none, warmTimer := none }).post .svp
          (.converterState c .idle (s.conv c).cause)).raise)) ∧
    ((s.conv c).pins = ⟨false, false, false⟩ → ∃ t, exec (.warmupEnd c) s = .next t ∧ s.Resolved t c)) ∧
  ∀ (s : State) (c : Conv) (e : Nat), s.Settled → (s.conv c).state = .warmup → (s.conv c).warmTimer = some e →
    (s.now < e → exec (.warmupEnd c) s = .next s) ∧
    (e ≤ s.now → warmupMayEnd c s = false →
      exec (.warmupEnd c) s = .next (s.setConv c { s.conv c with warmTimer := none }))

/-- Relay motions: an opening completes with the relay open and an arbitration caused, or, in a reconnect,
with the planned closing started at the same event; a closing completes with the relay closed, and the served
job in CONNECTING enters SEEKING with its converter. A condition timer that is due starts the planned opening.
When the connection was withdrawn during a motion, the completion of the motion resolves the converter by its
pending target. -/
def Obligations.RelayMotionsComplete : Prop :=
  ((∀ (s : State) (p : Pool) (h : Head) (e : Nat), (s.relay p).motion = .opening h e → e ≤ s.now →
      (s.relay p).plan = .empty → ∃ t, exec (.relayOpeningComplete p) s = .next t ∧
        (t.relay p).pos = .open ∧ (t.relay p).openingDue = false ∧ t.arbSeq = s.arbSeq + 1) ∧
    (∀ (s : State) (p : Pool) (h : Head) (e : Nat) (k : SlotIx) (j : Job), s.Settled →
      (s.relay p).motion = .closing h e → e ≤ s.now → (s.relay p).plan = .empty →
      (s.conv (poolConv p)).state = .connecting → (s.conv (poolConv p)).served = some (s.handleOf k) →
      s.job k = some j → j.state = .connecting →
      ∃ t, exec (.relayClosingComplete p) s = .next t ∧ (t.relay p).pos = .closed h ∧
        (t.relay p).motion = .none ∧ (t.relay p).lastClose = some s.now ∧
        (t.conv (poolConv p)).state = .seeking ∧ (t.conv (poolConv p)).outputOn = true ∧
        (t.conv (poolConv p)).command = (s.head j.head).seekPower ∧
        (t.conv (poolConv p)).tun = ⟨.seek, 0, 0, some (s.now + (s.head j.head).settle)⟩ ∧
        (t.conv (poolConv p)).nextSample = some (s.now + 1) ∧
        t.job k = some { j with state := .seeking } ∧
        ((s.head j.head).guardEnable = true → j.head ∈ t.scanSet)) ∧
    ∀ (s : State) (p : Pool) (h : Head) (e : Nat), s.Settled → (s.relay p).condTimer = some e → e ≤ s.now →
      s.relayHold = none → (s.relay p).motion = .none → (s.relay p).plan = .open →
      (s.relay p).pos = .closed h → (s.conv (poolConv p)).outputOn = false →
      (s.conv (poolConv p)).lastOffAt + (s.conv (poolConv p)).interval ≤ s.now →
      exec (.relayConditionTimer p) s = .next (s.setRelay p { s.relay p with
        motion := .opening h (s.now + 10), plan := .empty, condTimer := none })) ∧
  (∀ (s : State) (p : Pool) (g h : Head) (e : Nat), (s.relay p).motion = .opening g e → e ≤ s.now →
    (s.relay p).plan = .close h → s.relayHold = none → (s.conv (poolConv p)).state = .connecting →
    (s.conv (poolConv p)).served ≠ none → (s.conv (poolConv p)).outputOn = false →
    (s.conv (poolConv p)).lastOffAt + (s.conv (poolConv p)).interval ≤ s.now →
    ∃ t, exec (.relayOpeningComplete p) s = .next t ∧
      t.relay p = { s.relay p with
        pos := .open, motion := .closing h (s.now + 15), plan := .empty, condTimer := none,
        openingDue := false } ∧
      t.conv (poolConv p) = s.conv (poolConv p)) ∧
  ∀ (s : State) (p : Pool) (h : Head) (e : Nat), (s.conv (poolConv p)).state = .connecting →
    (s.conv (poolConv p)).served = none → (s.relay p).plan = .empty → e ≤ s.now →
    ((s.relay p).motion = .opening h e → ∃ t, exec (.relayOpeningComplete p) s = .next t ∧
      s.Resolved t (poolConv p)) ∧
    ((s.relay p).motion = .closing h e → ∃ t, exec (.relayClosingComplete p) s = .next t ∧
      s.Resolved t (poolConv p) ∧ (t.relay p).pos = .closed h)

/-- What the events of the bank, of heating, of guards and of the timers of jobs leave as it is. -/
def Obligations.WorkFrame : Prop :=
  ∀ (i : Instr) (s : State), isWorkEvent i = true → ∃ t, exec i s = .next t ∧ s.SameSettings t

/-! ## Tuning, samples, segments -/

/-- A settle expiry in SEEK: a step inside the window and the limit of 64 is taken, a centred report counts,
and a BELOW or ABOVE report at step count 64 or with a step outside the window fails the job with TUNE_FAIL.
In TRACK: a step inside the window is taken without limit, a centred report changes no frequency, and a step
outside on either side fails the job with TUNE_LOST. -/
def Obligations.SettleExpirySteps : Prop :=
  (∀ (s : State) (c : Conv) (k : SlotIx) (j : Job) (e : Nat),
    (s.conv c).served = some (s.handleOf k) → s.job k = some j → j.state = .seeking →
    (s.conv c).state = .seeking → (s.conv c).tun.phase = .seek →
    (s.conv c).tun.settleTimer = some e → e ≤ s.now →
    ((s.conv c).tun.stepCount < 64 → (s.conv c).drive + (s.head j.head).step ≤ (s.head j.head).fmax →
      (s.head j.head).fmin ≤ (s.conv c).drive + (s.head j.head).step →
      exec (.settleExpiry c .below) s = .next (finish (s.setConv c { s.conv c with
        drive := (s.conv c).drive + (s.head j.head).step,
        tun := ⟨.seek, (s.conv c).tun.stepCount + 1, 0, some (s.now + (s.head j.head).settle)⟩ }))) ∧
    ((s.conv c).tun.stepCount < 64 → (s.head j.head).fmin ≤ (s.conv c).drive - (s.head j.head).step →
      (s.conv c).drive - (s.head j.head).step ≤ (s.head j.head).fmax →
      exec (.settleExpiry c .above) s = .next (finish (s.setConv c { s.conv c with
        drive := (s.conv c).drive - (s.head j.head).step,
        tun := ⟨.seek, (s.conv c).tun.stepCount + 1, 0, some (s.now + (s.head j.head).settle)⟩ }))) ∧
    ((s.conv c).tun.centred + 1 < 3 →
      exec (.settleExpiry c .centered) s = .next (finish (s.setConv c { s.conv c with
        tun := ⟨.seek, (s.conv c).tun.stepCount, (s.conv c).tun.centred + 1,
          some (s.now + (s.head j.head).settle)⟩ }))) ∧
    ((64 ≤ (s.conv c).tun.stepCount ∨ (s.head j.head).fmax < (s.conv c).drive + (s.head j.head).step ∨
        (s.conv c).drive + (s.head j.head).step < (s.head j.head).fmin) →
      exec (.settleExpiry c .below) s = .next (finish (failJob .tuneFail k (s.setConv c
        { s.conv c with tun := { (s.conv c).tun with settleTimer := none } })))) ∧
    ((64 ≤ (s.conv c).tun.stepCount ∨ (s.conv c).drive < (s.head j.head).fmin + (s.head j.head).step ∨
        (s.head j.head).fmax + (s.head j.head).step < (s.conv c).drive) → 0 < (s.head j.head).fmin →
      exec (.settleExpiry c .above) s = .next (finish (failJob .tuneFail k (s.setConv c
        { s.conv c with tun := { (s.conv c).tun with settleTimer := none } }))))) ∧
  (∀ (s : State) (c : Conv) (k : SlotIx) (j : Job) (e : Nat),
    (s.conv c).served = some (s.handleOf k) → s.job k = some j →
    (s.conv c).tun.phase = .track → (s.conv c).tun.settleTimer = some e → e ≤ s.now →
    exec (.settleExpiry c .centered) s = .next (finish (s.setConv c { s.conv c with
      tun := { (s.conv c).tun with settleTimer := some (s.now + (s.head j.head).settle) } })) ∧
    ((s.conv c).drive + (s.head j.head).step ≤ (s.head j.head).fmax →
      exec (.settleExpiry c .below) s = .next (finish (s.setConv c { s.conv c with
        drive := (s.conv c).drive + (s.head j.head).step,
        tun := { (s.conv c).tun with settleTimer := some (s.now + (s.head j.head).settle) } }))) ∧
    ((s.head j.head).fmin + (s.head j.head).step ≤ (s.conv c).drive →
      exec (.settleExpiry c .above) s = .next (finish (s.setConv c { s.conv c with
        drive := (s.conv c).drive - (s.head j.head).step,
        tun := { (s.conv c).tun with settleTimer := some (s.now + (s.head j.head).settle) } }))) ∧
    ((s.head j.head).fmax < (s.conv c).drive + (s.head j.head).step →
      exec (.settleExpiry c .below) s = .next (finish (failJob .tuneLost k (s.setConv c
        { s.conv c with tun := { (s.conv c).tun with settleTimer := none } })))) ∧
    ((s.conv c).drive < (s.head j.head).fmin + (s.head j.head).step →
      exec (.settleExpiry c .above) s = .next (finish (failJob .tuneLost k (s.setConv c
        { s.conv c with tun := { (s.conv c).tun with settleTimer := none } })))))

/-- Lock of a single job: the locked frequency is written, job and converter enter HEATING, the first segment
of the head run is entered and JOB_HEATING is posted. Lock of a gang member: the job enters ALIGNING and its
converter ALIGNED, tracking; when every other member is in ALIGNING, all of them enter HEATING at the one
event with their head runs started, and JOB_HEATING is posted for each in member order (the order of the
slots, assumption 18). -/
def Obligations.LockStartsHeating : Prop :=
  (∀ (s : State) (c : Conv) (k : SlotIx) (j : Job) (e : Nat), s.Settled →
      (s.conv c).served = some (s.handleOf k) → s.job k = some j → j.state = .seeking →
      j.gang = none → j.converter = some c → (s.conv c).state = .seeking → (s.conv c).tun.phase = .seek →
      (s.conv c).tun.settleTimer = some e → e ≤ s.now → (s.conv c).tun.centred = 2 →
      ∃ t, exec (.settleExpiry c .centered) s = .next t ∧
        t.job k = some { j with
          state := .heating, heatingAt := some s.lineClock, locked := (s.conv c).drive, run := .head,
          index := 0, segEntry := some s.lineClock } ∧
        (t.conv c).state = .heating ∧ (t.conv c).drive = (s.conv c).drive ∧
        (t.conv c).eng.phase = .run ∧
        (t.conv c).eng.seg = some ⟨(s.prof j.profile).headStart, s.segAt (s.prof j.profile).headStart⟩ ∧
        ((s.segAt (s.prof j.profile).headStart).kind = .coast →
          (t.conv c).outputOn = false ∧ (t.conv c).tun.phase = .suspended) ∧
        ((s.segAt (s.prof j.profile).headStart).kind ≠ .coast →
          (t.conv c).outputOn = true ∧ (t.conv c).tun.phase = .track ∧
          (t.conv c).tun.settleTimer = some (s.now + (s.head j.head).settle)) ∧
        ((s.port (.sp j.station)).notices.length < 16 →
          (t.port (.sp j.station)).notices = (s.port (.sp j.station)).notices ++
            [⟨s.lineClock, .jobHeating (s.handleOf k) j.ref j.head c⟩])) ∧
  ∀ (s : State) (c : Conv) (k : SlotIx) (j : Job) (g : GangTag) (e : Nat), s.Settled →
    (s.conv c).served = some (s.handleOf k) → s.job k = some j → j.state = .seeking →
    j.gang = some g → j.converter = some c → (s.conv c).state = .seeking → (s.conv c).tun.phase = .seek →
    (s.conv c).tun.settleTimer = some e → e ≤ s.now → (s.conv c).tun.centred = 2 →
    (∀ m, m ∈ s.membersOf k → m ≠ k → s.jobIs m (fun i => i.state == .aligning) = false →
      exec (.settleExpiry c .centered) s = .next
        ((s.setSlot k { s.slot k with job := some { j with state := .aligning, locked := (s.conv c).drive } }).setConv c
          { s.conv c with
            state := .aligned,
            tun := ⟨.track, (s.conv c).tun.stepCount, 3, some (s.now + (s.head j.head).settle)⟩ })) ∧
    ((∀ m ∈ s.membersOf k, ∃ i d, s.job m = some i ∧ i.converter = some d ∧ i.station = j.station ∧
        (m ≠ k → i.state = .aligning)) →
      ∃ t, exec (.settleExpiry c .centered) s = .next t ∧
        (∀ m i d, m ∈ s.membersOf k → s.job m = some i → i.converter = some d →
          t.job m = some { i with
            state := .heating, heatingAt := some s.lineClock, run := .head, index := 0,
            segEntry := some s.lineClock, locked := if m = k then (s.conv c).drive else i.locked } ∧
          (t.conv d).state = .heating ∧ (t.conv d).eng.phase = .run) ∧
        ((s.port (.sp j.station)).notices.length + (s.membersOf k).length ≤ 16 →
          (t.port (.sp j.station)).notices = (s.port (.sp j.station)).notices ++
            (s.membersOf k).filterMap fun m => (s.job m).bind fun i => i.converter.map fun d =>
              ⟨s.lineClock, .jobHeating (s.handleOf m) i.ref i.head d⟩))

/-- An accepted sample adds to the energy the command held over the millisecond that ended (kept from the last
tick of the line clock, the model's choice, assumption 26); a temperature raises the peak and counts time
above flow; NO_SIGNAL is counted and holds the command at 0 until another reading, and the tenth in a row
fails the job with SENSOR_LOST; OVER and a temperature above the ceiling fail it with OVERHEAT. Before HEATING
the seek power stays in force; in HEATING the sample then ends the segment in effect, or gives its new base
command. A sample within 20 ms of the last closing of a pool converter's relay is discarded: only the sample
time moves on. -/
def Obligations.SamplesMeasure : Prop :=
  ((∀ (s : State) (c : Conv) (k : SlotIx) (j : Job) (e temp : Nat) (flow : Bool), s.Settled →
      (s.conv c).served = some (s.handleOf k) → s.job k = some j →
      (s.conv c).nextSample = some e → e ≤ s.now → (s.conv c).eng.phase = .watch →
      (∀ p t, poolOf c = some p → (s.relay p).lastClose = some t → t + 20 ≤ s.now) →
      temp ≤ (s.prof j.profile).ceiling →
      ∃ t, exec (.pyrometerSample c (.temp temp) flow) s = .next t ∧
        t.job k = some { j with
          energy := j.energy + BitVec.ofNat 32 (s.conv c).msCommand, peak := max j.peak temp,
          above := j.above + (if (s.prof j.profile).flowTemp ≤ temp then 1 else 0), noSig := 0 } ∧
        (t.conv c).command = (s.head j.head).seekPower ∧ (t.conv c).eng.zeroHold = false ∧
        (t.conv c).nextSample = some (s.now + 1) ∧ (t.conv c).state = (s.conv c).state ∧
        (∀ m, m ≠ k → t.slot m = s.slot m) ∧ (∀ d, d ≠ c → t.conv d = s.conv d) ∧
        t.ports = s.ports ∧ t.stations = s.stations ∧ t.committed = s.committed) ∧
    (∀ (s : State) (p : Pool) (e at_ : Nat) (reading : PyroReading) (flow : Bool), s.Settled →
      (s.conv (poolConv p)).nextSample = some e → e ≤ s.now →
      (s.relay p).lastClose = some at_ → s.now < at_ + 20 →
      exec (.pyrometerSample (poolConv p) reading flow) s =
        .next (s.setConv (poolConv p) { s.conv (poolConv p) with nextSample := some (s.now + 1) }))) ∧
  ∀ (s : State) (c : Conv) (k : SlotIx) (j : Job) (e : Nat) (reading : PyroReading) (flow : Bool),
    (s.conv c).served = some (s.handleOf k) → s.job k = some j →
    (s.conv c).nextSample = some e → e ≤ s.now → (s.conv c).eng.phase = .watch ∨ (s.conv c).eng.phase = .run →
    (∀ p t, poolOf c = some p → (s.relay p).lastClose = some t → t + 20 ≤ s.now) →
    ((∀ t, reading = .temp t → t ≤ (s.prof j.profile).ceiling) → reading ≠ .over →
      (reading = .noSignal → j.noSig + 1 < 10) →
      ∃ u, u = { s with slots := u.slots, convs := u.convs } ∧
        u.slot k = ⟨(s.slot k).gen, some (j.sampled (s.conv c).msCommand (s.prof j.profile).flowTemp reading)⟩ ∧
        (∀ m, m ≠ k → u.slot m = s.slot m) ∧ (∀ d, d ≠ c → u.conv d = s.conv d) ∧
        u.conv c = { s.conv c with
          nextSample := some (s.now + 1)
          eng := { (s.conv c).eng with zeroHold := reading == .noSignal }
          command := if reading = .noSignal then 0
            else if (s.conv c).eng.phase = .run then (s.conv c).eng.base else (s.head j.head).seekPower } ∧
        ((s.conv c).eng.phase = .watch → exec (.pyrometerSample c reading flow) s = .next (finish u)) ∧
        ∀ g, (s.conv c).eng.phase = .run → (s.conv c).eng.seg = some g →
          (g.seg.endsAt reading flow = true →
            exec (.pyrometerSample c reading flow) s = .next (finish (advance c k u))) ∧
          (g.seg.endsAt reading flow = false →
            exec (.pyrometerSample c reading flow) s = .next (finish (u.setConv c { u.conv c with
              eng := { (u.conv c).eng with base := g.seg.baseAt (s.conv c).eng.base reading }
              command := if reading = .noSignal then 0
                else g.seg.baseAt (s.conv c).eng.base reading })))) ∧
    ((reading = .over ∨ ∃ t, reading = .temp t ∧ (s.prof j.profile).ceiling < t) → j.outcome = none →
      j.state ≠ .cooling → ∃ t, exec (.pyrometerSample c reading flow) s = .next t ∧
        s.ReachedBy t .overheat fun m => m = k) ∧
    (reading = .noSignal → 10 ≤ j.noSig + 1 → j.outcome = none → j.state ≠ .cooling →
      ∃ t, exec (.pyrometerSample c reading flow) s = .next t ∧ s.ReachedBy t .sensorLost fun m => m = k)

/-- The three-level rule and the segments that a sample ends. -/
def Obligations.SegmentRules : Prop :=
  ∀ (g : Segment) (temp : Nat) (flow : Bool),
    (temp + g.band < g.target → g.level (.temp temp) = some g.p) ∧
    (g.target ≤ temp + g.band → temp ≤ g.target + g.band → g.level (.temp temp) = some g.q) ∧
    (g.target + g.band < temp → g.level (.temp temp) = some 0) ∧ g.level .under = some g.p ∧
    g.level .noSignal = none ∧
    (∀ base r, (g.kind = .soak ∨ g.kind = .flow → g.baseAt base r = (g.level r).getD base) ∧
      (g.kind = .rise ∨ g.kind = .power ∨ g.kind = .coast → g.baseAt base r = base)) ∧
    (g.kind = .rise → (g.endsAt (.temp temp) flow = true ↔ g.target ≤ temp)) ∧
    (∀ r, g.kind = .flow → g.endsAt r flow = flow) ∧
    (∀ r, g.kind = .soak ∨ g.kind = .power ∨ g.kind = .coast → g.endsAt r flow = false)

/-- The duration of a segment expires: the next segment of the run is entered, after the last of the head run
the first of the tail run. The limit of a RISE or FLOW segment expires: the job fails with SEGMENT_TIMEOUT or
FLOW_TIMEOUT, and the other members of its gang are stopped. -/
def Obligations.SegmentTimersExpire : Prop :=
  ((∀ (s : State) (c : Conv) (k : SlotIx) (j : Job) (e : Nat) (r : Run) (i : Nat), s.Settled →
      (s.conv c).served = some (s.handleOf k) → s.job k = some j → j.state = .heating →
      (s.conv c).eng.timer = .duration e → e ≤ s.now →
      (r = j.run ∧ i = j.index + 1 ∧ i < ((s.prof j.profile).window r).2 ∨
        r = .tail ∧ i = 0 ∧ j.run = .head ∧ (s.prof j.profile).headCount ≤ j.index + 1 ∧
          (s.prof j.profile).tailCount ≠ 0) →
      ∃ t, exec (.segmentDurationExpiry c) s = .next t ∧
        t.job k = some { j with run := r, index := i, segEntry := some s.lineClock } ∧
        (t.conv c).eng.seg = some ⟨((s.prof j.profile).window r).1 + i,
          s.segAt (((s.prof j.profile).window r).1 + i)⟩ ∧
        ((s.segAt (((s.prof j.profile).window r).1 + i)).kind = .coast →
          (t.conv c).outputOn = false ∧ (t.conv c).command = 0) ∧
        ((s.segAt (((s.prof j.profile).window r).1 + i)).kind ∈ [.rise, .soak, .flow, .power] →
          (t.conv c).outputOn = true ∧
          (t.conv c).command = if (s.conv c).eng.zeroHold then 0
            else (s.segAt (((s.prof j.profile).window r).1 + i)).p) ∧
        t.committed = s.committed ∧ t.ports = s.ports) ∧
    (∀ (s : State) (c : Conv) (k : SlotIx) (j : Job) (e : Nat) (g : SegInEffect),
      (s.conv c).served = some (s.handleOf k) → s.job k = some j → j.outcome = none →
      j.state = .heating → j.converter = some c → j.gang = none →
      (s.conv c).eng.timer = .limit e → (s.conv c).eng.seg = some g → e ≤ s.now →
      ((s.head j.head).guardEnable = true ∨ (s.prof j.profile).coolDwell ≠ 0) →
      ∃ t, exec (.segmentLimitExpiry c) s = .next t ∧
        ∃ i, t.job k = some i ∧ i.state = .cooling ∧
          i.outcome = some (if g.seg.kind = .flow then .flowTimeout else .segmentTimeout))) ∧
  ∀ (s : State) (c : Conv) (k : SlotIx) (j : Job) (e : Nat) (g : SegInEffect),
    (s.conv c).served = some (s.handleOf k) → s.job k = some j → j.outcome = none → j.state ≠ .cooling →
    (s.conv c).eng.timer = .limit e → (s.conv c).eng.seg = some g → e ≤ s.now →
    ∃ t, exec (.segmentLimitExpiry c) s = .next t ∧
      s.ReachedBy t (if g.seg.kind = .flow then .flowTimeout else .segmentTimeout) fun m => m = k

/-- The end of the last segment of the last run ends heating: the output goes off, the converter enters
DISCHARGE, committed power falls by the reservation and the job cools with outcome OK or UNDERWET by its time
above flow. The end of a duration reaches it through the advance past the last segment. -/
def Obligations.HeatingEnds : Prop :=
  (∀ (s : State) (c : Conv) (k : SlotIx) (j : Job), s.job k = some j → j.outcome = none →
      ((s.head j.head).guardEnable = true ∨ (s.prof j.profile).coolDwell ≠ 0) →
      (endHeating c k s).committed = s.committed - j.reservation ∧ (endHeating c k s).arbCause = true ∧
      ((endHeating c k s).conv c).outputOn = false ∧ ((endHeating c k s).conv c).command = 0 ∧
      ((endHeating c k s).conv c).state = .discharge ∧ ((endHeating c k s).conv c).served = none ∧
      (∃ i, (endHeating c k s).job k = some i ∧ i.state = .cooling ∧ i.heatEnd = some s.lineClock ∧
        i.outcome = some (if (s.prof j.profile).minAbove ≤ j.above then .ok else .underwet)) ∧
      (endHeating c k s).head j.head =
        (if (s.prof j.profile).minAbove ≤ j.above ∧ (s.head j.head).learning = true then
          { s.head j.head with learned := some j.locked } else s.head j.head)) ∧
  ∀ (s : State) (c : Conv) (k : SlotIx) (j : Job), s.job k = some j → j.state = .heating →
    ((s.prof j.profile).window j.run).2 ≤ j.index + 1 → (j.run = .tail ∨ (s.prof j.profile).tailCount = 0) →
    advance c k s = endHeating c k s ∧
    ∀ e, (s.conv c).served = some (s.handleOf k) → (s.conv c).eng.timer = .duration e → e ≤ s.now →
      exec (.segmentDurationExpiry c) s = .next (finish (endHeating c k s))

/-! ## Guards, waits, cooling -/

/-- A guard conversion of a COOLING job at or below the release temperature ends it with release GUARD; above
it, only the guard peak may rise; OVER and NO_SIGNAL change nothing of it. A conversion of a job in SEEKING,
ALIGNING or HEATING: a temperature at or below the guard limit raises the guard peak and ends the run of
NO_SIGNAL, the second NO_SIGNAL in a row fails the job with SENSOR_LOST, and OVER or a temperature above the
limit fails it with GUARD_OVER. The pass: a completed conversion is followed at the same event by that of the
next head of the pass list, after the last one by a new pass over the scan set, and by none when the scan set
is empty. A cooling job that ends takes its head out of the scan set and the pass; a conversion of that head
is abandoned and followed in the same way, and a conversion of another head goes on. At the end of an event a
conversion in progress stays with its pass, and an idle scanner with heads to scan starts a pass. The model's
choices: a completion before its time changes nothing (assumptions 2 and 23); a leave that empties the pass
list during another head's conversion starts no pass before that conversion completes (29). -/
def Obligations.GuardReleases : Prop :=
  (∀ (s : State) (h : Head) (e temp : Nat) (k : SlotIx) (j : Job), s.conversion = some (h, e) → e ≤ s.now →
      s.occupant h = some k → s.job k = some j → j.state = .cooling →
      (temp ≤ (s.prof j.profile).releaseTemp → ∃ t,
        exec (.guardConversionComplete (.temp temp)) s = .next t ∧
        (t.slot k).gen = (s.slot k).gen + 1 ∧ t.job k = none ∧
        ∃ r ∈ (t.station j.station).results, r.handle = s.handleOf k ∧ r.release = .guard ∧
          r.outcome = j.outcome ∧ r.guardPeak = max j.guardPeak temp) ∧
      ((s.prof j.profile).releaseTemp < temp → s.arbCause = false → ∃ t,
        exec (.guardConversionComplete (.temp temp)) s = .next t ∧
        t.job k = some { j with guardPeak := max j.guardPeak temp })) ∧
  (∀ (s : State) (h : Head) (e : Nat) (k : SlotIx) (j : Job), s.conversion = some (h, e) → e ≤ s.now →
    s.occupant h = some k → s.job k = some j →
    (j.state = .cooling → ∀ reading, reading = .over ∨ reading = .noSignal →
      ∃ t, exec (.guardConversionComplete reading) s = .next t ∧ t.job k = some j) ∧
    (j.state = .seeking ∨ j.state = .aligning ∨ j.state = .heating →
      (∀ temp, temp ≤ (s.prof j.profile).guardLimit →
        ∃ t, exec (.guardConversionComplete (.temp temp)) s = .next t ∧
          t.job k = some { j with guardPeak := max j.guardPeak temp, guardNoSig := 0 }) ∧
      (j.guardNoSig + 1 < 2 → ∃ t, exec (.guardConversionComplete .noSignal) s = .next t ∧
        t.job k = some { j with guardNoSig := j.guardNoSig + 1 }) ∧
      (2 ≤ j.guardNoSig + 1 → j.outcome = none → ∃ t, exec (.guardConversionComplete .noSignal) s = .next t ∧
        s.ReachedBy t .sensorLost fun m => m = k) ∧
      ∀ reading, (reading = .over ∨ ∃ temp, reading = .temp temp ∧ (s.prof j.profile).guardLimit < temp) →
        j.outcome = none → ∃ t, exec (.guardConversionComplete reading) s = .next t ∧
          s.ReachedBy t .guardOver fun m => m = k)) ∧
  (∀ (s : State) (h : Head) (e temp : Nat) (k : SlotIx) (j : Job), s.Settled → s.conversion = some (h, e) →
    e ≤ s.now → s.occupant h = some k → s.job k = some j →
    j.state = .seeking ∨ j.state = .aligning ∨ j.state = .heating → temp ≤ (s.prof j.profile).guardLimit →
    ∃ t, exec (.guardConversionComplete (.temp temp)) s = .next t ∧ t.scanSet = s.scanSet ∧
      (∀ g rest, s.passList = g :: rest →
        t.conversion = some (g, s.now + s.guardDwell) ∧ t.passList = rest) ∧
      (∀ g rest, s.passList = [] → s.scanSet = g :: rest →
        t.conversion = some (g, s.now + s.guardDwell) ∧ t.passList = rest) ∧
      (s.passList = [] → s.scanSet = [] → t.conversion = none ∧ t.passList = [])) ∧
  (∀ (s : State) (h : Head) (e : Nat) (reading : GuardReading), s.Settled → s.conversion = some (h, e) →
    s.now < e → exec (.guardConversionComplete reading) s = .next s) ∧
  (∀ (s : State) (k : SlotIx) (j : Job) (r : Release), s.job k = some j → j.state = .cooling →
    (endJob k r s).scanSet = s.scanSet.filter (· != j.head) ∧
    ((∀ e, s.conversion ≠ some (j.head, e)) → (endJob k r s).conversion = s.conversion ∧
      (endJob k r s).passList = s.passList.filter (· != j.head)) ∧
    ∀ e, s.conversion = some (j.head, e) →
      (∀ g rest, s.passList.filter (· != j.head) = g :: rest →
        (endJob k r s).conversion = some (g, s.now + s.guardDwell) ∧ (endJob k r s).passList = rest) ∧
      (s.passList.filter (· != j.head) = [] →
        (∀ g rest, s.scanSet.filter (· != j.head) = g :: rest →
          (endJob k r s).conversion = some (g, s.now + s.guardDwell) ∧ (endJob k r s).passList = rest) ∧
        (s.scanSet.filter (· != j.head) = [] →
          (endJob k r s).conversion = none ∧ (endJob k r s).passList = []))) ∧
  ∀ s : State,
    (∀ x, s.conversion = some x → (finish s).conversion = some x ∧ (finish s).passList = s.passList) ∧
    (∀ g rest, s.arbCause = false → s.conversion = none → s.passList = [] → s.scanSet = g :: rest →
      (finish s).conversion = some (g, s.now + s.guardDwell) ∧ (finish s).passList = rest)

/-- The wait limit of a READY job, the cool dwell and the cooling limit: each expiry ends the job with its own
outcome or release. The wait limit of a gang stops every member in READY with WAIT_EXPIRED. -/
def Obligations.TimersEndJobs : Prop :=
  ((∀ (s : State) (k : SlotIx) (j : Job) (c : Cand) (e : Nat),
      s.cands.find? (fun x => x.members.contains k) = some c → c.members = [k] → c.waitTimer = some e →
      e ≤ s.now → s.job k = some j → j.state = .ready → j.outcome = none →
      ∃ t, exec (.waitLimitExpiry k) s = .next t ∧ t.job k = none ∧
        ∃ r ∈ (t.station j.station).results, r.handle = s.handleOf k ∧ r.release = .none ∧
          r.outcome = some .waitExpired) ∧
    (∀ (s : State) (k : SlotIx) (j : Job) (e : Nat), s.job k = some j → j.state = .cooling →
      j.coolDwellTimer = some e → e ≤ s.now →
      ∃ t, exec (.coolDwellExpiry k) s = .next t ∧ t.job k = none ∧
        ∃ r ∈ (t.station j.station).results, r.handle = s.handleOf k ∧ r.release = .timed ∧
          r.outcome = j.outcome) ∧
    ∀ (s : State) (k : SlotIx) (j : Job) (e : Nat), s.job k = some j → j.state = .cooling →
      j.coolLimitTimer = some e → e ≤ s.now →
      ∃ t, exec (.coolingLimitExpiry k) s = .next t ∧ t.job k = none ∧
        ∃ r ∈ (t.station j.station).results, r.handle = s.handleOf k ∧ r.release = .limit ∧
          r.outcome = j.outcome) ∧
  ∀ (s : State) (k : SlotIx) (c : Cand) (e : Nat),
    s.cands.find? (fun x => x.members.contains k) = some c → c.waitTimer = some e → e ≤ s.now →
    ∃ t, exec (.waitLimitExpiry k) s = .next t ∧
      ∀ m j, m ∈ c.members → s.job m = some j → j.state = .ready → j.outcome = none →
        s.Stopped t m j .waitExpired

/-! ## Arbitration -/

/-- No grant is made outside RUN or while ESTOP is asserted, and no arbitration grants a candidate that would
raise committed power above the budget. Candidates that are not eligible are passed over: with none eligible
nothing is granted. The first eligible candidate that does not fit in the budget stops the walk, at the head
of the list behind candidates that are not eligible, and after a grant with others passed over between the
two. -/
def Obligations.GrantsKeepTheirConditions : Prop :=
  (∀ s : State, s.mode ≠ .run ∨ s.estop = true →
    (finish s).convs = s.convs ∧ (finish s).slots = s.slots ∧
    (finish s).committed = s.committed ∧ (finish s).relays = s.relays) ∧
  (∀ s : State, (finish s).committed ≤ max s.committed s.budget) ∧
  (∀ s : State, (∀ y ∈ s.cands, s.eligible y = none) →
    (finish s).convs = s.convs ∧ (finish s).slots = s.slots ∧ (finish s).committed = s.committed ∧
    (finish s).relays = s.relays ∧ (finish s).cands = s.cands) ∧
  (∀ (s : State) (pre rest : List Cand) (x : Cand) (given : List (SlotIx × Conv)),
    s.cands = pre ++ x :: rest → (∀ y ∈ pre, s.eligible y = none) → s.eligible x = some given →
    s.budget < s.committed + s.candReservation x →
    (finish s).convs = s.convs ∧ (finish s).slots = s.slots ∧ (finish s).committed = s.committed ∧
    (finish s).relays = s.relays ∧ (finish s).cands = s.cands) ∧
  ∀ (s u : State) (pre mid rest : List Cand) (x y : Cand) (given given' : List (SlotIx × Conv)),
    s.arbCause = true → s.cands = pre ++ x :: (mid ++ y :: rest) → (∀ z ∈ pre, s.eligible z = none) →
    s.eligible x = some given → s.committed + s.candReservation x ≤ s.budget →
    u = grant x given { s with arbCause := false, arbSeq := s.arbSeq + 1 } →
    (∀ z ∈ mid, u.eligible z = none) → u.eligible y = some given' →
    u.budget < u.committed + u.candReservation y →
    (finish s).convs = u.convs ∧ (finish s).slots = u.slots ∧ (finish s).committed = u.committed ∧
    (finish s).relays = u.relays ∧ (finish s).cands = u.cands

/-- An arbitration in RUN with one candidate that fits in the budget grants it: the entry leaves and power is
committed. A single job on a fixed head enters SEEKING with its converter. For a pooled head the choice is a
relay closed to the head, else an open one, else the converter whose last output-off is earliest, C4 on a tie;
with the relay closed to the head the job enters SEEKING, else job and converter enter CONNECTING and the
relay closes, opens first when it is closed to another head, or waits for the end of the discharge interval. A
gang is granted whole: each member has a converter of its own, and is in SEEKING or CONNECTING with it. In a
list of any length the first eligible candidate is granted when it fits, whatever stands before it without
being eligible. -/
def Obligations.GrantGivesConverter : Prop :=
  ((∀ (s : State) (x : Cand) (k : SlotIx) (j : Job) (c : Conv),
      s.arbCause = true → s.cands = [x] → x.members = [k] → x.slot = k → s.job k = some j → j.state = .ready →
      s.stationServes j.station = true → fixedConv j.head = some c → s.convFree c = true →
      s.occupant j.head = none → s.committed + j.reservation ≤ s.budget →
      (finish s).cands = [] ∧ (finish s).committed = s.committed + j.reservation ∧
      (finish s).job k = some { j with state := .seeking, converter := some c } ∧
      (finish s).conv c = { s.conv c with
        state := .seeking, served := some (s.handleOf k), outputOn := true,
        command := (s.head j.head).seekPower, drive := (s.head j.head).startFreq,
        tun := ⟨.seek, 0, 0, some (s.now + (s.head j.head).settle)⟩,
        eng := ⟨.watch, none, .stopped, 0, false⟩, nextSample := some (s.now + 1) } ∧
      (∀ d, d ≠ c → (finish s).conv d = s.conv d) ∧ (∀ m, m ≠ k → (finish s).slot m = s.slot m) ∧
      (finish s).relays = s.relays ∧ ((s.head j.head).guardEnable = true → j.head ∈ (finish s).scanSet)) ∧
    ∀ (s : State) (h : Head) (p : Pool), s.poolAvailable h [] p = true →
      ((s.relay p).pos = .closed h → (s.relay (otherPool p)).pos ≠ .closed h → s.choosePool h [] [] = some p) ∧
      ((∀ q, (s.relay q).pos ≠ .closed h) → (s.relay p).pos = .open →
        (p = 0 ∨ (s.relay 0).pos ≠ .open ∨ s.poolAvailable h [] 0 = false) → s.choosePool h [] [] = some p) ∧
      ((∀ q, (s.relay q).pos ≠ .closed h ∧ (s.relay q).pos ≠ .open) →
        (s.poolAvailable h [] (otherPool p) = false ∨
          p = 0 ∧ (s.conv (poolConv p)).lastOffAt = (s.conv (poolConv (otherPool p))).lastOffAt ∨
          (s.conv (poolConv p)).lastOffAt < (s.conv (poolConv (otherPool p))).lastOffAt) →
        s.choosePool h [] [] = some p)) ∧
  (∀ (s : State) (x : Cand) (k : SlotIx) (j : Job) (p : Pool),
    s.arbCause = true → s.cands = [x] → x.members = [k] → x.slot = k → s.job k = some j → j.state = .ready →
    s.stationServes j.station = true → fixedConv j.head = none → s.choosePool j.head [] [] = some p →
    s.occupant j.head = none → s.committed + j.reservation ≤ s.budget →
    (finish s).cands = [] ∧ (finish s).committed = s.committed + j.reservation ∧
    (∀ d, d ≠ poolConv p → (finish s).conv d = s.conv d) ∧ (∀ m, m ≠ k → (finish s).slot m = s.slot m) ∧
    (∀ q, q ≠ p → (finish s).relay q = s.relay q) ∧
    ((s.relay p).pos = .closed j.head →
      (finish s).job k = some { j with state := .seeking, converter := some (poolConv p) } ∧
      ((finish s).conv (poolConv p)).state = .seeking ∧
      ((finish s).conv (poolConv p)).served = some (s.handleOf k) ∧ (finish s).relay p = s.relay p) ∧
    ((s.relay p).pos ≠ .closed j.head →
      (finish s).job k = some { j with state := .connecting, converter := some (poolConv p) } ∧
      (finish s).conv (poolConv p) = { s.conv (poolConv p) with
        state := .connecting, served := some (s.handleOf k), drive := (s.head j.head).nominal } ∧
      (s.MayMove p → (s.relay p).pos = .open → (finish s).relay p = { s.relay p with
        motion := .closing j.head (s.now + 15), plan := .empty, condTimer := none }) ∧
      (∀ g, s.MayMove p → (s.relay p).pos = .closed g → (finish s).relay p = { s.relay p with
        motion := .opening g (s.now + 10), plan := .close j.head, condTimer := none }) ∧
      (s.relayHold = none → (s.relay p).motion = .none → (s.conv (poolConv p)).outputOn = false →
        s.now < (s.conv (poolConv p)).lastOffAt + (s.conv (poolConv p)).interval →
        ((finish s).relay p).motion = .none ∧ ((finish s).relay p).pos = (s.relay p).pos ∧
        ((finish s).relay p).condTimer =
          some ((s.conv (poolConv p)).lastOffAt + (s.conv (poolConv p)).interval)))) ∧
  (∀ (s : State) (x : Cand) (given : List (SlotIx × Conv)),
    s.arbCause = true → s.cands = [x] → x.slot ∈ x.members → x.members.Nodup →
    (∀ m n i j, m ∈ x.members → n ∈ x.members → s.job m = some i → s.job n = some j → i.head = j.head → m = n) →
    s.eligible x = some given → s.committed + s.candReservation x ≤ s.budget →
    (finish s).cands = [] ∧ (finish s).committed = s.committed + s.candReservation x ∧
    ∀ m ∈ x.members, ∃ j c, s.job m = some j ∧ (m, c) ∈ given ∧
      (∀ n d, (n, d) ∈ given → n ≠ m → d ≠ c) ∧
      ((finish s).job m = some { j with state := .seeking, converter := some c } ∨
        (finish s).job m = some { j with state := .connecting, converter := some c }) ∧
      ((finish s).conv c).served = some (s.handleOf m)) ∧
  ∀ (s : State) (pre rest : List Cand) (x : Cand) (given : List (SlotIx × Conv)),
    s.arbCause = true → s.cands = pre ++ x :: rest → (∀ y ∈ pre, s.eligible y = none) →
    x.slot ∈ x.members → x.members.Nodup →
    (∀ m n i j, m ∈ x.members → n ∈ x.members → s.job m = some i → s.job n = some j → i.head = j.head → m = n) →
    s.eligible x = some given → s.committed + s.candReservation x ≤ s.budget →
    (∀ y ∈ (finish s).cands, x.slot ∉ y.members) ∧ s.committed + s.candReservation x ≤ (finish s).committed ∧
    ∀ m ∈ x.members, ∃ j c, s.job m = some j ∧ (m, c) ∈ given ∧
      ((finish s).job m = some { j with state := .seeking, converter := some c } ∨
        (finish s).job m = some { j with state := .connecting, converter := some c }) ∧
      ((finish s).conv c).served = some (s.handleOf m)

/-! ## Laws that every step keeps -/

/-- Every step keeps the law of the outputs. -/
def Obligations.OutputLawKept : Prop :=
  ∀ s t : State, s.OutputLaw → step s = .next t → t.OutputLaw

/-- Every step keeps committed power equal to the reservations held. -/
def Obligations.PowerLawKept : Prop :=
  ∀ s t : State, s.PowerLaw → step s = .next t → t.PowerLaw

/-- Every step keeps the use counts equal to the uses. -/
def Obligations.UseLawKept : Prop :=
  ∀ s t : State, s.UseLaw → step s = .next t → t.UseLaw

/-- Every step keeps the quota of every station. -/
def Obligations.QuotaLawKept : Prop :=
  ∀ s t : State, s.QuotaLaw → step s = .next t → t.QuotaLaw

/-- Every step keeps at most one job on a head and the scan set as the rule says. -/
def Obligations.ScanLawKept : Prop :=
  ∀ s t : State, s.ScanLaw → step s = .next t → t.ScanLaw

/-- Every step keeps the bounds of the ports, and the candidates in order; and of every job, that OK and
UNDERWET are the outcomes of jobs in COOLING alone and that a converter it names is serving it. -/
def Obligations.PortAndCandLawKept : Prop :=
  (∀ s t : State, s.PortLaw → step s = .next t → t.PortLaw) ∧
  (∀ s t : State, s.CandLaw → step s = .next t → t.CandLaw) ∧
  (∀ s t : State, s.JobLaw → step s = .next t → t.JobLaw)

/-- The machine after reset satisfies every law. -/
def Obligations.ResetSatisfiesLaws : Prop :=
  State.reset.Settled ∧ State.reset.OutputLaw ∧ State.reset.PowerLaw ∧ State.reset.UseLaw ∧
  State.reset.QuotaLaw ∧ State.reset.ScanLaw ∧ State.reset.PortLaw ∧ State.reset.CandLaw ∧
  State.reset.JobLaw
end

