-- ==== Sys2Proof/Laws/State.lean ====
section
/-! SUPPORT. What each update of State leaves as it was, and what an accessor reads after an update: no later
proof unfolds a record update. -/

namespace Sys2Proof.Machine.State

/-! ### setConv -/

@[simp] theorem setConv_mode (s : State) (c : Conv) (v : Converter) : (s.setConv c v).mode = s.mode := rfl
@[simp] theorem setConv_estop (s : State) (c : Conv) (v : Converter) : (s.setConv c v).estop = s.estop := rfl
@[simp] theorem setConv_resetKind (s : State) (c : Conv) (v : Converter) : (s.setConv c v).resetKind = s.resetKind := rfl
@[simp] theorem setConv_resetTime (s : State) (c : Conv) (v : Converter) : (s.setConv c v).resetTime = s.resetTime := rfl
@[simp] theorem setConv_lineClock (s : State) (c : Conv) (v : Converter) : (s.setConv c v).lineClock = s.lineClock := rfl
@[simp] theorem setConv_segs (s : State) (c : Conv) (v : Converter) : (s.setConv c v).segs = s.segs := rfl
@[simp] theorem setConv_segUse (s : State) (c : Conv) (v : Converter) : (s.setConv c v).segUse = s.segUse := rfl
@[simp] theorem setConv_profs (s : State) (c : Conv) (v : Converter) : (s.setConv c v).profs = s.profs := rfl
@[simp] theorem setConv_profUse (s : State) (c : Conv) (v : Converter) : (s.setConv c v).profUse = s.profUse := rfl
@[simp] theorem setConv_heads (s : State) (c : Conv) (v : Converter) : (s.setConv c v).heads = s.heads := rfl
@[simp] theorem setConv_slots (s : State) (c : Conv) (v : Converter) : (s.setConv c v).slots = s.slots := rfl
@[simp] theorem setConv_admitted (s : State) (c : Conv) (v : Converter) : (s.setConv c v).admitted = s.admitted := rfl
@[simp] theorem setConv_budget (s : State) (c : Conv) (v : Converter) : (s.setConv c v).budget = s.budget := rfl
@[simp] theorem setConv_committed (s : State) (c : Conv) (v : Converter) : (s.setConv c v).committed = s.committed := rfl
@[simp] theorem setConv_cands (s : State) (c : Conv) (v : Converter) : (s.setConv c v).cands = s.cands := rfl
@[simp] theorem setConv_relays (s : State) (c : Conv) (v : Converter) : (s.setConv c v).relays = s.relays := rfl
@[simp] theorem setConv_relayHold (s : State) (c : Conv) (v : Converter) : (s.setConv c v).relayHold = s.relayHold := rfl
@[simp] theorem setConv_scanSet (s : State) (c : Conv) (v : Converter) : (s.setConv c v).scanSet = s.scanSet := rfl
@[simp] theorem setConv_passList (s : State) (c : Conv) (v : Converter) : (s.setConv c v).passList = s.passList := rfl
@[simp] theorem setConv_conversion (s : State) (c : Conv) (v : Converter) : (s.setConv c v).conversion = s.conversion := rfl
@[simp] theorem setConv_guardDwell (s : State) (c : Conv) (v : Converter) : (s.setConv c v).guardDwell = s.guardDwell := rfl
@[simp] theorem setConv_ports (s : State) (c : Conv) (v : Converter) : (s.setConv c v).ports = s.ports := rfl
@[simp] theorem setConv_stations (s : State) (c : Conv) (v : Converter) : (s.setConv c v).stations = s.stations := rfl
@[simp] theorem setConv_now (s : State) (c : Conv) (v : Converter) : (s.setConv c v).now = s.now := rfl
@[simp] theorem setConv_arbSeq (s : State) (c : Conv) (v : Converter) : (s.setConv c v).arbSeq = s.arbSeq := rfl
@[simp] theorem setConv_arbCause (s : State) (c : Conv) (v : Converter) : (s.setConv c v).arbCause = s.arbCause := rfl
@[simp] theorem setConv_pending (s : State) (c : Conv) (v : Converter) : (s.setConv c v).pending = s.pending := rfl
@[simp] theorem setConv_relay (s : State) (c : Conv) (v : Converter) (x : Pool) : (s.setConv c v).relay x = s.relay x := rfl
@[simp] theorem setConv_port (s : State) (c : Conv) (v : Converter) (x : Port) : (s.setConv c v).port x = s.port x := rfl
@[simp] theorem setConv_station (s : State) (c : Conv) (v : Converter) (x : Station) : (s.setConv c v).station x = s.station x := rfl
@[simp] theorem setConv_head (s : State) (c : Conv) (v : Converter) (x : Head) : (s.setConv c v).head x = s.head x := rfl
@[simp] theorem setConv_prof (s : State) (c : Conv) (v : Converter) (x : Fin 64) : (s.setConv c v).prof x = s.prof x := rfl
@[simp] theorem setConv_slot (s : State) (c : Conv) (v : Converter) (x : SlotIx) : (s.setConv c v).slot x = s.slot x := rfl
@[simp] theorem setConv_job (s : State) (c : Conv) (v : Converter) (x : SlotIx) : (s.setConv c v).job x = s.job x := rfl
@[simp] theorem setConv_handleOf (s : State) (c : Conv) (v : Converter) (x : SlotIx) : (s.setConv c v).handleOf x = s.handleOf x := rfl
@[simp] theorem setConv_current (s : State) (c : Conv) (v : Converter) (x : Handle) : (s.setConv c v).current x = s.current x := rfl
@[simp] theorem setConv_segAt (s : State) (c : Conv) (v : Converter) (x : Nat) : (s.setConv c v).segAt x = s.segAt x := rfl
@[simp] theorem setConv_jobIs (s : State) (c : Conv) (v : Converter) (x : SlotIx) (p : Job → Bool) : (s.setConv c v).jobIs x p = s.jobIs x p := rfl
@[simp] theorem setConv_membersOf (s : State) (c : Conv) (v : Converter) (x : SlotIx) : (s.setConv c v).membersOf x = s.membersOf x := rfl

/-! ### modConv -/

@[simp] theorem modConv_mode (s : State) (c : Conv) (f : Converter → Converter) : (s.modConv c f).mode = s.mode := rfl
@[simp] theorem modConv_estop (s : State) (c : Conv) (f : Converter → Converter) : (s.modConv c f).estop = s.estop := rfl
@[simp] theorem modConv_resetKind (s : State) (c : Conv) (f : Converter → Converter) : (s.modConv c f).resetKind = s.resetKind := rfl
@[simp] theorem modConv_resetTime (s : State) (c : Conv) (f : Converter → Converter) : (s.modConv c f).resetTime = s.resetTime := rfl
@[simp] theorem modConv_lineClock (s : State) (c : Conv) (f : Converter → Converter) : (s.modConv c f).lineClock = s.lineClock := rfl
@[simp] theorem modConv_segs (s : State) (c : Conv) (f : Converter → Converter) : (s.modConv c f).segs = s.segs := rfl
@[simp] theorem modConv_segUse (s : State) (c : Conv) (f : Converter → Converter) : (s.modConv c f).segUse = s.segUse := rfl
@[simp] theorem modConv_profs (s : State) (c : Conv) (f : Converter → Converter) : (s.modConv c f).profs = s.profs := rfl
@[simp] theorem modConv_profUse (s : State) (c : Conv) (f : Converter → Converter) : (s.modConv c f).profUse = s.profUse := rfl
@[simp] theorem modConv_heads (s : State) (c : Conv) (f : Converter → Converter) : (s.modConv c f).heads = s.heads := rfl
@[simp] theorem modConv_slots (s : State) (c : Conv) (f : Converter → Converter) : (s.modConv c f).slots = s.slots := rfl
@[simp] theorem modConv_admitted (s : State) (c : Conv) (f : Converter → Converter) : (s.modConv c f).admitted = s.admitted := rfl
@[simp] theorem modConv_budget (s : State) (c : Conv) (f : Converter → Converter) : (s.modConv c f).budget = s.budget := rfl
@[simp] theorem modConv_committed (s : State) (c : Conv) (f : Converter → Converter) : (s.modConv c f).committed = s.committed := rfl
@[simp] theorem modConv_cands (s : State) (c : Conv) (f : Converter → Converter) : (s.modConv c f).cands = s.cands := rfl
@[simp] theorem modConv_relays (s : State) (c : Conv) (f : Converter → Converter) : (s.modConv c f).relays = s.relays := rfl
@[simp] theorem modConv_relayHold (s : State) (c : Conv) (f : Converter → Converter) : (s.modConv c f).relayHold = s.relayHold := rfl
@[simp] theorem modConv_scanSet (s : State) (c : Conv) (f : Converter → Converter) : (s.modConv c f).scanSet = s.scanSet := rfl
@[simp] theorem modConv_passList (s : State) (c : Conv) (f : Converter → Converter) : (s.modConv c f).passList = s.passList := rfl
@[simp] theorem modConv_conversion (s : State) (c : Conv) (f : Converter → Converter) : (s.modConv c f).conversion = s.conversion := rfl
@[simp] theorem modConv_guardDwell (s : State) (c : Conv) (f : Converter → Converter) : (s.modConv c f).guardDwell = s.guardDwell := rfl
@[simp] theorem modConv_ports (s : State) (c : Conv) (f : Converter → Converter) : (s.modConv c f).ports = s.ports := rfl
@[simp] theorem modConv_stations (s : State) (c : Conv) (f : Converter → Converter) : (s.modConv c f).stations = s.stations := rfl
@[simp] theorem modConv_now (s : State) (c : Conv) (f : Converter → Converter) : (s.modConv c f).now = s.now := rfl
@[simp] theorem modConv_arbSeq (s : State) (c : Conv) (f : Converter → Converter) : (s.modConv c f).arbSeq = s.arbSeq := rfl
@[simp] theorem modConv_arbCause (s : State) (c : Conv) (f : Converter → Converter) : (s.modConv c f).arbCause = s.arbCause := rfl
@[simp] theorem modConv_pending (s : State) (c : Conv) (f : Converter → Converter) : (s.modConv c f).pending = s.pending := rfl
@[simp] theorem modConv_relay (s : State) (c : Conv) (f : Converter → Converter) (x : Pool) : (s.modConv c f).relay x = s.relay x := rfl
@[simp] theorem modConv_port (s : State) (c : Conv) (f : Converter → Converter) (x : Port) : (s.modConv c f).port x = s.port x := rfl
@[simp] theorem modConv_station (s : State) (c : Conv) (f : Converter → Converter) (x : Station) : (s.modConv c f).station x = s.station x := rfl
@[simp] theorem modConv_head (s : State) (c : Conv) (f : Converter → Converter) (x : Head) : (s.modConv c f).head x = s.head x := rfl
@[simp] theorem modConv_prof (s : State) (c : Conv) (f : Converter → Converter) (x : Fin 64) : (s.modConv c f).prof x = s.prof x := rfl
@[simp] theorem modConv_slot (s : State) (c : Conv) (f : Converter → Converter) (x : SlotIx) : (s.modConv c f).slot x = s.slot x := rfl
@[simp] theorem modConv_job (s : State) (c : Conv) (f : Converter → Converter) (x : SlotIx) : (s.modConv c f).job x = s.job x := rfl
@[simp] theorem modConv_handleOf (s : State) (c : Conv) (f : Converter → Converter) (x : SlotIx) : (s.modConv c f).handleOf x = s.handleOf x := rfl
@[simp] theorem modConv_current (s : State) (c : Conv) (f : Converter → Converter) (x : Handle) : (s.modConv c f).current x = s.current x := rfl
@[simp] theorem modConv_segAt (s : State) (c : Conv) (f : Converter → Converter) (x : Nat) : (s.modConv c f).segAt x = s.segAt x := rfl
@[simp] theorem modConv_jobIs (s : State) (c : Conv) (f : Converter → Converter) (x : SlotIx) (p : Job → Bool) : (s.modConv c f).jobIs x p = s.jobIs x p := rfl
@[simp] theorem modConv_membersOf (s : State) (c : Conv) (f : Converter → Converter) (x : SlotIx) : (s.modConv c f).membersOf x = s.membersOf x := rfl

/-! ### setRelay -/

@[simp] theorem setRelay_mode (s : State) (c : Pool) (v : Relay) : (s.setRelay c v).mode = s.mode := rfl
@[simp] theorem setRelay_estop (s : State) (c : Pool) (v : Relay) : (s.setRelay c v).estop = s.estop := rfl
@[simp] theorem setRelay_resetKind (s : State) (c : Pool) (v : Relay) : (s.setRelay c v).resetKind = s.resetKind := rfl
@[simp] theorem setRelay_resetTime (s : State) (c : Pool) (v : Relay) : (s.setRelay c v).resetTime = s.resetTime := rfl
@[simp] theorem setRelay_lineClock (s : State) (c : Pool) (v : Relay) : (s.setRelay c v).lineClock = s.lineClock := rfl
@[simp] theorem setRelay_segs (s : State) (c : Pool) (v : Relay) : (s.setRelay c v).segs = s.segs := rfl
@[simp] theorem setRelay_segUse (s : State) (c : Pool) (v : Relay) : (s.setRelay c v).segUse = s.segUse := rfl
@[simp] theorem setRelay_profs (s : State) (c : Pool) (v : Relay) : (s.setRelay c v).profs = s.profs := rfl
@[simp] theorem setRelay_profUse (s : State) (c : Pool) (v : Relay) : (s.setRelay c v).profUse = s.profUse := rfl
@[simp] theorem setRelay_heads (s : State) (c : Pool) (v : Relay) : (s.setRelay c v).heads = s.heads := rfl
@[simp] theorem setRelay_slots (s : State) (c : Pool) (v : Relay) : (s.setRelay c v).slots = s.slots := rfl
@[simp] theorem setRelay_admitted (s : State) (c : Pool) (v : Relay) : (s.setRelay c v).admitted = s.admitted := rfl
@[simp] theorem setRelay_budget (s : State) (c : Pool) (v : Relay) : (s.setRelay c v).budget = s.budget := rfl
@[simp] theorem setRelay_committed (s : State) (c : Pool) (v : Relay) : (s.setRelay c v).committed = s.committed := rfl
@[simp] theorem setRelay_cands (s : State) (c : Pool) (v : Relay) : (s.setRelay c v).cands = s.cands := rfl
@[simp] theorem setRelay_convs (s : State) (c : Pool) (v : Relay) : (s.setRelay c v).convs = s.convs := rfl
@[simp] theorem setRelay_relayHold (s : State) (c : Pool) (v : Relay) : (s.setRelay c v).relayHold = s.relayHold := rfl
@[simp] theorem setRelay_scanSet (s : State) (c : Pool) (v : Relay) : (s.setRelay c v).scanSet = s.scanSet := rfl
@[simp] theorem setRelay_passList (s : State) (c : Pool) (v : Relay) : (s.setRelay c v).passList = s.passList := rfl
@[simp] theorem setRelay_conversion (s : State) (c : Pool) (v : Relay) : (s.setRelay c v).conversion = s.conversion := rfl
@[simp] theorem setRelay_guardDwell (s : State) (c : Pool) (v : Relay) : (s.setRelay c v).guardDwell = s.guardDwell := rfl
@[simp] theorem setRelay_ports (s : State) (c : Pool) (v : Relay) : (s.setRelay c v).ports = s.ports := rfl
@[simp] theorem setRelay_stations (s : State) (c : Pool) (v : Relay) : (s.setRelay c v).stations = s.stations := rfl
@[simp] theorem setRelay_now (s : State) (c : Pool) (v : Relay) : (s.setRelay c v).now = s.now := rfl
@[simp] theorem setRelay_arbSeq (s : State) (c : Pool) (v : Relay) : (s.setRelay c v).arbSeq = s.arbSeq := rfl
@[simp] theorem setRelay_arbCause (s : State) (c : Pool) (v : Relay) : (s.setRelay c v).arbCause = s.arbCause := rfl
@[simp] theorem setRelay_pending (s : State) (c : Pool) (v : Relay) : (s.setRelay c v).pending = s.pending := rfl
@[simp] theorem setRelay_conv (s : State) (c : Pool) (v : Relay) (x : Conv) : (s.setRelay c v).conv x = s.conv x := rfl
@[simp] theorem setRelay_port (s : State) (c : Pool) (v : Relay) (x : Port) : (s.setRelay c v).port x = s.port x := rfl
@[simp] theorem setRelay_station (s : State) (c : Pool) (v : Relay) (x : Station) : (s.setRelay c v).station x = s.station x := rfl
@[simp] theorem setRelay_head (s : State) (c : Pool) (v : Relay) (x : Head) : (s.setRelay c v).head x = s.head x := rfl
@[simp] theorem setRelay_prof (s : State) (c : Pool) (v : Relay) (x : Fin 64) : (s.setRelay c v).prof x = s.prof x := rfl
@[simp] theorem setRelay_slot (s : State) (c : Pool) (v : Relay) (x : SlotIx) : (s.setRelay c v).slot x = s.slot x := rfl
@[simp] theorem setRelay_job (s : State) (c : Pool) (v : Relay) (x : SlotIx) : (s.setRelay c v).job x = s.job x := rfl
@[simp] theorem setRelay_handleOf (s : State) (c : Pool) (v : Relay) (x : SlotIx) : (s.setRelay c v).handleOf x = s.handleOf x := rfl
@[simp] theorem setRelay_current (s : State) (c : Pool) (v : Relay) (x : Handle) : (s.setRelay c v).current x = s.current x := rfl
@[simp] theorem setRelay_segAt (s : State) (c : Pool) (v : Relay) (x : Nat) : (s.setRelay c v).segAt x = s.segAt x := rfl
@[simp] theorem setRelay_jobIs (s : State) (c : Pool) (v : Relay) (x : SlotIx) (p : Job → Bool) : (s.setRelay c v).jobIs x p = s.jobIs x p := rfl
@[simp] theorem setRelay_membersOf (s : State) (c : Pool) (v : Relay) (x : SlotIx) : (s.setRelay c v).membersOf x = s.membersOf x := rfl

/-! ### modRelay -/

@[simp] theorem modRelay_mode (s : State) (c : Pool) (f : Relay → Relay) : (s.modRelay c f).mode = s.mode := rfl
@[simp] theorem modRelay_estop (s : State) (c : Pool) (f : Relay → Relay) : (s.modRelay c f).estop = s.estop := rfl
@[simp] theorem modRelay_resetKind (s : State) (c : Pool) (f : Relay → Relay) : (s.modRelay c f).resetKind = s.resetKind := rfl
@[simp] theorem modRelay_resetTime (s : State) (c : Pool) (f : Relay → Relay) : (s.modRelay c f).resetTime = s.resetTime := rfl
@[simp] theorem modRelay_lineClock (s : State) (c : Pool) (f : Relay → Relay) : (s.modRelay c f).lineClock = s.lineClock := rfl
@[simp] theorem modRelay_segs (s : State) (c : Pool) (f : Relay → Relay) : (s.modRelay c f).segs = s.segs := rfl
@[simp] theorem modRelay_segUse (s : State) (c : Pool) (f : Relay → Relay) : (s.modRelay c f).segUse = s.segUse := rfl
@[simp] theorem modRelay_profs (s : State) (c : Pool) (f : Relay → Relay) : (s.modRelay c f).profs = s.profs := rfl
@[simp] theorem modRelay_profUse (s : State) (c : Pool) (f : Relay → Relay) : (s.modRelay c f).profUse = s.profUse := rfl
@[simp] theorem modRelay_heads (s : State) (c : Pool) (f : Relay → Relay) : (s.modRelay c f).heads = s.heads := rfl
@[simp] theorem modRelay_slots (s : State) (c : Pool) (f : Relay → Relay) : (s.modRelay c f).slots = s.slots := rfl
@[simp] theorem modRelay_admitted (s : State) (c : Pool) (f : Relay → Relay) : (s.modRelay c f).admitted = s.admitted := rfl
@[simp] theorem modRelay_budget (s : State) (c : Pool) (f : Relay → Relay) : (s.modRelay c f).budget = s.budget := rfl
@[simp] theorem modRelay_committed (s : State) (c : Pool) (f : Relay → Relay) : (s.modRelay c f).committed = s.committed := rfl
@[simp] theorem modRelay_cands (s : State) (c : Pool) (f : Relay → Relay) : (s.modRelay c f).cands = s.cands := rfl
@[simp] theorem modRelay_convs (s : State) (c : Pool) (f : Relay → Relay) : (s.modRelay c f).convs = s.convs := rfl
@[simp] theorem modRelay_relayHold (s : State) (c : Pool) (f : Relay → Relay) : (s.modRelay c f).relayHold = s.relayHold := rfl
@[simp] theorem modRelay_scanSet (s : State) (c : Pool) (f : Relay → Relay) : (s.modRelay c f).scanSet = s.scanSet := rfl
@[simp] theorem modRelay_passList (s : State) (c : Pool) (f : Relay → Relay) : (s.modRelay c f).passList = s.passList := rfl
@[simp] theorem modRelay_conversion (s : State) (c : Pool) (f : Relay → Relay) : (s.modRelay c f).conversion = s.conversion := rfl
@[simp] theorem modRelay_guardDwell (s : State) (c : Pool) (f : Relay → Relay) : (s.modRelay c f).guardDwell = s.guardDwell := rfl
@[simp] theorem modRelay_ports (s : State) (c : Pool) (f : Relay → Relay) : (s.modRelay c f).ports = s.ports := rfl
@[simp] theorem modRelay_stations (s : State) (c : Pool) (f : Relay → Relay) : (s.modRelay c f).stations = s.stations := rfl
@[simp] theorem modRelay_now (s : State) (c : Pool) (f : Relay → Relay) : (s.modRelay c f).now = s.now := rfl
@[simp] theorem modRelay_arbSeq (s : State) (c : Pool) (f : Relay → Relay) : (s.modRelay c f).arbSeq = s.arbSeq := rfl
@[simp] theorem modRelay_arbCause (s : State) (c : Pool) (f : Relay → Relay) : (s.modRelay c f).arbCause = s.arbCause := rfl
@[simp] theorem modRelay_pending (s : State) (c : Pool) (f : Relay → Relay) : (s.modRelay c f).pending = s.pending := rfl
@[simp] theorem modRelay_conv (s : State) (c : Pool) (f : Relay → Relay) (x : Conv) : (s.modRelay c f).conv x = s.conv x := rfl
@[simp] theorem modRelay_port (s : State) (c : Pool) (f : Relay → Relay) (x : Port) : (s.modRelay c f).port x = s.port x := rfl
@[simp] theorem modRelay_station (s : State) (c : Pool) (f : Relay → Relay) (x : Station) : (s.modRelay c f).station x = s.station x := rfl
@[simp] theorem modRelay_head (s : State) (c : Pool) (f : Relay → Relay) (x : Head) : (s.modRelay c f).head x = s.head x := rfl
@[simp] theorem modRelay_prof (s : State) (c : Pool) (f : Relay → Relay) (x : Fin 64) : (s.modRelay c f).prof x = s.prof x := rfl
@[simp] theorem modRelay_slot (s : State) (c : Pool) (f : Relay → Relay) (x : SlotIx) : (s.modRelay c f).slot x = s.slot x := rfl
@[simp] theorem modRelay_job (s : State) (c : Pool) (f : Relay → Relay) (x : SlotIx) : (s.modRelay c f).job x = s.job x := rfl
@[simp] theorem modRelay_handleOf (s : State) (c : Pool) (f : Relay → Relay) (x : SlotIx) : (s.modRelay c f).handleOf x = s.handleOf x := rfl
@[simp] theorem modRelay_current (s : State) (c : Pool) (f : Relay → Relay) (x : Handle) : (s.modRelay c f).current x = s.current x := rfl
@[simp] theorem modRelay_segAt (s : State) (c : Pool) (f : Relay → Relay) (x : Nat) : (s.modRelay c f).segAt x = s.segAt x := rfl
@[simp] theorem modRelay_jobIs (s : State) (c : Pool) (f : Relay → Relay) (x : SlotIx) (p : Job → Bool) : (s.modRelay c f).jobIs x p = s.jobIs x p := rfl
@[simp] theorem modRelay_membersOf (s : State) (c : Pool) (f : Relay → Relay) (x : SlotIx) : (s.modRelay c f).membersOf x = s.membersOf x := rfl

/-! ### setPort -/

@[simp] theorem setPort_mode (s : State) (c : Port) (v : PortSt) : (s.setPort c v).mode = s.mode := rfl
@[simp] theorem setPort_estop (s : State) (c : Port) (v : PortSt) : (s.setPort c v).estop = s.estop := rfl
@[simp] theorem setPort_resetKind (s : State) (c : Port) (v : PortSt) : (s.setPort c v).resetKind = s.resetKind := rfl
@[simp] theorem setPort_resetTime (s : State) (c : Port) (v : PortSt) : (s.setPort c v).resetTime = s.resetTime := rfl
@[simp] theorem setPort_lineClock (s : State) (c : Port) (v : PortSt) : (s.setPort c v).lineClock = s.lineClock := rfl
@[simp] theorem setPort_segs (s : State) (c : Port) (v : PortSt) : (s.setPort c v).segs = s.segs := rfl
@[simp] theorem setPort_segUse (s : State) (c : Port) (v : PortSt) : (s.setPort c v).segUse = s.segUse := rfl
@[simp] theorem setPort_profs (s : State) (c : Port) (v : PortSt) : (s.setPort c v).profs = s.profs := rfl
@[simp] theorem setPort_profUse (s : State) (c : Port) (v : PortSt) : (s.setPort c v).profUse = s.profUse := rfl
@[simp] theorem setPort_heads (s : State) (c : Port) (v : PortSt) : (s.setPort c v).heads = s.heads := rfl
@[simp] theorem setPort_slots (s : State) (c : Port) (v : PortSt) : (s.setPort c v).slots = s.slots := rfl
@[simp] theorem setPort_admitted (s : State) (c : Port) (v : PortSt) : (s.setPort c v).admitted = s.admitted := rfl
@[simp] theorem setPort_budget (s : State) (c : Port) (v : PortSt) : (s.setPort c v).budget = s.budget := rfl
@[simp] theorem setPort_committed (s : State) (c : Port) (v : PortSt) : (s.setPort c v).committed = s.committed := rfl
@[simp] theorem setPort_cands (s : State) (c : Port) (v : PortSt) : (s.setPort c v).cands = s.cands := rfl
@[simp] theorem setPort_convs (s : State) (c : Port) (v : PortSt) : (s.setPort c v).convs = s.convs := rfl
@[simp] theorem setPort_relays (s : State) (c : Port) (v : PortSt) : (s.setPort c v).relays = s.relays := rfl
@[simp] theorem setPort_relayHold (s : State) (c : Port) (v : PortSt) : (s.setPort c v).relayHold = s.relayHold := rfl
@[simp] theorem setPort_scanSet (s : State) (c : Port) (v : PortSt) : (s.setPort c v).scanSet = s.scanSet := rfl
@[simp] theorem setPort_passList (s : State) (c : Port) (v : PortSt) : (s.setPort c v).passList = s.passList := rfl
@[simp] theorem setPort_conversion (s : State) (c : Port) (v : PortSt) : (s.setPort c v).conversion = s.conversion := rfl
@[simp] theorem setPort_guardDwell (s : State) (c : Port) (v : PortSt) : (s.setPort c v).guardDwell = s.guardDwell := rfl
@[simp] theorem setPort_stations (s : State) (c : Port) (v : PortSt) : (s.setPort c v).stations = s.stations := rfl
@[simp] theorem setPort_now (s : State) (c : Port) (v : PortSt) : (s.setPort c v).now = s.now := rfl
@[simp] theorem setPort_arbSeq (s : State) (c : Port) (v : PortSt) : (s.setPort c v).arbSeq = s.arbSeq := rfl
@[simp] theorem setPort_arbCause (s : State) (c : Port) (v : PortSt) : (s.setPort c v).arbCause = s.arbCause := rfl
@[simp] theorem setPort_pending (s : State) (c : Port) (v : PortSt) : (s.setPort c v).pending = s.pending := rfl
@[simp] theorem setPort_conv (s : State) (c : Port) (v : PortSt) (x : Conv) : (s.setPort c v).conv x = s.conv x := rfl
@[simp] theorem setPort_relay (s : State) (c : Port) (v : PortSt) (x : Pool) : (s.setPort c v).relay x = s.relay x := rfl
@[simp] theorem setPort_station (s : State) (c : Port) (v : PortSt) (x : Station) : (s.setPort c v).station x = s.station x := rfl
@[simp] theorem setPort_head (s : State) (c : Port) (v : PortSt) (x : Head) : (s.setPort c v).head x = s.head x := rfl
@[simp] theorem setPort_prof (s : State) (c : Port) (v : PortSt) (x : Fin 64) : (s.setPort c v).prof x = s.prof x := rfl
@[simp] theorem setPort_slot (s : State) (c : Port) (v : PortSt) (x : SlotIx) : (s.setPort c v).slot x = s.slot x := rfl
@[simp] theorem setPort_job (s : State) (c : Port) (v : PortSt) (x : SlotIx) : (s.setPort c v).job x = s.job x := rfl
@[simp] theorem setPort_handleOf (s : State) (c : Port) (v : PortSt) (x : SlotIx) : (s.setPort c v).handleOf x = s.handleOf x := rfl
@[simp] theorem setPort_current (s : State) (c : Port) (v : PortSt) (x : Handle) : (s.setPort c v).current x = s.current x := rfl
@[simp] theorem setPort_segAt (s : State) (c : Port) (v : PortSt) (x : Nat) : (s.setPort c v).segAt x = s.segAt x := rfl
@[simp] theorem setPort_jobIs (s : State) (c : Port) (v : PortSt) (x : SlotIx) (p : Job → Bool) : (s.setPort c v).jobIs x p = s.jobIs x p := rfl
@[simp] theorem setPort_membersOf (s : State) (c : Port) (v : PortSt) (x : SlotIx) : (s.setPort c v).membersOf x = s.membersOf x := rfl

/-! ### modPort -/

@[simp] theorem modPort_mode (s : State) (c : Port) (f : PortSt → PortSt) : (s.modPort c f).mode = s.mode := rfl
@[simp] theorem modPort_estop (s : State) (c : Port) (f : PortSt → PortSt) : (s.modPort c f).estop = s.estop := rfl
@[simp] theorem modPort_resetKind (s : State) (c : Port) (f : PortSt → PortSt) : (s.modPort c f).resetKind = s.resetKind := rfl
@[simp] theorem modPort_resetTime (s : State) (c : Port) (f : PortSt → PortSt) : (s.modPort c f).resetTime = s.resetTime := rfl
@[simp] theorem modPort_lineClock (s : State) (c : Port) (f : PortSt → PortSt) : (s.modPort c f).lineClock = s.lineClock := rfl
@[simp] theorem modPort_segs (s : State) (c : Port) (f : PortSt → PortSt) : (s.modPort c f).segs = s.segs := rfl
@[simp] theorem modPort_segUse (s : State) (c : Port) (f : PortSt → PortSt) : (s.modPort c f).segUse = s.segUse := rfl
@[simp] theorem modPort_profs (s : State) (c : Port) (f : PortSt → PortSt) : (s.modPort c f).profs = s.profs := rfl
@[simp] theorem modPort_profUse (s : State) (c : Port) (f : PortSt → PortSt) : (s.modPort c f).profUse = s.profUse := rfl
@[simp] theorem modPort_heads (s : State) (c : Port) (f : PortSt → PortSt) : (s.modPort c f).heads = s.heads := rfl
@[simp] theorem modPort_slots (s : State) (c : Port) (f : PortSt → PortSt) : (s.modPort c f).slots = s.slots := rfl
@[simp] theorem modPort_admitted (s : State) (c : Port) (f : PortSt → PortSt) : (s.modPort c f).admitted = s.admitted := rfl
@[simp] theorem modPort_budget (s : State) (c : Port) (f : PortSt → PortSt) : (s.modPort c f).budget = s.budget := rfl
@[simp] theorem modPort_committed (s : State) (c : Port) (f : PortSt → PortSt) : (s.modPort c f).committed = s.committed := rfl
@[simp] theorem modPort_cands (s : State) (c : Port) (f : PortSt → PortSt) : (s.modPort c f).cands = s.cands := rfl
@[simp] theorem modPort_convs (s : State) (c : Port) (f : PortSt → PortSt) : (s.modPort c f).convs = s.convs := rfl
@[simp] theorem modPort_relays (s : State) (c : Port) (f : PortSt → PortSt) : (s.modPort c f).relays = s.relays := rfl
@[simp] theorem modPort_relayHold (s : State) (c : Port) (f : PortSt → PortSt) : (s.modPort c f).relayHold = s.relayHold := rfl
@[simp] theorem modPort_scanSet (s : State) (c : Port) (f : PortSt → PortSt) : (s.modPort c f).scanSet = s.scanSet := rfl
@[simp] theorem modPort_passList (s : State) (c : Port) (f : PortSt → PortSt) : (s.modPort c f).passList = s.passList := rfl
@[simp] theorem modPort_conversion (s : State) (c : Port) (f : PortSt → PortSt) : (s.modPort c f).conversion = s.conversion := rfl
@[simp] theorem modPort_guardDwell (s : State) (c : Port) (f : PortSt → PortSt) : (s.modPort c f).guardDwell = s.guardDwell := rfl
@[simp] theorem modPort_stations (s : State) (c : Port) (f : PortSt → PortSt) : (s.modPort c f).stations = s.stations := rfl
@[simp] theorem modPort_now (s : State) (c : Port) (f : PortSt → PortSt) : (s.modPort c f).now = s.now := rfl
@[simp] theorem modPort_arbSeq (s : State) (c : Port) (f : PortSt → PortSt) : (s.modPort c f).arbSeq = s.arbSeq := rfl
@[simp] theorem modPort_arbCause (s : State) (c : Port) (f : PortSt → PortSt) : (s.modPort c f).arbCause = s.arbCause := rfl
@[simp] theorem modPort_pending (s : State) (c : Port) (f : PortSt → PortSt) : (s.modPort c f).pending = s.pending := rfl
@[simp] theorem modPort_conv (s : State) (c : Port) (f : PortSt → PortSt) (x : Conv) : (s.modPort c f).conv x = s.conv x := rfl
@[simp] theorem modPort_relay (s : State) (c : Port) (f : PortSt → PortSt) (x : Pool) : (s.modPort c f).relay x = s.relay x := rfl
@[simp] theorem modPort_station (s : State) (c : Port) (f : PortSt → PortSt) (x : Station) : (s.modPort c f).station x = s.station x := rfl
@[simp] theorem modPort_head (s : State) (c : Port) (f : PortSt → PortSt) (x : Head) : (s.modPort c f).head x = s.head x := rfl
@[simp] theorem modPort_prof (s : State) (c : Port) (f : PortSt → PortSt) (x : Fin 64) : (s.modPort c f).prof x = s.prof x := rfl
@[simp] theorem modPort_slot (s : State) (c : Port) (f : PortSt → PortSt) (x : SlotIx) : (s.modPort c f).slot x = s.slot x := rfl
@[simp] theorem modPort_job (s : State) (c : Port) (f : PortSt → PortSt) (x : SlotIx) : (s.modPort c f).job x = s.job x := rfl
@[simp] theorem modPort_handleOf (s : State) (c : Port) (f : PortSt → PortSt) (x : SlotIx) : (s.modPort c f).handleOf x = s.handleOf x := rfl
@[simp] theorem modPort_current (s : State) (c : Port) (f : PortSt → PortSt) (x : Handle) : (s.modPort c f).current x = s.current x := rfl
@[simp] theorem modPort_segAt (s : State) (c : Port) (f : PortSt → PortSt) (x : Nat) : (s.modPort c f).segAt x = s.segAt x := rfl
@[simp] theorem modPort_jobIs (s : State) (c : Port) (f : PortSt → PortSt) (x : SlotIx) (p : Job → Bool) : (s.modPort c f).jobIs x p = s.jobIs x p := rfl
@[simp] theorem modPort_membersOf (s : State) (c : Port) (f : PortSt → PortSt) (x : SlotIx) : (s.modPort c f).membersOf x = s.membersOf x := rfl

/-! ### setStation -/

@[simp] theorem setStation_mode (s : State) (c : Station) (v : StationSt) : (s.setStation c v).mode = s.mode := rfl
@[simp] theorem setStation_estop (s : State) (c : Station) (v : StationSt) : (s.setStation c v).estop = s.estop := rfl
@[simp] theorem setStation_resetKind (s : State) (c : Station) (v : StationSt) : (s.setStation c v).resetKind = s.resetKind := rfl
@[simp] theorem setStation_resetTime (s : State) (c : Station) (v : StationSt) : (s.setStation c v).resetTime = s.resetTime := rfl
@[simp] theorem setStation_lineClock (s : State) (c : Station) (v : StationSt) : (s.setStation c v).lineClock = s.lineClock := rfl
@[simp] theorem setStation_segs (s : State) (c : Station) (v : StationSt) : (s.setStation c v).segs = s.segs := rfl
@[simp] theorem setStation_segUse (s : State) (c : Station) (v : StationSt) : (s.setStation c v).segUse = s.segUse := rfl
@[simp] theorem setStation_profs (s : State) (c : Station) (v : StationSt) : (s.setStation c v).profs = s.profs := rfl
@[simp] theorem setStation_profUse (s : State) (c : Station) (v : StationSt) : (s.setStation c v).profUse = s.profUse := rfl
@[simp] theorem setStation_heads (s : State) (c : Station) (v : StationSt) : (s.setStation c v).heads = s.heads := rfl
@[simp] theorem setStation_slots (s : State) (c : Station) (v : StationSt) : (s.setStation c v).slots = s.slots := rfl
@[simp] theorem setStation_admitted (s : State) (c : Station) (v : StationSt) : (s.setStation c v).admitted = s.admitted := rfl
@[simp] theorem setStation_budget (s : State) (c : Station) (v : StationSt) : (s.setStation c v).budget = s.budget := rfl
@[simp] theorem setStation_committed (s : State) (c : Station) (v : StationSt) : (s.setStation c v).committed = s.committed := rfl
@[simp] theorem setStation_cands (s : State) (c : Station) (v : StationSt) : (s.setStation c v).cands = s.cands := rfl
@[simp] theorem setStation_convs (s : State) (c : Station) (v : StationSt) : (s.setStation c v).convs = s.convs := rfl
@[simp] theorem setStation_relays (s : State) (c : Station) (v : StationSt) : (s.setStation c v).relays = s.relays := rfl
@[simp] theorem setStation_relayHold (s : State) (c : Station) (v : StationSt) : (s.setStation c v).relayHold = s.relayHold := rfl
@[simp] theorem setStation_scanSet (s : State) (c : Station) (v : StationSt) : (s.setStation c v).scanSet = s.scanSet := rfl
@[simp] theorem setStation_passList (s : State) (c : Station) (v : StationSt) : (s.setStation c v).passList = s.passList := rfl
@[simp] theorem setStation_conversion (s : State) (c : Station) (v : StationSt) : (s.setStation c v).conversion = s.conversion := rfl
@[simp] theorem setStation_guardDwell (s : State) (c : Station) (v : StationSt) : (s.setStation c v).guardDwell = s.guardDwell := rfl
@[simp] theorem setStation_ports (s : State) (c : Station) (v : StationSt) : (s.setStation c v).ports = s.ports := rfl
@[simp] theorem setStation_now (s : State) (c : Station) (v : StationSt) : (s.setStation c v).now = s.now := rfl
@[simp] theorem setStation_arbSeq (s : State) (c : Station) (v : StationSt) : (s.setStation c v).arbSeq = s.arbSeq := rfl
@[simp] theorem setStation_arbCause (s : State) (c : Station) (v : StationSt) : (s.setStation c v).arbCause = s.arbCause := rfl
@[simp] theorem setStation_pending (s : State) (c : Station) (v : StationSt) : (s.setStation c v).pending = s.pending := rfl
@[simp] theorem setStation_conv (s : State) (c : Station) (v : StationSt) (x : Conv) : (s.setStation c v).conv x = s.conv x := rfl
@[simp] theorem setStation_relay (s : State) (c : Station) (v : StationSt) (x : Pool) : (s.setStation c v).relay x = s.relay x := rfl
@[simp] theorem setStation_port (s : State) (c : Station) (v : StationSt) (x : Port) : (s.setStation c v).port x = s.port x := rfl
@[simp] theorem setStation_head (s : State) (c : Station) (v : StationSt) (x : Head) : (s.setStation c v).head x = s.head x := rfl
@[simp] theorem setStation_prof (s : State) (c : Station) (v : StationSt) (x : Fin 64) : (s.setStation c v).prof x = s.prof x := rfl
@[simp] theorem setStation_slot (s : State) (c : Station) (v : StationSt) (x : SlotIx) : (s.setStation c v).slot x = s.slot x := rfl
@[simp] theorem setStation_job (s : State) (c : Station) (v : StationSt) (x : SlotIx) : (s.setStation c v).job x = s.job x := rfl
@[simp] theorem setStation_handleOf (s : State) (c : Station) (v : StationSt) (x : SlotIx) : (s.setStation c v).handleOf x = s.handleOf x := rfl
@[simp] theorem setStation_current (s : State) (c : Station) (v : StationSt) (x : Handle) : (s.setStation c v).current x = s.current x := rfl
@[simp] theorem setStation_segAt (s : State) (c : Station) (v : StationSt) (x : Nat) : (s.setStation c v).segAt x = s.segAt x := rfl
@[simp] theorem setStation_jobIs (s : State) (c : Station) (v : StationSt) (x : SlotIx) (p : Job → Bool) : (s.setStation c v).jobIs x p = s.jobIs x p := rfl
@[simp] theorem setStation_membersOf (s : State) (c : Station) (v : StationSt) (x : SlotIx) : (s.setStation c v).membersOf x = s.membersOf x := rfl

/-! ### modStation -/

@[simp] theorem modStation_mode (s : State) (c : Station) (f : StationSt → StationSt) : (s.modStation c f).mode = s.mode := rfl
@[simp] theorem modStation_estop (s : State) (c : Station) (f : StationSt → StationSt) : (s.modStation c f).estop = s.estop := rfl
@[simp] theorem modStation_resetKind (s : State) (c : Station) (f : StationSt → StationSt) : (s.modStation c f).resetKind = s.resetKind := rfl
@[simp] theorem modStation_resetTime (s : State) (c : Station) (f : StationSt → StationSt) : (s.modStation c f).resetTime = s.resetTime := rfl
@[simp] theorem modStation_lineClock (s : State) (c : Station) (f : StationSt → StationSt) : (s.modStation c f).lineClock = s.lineClock := rfl
@[simp] theorem modStation_segs (s : State) (c : Station) (f : StationSt → StationSt) : (s.modStation c f).segs = s.segs := rfl
@[simp] theorem modStation_segUse (s : State) (c : Station) (f : StationSt → StationSt) : (s.modStation c f).segUse = s.segUse := rfl
@[simp] theorem modStation_profs (s : State) (c : Station) (f : StationSt → StationSt) : (s.modStation c f).profs = s.profs := rfl
@[simp] theorem modStation_profUse (s : State) (c : Station) (f : StationSt → StationSt) : (s.modStation c f).profUse = s.profUse := rfl
@[simp] theorem modStation_heads (s : State) (c : Station) (f : StationSt → StationSt) : (s.modStation c f).heads = s.heads := rfl
@[simp] theorem modStation_slots (s : State) (c : Station) (f : StationSt → StationSt) : (s.modStation c f).slots = s.slots := rfl
@[simp] theorem modStation_admitted (s : State) (c : Station) (f : StationSt → StationSt) : (s.modStation c f).admitted = s.admitted := rfl
@[simp] theorem modStation_budget (s : State) (c : Station) (f : StationSt → StationSt) : (s.modStation c f).budget = s.budget := rfl
@[simp] theorem modStation_committed (s : State) (c : Station) (f : StationSt → StationSt) : (s.modStation c f).committed = s.committed := rfl
@[simp] theorem modStation_cands (s : State) (c : Station) (f : StationSt → StationSt) : (s.modStation c f).cands = s.cands := rfl
@[simp] theorem modStation_convs (s : State) (c : Station) (f : StationSt → StationSt) : (s.modStation c f).convs = s.convs := rfl
@[simp] theorem modStation_relays (s : State) (c : Station) (f : StationSt → StationSt) : (s.modStation c f).relays = s.relays := rfl
@[simp] theorem modStation_relayHold (s : State) (c : Station) (f : StationSt → StationSt) : (s.modStation c f).relayHold = s.relayHold := rfl
@[simp] theorem modStation_scanSet (s : State) (c : Station) (f : StationSt → StationSt) : (s.modStation c f).scanSet = s.scanSet := rfl
@[simp] theorem modStation_passList (s : State) (c : Station) (f : StationSt → StationSt) : (s.modStation c f).passList = s.passList := rfl
@[simp] theorem modStation_conversion (s : State) (c : Station) (f : StationSt → StationSt) : (s.modStation c f).conversion = s.conversion := rfl
@[simp] theorem modStation_guardDwell (s : State) (c : Station) (f : StationSt → StationSt) : (s.modStation c f).guardDwell = s.guardDwell := rfl
@[simp] theorem modStation_ports (s : State) (c : Station) (f : StationSt → StationSt) : (s.modStation c f).ports = s.ports := rfl
@[simp] theorem modStation_now (s : State) (c : Station) (f : StationSt → StationSt) : (s.modStation c f).now = s.now := rfl
@[simp] theorem modStation_arbSeq (s : State) (c : Station) (f : StationSt → StationSt) : (s.modStation c f).arbSeq = s.arbSeq := rfl
@[simp] theorem modStation_arbCause (s : State) (c : Station) (f : StationSt → StationSt) : (s.modStation c f).arbCause = s.arbCause := rfl
@[simp] theorem modStation_pending (s : State) (c : Station) (f : StationSt → StationSt) : (s.modStation c f).pending = s.pending := rfl
@[simp] theorem modStation_conv (s : State) (c : Station) (f : StationSt → StationSt) (x : Conv) : (s.modStation c f).conv x = s.conv x := rfl
@[simp] theorem modStation_relay (s : State) (c : Station) (f : StationSt → StationSt) (x : Pool) : (s.modStation c f).relay x = s.relay x := rfl
@[simp] theorem modStation_port (s : State) (c : Station) (f : StationSt → StationSt) (x : Port) : (s.modStation c f).port x = s.port x := rfl
@[simp] theorem modStation_head (s : State) (c : Station) (f : StationSt → StationSt) (x : Head) : (s.modStation c f).head x = s.head x := rfl
@[simp] theorem modStation_prof (s : State) (c : Station) (f : StationSt → StationSt) (x : Fin 64) : (s.modStation c f).prof x = s.prof x := rfl
@[simp] theorem modStation_slot (s : State) (c : Station) (f : StationSt → StationSt) (x : SlotIx) : (s.modStation c f).slot x = s.slot x := rfl
@[simp] theorem modStation_job (s : State) (c : Station) (f : StationSt → StationSt) (x : SlotIx) : (s.modStation c f).job x = s.job x := rfl
@[simp] theorem modStation_handleOf (s : State) (c : Station) (f : StationSt → StationSt) (x : SlotIx) : (s.modStation c f).handleOf x = s.handleOf x := rfl
@[simp] theorem modStation_current (s : State) (c : Station) (f : StationSt → StationSt) (x : Handle) : (s.modStation c f).current x = s.current x := rfl
@[simp] theorem modStation_segAt (s : State) (c : Station) (f : StationSt → StationSt) (x : Nat) : (s.modStation c f).segAt x = s.segAt x := rfl
@[simp] theorem modStation_jobIs (s : State) (c : Station) (f : StationSt → StationSt) (x : SlotIx) (p : Job → Bool) : (s.modStation c f).jobIs x p = s.jobIs x p := rfl
@[simp] theorem modStation_membersOf (s : State) (c : Station) (f : StationSt → StationSt) (x : SlotIx) : (s.modStation c f).membersOf x = s.membersOf x := rfl

/-! ### setHead -/

@[simp] theorem setHead_mode (s : State) (c : Head) (v : HeadRec) : (s.setHead c v).mode = s.mode := rfl
@[simp] theorem setHead_estop (s : State) (c : Head) (v : HeadRec) : (s.setHead c v).estop = s.estop := rfl
@[simp] theorem setHead_resetKind (s : State) (c : Head) (v : HeadRec) : (s.setHead c v).resetKind = s.resetKind := rfl
@[simp] theorem setHead_resetTime (s : State) (c : Head) (v : HeadRec) : (s.setHead c v).resetTime = s.resetTime := rfl
@[simp] theorem setHead_lineClock (s : State) (c : Head) (v : HeadRec) : (s.setHead c v).lineClock = s.lineClock := rfl
@[simp] theorem setHead_segs (s : State) (c : Head) (v : HeadRec) : (s.setHead c v).segs = s.segs := rfl
@[simp] theorem setHead_segUse (s : State) (c : Head) (v : HeadRec) : (s.setHead c v).segUse = s.segUse := rfl
@[simp] theorem setHead_profs (s : State) (c : Head) (v : HeadRec) : (s.setHead c v).profs = s.profs := rfl
@[simp] theorem setHead_profUse (s : State) (c : Head) (v : HeadRec) : (s.setHead c v).profUse = s.profUse := rfl
@[simp] theorem setHead_slots (s : State) (c : Head) (v : HeadRec) : (s.setHead c v).slots = s.slots := rfl
@[simp] theorem setHead_admitted (s : State) (c : Head) (v : HeadRec) : (s.setHead c v).admitted = s.admitted := rfl
@[simp] theorem setHead_budget (s : State) (c : Head) (v : HeadRec) : (s.setHead c v).budget = s.budget := rfl
@[simp] theorem setHead_committed (s : State) (c : Head) (v : HeadRec) : (s.setHead c v).committed = s.committed := rfl
@[simp] theorem setHead_cands (s : State) (c : Head) (v : HeadRec) : (s.setHead c v).cands = s.cands := rfl
@[simp] theorem setHead_convs (s : State) (c : Head) (v : HeadRec) : (s.setHead c v).convs = s.convs := rfl
@[simp] theorem setHead_relays (s : State) (c : Head) (v : HeadRec) : (s.setHead c v).relays = s.relays := rfl
@[simp] theorem setHead_relayHold (s : State) (c : Head) (v : HeadRec) : (s.setHead c v).relayHold = s.relayHold := rfl
@[simp] theorem setHead_scanSet (s : State) (c : Head) (v : HeadRec) : (s.setHead c v).scanSet = s.scanSet := rfl
@[simp] theorem setHead_passList (s : State) (c : Head) (v : HeadRec) : (s.setHead c v).passList = s.passList := rfl
@[simp] theorem setHead_conversion (s : State) (c : Head) (v : HeadRec) : (s.setHead c v).conversion = s.conversion := rfl
@[simp] theorem setHead_guardDwell (s : State) (c : Head) (v : HeadRec) : (s.setHead c v).guardDwell = s.guardDwell := rfl
@[simp] theorem setHead_ports (s : State) (c : Head) (v : HeadRec) : (s.setHead c v).ports = s.ports := rfl
@[simp] theorem setHead_stations (s : State) (c : Head) (v : HeadRec) : (s.setHead c v).stations = s.stations := rfl
@[simp] theorem setHead_now (s : State) (c : Head) (v : HeadRec) : (s.setHead c v).now = s.now := rfl
@[simp] theorem setHead_arbSeq (s : State) (c : Head) (v : HeadRec) : (s.setHead c v).arbSeq = s.arbSeq := rfl
@[simp] theorem setHead_arbCause (s : State) (c : Head) (v : HeadRec) : (s.setHead c v).arbCause = s.arbCause := rfl
@[simp] theorem setHead_pending (s : State) (c : Head) (v : HeadRec) : (s.setHead c v).pending = s.pending := rfl
@[simp] theorem setHead_conv (s : State) (c : Head) (v : HeadRec) (x : Conv) : (s.setHead c v).conv x = s.conv x := rfl
@[simp] theorem setHead_relay (s : State) (c : Head) (v : HeadRec) (x : Pool) : (s.setHead c v).relay x = s.relay x := rfl
@[simp] theorem setHead_port (s : State) (c : Head) (v : HeadRec) (x : Port) : (s.setHead c v).port x = s.port x := rfl
@[simp] theorem setHead_station (s : State) (c : Head) (v : HeadRec) (x : Station) : (s.setHead c v).station x = s.station x := rfl
@[simp] theorem setHead_prof (s : State) (c : Head) (v : HeadRec) (x : Fin 64) : (s.setHead c v).prof x = s.prof x := rfl
@[simp] theorem setHead_slot (s : State) (c : Head) (v : HeadRec) (x : SlotIx) : (s.setHead c v).slot x = s.slot x := rfl
@[simp] theorem setHead_job (s : State) (c : Head) (v : HeadRec) (x : SlotIx) : (s.setHead c v).job x = s.job x := rfl
@[simp] theorem setHead_handleOf (s : State) (c : Head) (v : HeadRec) (x : SlotIx) : (s.setHead c v).handleOf x = s.handleOf x := rfl
@[simp] theorem setHead_current (s : State) (c : Head) (v : HeadRec) (x : Handle) : (s.setHead c v).current x = s.current x := rfl
@[simp] theorem setHead_segAt (s : State) (c : Head) (v : HeadRec) (x : Nat) : (s.setHead c v).segAt x = s.segAt x := rfl
@[simp] theorem setHead_jobIs (s : State) (c : Head) (v : HeadRec) (x : SlotIx) (p : Job → Bool) : (s.setHead c v).jobIs x p = s.jobIs x p := rfl
@[simp] theorem setHead_membersOf (s : State) (c : Head) (v : HeadRec) (x : SlotIx) : (s.setHead c v).membersOf x = s.membersOf x := rfl

/-! ### setProf -/

@[simp] theorem setProf_mode (s : State) (c : Fin 64) (v : Profile) : (s.setProf c v).mode = s.mode := rfl
@[simp] theorem setProf_estop (s : State) (c : Fin 64) (v : Profile) : (s.setProf c v).estop = s.estop := rfl
@[simp] theorem setProf_resetKind (s : State) (c : Fin 64) (v : Profile) : (s.setProf c v).resetKind = s.resetKind := rfl
@[simp] theorem setProf_resetTime (s : State) (c : Fin 64) (v : Profile) : (s.setProf c v).resetTime = s.resetTime := rfl
@[simp] theorem setProf_lineClock (s : State) (c : Fin 64) (v : Profile) : (s.setProf c v).lineClock = s.lineClock := rfl
@[simp] theorem setProf_segs (s : State) (c : Fin 64) (v : Profile) : (s.setProf c v).segs = s.segs := rfl
@[simp] theorem setProf_segUse (s : State) (c : Fin 64) (v : Profile) : (s.setProf c v).segUse = s.segUse := rfl
@[simp] theorem setProf_profUse (s : State) (c : Fin 64) (v : Profile) : (s.setProf c v).profUse = s.profUse := rfl
@[simp] theorem setProf_heads (s : State) (c : Fin 64) (v : Profile) : (s.setProf c v).heads = s.heads := rfl
@[simp] theorem setProf_slots (s : State) (c : Fin 64) (v : Profile) : (s.setProf c v).slots = s.slots := rfl
@[simp] theorem setProf_admitted (s : State) (c : Fin 64) (v : Profile) : (s.setProf c v).admitted = s.admitted := rfl
@[simp] theorem setProf_budget (s : State) (c : Fin 64) (v : Profile) : (s.setProf c v).budget = s.budget := rfl
@[simp] theorem setProf_committed (s : State) (c : Fin 64) (v : Profile) : (s.setProf c v).committed = s.committed := rfl
@[simp] theorem setProf_cands (s : State) (c : Fin 64) (v : Profile) : (s.setProf c v).cands = s.cands := rfl
@[simp] theorem setProf_convs (s : State) (c : Fin 64) (v : Profile) : (s.setProf c v).convs = s.convs := rfl
@[simp] theorem setProf_relays (s : State) (c : Fin 64) (v : Profile) : (s.setProf c v).relays = s.relays := rfl
@[simp] theorem setProf_relayHold (s : State) (c : Fin 64) (v : Profile) : (s.setProf c v).relayHold = s.relayHold := rfl
@[simp] theorem setProf_scanSet (s : State) (c : Fin 64) (v : Profile) : (s.setProf c v).scanSet = s.scanSet := rfl
@[simp] theorem setProf_passList (s : State) (c : Fin 64) (v : Profile) : (s.setProf c v).passList = s.passList := rfl
@[simp] theorem setProf_conversion (s : State) (c : Fin 64) (v : Profile) : (s.setProf c v).conversion = s.conversion := rfl
@[simp] theorem setProf_guardDwell (s : State) (c : Fin 64) (v : Profile) : (s.setProf c v).guardDwell = s.guardDwell := rfl
@[simp] theorem setProf_ports (s : State) (c : Fin 64) (v : Profile) : (s.setProf c v).ports = s.ports := rfl
@[simp] theorem setProf_stations (s : State) (c : Fin 64) (v : Profile) : (s.setProf c v).stations = s.stations := rfl
@[simp] theorem setProf_now (s : State) (c : Fin 64) (v : Profile) : (s.setProf c v).now = s.now := rfl
@[simp] theorem setProf_arbSeq (s : State) (c : Fin 64) (v : Profile) : (s.setProf c v).arbSeq = s.arbSeq := rfl
@[simp] theorem setProf_arbCause (s : State) (c : Fin 64) (v : Profile) : (s.setProf c v).arbCause = s.arbCause := rfl
@[simp] theorem setProf_pending (s : State) (c : Fin 64) (v : Profile) : (s.setProf c v).pending = s.pending := rfl
@[simp] theorem setProf_conv (s : State) (c : Fin 64) (v : Profile) (x : Conv) : (s.setProf c v).conv x = s.conv x := rfl
@[simp] theorem setProf_relay (s : State) (c : Fin 64) (v : Profile) (x : Pool) : (s.setProf c v).relay x = s.relay x := rfl
@[simp] theorem setProf_port (s : State) (c : Fin 64) (v : Profile) (x : Port) : (s.setProf c v).port x = s.port x := rfl
@[simp] theorem setProf_station (s : State) (c : Fin 64) (v : Profile) (x : Station) : (s.setProf c v).station x = s.station x := rfl
@[simp] theorem setProf_head (s : State) (c : Fin 64) (v : Profile) (x : Head) : (s.setProf c v).head x = s.head x := rfl
@[simp] theorem setProf_slot (s : State) (c : Fin 64) (v : Profile) (x : SlotIx) : (s.setProf c v).slot x = s.slot x := rfl
@[simp] theorem setProf_job (s : State) (c : Fin 64) (v : Profile) (x : SlotIx) : (s.setProf c v).job x = s.job x := rfl
@[simp] theorem setProf_handleOf (s : State) (c : Fin 64) (v : Profile) (x : SlotIx) : (s.setProf c v).handleOf x = s.handleOf x := rfl
@[simp] theorem setProf_current (s : State) (c : Fin 64) (v : Profile) (x : Handle) : (s.setProf c v).current x = s.current x := rfl
@[simp] theorem setProf_segAt (s : State) (c : Fin 64) (v : Profile) (x : Nat) : (s.setProf c v).segAt x = s.segAt x := rfl
@[simp] theorem setProf_jobIs (s : State) (c : Fin 64) (v : Profile) (x : SlotIx) (p : Job → Bool) : (s.setProf c v).jobIs x p = s.jobIs x p := rfl
@[simp] theorem setProf_membersOf (s : State) (c : Fin 64) (v : Profile) (x : SlotIx) : (s.setProf c v).membersOf x = s.membersOf x := rfl

/-! ### setSlot -/

@[simp] theorem setSlot_mode (s : State) (c : SlotIx) (v : Slot) : (s.setSlot c v).mode = s.mode := rfl
@[simp] theorem setSlot_estop (s : State) (c : SlotIx) (v : Slot) : (s.setSlot c v).estop = s.estop := rfl
@[simp] theorem setSlot_resetKind (s : State) (c : SlotIx) (v : Slot) : (s.setSlot c v).resetKind = s.resetKind := rfl
@[simp] theorem setSlot_resetTime (s : State) (c : SlotIx) (v : Slot) : (s.setSlot c v).resetTime = s.resetTime := rfl
@[simp] theorem setSlot_lineClock (s : State) (c : SlotIx) (v : Slot) : (s.setSlot c v).lineClock = s.lineClock := rfl
@[simp] theorem setSlot_segs (s : State) (c : SlotIx) (v : Slot) : (s.setSlot c v).segs = s.segs := rfl
@[simp] theorem setSlot_segUse (s : State) (c : SlotIx) (v : Slot) : (s.setSlot c v).segUse = s.segUse := rfl
@[simp] theorem setSlot_profs (s : State) (c : SlotIx) (v : Slot) : (s.setSlot c v).profs = s.profs := rfl
@[simp] theorem setSlot_profUse (s : State) (c : SlotIx) (v : Slot) : (s.setSlot c v).profUse = s.profUse := rfl
@[simp] theorem setSlot_heads (s : State) (c : SlotIx) (v : Slot) : (s.setSlot c v).heads = s.heads := rfl
@[simp] theorem setSlot_admitted (s : State) (c : SlotIx) (v : Slot) : (s.setSlot c v).admitted = s.admitted := rfl
@[simp] theorem setSlot_budget (s : State) (c : SlotIx) (v : Slot) : (s.setSlot c v).budget = s.budget := rfl
@[simp] theorem setSlot_committed (s : State) (c : SlotIx) (v : Slot) : (s.setSlot c v).committed = s.committed := rfl
@[simp] theorem setSlot_cands (s : State) (c : SlotIx) (v : Slot) : (s.setSlot c v).cands = s.cands := rfl
@[simp] theorem setSlot_convs (s : State) (c : SlotIx) (v : Slot) : (s.setSlot c v).convs = s.convs := rfl
@[simp] theorem setSlot_relays (s : State) (c : SlotIx) (v : Slot) : (s.setSlot c v).relays = s.relays := rfl
@[simp] theorem setSlot_relayHold (s : State) (c : SlotIx) (v : Slot) : (s.setSlot c v).relayHold = s.relayHold := rfl
@[simp] theorem setSlot_scanSet (s : State) (c : SlotIx) (v : Slot) : (s.setSlot c v).scanSet = s.scanSet := rfl
@[simp] theorem setSlot_passList (s : State) (c : SlotIx) (v : Slot) : (s.setSlot c v).passList = s.passList := rfl
@[simp] theorem setSlot_conversion (s : State) (c : SlotIx) (v : Slot) : (s.setSlot c v).conversion = s.conversion := rfl
@[simp] theorem setSlot_guardDwell (s : State) (c : SlotIx) (v : Slot) : (s.setSlot c v).guardDwell = s.guardDwell := rfl
@[simp] theorem setSlot_ports (s : State) (c : SlotIx) (v : Slot) : (s.setSlot c v).ports = s.ports := rfl
@[simp] theorem setSlot_stations (s : State) (c : SlotIx) (v : Slot) : (s.setSlot c v).stations = s.stations := rfl
@[simp] theorem setSlot_now (s : State) (c : SlotIx) (v : Slot) : (s.setSlot c v).now = s.now := rfl
@[simp] theorem setSlot_arbSeq (s : State) (c : SlotIx) (v : Slot) : (s.setSlot c v).arbSeq = s.arbSeq := rfl
@[simp] theorem setSlot_arbCause (s : State) (c : SlotIx) (v : Slot) : (s.setSlot c v).arbCause = s.arbCause := rfl
@[simp] theorem setSlot_pending (s : State) (c : SlotIx) (v : Slot) : (s.setSlot c v).pending = s.pending := rfl
@[simp] theorem setSlot_conv (s : State) (c : SlotIx) (v : Slot) (x : Conv) : (s.setSlot c v).conv x = s.conv x := rfl
@[simp] theorem setSlot_relay (s : State) (c : SlotIx) (v : Slot) (x : Pool) : (s.setSlot c v).relay x = s.relay x := rfl
@[simp] theorem setSlot_port (s : State) (c : SlotIx) (v : Slot) (x : Port) : (s.setSlot c v).port x = s.port x := rfl
@[simp] theorem setSlot_station (s : State) (c : SlotIx) (v : Slot) (x : Station) : (s.setSlot c v).station x = s.station x := rfl
@[simp] theorem setSlot_head (s : State) (c : SlotIx) (v : Slot) (x : Head) : (s.setSlot c v).head x = s.head x := rfl
@[simp] theorem setSlot_prof (s : State) (c : SlotIx) (v : Slot) (x : Fin 64) : (s.setSlot c v).prof x = s.prof x := rfl
@[simp] theorem setSlot_segAt (s : State) (c : SlotIx) (v : Slot) (x : Nat) : (s.setSlot c v).segAt x = s.segAt x := rfl

/-! ### modJob -/

@[simp] theorem modJob_mode (s : State) (c : SlotIx) (f : Job → Job) : (s.modJob c f).mode = s.mode := rfl
@[simp] theorem modJob_estop (s : State) (c : SlotIx) (f : Job → Job) : (s.modJob c f).estop = s.estop := rfl
@[simp] theorem modJob_resetKind (s : State) (c : SlotIx) (f : Job → Job) : (s.modJob c f).resetKind = s.resetKind := rfl
@[simp] theorem modJob_resetTime (s : State) (c : SlotIx) (f : Job → Job) : (s.modJob c f).resetTime = s.resetTime := rfl
@[simp] theorem modJob_lineClock (s : State) (c : SlotIx) (f : Job → Job) : (s.modJob c f).lineClock = s.lineClock := rfl
@[simp] theorem modJob_segs (s : State) (c : SlotIx) (f : Job → Job) : (s.modJob c f).segs = s.segs := rfl
@[simp] theorem modJob_segUse (s : State) (c : SlotIx) (f : Job → Job) : (s.modJob c f).segUse = s.segUse := rfl
@[simp] theorem modJob_profs (s : State) (c : SlotIx) (f : Job → Job) : (s.modJob c f).profs = s.profs := rfl
@[simp] theorem modJob_profUse (s : State) (c : SlotIx) (f : Job → Job) : (s.modJob c f).profUse = s.profUse := rfl
@[simp] theorem modJob_heads (s : State) (c : SlotIx) (f : Job → Job) : (s.modJob c f).heads = s.heads := rfl
@[simp] theorem modJob_admitted (s : State) (c : SlotIx) (f : Job → Job) : (s.modJob c f).admitted = s.admitted := rfl
@[simp] theorem modJob_budget (s : State) (c : SlotIx) (f : Job → Job) : (s.modJob c f).budget = s.budget := rfl
@[simp] theorem modJob_committed (s : State) (c : SlotIx) (f : Job → Job) : (s.modJob c f).committed = s.committed := rfl
@[simp] theorem modJob_cands (s : State) (c : SlotIx) (f : Job → Job) : (s.modJob c f).cands = s.cands := rfl
@[simp] theorem modJob_convs (s : State) (c : SlotIx) (f : Job → Job) : (s.modJob c f).convs = s.convs := rfl
@[simp] theorem modJob_relays (s : State) (c : SlotIx) (f : Job → Job) : (s.modJob c f).relays = s.relays := rfl
@[simp] theorem modJob_relayHold (s : State) (c : SlotIx) (f : Job → Job) : (s.modJob c f).relayHold = s.relayHold := rfl
@[simp] theorem modJob_scanSet (s : State) (c : SlotIx) (f : Job → Job) : (s.modJob c f).scanSet = s.scanSet := rfl
@[simp] theorem modJob_passList (s : State) (c : SlotIx) (f : Job → Job) : (s.modJob c f).passList = s.passList := rfl
@[simp] theorem modJob_conversion (s : State) (c : SlotIx) (f : Job → Job) : (s.modJob c f).conversion = s.conversion := rfl
@[simp] theorem modJob_guardDwell (s : State) (c : SlotIx) (f : Job → Job) : (s.modJob c f).guardDwell = s.guardDwell := rfl
@[simp] theorem modJob_ports (s : State) (c : SlotIx) (f : Job → Job) : (s.modJob c f).ports = s.ports := rfl
@[simp] theorem modJob_stations (s : State) (c : SlotIx) (f : Job → Job) : (s.modJob c f).stations = s.stations := rfl
@[simp] theorem modJob_now (s : State) (c : SlotIx) (f : Job → Job) : (s.modJob c f).now = s.now := rfl
@[simp] theorem modJob_arbSeq (s : State) (c : SlotIx) (f : Job → Job) : (s.modJob c f).arbSeq = s.arbSeq := rfl
@[simp] theorem modJob_arbCause (s : State) (c : SlotIx) (f : Job → Job) : (s.modJob c f).arbCause = s.arbCause := rfl
@[simp] theorem modJob_pending (s : State) (c : SlotIx) (f : Job → Job) : (s.modJob c f).pending = s.pending := rfl
@[simp] theorem modJob_conv (s : State) (c : SlotIx) (f : Job → Job) (x : Conv) : (s.modJob c f).conv x = s.conv x := rfl
@[simp] theorem modJob_relay (s : State) (c : SlotIx) (f : Job → Job) (x : Pool) : (s.modJob c f).relay x = s.relay x := rfl
@[simp] theorem modJob_port (s : State) (c : SlotIx) (f : Job → Job) (x : Port) : (s.modJob c f).port x = s.port x := rfl
@[simp] theorem modJob_station (s : State) (c : SlotIx) (f : Job → Job) (x : Station) : (s.modJob c f).station x = s.station x := rfl
@[simp] theorem modJob_head (s : State) (c : SlotIx) (f : Job → Job) (x : Head) : (s.modJob c f).head x = s.head x := rfl
@[simp] theorem modJob_prof (s : State) (c : SlotIx) (f : Job → Job) (x : Fin 64) : (s.modJob c f).prof x = s.prof x := rfl
@[simp] theorem modJob_segAt (s : State) (c : SlotIx) (f : Job → Job) (x : Nat) : (s.modJob c f).segAt x = s.segAt x := rfl

/-! ### setOutcome -/

@[simp] theorem setOutcome_mode (s : State) (c : SlotIx) (o : JobOutcome) : (s.setOutcome c o).mode = s.mode := rfl
@[simp] theorem setOutcome_estop (s : State) (c : SlotIx) (o : JobOutcome) : (s.setOutcome c o).estop = s.estop := rfl
@[simp] theorem setOutcome_resetKind (s : State) (c : SlotIx) (o : JobOutcome) : (s.setOutcome c o).resetKind = s.resetKind := rfl
@[simp] theorem setOutcome_resetTime (s : State) (c : SlotIx) (o : JobOutcome) : (s.setOutcome c o).resetTime = s.resetTime := rfl
@[simp] theorem setOutcome_lineClock (s : State) (c : SlotIx) (o : JobOutcome) : (s.setOutcome c o).lineClock = s.lineClock := rfl
@[simp] theorem setOutcome_segs (s : State) (c : SlotIx) (o : JobOutcome) : (s.setOutcome c o).segs = s.segs := rfl
@[simp] theorem setOutcome_segUse (s : State) (c : SlotIx) (o : JobOutcome) : (s.setOutcome c o).segUse = s.segUse := rfl
@[simp] theorem setOutcome_profs (s : State) (c : SlotIx) (o : JobOutcome) : (s.setOutcome c o).profs = s.profs := rfl
@[simp] theorem setOutcome_profUse (s : State) (c : SlotIx) (o : JobOutcome) : (s.setOutcome c o).profUse = s.profUse := rfl
@[simp] theorem setOutcome_heads (s : State) (c : SlotIx) (o : JobOutcome) : (s.setOutcome c o).heads = s.heads := rfl
@[simp] theorem setOutcome_admitted (s : State) (c : SlotIx) (o : JobOutcome) : (s.setOutcome c o).admitted = s.admitted := rfl
@[simp] theorem setOutcome_budget (s : State) (c : SlotIx) (o : JobOutcome) : (s.setOutcome c o).budget = s.budget := rfl
@[simp] theorem setOutcome_committed (s : State) (c : SlotIx) (o : JobOutcome) : (s.setOutcome c o).committed = s.committed := rfl
@[simp] theorem setOutcome_cands (s : State) (c : SlotIx) (o : JobOutcome) : (s.setOutcome c o).cands = s.cands := rfl
@[simp] theorem setOutcome_convs (s : State) (c : SlotIx) (o : JobOutcome) : (s.setOutcome c o).convs = s.convs := rfl
@[simp] theorem setOutcome_relays (s : State) (c : SlotIx) (o : JobOutcome) : (s.setOutcome c o).relays = s.relays := rfl
@[simp] theorem setOutcome_relayHold (s : State) (c : SlotIx) (o : JobOutcome) : (s.setOutcome c o).relayHold = s.relayHold := rfl
@[simp] theorem setOutcome_scanSet (s : State) (c : SlotIx) (o : JobOutcome) : (s.setOutcome c o).scanSet = s.scanSet := rfl
@[simp] theorem setOutcome_passList (s : State) (c : SlotIx) (o : JobOutcome) : (s.setOutcome c o).passList = s.passList := rfl
@[simp] theorem setOutcome_conversion (s : State) (c : SlotIx) (o : JobOutcome) : (s.setOutcome c o).conversion = s.conversion := rfl
@[simp] theorem setOutcome_guardDwell (s : State) (c : SlotIx) (o : JobOutcome) : (s.setOutcome c o).guardDwell = s.guardDwell := rfl
@[simp] theorem setOutcome_ports (s : State) (c : SlotIx) (o : JobOutcome) : (s.setOutcome c o).ports = s.ports := rfl
@[simp] theorem setOutcome_stations (s : State) (c : SlotIx) (o : JobOutcome) : (s.setOutcome c o).stations = s.stations := rfl
@[simp] theorem setOutcome_now (s : State) (c : SlotIx) (o : JobOutcome) : (s.setOutcome c o).now = s.now := rfl
@[simp] theorem setOutcome_arbSeq (s : State) (c : SlotIx) (o : JobOutcome) : (s.setOutcome c o).arbSeq = s.arbSeq := rfl
@[simp] theorem setOutcome_arbCause (s : State) (c : SlotIx) (o : JobOutcome) : (s.setOutcome c o).arbCause = s.arbCause := rfl
@[simp] theorem setOutcome_pending (s : State) (c : SlotIx) (o : JobOutcome) : (s.setOutcome c o).pending = s.pending := rfl
@[simp] theorem setOutcome_conv (s : State) (c : SlotIx) (o : JobOutcome) (x : Conv) : (s.setOutcome c o).conv x = s.conv x := rfl
@[simp] theorem setOutcome_relay (s : State) (c : SlotIx) (o : JobOutcome) (x : Pool) : (s.setOutcome c o).relay x = s.relay x := rfl
@[simp] theorem setOutcome_port (s : State) (c : SlotIx) (o : JobOutcome) (x : Port) : (s.setOutcome c o).port x = s.port x := rfl
@[simp] theorem setOutcome_station (s : State) (c : SlotIx) (o : JobOutcome) (x : Station) : (s.setOutcome c o).station x = s.station x := rfl
@[simp] theorem setOutcome_head (s : State) (c : SlotIx) (o : JobOutcome) (x : Head) : (s.setOutcome c o).head x = s.head x := rfl
@[simp] theorem setOutcome_prof (s : State) (c : SlotIx) (o : JobOutcome) (x : Fin 64) : (s.setOutcome c o).prof x = s.prof x := rfl
@[simp] theorem setOutcome_segAt (s : State) (c : SlotIx) (o : JobOutcome) (x : Nat) : (s.setOutcome c o).segAt x = s.segAt x := rfl

/-! ### modUse -/

@[simp] theorem modUse_mode (s : State) (c : Fin 64) (f : Nat → Nat) : (s.modUse c f).mode = s.mode := rfl
@[simp] theorem modUse_estop (s : State) (c : Fin 64) (f : Nat → Nat) : (s.modUse c f).estop = s.estop := rfl
@[simp] theorem modUse_resetKind (s : State) (c : Fin 64) (f : Nat → Nat) : (s.modUse c f).resetKind = s.resetKind := rfl
@[simp] theorem modUse_resetTime (s : State) (c : Fin 64) (f : Nat → Nat) : (s.modUse c f).resetTime = s.resetTime := rfl
@[simp] theorem modUse_lineClock (s : State) (c : Fin 64) (f : Nat → Nat) : (s.modUse c f).lineClock = s.lineClock := rfl
@[simp] theorem modUse_segs (s : State) (c : Fin 64) (f : Nat → Nat) : (s.modUse c f).segs = s.segs := rfl
@[simp] theorem modUse_profs (s : State) (c : Fin 64) (f : Nat → Nat) : (s.modUse c f).profs = s.profs := rfl
@[simp] theorem modUse_heads (s : State) (c : Fin 64) (f : Nat → Nat) : (s.modUse c f).heads = s.heads := rfl
@[simp] theorem modUse_slots (s : State) (c : Fin 64) (f : Nat → Nat) : (s.modUse c f).slots = s.slots := rfl
@[simp] theorem modUse_admitted (s : State) (c : Fin 64) (f : Nat → Nat) : (s.modUse c f).admitted = s.admitted := rfl
@[simp] theorem modUse_budget (s : State) (c : Fin 64) (f : Nat → Nat) : (s.modUse c f).budget = s.budget := rfl
@[simp] theorem modUse_committed (s : State) (c : Fin 64) (f : Nat → Nat) : (s.modUse c f).committed = s.committed := rfl
@[simp] theorem modUse_cands (s : State) (c : Fin 64) (f : Nat → Nat) : (s.modUse c f).cands = s.cands := rfl
@[simp] theorem modUse_convs (s : State) (c : Fin 64) (f : Nat → Nat) : (s.modUse c f).convs = s.convs := rfl
@[simp] theorem modUse_relays (s : State) (c : Fin 64) (f : Nat → Nat) : (s.modUse c f).relays = s.relays := rfl
@[simp] theorem modUse_relayHold (s : State) (c : Fin 64) (f : Nat → Nat) : (s.modUse c f).relayHold = s.relayHold := rfl
@[simp] theorem modUse_scanSet (s : State) (c : Fin 64) (f : Nat → Nat) : (s.modUse c f).scanSet = s.scanSet := rfl
@[simp] theorem modUse_passList (s : State) (c : Fin 64) (f : Nat → Nat) : (s.modUse c f).passList = s.passList := rfl
@[simp] theorem modUse_conversion (s : State) (c : Fin 64) (f : Nat → Nat) : (s.modUse c f).conversion = s.conversion := rfl
@[simp] theorem modUse_guardDwell (s : State) (c : Fin 64) (f : Nat → Nat) : (s.modUse c f).guardDwell = s.guardDwell := rfl
@[simp] theorem modUse_ports (s : State) (c : Fin 64) (f : Nat → Nat) : (s.modUse c f).ports = s.ports := rfl
@[simp] theorem modUse_stations (s : State) (c : Fin 64) (f : Nat → Nat) : (s.modUse c f).stations = s.stations := rfl
@[simp] theorem modUse_now (s : State) (c : Fin 64) (f : Nat → Nat) : (s.modUse c f).now = s.now := rfl
@[simp] theorem modUse_arbSeq (s : State) (c : Fin 64) (f : Nat → Nat) : (s.modUse c f).arbSeq = s.arbSeq := rfl
@[simp] theorem modUse_arbCause (s : State) (c : Fin 64) (f : Nat → Nat) : (s.modUse c f).arbCause = s.arbCause := rfl
@[simp] theorem modUse_pending (s : State) (c : Fin 64) (f : Nat → Nat) : (s.modUse c f).pending = s.pending := rfl
@[simp] theorem modUse_conv (s : State) (c : Fin 64) (f : Nat → Nat) (x : Conv) : (s.modUse c f).conv x = s.conv x := rfl
@[simp] theorem modUse_relay (s : State) (c : Fin 64) (f : Nat → Nat) (x : Pool) : (s.modUse c f).relay x = s.relay x := rfl
@[simp] theorem modUse_port (s : State) (c : Fin 64) (f : Nat → Nat) (x : Port) : (s.modUse c f).port x = s.port x := rfl
@[simp] theorem modUse_station (s : State) (c : Fin 64) (f : Nat → Nat) (x : Station) : (s.modUse c f).station x = s.station x := rfl
@[simp] theorem modUse_head (s : State) (c : Fin 64) (f : Nat → Nat) (x : Head) : (s.modUse c f).head x = s.head x := rfl
@[simp] theorem modUse_prof (s : State) (c : Fin 64) (f : Nat → Nat) (x : Fin 64) : (s.modUse c f).prof x = s.prof x := rfl
@[simp] theorem modUse_slot (s : State) (c : Fin 64) (f : Nat → Nat) (x : SlotIx) : (s.modUse c f).slot x = s.slot x := rfl
@[simp] theorem modUse_job (s : State) (c : Fin 64) (f : Nat → Nat) (x : SlotIx) : (s.modUse c f).job x = s.job x := rfl
@[simp] theorem modUse_handleOf (s : State) (c : Fin 64) (f : Nat → Nat) (x : SlotIx) : (s.modUse c f).handleOf x = s.handleOf x := rfl
@[simp] theorem modUse_current (s : State) (c : Fin 64) (f : Nat → Nat) (x : Handle) : (s.modUse c f).current x = s.current x := rfl
@[simp] theorem modUse_segAt (s : State) (c : Fin 64) (f : Nat → Nat) (x : Nat) : (s.modUse c f).segAt x = s.segAt x := rfl
@[simp] theorem modUse_jobIs (s : State) (c : Fin 64) (f : Nat → Nat) (x : SlotIx) (p : Job → Bool) : (s.modUse c f).jobIs x p = s.jobIs x p := rfl
@[simp] theorem modUse_membersOf (s : State) (c : Fin 64) (f : Nat → Nat) (x : SlotIx) : (s.modUse c f).membersOf x = s.membersOf x := rfl

/-! ### modAdmitted -/

@[simp] theorem modAdmitted_mode (s : State) (c : Station) (f : Nat → Nat) : (s.modAdmitted c f).mode = s.mode := rfl
@[simp] theorem modAdmitted_estop (s : State) (c : Station) (f : Nat → Nat) : (s.modAdmitted c f).estop = s.estop := rfl
@[simp] theorem modAdmitted_resetKind (s : State) (c : Station) (f : Nat → Nat) : (s.modAdmitted c f).resetKind = s.resetKind := rfl
@[simp] theorem modAdmitted_resetTime (s : State) (c : Station) (f : Nat → Nat) : (s.modAdmitted c f).resetTime = s.resetTime := rfl
@[simp] theorem modAdmitted_lineClock (s : State) (c : Station) (f : Nat → Nat) : (s.modAdmitted c f).lineClock = s.lineClock := rfl
@[simp] theorem modAdmitted_segs (s : State) (c : Station) (f : Nat → Nat) : (s.modAdmitted c f).segs = s.segs := rfl
@[simp] theorem modAdmitted_segUse (s : State) (c : Station) (f : Nat → Nat) : (s.modAdmitted c f).segUse = s.segUse := rfl
@[simp] theorem modAdmitted_profs (s : State) (c : Station) (f : Nat → Nat) : (s.modAdmitted c f).profs = s.profs := rfl
@[simp] theorem modAdmitted_profUse (s : State) (c : Station) (f : Nat → Nat) : (s.modAdmitted c f).profUse = s.profUse := rfl
@[simp] theorem modAdmitted_heads (s : State) (c : Station) (f : Nat → Nat) : (s.modAdmitted c f).heads = s.heads := rfl
@[simp] theorem modAdmitted_slots (s : State) (c : Station) (f : Nat → Nat) : (s.modAdmitted c f).slots = s.slots := rfl
@[simp] theorem modAdmitted_budget (s : State) (c : Station) (f : Nat → Nat) : (s.modAdmitted c f).budget = s.budget := rfl
@[simp] theorem modAdmitted_committed (s : State) (c : Station) (f : Nat → Nat) : (s.modAdmitted c f).committed = s.committed := rfl
@[simp] theorem modAdmitted_cands (s : State) (c : Station) (f : Nat → Nat) : (s.modAdmitted c f).cands = s.cands := rfl
@[simp] theorem modAdmitted_convs (s : State) (c : Station) (f : Nat → Nat) : (s.modAdmitted c f).convs = s.convs := rfl
@[simp] theorem modAdmitted_relays (s : State) (c : Station) (f : Nat → Nat) : (s.modAdmitted c f).relays = s.relays := rfl
@[simp] theorem modAdmitted_relayHold (s : State) (c : Station) (f : Nat → Nat) : (s.modAdmitted c f).relayHold = s.relayHold := rfl
@[simp] theorem modAdmitted_scanSet (s : State) (c : Station) (f : Nat → Nat) : (s.modAdmitted c f).scanSet = s.scanSet := rfl
@[simp] theorem modAdmitted_passList (s : State) (c : Station) (f : Nat → Nat) : (s.modAdmitted c f).passList = s.passList := rfl
@[simp] theorem modAdmitted_conversion (s : State) (c : Station) (f : Nat → Nat) : (s.modAdmitted c f).conversion = s.conversion := rfl
@[simp] theorem modAdmitted_guardDwell (s : State) (c : Station) (f : Nat → Nat) : (s.modAdmitted c f).guardDwell = s.guardDwell := rfl
@[simp] theorem modAdmitted_ports (s : State) (c : Station) (f : Nat → Nat) : (s.modAdmitted c f).ports = s.ports := rfl
@[simp] theorem modAdmitted_stations (s : State) (c : Station) (f : Nat → Nat) : (s.modAdmitted c f).stations = s.stations := rfl
@[simp] theorem modAdmitted_now (s : State) (c : Station) (f : Nat → Nat) : (s.modAdmitted c f).now = s.now := rfl
@[simp] theorem modAdmitted_arbSeq (s : State) (c : Station) (f : Nat → Nat) : (s.modAdmitted c f).arbSeq = s.arbSeq := rfl
@[simp] theorem modAdmitted_arbCause (s : State) (c : Station) (f : Nat → Nat) : (s.modAdmitted c f).arbCause = s.arbCause := rfl
@[simp] theorem modAdmitted_pending (s : State) (c : Station) (f : Nat → Nat) : (s.modAdmitted c f).pending = s.pending := rfl
@[simp] theorem modAdmitted_conv (s : State) (c : Station) (f : Nat → Nat) (x : Conv) : (s.modAdmitted c f).conv x = s.conv x := rfl
@[simp] theorem modAdmitted_relay (s : State) (c : Station) (f : Nat → Nat) (x : Pool) : (s.modAdmitted c f).relay x = s.relay x := rfl
@[simp] theorem modAdmitted_port (s : State) (c : Station) (f : Nat → Nat) (x : Port) : (s.modAdmitted c f).port x = s.port x := rfl
@[simp] theorem modAdmitted_station (s : State) (c : Station) (f : Nat → Nat) (x : Station) : (s.modAdmitted c f).station x = s.station x := rfl
@[simp] theorem modAdmitted_head (s : State) (c : Station) (f : Nat → Nat) (x : Head) : (s.modAdmitted c f).head x = s.head x := rfl
@[simp] theorem modAdmitted_prof (s : State) (c : Station) (f : Nat → Nat) (x : Fin 64) : (s.modAdmitted c f).prof x = s.prof x := rfl
@[simp] theorem modAdmitted_slot (s : State) (c : Station) (f : Nat → Nat) (x : SlotIx) : (s.modAdmitted c f).slot x = s.slot x := rfl
@[simp] theorem modAdmitted_job (s : State) (c : Station) (f : Nat → Nat) (x : SlotIx) : (s.modAdmitted c f).job x = s.job x := rfl
@[simp] theorem modAdmitted_handleOf (s : State) (c : Station) (f : Nat → Nat) (x : SlotIx) : (s.modAdmitted c f).handleOf x = s.handleOf x := rfl
@[simp] theorem modAdmitted_current (s : State) (c : Station) (f : Nat → Nat) (x : Handle) : (s.modAdmitted c f).current x = s.current x := rfl
@[simp] theorem modAdmitted_segAt (s : State) (c : Station) (f : Nat → Nat) (x : Nat) : (s.modAdmitted c f).segAt x = s.segAt x := rfl
@[simp] theorem modAdmitted_jobIs (s : State) (c : Station) (f : Nat → Nat) (x : SlotIx) (p : Job → Bool) : (s.modAdmitted c f).jobIs x p = s.jobIs x p := rfl
@[simp] theorem modAdmitted_membersOf (s : State) (c : Station) (f : Nat → Nat) (x : SlotIx) : (s.modAdmitted c f).membersOf x = s.membersOf x := rfl

/-! ### post -/

@[simp] theorem post_mode (s : State) (c : Port) (b : NoticeBody) : (s.post c b).mode = s.mode := rfl
@[simp] theorem post_estop (s : State) (c : Port) (b : NoticeBody) : (s.post c b).estop = s.estop := rfl
@[simp] theorem post_resetKind (s : State) (c : Port) (b : NoticeBody) : (s.post c b).resetKind = s.resetKind := rfl
@[simp] theorem post_resetTime (s : State) (c : Port) (b : NoticeBody) : (s.post c b).resetTime = s.resetTime := rfl
@[simp] theorem post_lineClock (s : State) (c : Port) (b : NoticeBody) : (s.post c b).lineClock = s.lineClock := rfl
@[simp] theorem post_segs (s : State) (c : Port) (b : NoticeBody) : (s.post c b).segs = s.segs := rfl
@[simp] theorem post_segUse (s : State) (c : Port) (b : NoticeBody) : (s.post c b).segUse = s.segUse := rfl
@[simp] theorem post_profs (s : State) (c : Port) (b : NoticeBody) : (s.post c b).profs = s.profs := rfl
@[simp] theorem post_profUse (s : State) (c : Port) (b : NoticeBody) : (s.post c b).profUse = s.profUse := rfl
@[simp] theorem post_heads (s : State) (c : Port) (b : NoticeBody) : (s.post c b).heads = s.heads := rfl
@[simp] theorem post_slots (s : State) (c : Port) (b : NoticeBody) : (s.post c b).slots = s.slots := rfl
@[simp] theorem post_admitted (s : State) (c : Port) (b : NoticeBody) : (s.post c b).admitted = s.admitted := rfl
@[simp] theorem post_budget (s : State) (c : Port) (b : NoticeBody) : (s.post c b).budget = s.budget := rfl
@[simp] theorem post_committed (s : State) (c : Port) (b : NoticeBody) : (s.post c b).committed = s.committed := rfl
@[simp] theorem post_cands (s : State) (c : Port) (b : NoticeBody) : (s.post c b).cands = s.cands := rfl
@[simp] theorem post_convs (s : State) (c : Port) (b : NoticeBody) : (s.post c b).convs = s.convs := rfl
@[simp] theorem post_relays (s : State) (c : Port) (b : NoticeBody) : (s.post c b).relays = s.relays := rfl
@[simp] theorem post_relayHold (s : State) (c : Port) (b : NoticeBody) : (s.post c b).relayHold = s.relayHold := rfl
@[simp] theorem post_scanSet (s : State) (c : Port) (b : NoticeBody) : (s.post c b).scanSet = s.scanSet := rfl
@[simp] theorem post_passList (s : State) (c : Port) (b : NoticeBody) : (s.post c b).passList = s.passList := rfl
@[simp] theorem post_conversion (s : State) (c : Port) (b : NoticeBody) : (s.post c b).conversion = s.conversion := rfl
@[simp] theorem post_guardDwell (s : State) (c : Port) (b : NoticeBody) : (s.post c b).guardDwell = s.guardDwell := rfl
@[simp] theorem post_stations (s : State) (c : Port) (b : NoticeBody) : (s.post c b).stations = s.stations := rfl
@[simp] theorem post_now (s : State) (c : Port) (b : NoticeBody) : (s.post c b).now = s.now := rfl
@[simp] theorem post_arbSeq (s : State) (c : Port) (b : NoticeBody) : (s.post c b).arbSeq = s.arbSeq := rfl
@[simp] theorem post_arbCause (s : State) (c : Port) (b : NoticeBody) : (s.post c b).arbCause = s.arbCause := rfl
@[simp] theorem post_pending (s : State) (c : Port) (b : NoticeBody) : (s.post c b).pending = s.pending := rfl
@[simp] theorem post_conv (s : State) (c : Port) (b : NoticeBody) (x : Conv) : (s.post c b).conv x = s.conv x := rfl
@[simp] theorem post_relay (s : State) (c : Port) (b : NoticeBody) (x : Pool) : (s.post c b).relay x = s.relay x := rfl
@[simp] theorem post_station (s : State) (c : Port) (b : NoticeBody) (x : Station) : (s.post c b).station x = s.station x := rfl
@[simp] theorem post_head (s : State) (c : Port) (b : NoticeBody) (x : Head) : (s.post c b).head x = s.head x := rfl
@[simp] theorem post_prof (s : State) (c : Port) (b : NoticeBody) (x : Fin 64) : (s.post c b).prof x = s.prof x := rfl
@[simp] theorem post_slot (s : State) (c : Port) (b : NoticeBody) (x : SlotIx) : (s.post c b).slot x = s.slot x := rfl
@[simp] theorem post_job (s : State) (c : Port) (b : NoticeBody) (x : SlotIx) : (s.post c b).job x = s.job x := rfl
@[simp] theorem post_handleOf (s : State) (c : Port) (b : NoticeBody) (x : SlotIx) : (s.post c b).handleOf x = s.handleOf x := rfl
@[simp] theorem post_current (s : State) (c : Port) (b : NoticeBody) (x : Handle) : (s.post c b).current x = s.current x := rfl
@[simp] theorem post_segAt (s : State) (c : Port) (b : NoticeBody) (x : Nat) : (s.post c b).segAt x = s.segAt x := rfl
@[simp] theorem post_jobIs (s : State) (c : Port) (b : NoticeBody) (x : SlotIx) (p : Job → Bool) : (s.post c b).jobIs x p = s.jobIs x p := rfl
@[simp] theorem post_membersOf (s : State) (c : Port) (b : NoticeBody) (x : SlotIx) : (s.post c b).membersOf x = s.membersOf x := rfl

/-! ### dropCand -/

@[simp] theorem dropCand_mode (s : State) (c : SlotIx) : (s.dropCand c).mode = s.mode := rfl
@[simp] theorem dropCand_estop (s : State) (c : SlotIx) : (s.dropCand c).estop = s.estop := rfl
@[simp] theorem dropCand_resetKind (s : State) (c : SlotIx) : (s.dropCand c).resetKind = s.resetKind := rfl
@[simp] theorem dropCand_resetTime (s : State) (c : SlotIx) : (s.dropCand c).resetTime = s.resetTime := rfl
@[simp] theorem dropCand_lineClock (s : State) (c : SlotIx) : (s.dropCand c).lineClock = s.lineClock := rfl
@[simp] theorem dropCand_segs (s : State) (c : SlotIx) : (s.dropCand c).segs = s.segs := rfl
@[simp] theorem dropCand_segUse (s : State) (c : SlotIx) : (s.dropCand c).segUse = s.segUse := rfl
@[simp] theorem dropCand_profs (s : State) (c : SlotIx) : (s.dropCand c).profs = s.profs := rfl
@[simp] theorem dropCand_profUse (s : State) (c : SlotIx) : (s.dropCand c).profUse = s.profUse := rfl
@[simp] theorem dropCand_heads (s : State) (c : SlotIx) : (s.dropCand c).heads = s.heads := rfl
@[simp] theorem dropCand_slots (s : State) (c : SlotIx) : (s.dropCand c).slots = s.slots := rfl
@[simp] theorem dropCand_admitted (s : State) (c : SlotIx) : (s.dropCand c).admitted = s.admitted := rfl
@[simp] theorem dropCand_budget (s : State) (c : SlotIx) : (s.dropCand c).budget = s.budget := rfl
@[simp] theorem dropCand_committed (s : State) (c : SlotIx) : (s.dropCand c).committed = s.committed := rfl
@[simp] theorem dropCand_convs (s : State) (c : SlotIx) : (s.dropCand c).convs = s.convs := rfl
@[simp] theorem dropCand_relays (s : State) (c : SlotIx) : (s.dropCand c).relays = s.relays := rfl
@[simp] theorem dropCand_relayHold (s : State) (c : SlotIx) : (s.dropCand c).relayHold = s.relayHold := rfl
@[simp] theorem dropCand_scanSet (s : State) (c : SlotIx) : (s.dropCand c).scanSet = s.scanSet := rfl
@[simp] theorem dropCand_passList (s : State) (c : SlotIx) : (s.dropCand c).passList = s.passList := rfl
@[simp] theorem dropCand_conversion (s : State) (c : SlotIx) : (s.dropCand c).conversion = s.conversion := rfl
@[simp] theorem dropCand_guardDwell (s : State) (c : SlotIx) : (s.dropCand c).guardDwell = s.guardDwell := rfl
@[simp] theorem dropCand_ports (s : State) (c : SlotIx) : (s.dropCand c).ports = s.ports := rfl
@[simp] theorem dropCand_stations (s : State) (c : SlotIx) : (s.dropCand c).stations = s.stations := rfl
@[simp] theorem dropCand_now (s : State) (c : SlotIx) : (s.dropCand c).now = s.now := rfl
@[simp] theorem dropCand_arbSeq (s : State) (c : SlotIx) : (s.dropCand c).arbSeq = s.arbSeq := rfl
@[simp] theorem dropCand_arbCause (s : State) (c : SlotIx) : (s.dropCand c).arbCause = s.arbCause := rfl
@[simp] theorem dropCand_pending (s : State) (c : SlotIx) : (s.dropCand c).pending = s.pending := rfl
@[simp] theorem dropCand_conv (s : State) (c : SlotIx) (x : Conv) : (s.dropCand c).conv x = s.conv x := rfl
@[simp] theorem dropCand_relay (s : State) (c : SlotIx) (x : Pool) : (s.dropCand c).relay x = s.relay x := rfl
@[simp] theorem dropCand_port (s : State) (c : SlotIx) (x : Port) : (s.dropCand c).port x = s.port x := rfl
@[simp] theorem dropCand_station (s : State) (c : SlotIx) (x : Station) : (s.dropCand c).station x = s.station x := rfl
@[simp] theorem dropCand_head (s : State) (c : SlotIx) (x : Head) : (s.dropCand c).head x = s.head x := rfl
@[simp] theorem dropCand_prof (s : State) (c : SlotIx) (x : Fin 64) : (s.dropCand c).prof x = s.prof x := rfl
@[simp] theorem dropCand_slot (s : State) (c : SlotIx) (x : SlotIx) : (s.dropCand c).slot x = s.slot x := rfl
@[simp] theorem dropCand_job (s : State) (c : SlotIx) (x : SlotIx) : (s.dropCand c).job x = s.job x := rfl
@[simp] theorem dropCand_handleOf (s : State) (c : SlotIx) (x : SlotIx) : (s.dropCand c).handleOf x = s.handleOf x := rfl
@[simp] theorem dropCand_current (s : State) (c : SlotIx) (x : Handle) : (s.dropCand c).current x = s.current x := rfl
@[simp] theorem dropCand_segAt (s : State) (c : SlotIx) (x : Nat) : (s.dropCand c).segAt x = s.segAt x := rfl
@[simp] theorem dropCand_jobIs (s : State) (c : SlotIx) (x : SlotIx) (p : Job → Bool) : (s.dropCand c).jobIs x p = s.jobIs x p := rfl
@[simp] theorem dropCand_membersOf (s : State) (c : SlotIx) (x : SlotIx) : (s.dropCand c).membersOf x = s.membersOf x := rfl

/-! ### releasePower -/

@[simp] theorem releasePower_mode (s : State) (n : Nat) : (s.releasePower n).mode = s.mode := rfl
@[simp] theorem releasePower_estop (s : State) (n : Nat) : (s.releasePower n).estop = s.estop := rfl
@[simp] theorem releasePower_resetKind (s : State) (n : Nat) : (s.releasePower n).resetKind = s.resetKind := rfl
@[simp] theorem releasePower_resetTime (s : State) (n : Nat) : (s.releasePower n).resetTime = s.resetTime := rfl
@[simp] theorem releasePower_lineClock (s : State) (n : Nat) : (s.releasePower n).lineClock = s.lineClock := rfl
@[simp] theorem releasePower_segs (s : State) (n : Nat) : (s.releasePower n).segs = s.segs := rfl
@[simp] theorem releasePower_segUse (s : State) (n : Nat) : (s.releasePower n).segUse = s.segUse := rfl
@[simp] theorem releasePower_profs (s : State) (n : Nat) : (s.releasePower n).profs = s.profs := rfl
@[simp] theorem releasePower_profUse (s : State) (n : Nat) : (s.releasePower n).profUse = s.profUse := rfl
@[simp] theorem releasePower_heads (s : State) (n : Nat) : (s.releasePower n).heads = s.heads := rfl
@[simp] theorem releasePower_slots (s : State) (n : Nat) : (s.releasePower n).slots = s.slots := rfl
@[simp] theorem releasePower_admitted (s : State) (n : Nat) : (s.releasePower n).admitted = s.admitted := rfl
@[simp] theorem releasePower_budget (s : State) (n : Nat) : (s.releasePower n).budget = s.budget := rfl
@[simp] theorem releasePower_cands (s : State) (n : Nat) : (s.releasePower n).cands = s.cands := rfl
@[simp] theorem releasePower_convs (s : State) (n : Nat) : (s.releasePower n).convs = s.convs := rfl
@[simp] theorem releasePower_relays (s : State) (n : Nat) : (s.releasePower n).relays = s.relays := rfl
@[simp] theorem releasePower_relayHold (s : State) (n : Nat) : (s.releasePower n).relayHold = s.relayHold := rfl
@[simp] theorem releasePower_scanSet (s : State) (n : Nat) : (s.releasePower n).scanSet = s.scanSet := rfl
@[simp] theorem releasePower_passList (s : State) (n : Nat) : (s.releasePower n).passList = s.passList := rfl
@[simp] theorem releasePower_conversion (s : State) (n : Nat) : (s.releasePower n).conversion = s.conversion := rfl
@[simp] theorem releasePower_guardDwell (s : State) (n : Nat) : (s.releasePower n).guardDwell = s.guardDwell := rfl
@[simp] theorem releasePower_ports (s : State) (n : Nat) : (s.releasePower n).ports = s.ports := rfl
@[simp] theorem releasePower_stations (s : State) (n : Nat) : (s.releasePower n).stations = s.stations := rfl
@[simp] theorem releasePower_now (s : State) (n : Nat) : (s.releasePower n).now = s.now := rfl
@[simp] theorem releasePower_arbSeq (s : State) (n : Nat) : (s.releasePower n).arbSeq = s.arbSeq := rfl
@[simp] theorem releasePower_pending (s : State) (n : Nat) : (s.releasePower n).pending = s.pending := rfl
@[simp] theorem releasePower_conv (s : State) (n : Nat) (x : Conv) : (s.releasePower n).conv x = s.conv x := rfl
@[simp] theorem releasePower_relay (s : State) (n : Nat) (x : Pool) : (s.releasePower n).relay x = s.relay x := rfl
@[simp] theorem releasePower_port (s : State) (n : Nat) (x : Port) : (s.releasePower n).port x = s.port x := rfl
@[simp] theorem releasePower_station (s : State) (n : Nat) (x : Station) : (s.releasePower n).station x = s.station x := rfl
@[simp] theorem releasePower_head (s : State) (n : Nat) (x : Head) : (s.releasePower n).head x = s.head x := rfl
@[simp] theorem releasePower_prof (s : State) (n : Nat) (x : Fin 64) : (s.releasePower n).prof x = s.prof x := rfl
@[simp] theorem releasePower_slot (s : State) (n : Nat) (x : SlotIx) : (s.releasePower n).slot x = s.slot x := rfl
@[simp] theorem releasePower_job (s : State) (n : Nat) (x : SlotIx) : (s.releasePower n).job x = s.job x := rfl
@[simp] theorem releasePower_handleOf (s : State) (n : Nat) (x : SlotIx) : (s.releasePower n).handleOf x = s.handleOf x := rfl
@[simp] theorem releasePower_current (s : State) (n : Nat) (x : Handle) : (s.releasePower n).current x = s.current x := rfl
@[simp] theorem releasePower_segAt (s : State) (n : Nat) (x : Nat) : (s.releasePower n).segAt x = s.segAt x := rfl
@[simp] theorem releasePower_jobIs (s : State) (n : Nat) (x : SlotIx) (p : Job → Bool) : (s.releasePower n).jobIs x p = s.jobIs x p := rfl
@[simp] theorem releasePower_membersOf (s : State) (n : Nat) (x : SlotIx) : (s.releasePower n).membersOf x = s.membersOf x := rfl

/-! ### raise -/

@[simp] theorem raise_mode (s : State) : (s.raise).mode = s.mode := rfl
@[simp] theorem raise_estop (s : State) : (s.raise).estop = s.estop := rfl
@[simp] theorem raise_resetKind (s : State) : (s.raise).resetKind = s.resetKind := rfl
@[simp] theorem raise_resetTime (s : State) : (s.raise).resetTime = s.resetTime := rfl
@[simp] theorem raise_lineClock (s : State) : (s.raise).lineClock = s.lineClock := rfl
@[simp] theorem raise_segs (s : State) : (s.raise).segs = s.segs := rfl
@[simp] theorem raise_segUse (s : State) : (s.raise).segUse = s.segUse := rfl
@[simp] theorem raise_profs (s : State) : (s.raise).profs = s.profs := rfl
@[simp] theorem raise_profUse (s : State) : (s.raise).profUse = s.profUse := rfl
@[simp] theorem raise_heads (s : State) : (s.raise).heads = s.heads := rfl
@[simp] theorem raise_slots (s : State) : (s.raise).slots = s.slots := rfl
@[simp] theorem raise_admitted (s : State) : (s.raise).admitted = s.admitted := rfl
@[simp] theorem raise_budget (s : State) : (s.raise).budget = s.budget := rfl
@[simp] theorem raise_committed (s : State) : (s.raise).committed = s.committed := rfl
@[simp] theorem raise_cands (s : State) : (s.raise).cands = s.cands := rfl
@[simp] theorem raise_convs (s : State) : (s.raise).convs = s.convs := rfl
@[simp] theorem raise_relays (s : State) : (s.raise).relays = s.relays := rfl
@[simp] theorem raise_relayHold (s : State) : (s.raise).relayHold = s.relayHold := rfl
@[simp] theorem raise_scanSet (s : State) : (s.raise).scanSet = s.scanSet := rfl
@[simp] theorem raise_passList (s : State) : (s.raise).passList = s.passList := rfl
@[simp] theorem raise_conversion (s : State) : (s.raise).conversion = s.conversion := rfl
@[simp] theorem raise_guardDwell (s : State) : (s.raise).guardDwell = s.guardDwell := rfl
@[simp] theorem raise_ports (s : State) : (s.raise).ports = s.ports := rfl
@[simp] theorem raise_stations (s : State) : (s.raise).stations = s.stations := rfl
@[simp] theorem raise_now (s : State) : (s.raise).now = s.now := rfl
@[simp] theorem raise_arbSeq (s : State) : (s.raise).arbSeq = s.arbSeq := rfl
@[simp] theorem raise_pending (s : State) : (s.raise).pending = s.pending := rfl
@[simp] theorem raise_conv (s : State) (x : Conv) : (s.raise).conv x = s.conv x := rfl
@[simp] theorem raise_relay (s : State) (x : Pool) : (s.raise).relay x = s.relay x := rfl
@[simp] theorem raise_port (s : State) (x : Port) : (s.raise).port x = s.port x := rfl
@[simp] theorem raise_station (s : State) (x : Station) : (s.raise).station x = s.station x := rfl
@[simp] theorem raise_head (s : State) (x : Head) : (s.raise).head x = s.head x := rfl
@[simp] theorem raise_prof (s : State) (x : Fin 64) : (s.raise).prof x = s.prof x := rfl
@[simp] theorem raise_slot (s : State) (x : SlotIx) : (s.raise).slot x = s.slot x := rfl
@[simp] theorem raise_job (s : State) (x : SlotIx) : (s.raise).job x = s.job x := rfl
@[simp] theorem raise_handleOf (s : State) (x : SlotIx) : (s.raise).handleOf x = s.handleOf x := rfl
@[simp] theorem raise_current (s : State) (x : Handle) : (s.raise).current x = s.current x := rfl
@[simp] theorem raise_segAt (s : State) (x : Nat) : (s.raise).segAt x = s.segAt x := rfl
@[simp] theorem raise_jobIs (s : State) (x : SlotIx) (p : Job → Bool) : (s.raise).jobIs x p = s.jobIs x p := rfl
@[simp] theorem raise_membersOf (s : State) (x : SlotIx) : (s.raise).membersOf x = s.membersOf x := rfl

/-! ### Reading what was written -/

theorem conv_setConv (s : State) (c d : Conv) (v : Converter) :
    (s.setConv c v).conv d = if c = d then v else s.conv d := by
  simp only [conv, setConv, Fin.getElem_fin, Vector.getElem_set, Fin.ext_iff]

@[simp] theorem conv_setConv_self (s : State) (c : Conv) (v : Converter) : (s.setConv c v).conv c = v := by
  simp [conv_setConv]

@[simp] theorem conv_setConv_ne (s : State) {c d : Conv} (h : c ≠ d) (v : Converter) :
    (s.setConv c v).conv d = s.conv d := by
  simp [conv_setConv, h]

theorem relay_setRelay (s : State) (c d : Pool) (v : Relay) :
    (s.setRelay c v).relay d = if c = d then v else s.relay d := by
  simp only [relay, setRelay, Fin.getElem_fin, Vector.getElem_set, Fin.ext_iff]

@[simp] theorem relay_setRelay_self (s : State) (c : Pool) (v : Relay) : (s.setRelay c v).relay c = v := by
  simp [relay_setRelay]

@[simp] theorem relay_setRelay_ne (s : State) {c d : Pool} (h : c ≠ d) (v : Relay) :
    (s.setRelay c v).relay d = s.relay d := by
  simp [relay_setRelay, h]

theorem station_setStation (s : State) (c d : Station) (v : StationSt) :
    (s.setStation c v).station d = if c = d then v else s.station d := by
  simp only [station, setStation, Fin.getElem_fin, Vector.getElem_set, Fin.ext_iff]

@[simp] theorem station_setStation_self (s : State) (c : Station) (v : StationSt) : (s.setStation c v).station c = v := by
  simp [station_setStation]

@[simp] theorem station_setStation_ne (s : State) {c d : Station} (h : c ≠ d) (v : StationSt) :
    (s.setStation c v).station d = s.station d := by
  simp [station_setStation, h]

theorem head_setHead (s : State) (c d : Head) (v : HeadRec) :
    (s.setHead c v).head d = if c = d then v else s.head d := by
  simp only [head, setHead, Fin.getElem_fin, Vector.getElem_set, Fin.ext_iff]

@[simp] theorem head_setHead_self (s : State) (c : Head) (v : HeadRec) : (s.setHead c v).head c = v := by
  simp [head_setHead]

@[simp] theorem head_setHead_ne (s : State) {c d : Head} (h : c ≠ d) (v : HeadRec) :
    (s.setHead c v).head d = s.head d := by
  simp [head_setHead, h]

theorem prof_setProf (s : State) (c d : Fin 64) (v : Profile) :
    (s.setProf c v).prof d = if c = d then v else s.prof d := by
  simp only [prof, setProf, Fin.getElem_fin, Vector.getElem_set, Fin.ext_iff]

@[simp] theorem prof_setProf_self (s : State) (c : Fin 64) (v : Profile) : (s.setProf c v).prof c = v := by
  simp [prof_setProf]

@[simp] theorem prof_setProf_ne (s : State) {c d : Fin 64} (h : c ≠ d) (v : Profile) :
    (s.setProf c v).prof d = s.prof d := by
  simp [prof_setProf, h]

theorem slot_setSlot (s : State) (c d : SlotIx) (v : Slot) :
    (s.setSlot c v).slot d = if c = d then v else s.slot d := by
  simp only [slot, setSlot, Fin.getElem_fin, Vector.getElem_set, Fin.ext_iff]

@[simp] theorem slot_setSlot_self (s : State) (c : SlotIx) (v : Slot) : (s.setSlot c v).slot c = v := by
  simp [slot_setSlot]

@[simp] theorem slot_setSlot_ne (s : State) {c d : SlotIx} (h : c ≠ d) (v : Slot) :
    (s.setSlot c v).slot d = s.slot d := by
  simp [slot_setSlot, h]

theorem conv_modConv (s : State) (c d : Conv) (f : Converter → Converter) :
    (s.modConv c f).conv d = if c = d then f (s.conv c) else s.conv d := by
  simp [modConv, conv_setConv]

@[simp] theorem conv_modConv_self (s : State) (c : Conv) (f : Converter → Converter) :
    (s.modConv c f).conv c = f (s.conv c) := by
  simp [modConv]

@[simp] theorem conv_modConv_ne (s : State) {c d : Conv} (h : c ≠ d) (f : Converter → Converter) :
    (s.modConv c f).conv d = s.conv d := by
  simp [modConv, h]

theorem relay_modRelay (s : State) (c d : Pool) (f : Relay → Relay) :
    (s.modRelay c f).relay d = if c = d then f (s.relay c) else s.relay d := by
  simp [modRelay, relay_setRelay]

@[simp] theorem relay_modRelay_self (s : State) (c : Pool) (f : Relay → Relay) :
    (s.modRelay c f).relay c = f (s.relay c) := by
  simp [modRelay]

@[simp] theorem relay_modRelay_ne (s : State) {c d : Pool} (h : c ≠ d) (f : Relay → Relay) :
    (s.modRelay c f).relay d = s.relay d := by
  simp [modRelay, h]

theorem station_modStation (s : State) (c d : Station) (f : StationSt → StationSt) :
    (s.modStation c f).station d = if c = d then f (s.station c) else s.station d := by
  simp [modStation, station_setStation]

@[simp] theorem station_modStation_self (s : State) (c : Station) (f : StationSt → StationSt) :
    (s.modStation c f).station c = f (s.station c) := by
  simp [modStation]

@[simp] theorem station_modStation_ne (s : State) {c d : Station} (h : c ≠ d) (f : StationSt → StationSt) :
    (s.modStation c f).station d = s.station d := by
  simp [modStation, h]

theorem portIx_inj {p q : Port} (h : portIx p = portIx q) : p = q := by
  cases p <;> cases q <;> simp [portIx, Fin.ext_iff] at h ⊢ <;> omega

theorem port_setPort (s : State) (p q : Port) (v : PortSt) :
    (s.setPort p v).port q = if p = q then v else s.port q := by
  have h : (portIx p).val = (portIx q).val ↔ p = q :=
    ⟨fun e => portIx_inj (Fin.ext e), fun e => by rw [e]⟩
  simp only [port, setPort, Fin.getElem_fin, Vector.getElem_set, h]

@[simp] theorem port_setPort_self (s : State) (p : Port) (v : PortSt) : (s.setPort p v).port p = v := by
  simp [port_setPort]

@[simp] theorem port_setPort_ne (s : State) {p q : Port} (h : p ≠ q) (v : PortSt) :
    (s.setPort p v).port q = s.port q := by
  simp [port_setPort, h]

theorem port_modPort (s : State) (c d : Port) (f : PortSt → PortSt) :
    (s.modPort c f).port d = if c = d then f (s.port c) else s.port d := by
  simp [modPort, port_setPort]

@[simp] theorem port_modPort_self (s : State) (c : Port) (f : PortSt → PortSt) :
    (s.modPort c f).port c = f (s.port c) := by
  simp [modPort]

@[simp] theorem port_modPort_ne (s : State) {c d : Port} (h : c ≠ d) (f : PortSt → PortSt) :
    (s.modPort c f).port d = s.port d := by
  simp [modPort, h]

theorem job_setSlot (s : State) (c d : SlotIx) (v : Slot) :
    (s.setSlot c v).job d = if c = d then v.job else s.job d := by
  unfold job
  rw [slot_setSlot]
  split <;> rfl

theorem slot_modJob (s : State) (c d : SlotIx) (f : Job → Job) :
    (s.modJob c f).slot d = if c = d then { s.slot c with job := (s.job c).map f } else s.slot d := by
  simp [modJob, slot_setSlot]

theorem job_modJob (s : State) (c d : SlotIx) (f : Job → Job) :
    (s.modJob c f).job d = if c = d then (s.job c).map f else s.job d := by
  simp [modJob, job_setSlot]

@[simp] theorem job_modJob_self (s : State) (c : SlotIx) (f : Job → Job) :
    (s.modJob c f).job c = (s.job c).map f := by
  simp [job_modJob]

@[simp] theorem job_modJob_ne (s : State) {c d : SlotIx} (h : c ≠ d) (f : Job → Job) :
    (s.modJob c f).job d = s.job d := by
  simp [job_modJob, h]

@[simp] theorem handleOf_modJob (s : State) (c d : SlotIx) (f : Job → Job) :
    (s.modJob c f).handleOf d = s.handleOf d := by
  unfold handleOf
  rw [slot_modJob]
  split
  · rename_i h
    rw [← h]
  · rfl

/-! ### tick -/

/-- A tick moves the two counts and keeps the command held over the millisecond; it touches no more of a converter. -/
@[simp] theorem conv_tick (s : State) (c : Conv) :
    (tick s).conv c = { s.conv c with msCommand := (s.conv c).command } := by
  simp [tick, conv, Converter.tick]

@[simp] theorem now_tick (s : State) : (tick s).now = s.now + 1 := rfl
@[simp] theorem lineClock_tick (s : State) : (tick s).lineClock = s.lineClock + 1 := rfl

/-- All that a tick changes. -/
theorem tick_only (s : State) :
    tick s = { s with now := (tick s).now, lineClock := (tick s).lineClock, convs := (tick s).convs } := rfl

end Sys2Proof.Machine.State
end

