-- ==== Sys2Proof/Laws/Settings.lean ====
section
/-! SUPPORT. `SameSettings` of Safety.lean is a preorder, every plain update of what it leaves open has it, and so
does every shared operation of the bank, of the job table, of heating and of the arbiter. -/

namespace Sys2Proof.Machine

open State

/-- A change of a job keeps its description (R58). -/
def Job.SameDesc (i j : Job) : Prop :=
  j.station = i.station ∧ j.ref = i.ref ∧ j.head = i.head ∧ j.profile = i.profile ∧ j.trigger = i.trigger ∧
  j.urgency = i.urgency ∧ j.waitLimit = i.waitLimit ∧ j.gang = i.gang ∧ j.reservation = i.reservation ∧
  j.admittedAt = i.admittedAt

namespace State.SameSettings

theorem refl (s : State) : s.SameSettings s where
  line := by simp
  tables := by simp
  heads := by simp
  convs := by simp
  stations := by simp
  links := by simp
  free := by simp
  jobs := by
    intro k i j h h'
    rw [h] at h'
    cases h'
    simp

theorem trans {s t u : State} (h : s.SameSettings t) (g : t.SameSettings u) : s.SameSettings u where
  line := by
    obtain ⟨a1, a2, a3, a4, a5, a6, a7⟩ := h.line
    obtain ⟨b1, b2, b3, b4, b5, b6, b7⟩ := g.line
    exact ⟨b1.trans a1, b2.trans a2, b3.trans a3, b4.trans a4, b5.trans a5, b6.trans a6, b7.trans a7⟩
  tables := by
    obtain ⟨a1, a2, a3, a4, a5⟩ := h.tables
    obtain ⟨b1, b2, b3, b4, b5⟩ := g.tables
    exact ⟨b1.trans a1, b2.trans a2, b3.trans a3, b4.trans a4, b5.trans a5⟩
  heads := fun x => by rw [g.heads x, h.heads x]
  convs := fun c => by
    obtain ⟨a1, a2, a3, a4⟩ := h.convs c
    obtain ⟨b1, b2, b3, b4⟩ := g.convs c
    exact ⟨b1.trans a1, b2.trans a2, b3.trans a3, b4.trans a4⟩
  stations := fun n => by
    obtain ⟨a1, a2, a3, a4⟩ := h.stations n
    obtain ⟨b1, b2, b3, b4⟩ := g.stations n
    exact ⟨b1.trans a1, b2.trans a2, b3.trans a3, b4.trans a4⟩
  links := fun p => by
    obtain ⟨a1, a2, a3, a4, a5, a6⟩ := h.links p
    obtain ⟨b1, b2, b3, b4, b5, b6⟩ := g.links p
    exact ⟨b1.trans a1, b2.trans a2, b3.trans a3, b4.trans a4, b5.trans a5, b6.trans a6⟩
  free := fun k e => by
    have e' := h.free k e
    have : t.job k = none := by unfold State.job at e ⊢; rw [e', e]
    rw [g.free k this, e']
  jobs := fun k i j e e' => by
    cases m : t.job k with
    | none =>
      have := g.free k m
      unfold State.job at e' m
      rw [this, m] at e'
      cases e'
    | some x =>
      obtain ⟨a1, a2, a3, a4, a5, a6, a7, a8, a9, a10, a11⟩ := h.jobs k i x e m
      obtain ⟨b1, b2, b3, b4, b5, b6, b7, b8, b9, b10, b11⟩ := g.jobs k x j m e'
      exact ⟨b1.trans a1, b2.trans a2, b3.trans a3, b4.trans a4, b5.trans a5, b6.trans a6, b7.trans a7,
        b8.trans a8, b9.trans a9, b10.trans a10, b11.trans a11⟩

/-- An update outside the fields that hold settings. -/
theorem base_of_fields {s t : State}
    (line : t.mode = s.mode ∧ t.estop = s.estop ∧ t.resetKind = s.resetKind ∧ t.resetTime = s.resetTime ∧
      t.lineClock = s.lineClock ∧ t.now = s.now ∧ t.pending = s.pending)
    (tables : t.segs = s.segs ∧ t.profs = s.profs ∧ t.budget = s.budget ∧ t.guardDwell = s.guardDwell ∧
      t.relayHold = s.relayHold)
    (heads : t.heads = s.heads) (convs : t.convs = s.convs) (stations : t.stations = s.stations)
    (ports : t.ports = s.ports) (slots : t.slots = s.slots) : s.SameSettings t where
  line := line
  tables := tables
  heads := fun x => by simp [State.head, heads]
  convs := fun c => by simp [State.conv, convs]
  stations := fun n => by simp [State.station, stations]
  links := fun p => by simp [State.port, ports]
  free := fun k _ => by simp [State.slot, slots]
  jobs := fun k i j h h' => by
    simp only [State.job, State.slot, slots] at h h' ⊢
    rw [h] at h'
    cases h'
    simp

theorem base_modConv {s : State} (c : Conv) (f : Converter → Converter)
    (h : ∀ v, (f v).enabled = v.enabled ∧ (f v).interval = v.interval ∧ (f v).pins = v.pins ∧
      (f v).msCommand = v.msCommand) :
    s.SameSettings (s.modConv c f) where
  line := by simp
  tables := by simp
  heads := by simp
  convs := fun d => by
    rw [conv_modConv]
    split
    · next e => rw [← e]; exact h _
    · simp
  stations := by simp
  links := by simp
  free := by simp
  jobs := fun k i j e e' => by
    simp only [modConv_job, e, Option.some.injEq] at e'
    subst e'
    simp

theorem base_setConv {s : State} (c : Conv) (v : Converter)
    (h : v.enabled = (s.conv c).enabled ∧ v.interval = (s.conv c).interval ∧ v.pins = (s.conv c).pins ∧
      v.msCommand = (s.conv c).msCommand) :
    s.SameSettings (s.setConv c v) where
  line := by simp
  tables := by simp
  heads := by simp
  convs := fun d => by
    rw [conv_setConv]
    split
    · next e => rw [← e]; exact h
    · simp
  stations := by simp
  links := by simp
  free := by simp
  jobs := fun k i j e e' => by
    simp only [setConv_job, e, Option.some.injEq] at e'
    subst e'
    simp

theorem base_modRelay {s : State} (p : Pool) (f : Relay → Relay) : s.SameSettings (s.modRelay p f) :=
  base_of_fields (by simp) (by simp) rfl rfl rfl rfl rfl

theorem base_setHead_learned {s : State} (h : Head) (x : Option Nat) :
    s.SameSettings (s.setHead h { s.head h with learned := x }) where
  line := by simp
  tables := by simp
  heads := fun g => by
    rw [head_setHead]
    split
    · next e => rw [← e]
    · rfl
  convs := by simp
  stations := by simp
  links := by simp
  free := by simp
  jobs := fun k i j e e' => by
    simp only [setHead_job, e, Option.some.injEq] at e'
    subst e'
    simp

theorem base_modPort {s : State} (p : Port) (f : PortSt → PortSt)
    (h : ∀ v, (f v).rx = v.rx ∧ (f v).lastByteAt = v.lastByteAt ∧ (f v).holding = v.holding ∧
      (f v).reply = v.reply ∧ (f v).framing = v.framing ∧ (f v).overrun = v.overrun) :
    s.SameSettings (s.modPort p f) where
  line := by simp
  tables := by simp
  heads := by simp
  convs := by simp
  stations := by simp
  links := fun q => by
    rw [port_modPort]
    split
    · next e => rw [← e]; exact h _
    · simp
  free := by simp
  jobs := fun k i j e e' => by
    simp only [modPort_job, e, Option.some.injEq] at e'
    subst e'
    simp

theorem base_post (s : State) (p : Port) (b : NoticeBody) : s.SameSettings (s.post p b) :=
  base_modPort p _ fun v => by unfold PortSt.post; split <;> simp

theorem base_modStation {s : State} (n : Station) (f : StationSt → StationSt)
    (h : ∀ v, (f v).live = v.live ∧ (f v).reported = v.reported ∧ (f v).marks = v.marks ∧
      (f v).lease = v.lease) :
    s.SameSettings (s.modStation n f) where
  line := by simp
  tables := by simp
  heads := by simp
  convs := by simp
  stations := fun m => by
    rw [station_modStation]
    split
    · next e => rw [← e]; exact h _
    · simp
  links := by simp
  free := by simp
  jobs := fun k i j e e' => by
    simp only [modStation_job, e, Option.some.injEq] at e'
    subst e'
    simp

theorem base_modJob {s : State} (k : SlotIx) (f : Job → Job) (h : ∀ j : Job, j.SameDesc (f j)) :
    s.SameSettings (s.modJob k f) where
  line := by simp
  tables := by simp
  heads := by simp
  convs := by simp
  stations := by simp
  links := by simp
  free := fun m e => by
    rw [slot_modJob]
    split
    · next e' =>
      subst e'
      rw [e]
      unfold State.job at e
      rw [Option.map_none, ← e]
    · rfl
  jobs := fun m i j e e' => by
    rw [job_modJob] at e'
    rw [slot_modJob]
    split
    · next e'' =>
      subst e''
      rw [if_pos rfl, e] at e'
      cases e'
      exact ⟨rfl, h i⟩
    · next e'' =>
      rw [if_neg e'', e] at e'
      cases e'
      simp

/-- An occupied slot is freed. -/
theorem base_setSlot_none {s : State} (k : SlotIx) (g : Byte) (h : s.job k ≠ none) :
    s.SameSettings (s.setSlot k ⟨g, none⟩) where
  line := by simp
  tables := by simp
  heads := by simp
  convs := by simp
  stations := by simp
  links := by simp
  free := fun m e => by
    rw [slot_setSlot]
    split
    · next e' => subst e'; exact absurd e h
    · rfl
  jobs := fun m i j e e' => by
    rw [job_setSlot] at e'
    rw [slot_setSlot]
    split
    · next e'' => subst e''; simp at e'
    · next e'' =>
      rw [if_neg e'', e] at e'
      cases e'
      simp

theorem base_raise (s : State) : s.SameSettings s.raise :=
  base_of_fields (by simp) (by simp) rfl rfl rfl rfl rfl

/-! ### The same after what has been done already -/

theorem fields {s t u : State} (h : s.SameSettings t)
    (line : u.mode = t.mode ∧ u.estop = t.estop ∧ u.resetKind = t.resetKind ∧ u.resetTime = t.resetTime ∧
      u.lineClock = t.lineClock ∧ u.now = t.now ∧ u.pending = t.pending := by exact ⟨rfl, rfl, rfl, rfl, rfl, rfl, rfl⟩)
    (tables : u.segs = t.segs ∧ u.profs = t.profs ∧ u.budget = t.budget ∧ u.guardDwell = t.guardDwell ∧
      u.relayHold = t.relayHold := by exact ⟨rfl, rfl, rfl, rfl, rfl⟩)
    (heads : u.heads = t.heads := by rfl) (convs : u.convs = t.convs := by rfl)
    (stations : u.stations = t.stations := by rfl) (ports : u.ports = t.ports := by rfl)
    (slots : u.slots = t.slots := by rfl) : s.SameSettings u :=
  h.trans (base_of_fields line tables heads convs stations ports slots)

theorem modConv {s t : State} (h : s.SameSettings t) {c : Conv} {f : Converter → Converter}
    (hf : ∀ v, (f v).enabled = v.enabled ∧ (f v).interval = v.interval ∧ (f v).pins = v.pins ∧
      (f v).msCommand = v.msCommand := by
      intro v; exact ⟨rfl, rfl, rfl, rfl⟩) : s.SameSettings (t.modConv c f) :=
  h.trans (base_modConv c f hf)

theorem setConv {s t : State} (h : s.SameSettings t) {c : Conv} {v : Converter}
    (hv : v.enabled = (t.conv c).enabled ∧ v.interval = (t.conv c).interval ∧ v.pins = (t.conv c).pins ∧
      v.msCommand = (t.conv c).msCommand := by
      exact ⟨rfl, rfl, rfl, rfl⟩) : s.SameSettings (t.setConv c v) :=
  h.trans (base_setConv c v hv)

theorem modRelay {s t : State} (h : s.SameSettings t) {p : Pool} {f : Relay → Relay} :
    s.SameSettings (t.modRelay p f) :=
  h.trans (base_modRelay p f)

theorem setHead_learned {s t : State} (h : s.SameSettings t) {x : Head} {l : Option Nat} :
    s.SameSettings (t.setHead x { t.head x with learned := l }) :=
  h.trans (base_setHead_learned x l)

theorem post {s t : State} (h : s.SameSettings t) {p : Port} {b : NoticeBody} : s.SameSettings (t.post p b) :=
  h.trans (base_post t p b)

theorem modStation {s t : State} (h : s.SameSettings t) {n : Station} {f : StationSt → StationSt}
    (hf : ∀ v, (f v).live = v.live ∧ (f v).reported = v.reported ∧ (f v).marks = v.marks ∧
      (f v).lease = v.lease := by intro v; exact ⟨rfl, rfl, rfl, rfl⟩) : s.SameSettings (t.modStation n f) :=
  h.trans (base_modStation n f hf)

theorem modJob {s t : State} (h : s.SameSettings t) {k : SlotIx} {f : Job → Job}
    (hf : ∀ j : Job, j.SameDesc (f j) := by
      intro j; exact ⟨rfl, rfl, rfl, rfl, rfl, rfl, rfl, rfl, rfl, rfl⟩) : s.SameSettings (t.modJob k f) :=
  h.trans (base_modJob k f hf)

theorem setSlot_none {s t : State} (h : s.SameSettings t) {k : SlotIx} {g : Byte} (e : t.job k ≠ none) :
    s.SameSettings (t.setSlot k ⟨g, none⟩) :=
  h.trans (base_setSlot_none k g e)

theorem raise {s t : State} (h : s.SameSettings t) : s.SameSettings t.raise := h.trans (base_raise t)

theorem folds {α : Type} {s t : State} (h : s.SameSettings t) {f : State → α → State} {l : List α}
    (hf : ∀ (u : State) x, s.SameSettings u → s.SameSettings (f u x)) : s.SameSettings (l.foldl f t) := by
  induction l generalizing t with
  | nil => exact h
  | cons x xs ih => exact ih (hf t x h)

end State.SameSettings

end Sys2Proof.Machine
end

