-- ==== Sys2Proof/Laws/Work.lean ====
section
/-! SUPPORT. The shared operations of the scanner, the bank, the job table, the abort paths, heating and the
arbiter keep the settings: each lemma carries `SameSettings` from a start state past one more operation. -/

namespace Sys2Proof.Machine

open State

/-! ## Scanner -/

theorem startConversion_settings {s t : State} (h : s.SameSettings t) : s.SameSettings (startConversion t) := by
  unfold startConversion
  split
  · exact h
  · exact h.fields

theorem scanNext_settings {s t : State} (h : s.SameSettings t) : s.SameSettings (scanNext t) := by
  unfold scanNext startPass
  split
  · exact startConversion_settings h.fields
  · exact startConversion_settings h

theorem scanJoin_settings {s t : State} {x : Head} (h : s.SameSettings t) : s.SameSettings (scanJoin x t) :=
  h.fields

theorem scanLeave_settings {s t : State} {x : Head} (h : s.SameSettings t) : s.SameSettings (scanLeave x t) := by
  unfold scanLeave
  dsimp only
  split
  · exact h.fields
  · split
    · exact scanNext_settings h.fields
    · exact h.fields

theorem scanSettle_settings {s t : State} (h : s.SameSettings t) : s.SameSettings (scanSettle t) := by
  unfold scanSettle
  split
  · exact h
  · exact scanNext_settings h

/-! ## Bank -/

theorem matrixTry_settings {s t : State} {p : Pool} (h : s.SameSettings t) : s.SameSettings (matrixTry p t) := by
  unfold matrixTry
  split
  · exact h
  · dsimp only
    split <;> exact h.modRelay

theorem disconnect_settings {s t : State} {c : Conv} (h : s.SameSettings t) :
    s.SameSettings (disconnect c t) := by
  unfold disconnect
  split
  · exact h
  · exact matrixTry_settings h.modRelay

theorem postConverterState_settings {s t : State} {c : Conv} (h : s.SameSettings t) :
    s.SameSettings (postConverterState c t) := h.post

theorem enterWarmup_settings {s t : State} {c : Conv} (h : s.SameSettings t) :
    s.SameSettings (enterWarmup c t) := h.modConv

theorem enterOff_settings {s t : State} {c : Conv} (h : s.SameSettings t) : s.SameSettings (enterOff c t) := by
  unfold enterOff
  dsimp only
  split
  · exact enterWarmup_settings (disconnect_settings h.modConv)
  · exact disconnect_settings h.modConv

theorem enterHeld_settings {s t : State} {c : Conv} (h : s.SameSettings t) : s.SameSettings (enterHeld c t) :=
  disconnect_settings h.modConv

theorem enterFaulted_settings {s t : State} {c : Conv} (h : s.SameSettings t) :
    s.SameSettings (enterFaulted c t) :=
  disconnect_settings (postConverterState_settings h.modConv)

theorem enterIdle_settings {s t : State} {c : Conv} (h : s.SameSettings t) : s.SameSettings (enterIdle c t) := by
  unfold enterIdle
  dsimp only
  split
  · exact (postConverterState_settings h.modConv).raise
  · exact h.modConv.raise

theorem resolveConv_settings {s t : State} {c : Conv} (h : s.SameSettings t) :
    s.SameSettings (resolveConv c t) := by
  unfold resolveConv
  split
  · exact enterFaulted_settings h
  · split
    · exact enterIdle_settings h
    · exact enterOff_settings h
  · exact enterHeld_settings h
  · exact enterIdle_settings h

theorem warmupCheck_settings {s t : State} {c : Conv} (h : s.SameSettings t) :
    s.SameSettings (warmupCheck c t) := by
  unfold warmupCheck endWarmup
  split
  · split
    · exact enterFaulted_settings h.modConv
    · exact resolveConv_settings h
  · exact h

theorem clearServed_settings {s t : State} {c : Conv} (h : s.SameSettings t) :
    s.SameSettings (clearServed c t) := by
  unfold clearServed
  dsimp only
  split
  · exact h.modConv
  · exact h.modJob.modConv

theorem Converter.discharge_kept (v : Converter) (clock : Time) (now : Nat) :
    (v.discharge clock now).enabled = v.enabled ∧ (v.discharge clock now).interval = v.interval ∧
      (v.discharge clock now).pins = v.pins ∧ (v.discharge clock now).msCommand = v.msCommand := by
  unfold Converter.discharge Converter.switchOff
  dsimp only
  split <;> exact ⟨rfl, rfl, rfl, rfl⟩

theorem enterDischarge_settings {s t : State} {c : Conv} (h : s.SameSettings t) :
    s.SameSettings (enterDischarge c t) :=
  (clearServed_settings h).modConv fun v => v.discharge_kept _ _

theorem connectionCheck_settings {s t : State} {c : Conv} (h : s.SameSettings t) :
    s.SameSettings (connectionCheck c t) := by
  unfold connectionCheck
  split
  · exact resolveConv_settings h
  · exact h

theorem withdrawConnection_settings {s t : State} {c : Conv} (h : s.SameSettings t) :
    s.SameSettings (withdrawConnection c t) := by
  unfold withdrawConnection
  dsimp only
  split
  · exact connectionCheck_settings (clearServed_settings h)
  · exact connectionCheck_settings (clearServed_settings h).modRelay

/-! ## Job table -/

theorem modUse_settings {s t : State} {p : Fin 64} {f : Nat → Nat} (h : s.SameSettings t) :
    s.SameSettings (t.modUse p f) := h.fields

theorem modAdmitted_settings {s t : State} {n : Station} {f : Nat → Nat} (h : s.SameSettings t) :
    s.SameSettings (t.modAdmitted n f) := h.fields

theorem dropCand_settings {s t : State} {k : SlotIx} (h : s.SameSettings t) : s.SameSettings (t.dropCand k) :=
  h.fields

theorem setOutcome_settings {s t : State} {k : SlotIx} {o : JobOutcome} (h : s.SameSettings t) :
    s.SameSettings (t.setOutcome k o) :=
  h.modJob fun j => by split <;> exact ⟨rfl, rfl, rfl, rfl, rfl, rfl, rfl, rfl, rfl, rfl⟩

theorem enterReady_settings {s t : State} {l : List SlotIx} (h : s.SameSettings t) :
    s.SameSettings (enterReady l t) := by
  unfold enterReady
  split
  · exact h
  · split
    · exact h
    · have h' := fun l => h.folds (f := fun s m => s.modJob m (·.ready s.lineClock)) (l := l)
        fun _ _ hu => hu.modJob
      exact SameSettings.raise (h' _).fields

theorem fireTrigger_settings {s t : State} {p : Job → Bool} (h : s.SameSettings t) :
    s.SameSettings (fireTrigger p t) :=
  h.folds fun _ _ hu => by split; exacts [enterReady_settings hu, hu]

theorem writeResult_settings {s t : State} {k : SlotIx} {j : Job} {r : Release} (h : s.SameSettings t) :
    s.SameSettings (writeResult k j r t) :=
  modAdmitted_settings h.modStation

theorem freeSlot_settings {s t : State} {k : SlotIx} {j : Job} (h : s.SameSettings t) (e : t.job k ≠ none) :
    s.SameSettings (freeSlot k j t) := by
  unfold freeSlot
  dsimp only
  split
  · exact (scanLeave_settings (h.setSlot_none e)).raise
  · exact (scanLeave_settings (h.setSlot_none e)).raise
  · exact (dropCand_settings (h.setSlot_none e)).raise
  all_goals exact h.setSlot_none e

theorem endSteps_settings {s t : State} {k : SlotIx} {j : Job} {r : Release} (h : s.SameSettings t)
    (e : t.job k ≠ none) : s.SameSettings (endSteps k j r t) :=
  (freeSlot_settings (modUse_settings (writeResult_settings h)) e).post

theorem endJobFuel_settings {s t : State} {n : Nat} {k : SlotIx} {r : Release} (h : s.SameSettings t) :
    s.SameSettings (endJobFuel n k r t) := by
  induction n generalizing k r t with
  | zero => exact h
  | succ n ih =>
    unfold endJobFuel
    split
    · exact h
    · next j e =>
      refine (endSteps_settings h (by simp [e])).folds fun _ _ hu => ?_
      split
      · split
        · exact enterReady_settings hu
        · exact (hu.folds fun _ _ hv => setOutcome_settings hv).folds fun _ _ hv => ih hv
      · exact hu

theorem endJob_settings {s t : State} {k : SlotIx} {r : Release} (h : s.SameSettings t) :
    s.SameSettings (endJob k r t) :=
  endJobFuel_settings h

/-! ## Abort paths -/

theorem enterCooling_settings {s t : State} {k : SlotIx} (h : s.SameSettings t) :
    s.SameSettings (enterCooling k t) := by
  unfold enterCooling
  split
  · exact h
  · dsimp only
    split
    · exact endJob_settings h.modJob
    · exact h.modJob

theorem releasePower_settings {s t : State} {n : Nat} (h : s.SameSettings t) :
    s.SameSettings (t.releasePower n) :=
  h.fields

theorem abortPath_settings {s t : State} {k : SlotIx} (h : s.SameSettings t) :
    s.SameSettings (abortPath k t) := by
  unfold abortPath
  split
  · exact h
  · split
    · exact endJob_settings h
    · exact endJob_settings h
    · refine endJob_settings ?_
      split
      · exact withdrawConnection_settings (releasePower_settings h)
      · exact releasePower_settings h
    iterate 3
      refine enterCooling_settings ?_
      split
      · exact enterDischarge_settings (releasePower_settings h)
      · exact releasePower_settings h
    exact h

theorem giveOutcome_settings {s t : State} {o : JobOutcome} {k : SlotIx} (h : s.SameSettings t) :
    s.SameSettings (giveOutcome o t k) := by
  unfold giveOutcome
  split
  · exact setOutcome_settings h
  · exact h

theorem failJob_settings {s t : State} {o : JobOutcome} {k : SlotIx} (h : s.SameSettings t) :
    s.SameSettings (failJob o k t) := by
  unfold failJob
  split
  · exact (abortPath_settings ((setOutcome_settings h).folds fun _ _ hu => giveOutcome_settings hu)).folds
      fun _ _ hu => abortPath_settings hu
  · exact h

theorem reach_settings {s t : State} {o : JobOutcome} {p : Job → Bool} (h : s.SameSettings t) :
    s.SameSettings (reach o p t) := by
  unfold reach
  refine SameSettings.folds ((h.folds fun _ _ hu => giveOutcome_settings hu).folds
    fun _ _ hu => hu.folds fun _ _ hv => giveOutcome_settings hv) fun _ _ hu => ?_
  split
  · exact abortPath_settings hu
  · exact hu

/-! ## Heating -/

theorem enterSeeking_settings {s t : State} {c : Conv} {k : SlotIx} (h : s.SameSettings t) :
    s.SameSettings (enterSeeking c k t) := by
  unfold enterSeeking
  split
  · exact h
  · dsimp only
    split
    · exact scanJoin_settings h.modJob.modConv
    · exact h.modJob.modConv

theorem Converter.enterSegment_kept (v : Converter) (i : Nat) (g : Segment) (settle : Nat) (clock : Time)
    (now : Nat) : (v.enterSegment i g settle clock now).enabled = v.enabled ∧
      (v.enterSegment i g settle clock now).interval = v.interval ∧
      (v.enterSegment i g settle clock now).pins = v.pins ∧
      (v.enterSegment i g settle clock now).msCommand = v.msCommand := by
  unfold Converter.enterSegment Converter.switchOff
  dsimp only
  split
  · split <;> exact ⟨rfl, rfl, rfl, rfl⟩
  · exact ⟨rfl, rfl, rfl, rfl⟩

theorem enterSegment_settings {s t : State} {c : Conv} {k : SlotIx} {run : Run} {i : Nat}
    (h : s.SameSettings t) : s.SameSettings (enterSegment c k run i t) := by
  unfold enterSegment
  split
  · exact h
  · exact h.modJob.modConv fun v => v.enterSegment_kept _ _ _ _ _

theorem learn_settings {s t : State} {j : Job} {o : JobOutcome} (h : s.SameSettings t) :
    s.SameSettings (learn j o t) := by
  unfold learn
  split
  · exact h.setHead_learned
  · exact h

theorem endHeating_settings {s t : State} {c : Conv} {k : SlotIx} (h : s.SameSettings t) :
    s.SameSettings (endHeating c k t) := by
  unfold endHeating
  split
  · exact h
  · exact enterCooling_settings (learn_settings (enterDischarge_settings
      (releasePower_settings (setOutcome_settings h))))

theorem advance_settings {s t : State} {c : Conv} {k : SlotIx} (h : s.SameSettings t) :
    s.SameSettings (advance c k t) := by
  unfold advance
  split
  · exact h
  · dsimp only
    split
    · exact h
    split
    · exact enterSegment_settings h
    split
    · exact enterSegment_settings h
    · exact endHeating_settings h

theorem enterHeating_settings {s t : State} {k : SlotIx} (h : s.SameSettings t) :
    s.SameSettings (enterHeating t k) := by
  unfold enterHeating
  split
  · exact h
  · split
    · exact h
    · exact (enterSegment_settings h.modJob.modConv).post

theorem lock_settings {s t : State} {c : Conv} {k : SlotIx} (h : s.SameSettings t) :
    s.SameSettings (lock c k t) := by
  unfold lock
  dsimp only
  split
  · exact h.modJob.folds fun _ _ hu => enterHeating_settings hu
  · exact h.modJob.modJob.modConv

theorem settleSeek_settings {s t : State} {c : Conv} {k : SlotIx} {r : HeadRec} {report : PhaseReport}
    (h : s.SameSettings t) : s.SameSettings (settleSeek c k r report t) := by
  unfold settleSeek
  dsimp only
  split
  · split
    · exact h.setConv
    · exact lock_settings h.setConv
  all_goals
    split
    · exact h.setConv
    · exact failJob_settings h.setConv

theorem settleTrack_settings {s t : State} {c : Conv} {k : SlotIx} {r : HeadRec} {report : PhaseReport}
    (h : s.SameSettings t) : s.SameSettings (settleTrack c k r report t) := by
  unfold settleTrack
  dsimp only
  split
  all_goals
    split
    · exact h.setConv
    · exact failJob_settings h.setConv

theorem settleExpiry_settings {s t : State} {c : Conv} {report : PhaseReport} (h : s.SameSettings t) :
    s.SameSettings (settleExpiry c report t) := by
  unfold settleExpiry
  split
  · split
    · exact h
    split
    · exact h
    split
    · exact settleSeek_settings h
    split
    · exact settleTrack_settings h
    · exact h
  · exact h

theorem engineFail_settings {s t : State} {c : Conv} {k : SlotIx} {o : JobOutcome} (h : s.SameSettings t) :
    s.SameSettings (engineFail c k o t) :=
  failJob_settings h.modConv

theorem segmentWork_settings {s t : State} {c : Conv} {k : SlotIx} {r : PyroReading} {flow : Bool}
    (h : s.SameSettings t) : s.SameSettings (segmentWork c k r flow t) := by
  unfold segmentWork
  split
  · exact h
  · split
    · exact advance_settings h
    · exact h.modConv

theorem signalCheck_settings {s t : State} {c : Conv} {k : SlotIx} {lost : Bool} {n : Nat}
    (h : s.SameSettings t) : s.SameSettings (signalCheck c k lost n t) := by
  unfold signalCheck
  exact h.modJob.modConv

theorem Job.measure_desc (j : Job) (n m : Nat) (r : PyroReading) : j.SameDesc (j.measure n m r) := by
  cases r <;> exact ⟨rfl, rfl, rfl, rfl, rfl, rfl, rfl, rfl, rfl, rfl⟩

theorem sampleWork_settings {s t : State} {c : Conv} {k : SlotIx} {j : Job} {r : PyroReading} {flow : Bool}
    (h : s.SameSettings t) : s.SameSettings (sampleWork c k j r flow t) := by
  have h' := fun a b => h.modJob (k := k) (f := (·.measure a b r)) fun i => i.measure_desc _ _ _
  unfold sampleWork
  dsimp only
  split
  · exact engineFail_settings (h' _ _)
  split
  · exact engineFail_settings (h' _ _).modJob
  split
  · exact segmentWork_settings (signalCheck_settings (h' _ _))
  · exact signalCheck_settings (h' _ _)

theorem pyroSample_settings {s t : State} {c : Conv} {r : PyroReading} {flow : Bool} (h : s.SameSettings t) :
    s.SameSettings (pyroSample c r flow t) := by
  unfold pyroSample
  split
  · dsimp only
    split
    · exact h.modConv
    split
    · exact h.modConv
    split
    · exact h.modConv
    split
    · exact sampleWork_settings h.modConv
    · exact sampleWork_settings h.modConv
    · exact h.modConv
    · exact h.modConv
  · exact h

theorem durationExpiry_settings {s t : State} {c : Conv} (h : s.SameSettings t) :
    s.SameSettings (durationExpiry c t) := by
  unfold durationExpiry
  split
  · split
    · exact advance_settings h
    · exact h
  · exact h

theorem limitExpiry_settings {s t : State} {c : Conv} (h : s.SameSettings t) :
    s.SameSettings (limitExpiry c t) := by
  unfold limitExpiry
  split
  · split
    · exact engineFail_settings h
    · exact h
  · exact h

theorem Job.guardSeen_desc (j : Job) (r : GuardReading) : j.SameDesc (j.guardSeen r) := by
  cases r <;> exact ⟨rfl, rfl, rfl, rfl, rfl, rfl, rfl, rfl, rfl, rfl⟩

theorem guardHot_settings {s t : State} {k : SlotIx} {j : Job} {p : Profile} {r : GuardReading}
    (h : s.SameSettings t) : s.SameSettings (guardHot k j p r t) := by
  have h' := fun (f : Job → Nat) => h.modJob (k := k)
    (f := fun j => { j.guardSeen r with guardNoSig := f j }) fun i => Job.guardSeen_desc i r
  unfold guardHot
  dsimp only
  split
  · exact failJob_settings (h' _)
  split
  · exact failJob_settings (h' _)
  · exact h' _

theorem guardCool_settings {s t : State} {k : SlotIx} {p : Profile} {r : GuardReading}
    (h : s.SameSettings t) : s.SameSettings (guardCool k p r t) := by
  unfold guardCool
  dsimp only
  split
  · exact endJob_settings (h.modJob fun i => i.guardSeen_desc r)
  · exact h.modJob fun i => i.guardSeen_desc r

theorem guardComplete_settings {s t : State} {r : GuardReading} (h : s.SameSettings t) :
    s.SameSettings (guardComplete r t) := by
  unfold guardComplete
  split
  · exact h
  split
  · exact h
  refine scanNext_settings ?_
  split
  · exact h.fields
  split
  · exact h.fields
  split
  · exact guardHot_settings h.fields
  · exact guardHot_settings h.fields
  · exact guardHot_settings h.fields
  · exact guardCool_settings h.fields
  all_goals exact h.fields

/-! ## Arbiter -/

theorem connect_settings {s t : State} {p : Pool} {x : Head} {k : SlotIx} (h : s.SameSettings t) :
    s.SameSettings (connect p x k t) := by
  unfold connect
  dsimp only
  split
  · exact enterSeeking_settings h
  · exact matrixTry_settings h.modJob.modConv.modRelay

theorem grantMember_settings {s t : State} {x : SlotIx × Conv} (h : s.SameSettings t) :
    s.SameSettings (grantMember t x) := by
  unfold grantMember
  split
  · exact h
  split
  · exact h
  dsimp only
  split
  · exact enterSeeking_settings (SameSettings.modJob (SameSettings.modConv h.fields))
  · exact connect_settings (SameSettings.modJob (SameSettings.modConv h.fields))

theorem grant_settings {s t : State} {c : Cand} {l : List (SlotIx × Conv)} (h : s.SameSettings t) :
    s.SameSettings (grant c l t) :=
  (dropCand_settings h).folds fun _ _ hu => grantMember_settings hu

theorem walk_settings {s t : State} {l : List Cand} (h : s.SameSettings t) : s.SameSettings (walk l t) := by
  induction l generalizing t with
  | nil => exact h
  | cons c l ih =>
    unfold walk
    split
    · exact ih h
    split
    · exact ih (grant_settings h)
    · exact h

theorem finish_settings {s t : State} (h : s.SameSettings t) : s.SameSettings (finish t) := by
  unfold finish
  refine scanSettle_settings ?_
  split
  · exact walk_settings h.fields
  · exact h

/-! ## Commands -/

theorem openingDone_settings {s t : State} {p : Pool} (h : s.SameSettings t) :
    s.SameSettings (openingDone p t) :=
  warmupCheck_settings (connectionCheck_settings (matrixTry_settings h.modRelay).raise)

theorem closingDone_settings {s t : State} {p : Pool} {x : Head} (h : s.SameSettings t) :
    s.SameSettings (closingDone p x t) := by
  unfold closingDone
  refine matrixTry_settings ?_
  split
  · exact enterSeeking_settings h.modRelay
  · exact connectionCheck_settings h.modRelay

theorem waitExpire_settings {s t : State} {c : Cand} (h : s.SameSettings t) :
    s.SameSettings (waitExpire c t) := by
  unfold waitExpire
  refine SameSettings.folds (h.folds fun _ _ hu => giveOutcome_settings hu) fun _ _ hu => ?_
  split
  · exact endJob_settings hu
  · exact hu

end Sys2Proof.Machine
end

