-- ==== Sys2Proof/Laws/Finish.lean ====
section
/-! SUPPORT. The completion of an event: what an arbitration can change, that no cause is left, and that a settled
state is left as it is. -/

namespace Sys2Proof.Machine

open State

/-! ## What grants change -/

/-- Grants change slots (keeping which are occupied), committed power, candidates, converters, relays and the scan
set, and nothing else. -/
structure State.Granted (s t : State) : Prop where
  only : t = { s with
    slots := t.slots, committed := t.committed, cands := t.cands, convs := t.convs, relays := t.relays,
    scanSet := t.scanSet }
  slots : ∀ k, (t.slot k).gen = (s.slot k).gen ∧ (t.job k).isSome = (s.job k).isSome

namespace State.Granted

theorem refl (s : State) : s.Granted s := ⟨rfl, fun _ => ⟨rfl, rfl⟩⟩

theorem fields {s t : State} (h : s.Granted t) {u : State}
    (e : u = { t with
      committed := u.committed, cands := u.cands, convs := u.convs, relays := u.relays,
      scanSet := u.scanSet }) : s.Granted u where
  only := by
    have := h.only
    rw [e]
    rw [this]
  slots := fun k => by
    rw [e]
    exact h.slots k

theorem modJob {s t : State} (h : s.Granted t) {k : SlotIx} {f : Job → Job} : s.Granted (t.modJob k f) where
  only := by
    have := h.only
    show State.modJob t k f = _
    unfold State.modJob State.setSlot
    conv_lhs => rw [this]
    rfl
  slots := fun m => by
    rw [slot_modJob, job_modJob]
    split
    · next e => rw [← e]; simpa using h.slots k
    · exact h.slots m

theorem folds {α : Type} {s t : State} (h : s.Granted t) {f : State → α → State} {l : List α}
    (hf : ∀ (u : State) x, s.Granted u → s.Granted (f u x)) : s.Granted (l.foldl f t) := by
  induction l generalizing t with
  | nil => exact h
  | cons x xs ih => exact ih (hf t x h)

end State.Granted

theorem matrixTry_granted {s t : State} {p : Pool} (h : s.Granted t) : s.Granted (matrixTry p t) := by
  unfold matrixTry
  split
  · exact h
  · dsimp only
    split <;> exact h.fields rfl

theorem enterSeeking_granted {s t : State} {c : Conv} {k : SlotIx} (h : s.Granted t) :
    s.Granted (enterSeeking c k t) := by
  unfold enterSeeking
  split
  · exact h
  · dsimp only
    split <;> exact h.modJob.fields rfl

theorem connect_granted {s t : State} {p : Pool} {x : Head} {k : SlotIx} (h : s.Granted t) :
    s.Granted (connect p x k t) := by
  unfold connect
  dsimp only
  split
  · exact enterSeeking_granted h
  · exact matrixTry_granted (h.modJob.fields rfl)

theorem grantMember_granted {s t : State} {x : SlotIx × Conv} (h : s.Granted t) :
    s.Granted (grantMember t x) := by
  unfold grantMember
  split
  · exact h
  split
  · exact h
  dsimp only
  split
  · exact enterSeeking_granted (State.Granted.modJob (h.fields rfl))
  · exact connect_granted (State.Granted.modJob (h.fields rfl))

theorem grant_granted {s t : State} {c : Cand} {l : List (SlotIx × Conv)} (h : s.Granted t) :
    s.Granted (grant c l t) :=
  State.Granted.folds (h.fields rfl) fun _ _ hu => grantMember_granted hu

theorem walk_granted {s t : State} {l : List Cand} (h : s.Granted t) : s.Granted (walk l t) := by
  induction l generalizing t with
  | nil => exact h
  | cons c l ih =>
    unfold walk
    split
    · exact ih h
    split
    · exact ih (grant_granted h)
    · exact h

/-- What an arbitration changes: its causes are spent, it is counted, and grants are made. -/
theorem arbitrate_granted (s : State) :
    State.Granted { s with arbCause := false, arbSeq := s.arbSeq + 1 } (arbitrate s) :=
  walk_granted (.refl _)

/-! ## Settling -/

theorem scanSettle_only (s : State) :
    scanSettle s = { s with passList := (scanSettle s).passList, conversion := (scanSettle s).conversion } := by
  unfold scanSettle scanNext startPass startConversion
  split
  · rfl
  · split
    · dsimp only
      split <;> rfl
    · split <;> rfl

theorem scanSettle_scanner (s : State) (h : (scanSettle s).conversion = none) :
    (scanSettle s).scanSet = [] ∧ (scanSettle s).passList = [] := by
  unfold scanSettle scanNext startPass startConversion at h ⊢
  split at h
  · next e => rw [e] at h; cases h
  · next e =>
    rw [e]
    dsimp only
    split at h
    · next e' =>
      dsimp only at h
      rw [if_pos e']
      split at h
      · next e'' => simp [e'']
      · simp at h
    · next e' =>
      split at h
      · next e'' => simp [e''] at e'
      · simp at h

theorem finish_only (s : State) : finish s = { s with
    slots := (finish s).slots, committed := (finish s).committed, cands := (finish s).cands,
    convs := (finish s).convs, relays := (finish s).relays, scanSet := (finish s).scanSet,
    passList := (finish s).passList, conversion := (finish s).conversion, arbSeq := (finish s).arbSeq,
    arbCause := false } := by
  have key : ∀ t u : State, State.Granted { s with arbCause := false, arbSeq := t.arbSeq } t →
      u = { t with passList := u.passList, conversion := u.conversion } → u = { s with
        slots := u.slots, committed := u.committed, cands := u.cands, convs := u.convs, relays := u.relays,
        scanSet := u.scanSet, passList := u.passList, conversion := u.conversion, arbSeq := u.arbSeq,
        arbCause := false } := by
    intro t u a b
    have a := a.only
    cases t
    cases u
    simp only [State.mk.injEq] at a b ⊢
    simp_all
  unfold finish
  split
  · have a := arbitrate_granted s
    have e : (arbitrate s).arbSeq = s.arbSeq + 1 := by rw [a.only]
    exact key (arbitrate s) _ (by rw [e]; exact a) (scanSettle_only _)
  · next e =>
    have e : s.arbCause = false := by simpa using e
    refine key s _ ?_ (scanSettle_only _)
    rw [← e]
    exact .refl s

theorem finish_slots (s : State) (k : SlotIx) :
    ((finish s).slot k).gen = (s.slot k).gen ∧ ((finish s).job k).isSome = (s.job k).isSome := by
  have h : (finish s).slots = (if s.arbCause then arbitrate s else s).slots := by
    unfold finish
    rw [scanSettle_only]
  unfold State.job State.slot
  rw [h]
  split
  · exact (arbitrate_granted s).slots k
  · exact ⟨rfl, rfl⟩

/-- No cause of arbitration is left after an event, and no idle scanner with a head to scan. -/
theorem finish_settled (s : State) : (finish s).Settled where
  noCause := by rw [finish_only]
  scanner := by
    unfold finish
    exact scanSettle_scanner _

/-- A settled state is left as it is. -/
theorem finish_of_settled {s : State} (h : s.Settled) : finish s = s := by
  unfold finish
  rw [h.noCause]
  simp only [Bool.false_eq_true, if_false]
  unfold scanSettle
  split
  · rfl
  · next e =>
    obtain ⟨a, b⟩ := h.scanner e
    unfold scanNext startPass startConversion
    cases s
    simp_all

end Sys2Proof.Machine
end

