-- ==== Sys2Proof/Laws/Requests.lean ====
section
/-! SUPPORT. How a request that completes at a port with an empty holding is answered: `Accepts` and `Refuses` of
Safety.lean from what the request itself answers. -/

namespace Sys2Proof.Machine

open State

/-- A request command is the completion of its frame. -/
theorem exec_instrOfFrame (p : Port) (kind : Byte) (b : List Byte) (s : State) :
    exec (instrOfFrame p kind b) s = .next (finish (requestArrives p kind b s)) := by
  unfold instrOfFrame
  split
  · rfl
  all_goals
    rename_i h
    have h := List.find?_some h
    rw [beq_iff_eq] at h
    rw [← h]
    rfl

/-- At a port with an empty holding a request is taken at once. -/
theorem requestArrives_of_free {s : State} {p : Port} (h : s.free p) (kind : Byte) (b : List Byte) :
    requestArrives p kind b s = take p ⟨kind, b⟩ (s.holdingIt p kind b) := by
  unfold requestArrives takeFront
  have e : (s.port p).holding = [] := h
  rw [e]
  simp only [port_modPort_self]
  rfl

/-- A refused request only builds its reply. -/
theorem take_of_refuse {s : State} {p : Port} {kind : Byte} {b : List Byte} {code : ReplyCode} {d0 d1 : Byte}
    (hc : code ≠ .accepted)
    (h : carryOut p kind b s = refuse code d0 d1 s) :
    take p ⟨kind, b⟩ s = s.replying p kind code [d0, d1] := by
  unfold take
  simp only [h, refuse, if_neg hc]
  rfl

/-- An accepted request has its effect, renews the lease of its station and builds its reply. -/
theorem take_of_accept {s u : State} {p : Port} {kind : Byte} {b : List Byte} {data : List Byte}
    (h : carryOut p kind b s = accept data u) :
    take p ⟨kind, b⟩ s = (renewAt p u).replying p kind .accepted data := by
  unfold take
  simp only [h, accept, if_true]
  rfl

/-- A port that changes nothing but its holding and its reply leaves a settled state settled. -/
theorem State.Settled.answered {s : State} (h : s.Settled) (p : Port) (kind : Byte) (b : List Byte)
    (code : ReplyCode) (data : List Byte) : (s.answered p kind b code data).Settled :=
  ⟨h.noCause, h.scanner⟩

theorem refuses_of {c : Instr} {s : State} {p : Port} {kind : Byte} {b : List Byte} {code : ReplyCode}
    {d0 d1 : Byte} (hx : exec c s = .next (finish (requestArrives p kind b s))) (hs : s.Settled)
    (hf : s.free p) (hc : code ≠ .accepted)
    (h : carryOut p kind b (s.holdingIt p kind b) = refuse code d0 d1 (s.holdingIt p kind b)) :
    Refuses c p kind b code d0 d1 s := by
  unfold Refuses
  rw [hx, requestArrives_of_free hf, take_of_refuse hc h]
  exact congrArg _ (finish_of_settled (hs.answered p kind b code [d0, d1]))

theorem accepts_of {c : Instr} {s : State} {p : Port} {kind : Byte} {b : List Byte} {data : List Byte}
    {f : State → State} {u : State} (hx : exec c s = .next (finish (requestArrives p kind b s)))
    (hf : s.free p) (h : carryOut p kind b (s.holdingIt p kind b) = accept data u)
    (e : renewAt p u = f (s.holdingIt p kind b)) : Accepts c p kind b data s f := by
  unfold Accepts
  rw [hx, requestArrives_of_free hf, take_of_accept h, e]

/-! ### What the holding of a port does not show in -/

@[simp] theorem holdingIt_conv (s : State) (p : Port) (kind : Byte) (b : List Byte) (c : Conv) :
    (s.holdingIt p kind b).conv c = s.conv c := rfl
@[simp] theorem holdingIt_relay (s : State) (p : Port) (kind : Byte) (b : List Byte) (c : Pool) :
    (s.holdingIt p kind b).relay c = s.relay c := rfl
@[simp] theorem holdingIt_head (s : State) (p : Port) (kind : Byte) (b : List Byte) (h : Head) :
    (s.holdingIt p kind b).head h = s.head h := rfl
@[simp] theorem holdingIt_prof (s : State) (p : Port) (kind : Byte) (b : List Byte) (i : Fin 64) :
    (s.holdingIt p kind b).prof i = s.prof i := rfl
@[simp] theorem holdingIt_segAt (s : State) (p : Port) (kind : Byte) (b : List Byte) (i : Nat) :
    (s.holdingIt p kind b).segAt i = s.segAt i := rfl
@[simp] theorem holdingIt_slot (s : State) (p : Port) (kind : Byte) (b : List Byte) (k : SlotIx) :
    (s.holdingIt p kind b).slot k = s.slot k := rfl
@[simp] theorem holdingIt_job (s : State) (p : Port) (kind : Byte) (b : List Byte) (k : SlotIx) :
    (s.holdingIt p kind b).job k = s.job k := rfl
@[simp] theorem holdingIt_station (s : State) (p : Port) (kind : Byte) (b : List Byte) (n : Station) :
    (s.holdingIt p kind b).station n = s.station n := rfl
@[simp] theorem holdingIt_current (s : State) (p : Port) (kind : Byte) (b : List Byte) (h : Handle) :
    (s.holdingIt p kind b).current h = s.current h := rfl
@[simp] theorem holdingIt_admitted (s : State) (p : Port) (kind : Byte) (b : List Byte) :
    (s.holdingIt p kind b).admitted = s.admitted := rfl
@[simp] theorem holdingIt_mode (s : State) (p : Port) (kind : Byte) (b : List Byte) :
    (s.holdingIt p kind b).mode = s.mode := rfl
@[simp] theorem holdingIt_estop (s : State) (p : Port) (kind : Byte) (b : List Byte) :
    (s.holdingIt p kind b).estop = s.estop := rfl
@[simp] theorem holdingIt_segUse (s : State) (p : Port) (kind : Byte) (b : List Byte) :
    (s.holdingIt p kind b).segUse = s.segUse := rfl
@[simp] theorem holdingIt_profUse (s : State) (p : Port) (kind : Byte) (b : List Byte) :
    (s.holdingIt p kind b).profUse = s.profUse := rfl
@[simp] theorem holdingIt_committed (s : State) (p : Port) (kind : Byte) (b : List Byte) :
    (s.holdingIt p kind b).committed = s.committed := rfl
@[simp] theorem holdingIt_budget (s : State) (p : Port) (kind : Byte) (b : List Byte) :
    (s.holdingIt p kind b).budget = s.budget := rfl

end Sys2Proof.Machine
end

