-- ==== Sys2Proof/Laws/Jobs.lean ====
section
/-! SUPPORT. The job table: what READY entry, the end of a job and the resolution of its successors can change. -/

namespace Sys2Proof.Machine

open State

/-! ## The fields that the job table changes -/

/-- The operations of the job table change slots, counts, candidates, the scanner, ports, stations and the cause
of arbitration, and nothing else. A cause once raised stays. -/
structure State.TableOnly (s t : State) : Prop where
  only : t = { s with
    segUse := t.segUse, profUse := t.profUse, slots := t.slots, admitted := t.admitted, cands := t.cands,
    scanSet := t.scanSet, passList := t.passList, conversion := t.conversion, ports := t.ports,
    stations := t.stations, arbCause := t.arbCause }
  cause : s.arbCause = true → t.arbCause = true

namespace State.TableOnly

theorem refl (s : State) : s.TableOnly s := ⟨rfl, id⟩

theorem fields {s t : State} (h : s.TableOnly t) {u : State}
    (e : u = { t with
      segUse := u.segUse, profUse := u.profUse, slots := u.slots, admitted := u.admitted, cands := u.cands,
      scanSet := u.scanSet, passList := u.passList, conversion := u.conversion, ports := u.ports,
      stations := u.stations, arbCause := u.arbCause })
    (c : t.arbCause = true → u.arbCause = true := by exact id) : s.TableOnly u where
  only := by
    have a := h.only
    cases t
    cases u
    simp only [State.mk.injEq] at a e ⊢
    simp_all
  cause := fun x => c (h.cause x)

theorem folds {α : Type} {s t : State} (h : s.TableOnly t) {f : State → α → State} {l : List α}
    (hf : ∀ (u : State) x, s.TableOnly u → s.TableOnly (f u x)) : s.TableOnly (l.foldl f t) := by
  induction l generalizing t with
  | nil => exact h
  | cons x xs ih => exact ih (hf t x h)

end State.TableOnly

theorem scanNext_only (s : State) :
    scanNext s = { s with passList := (scanNext s).passList, conversion := (scanNext s).conversion } := by
  unfold scanNext startPass startConversion
  split
  · dsimp only
    split <;> rfl
  · split <;> rfl

theorem scanLeave_only (h : Head) (s : State) : scanLeave h s = { s with
    scanSet := (scanLeave h s).scanSet, passList := (scanLeave h s).passList,
    conversion := (scanLeave h s).conversion } := by
  unfold scanLeave
  dsimp only
  split
  · rfl
  · split
    · conv_lhs => rw [scanNext_only]
      conv_rhs => rw [scanNext_only]
    · rfl

@[simp] theorem scanLeave_ports (h : Head) (s : State) : (scanLeave h s).ports = s.ports := by rw [scanLeave_only]
@[simp] theorem scanLeave_stations (h : Head) (s : State) : (scanLeave h s).stations = s.stations := by rw [scanLeave_only]
@[simp] theorem scanLeave_lineClock (h : Head) (s : State) : (scanLeave h s).lineClock = s.lineClock := by rw [scanLeave_only]
@[simp] theorem scanLeave_admitted (h : Head) (s : State) : (scanLeave h s).admitted = s.admitted := by rw [scanLeave_only]
@[simp] theorem scanLeave_slots (h : Head) (s : State) : (scanLeave h s).slots = s.slots := by rw [scanLeave_only]
@[simp] theorem scanLeave_convs (h : Head) (s : State) : (scanLeave h s).convs = s.convs := by rw [scanLeave_only]
@[simp] theorem scanLeave_segUse (h : Head) (s : State) : (scanLeave h s).segUse = s.segUse := by rw [scanLeave_only]
@[simp] theorem scanLeave_profUse (h : Head) (s : State) : (scanLeave h s).profUse = s.profUse := by rw [scanLeave_only]
@[simp] theorem scanLeave_cands (h : Head) (s : State) : (scanLeave h s).cands = s.cands := by rw [scanLeave_only]
@[simp] theorem scanLeave_committed (h : Head) (s : State) : (scanLeave h s).committed = s.committed := by rw [scanLeave_only]
@[simp] theorem scanLeave_arbCause (h : Head) (s : State) : (scanLeave h s).arbCause = s.arbCause := by rw [scanLeave_only]
@[simp] theorem scanLeave_heads (h : Head) (s : State) : (scanLeave h s).heads = s.heads := by rw [scanLeave_only]

theorem scanLeave_table {s t : State} {x : Head} (h : s.TableOnly t) : s.TableOnly (scanLeave x t) := by
  refine h.fields ?_ ?_
  · conv_lhs => rw [scanLeave_only]
    conv_rhs => rw [scanLeave_only]
  · rw [scanLeave_only]
    exact id

theorem raise_table {s t : State} (h : s.TableOnly t) : s.TableOnly t.raise := h.fields rfl fun _ => rfl

theorem setOutcome_table {s t : State} {k : SlotIx} {o : JobOutcome} (h : s.TableOnly t) :
    s.TableOnly (t.setOutcome k o) := h.fields rfl

theorem modJob_foldl_table {s t : State} {l : List SlotIx} {f : State → Job → Job} (h : s.TableOnly t) :
    s.TableOnly (l.foldl (fun s m => s.modJob m (f s)) t) :=
  h.folds fun _ _ hu => hu.fields rfl

theorem enterReady_table {s t : State} {l : List SlotIx} (h : s.TableOnly t) :
    s.TableOnly (enterReady l t) := by
  unfold enterReady
  split
  · exact h
  · split
    · exact h
    · have h' := fun l => modJob_foldl_table (l := l) (f := fun s j => j.ready s.lineClock) h
      exact raise_table ((h' _).fields rfl)

theorem freeSlot_table {s t : State} {k : SlotIx} {j : Job} (h : s.TableOnly t) :
    s.TableOnly (freeSlot k j t) := by
  unfold freeSlot
  dsimp only
  split
  · exact raise_table (scanLeave_table (h.fields rfl))
  · exact raise_table (scanLeave_table (h.fields rfl))
  · exact raise_table (h.fields rfl)
  all_goals exact h.fields rfl

theorem endSteps_table {s t : State} {k : SlotIx} {j : Job} {r : Release} (h : s.TableOnly t) :
    s.TableOnly (endSteps k j r t) :=
  State.TableOnly.fields (freeSlot_table (State.TableOnly.fields (h.fields rfl) rfl)) rfl

theorem endJobFuel_table {s t : State} {n : Nat} {k : SlotIx} {r : Release} (h : s.TableOnly t) :
    s.TableOnly (endJobFuel n k r t) := by
  induction n generalizing k r t with
  | zero => exact h
  | succ n ih =>
    unfold endJobFuel
    split
    · exact h
    · refine (endSteps_table h).folds fun _ _ hu => ?_
      split
      · split
        · exact enterReady_table hu
        · exact (hu.folds fun _ _ hv => setOutcome_table hv).folds fun _ _ hv => ih hv
      · exact hu

theorem endJob_table {s t : State} {k : SlotIx} {r : Release} (h : s.TableOnly t) :
    s.TableOnly (endJob k r t) :=
  endJobFuel_table h

/-- Freeing a slot changes neither ports nor stations. -/
theorem freeSlot_frame (k : SlotIx) (j : Job) (s : State) :
    (freeSlot k j s).ports = s.ports ∧ (freeSlot k j s).stations = s.stations ∧
      (freeSlot k j s).lineClock = s.lineClock ∧ (freeSlot k j s).admitted = s.admitted ∧
      (freeSlot k j s).segUse = s.segUse ∧ (freeSlot k j s).profUse = s.profUse := by
  unfold freeSlot
  dsimp only
  split <;> simp

/-! ## Queues only grow -/

/-- Notice and result queues keep what they hold and only gain entries at the newest end, and a full notice queue
gains none and keeps its flag DROPPED (R171); the counts of admitted jobs do not rise. -/
structure State.Grown (s t : State) : Prop where
  notices : ∀ p, (s.port p).notices <+: (t.port p).notices
  results : ∀ n, (s.station n).results <+: (t.station n).results
  admitted : ∀ n : Station, t.admitted[n] ≤ s.admitted[n]
  full : ∀ p, Config.noticePlaces ≤ (s.port p).notices.length →
    (t.port p).notices = (s.port p).notices ∧ ((s.port p).dropped = true → (t.port p).dropped = true)

namespace State.Grown

theorem refl (s : State) : s.Grown s :=
  ⟨fun _ => List.prefix_rfl, fun _ => List.prefix_rfl, fun _ => le_rfl, fun _ _ => ⟨rfl, id⟩⟩

theorem fields {s t u : State} (h : s.Grown t) (a : u.ports = t.ports := by rfl)
    (b : u.stations = t.stations := by rfl) (c : u.admitted = t.admitted := by rfl) : s.Grown u where
  notices := fun p => by simpa [State.port, a] using h.notices p
  results := fun n => by simpa [State.station, b] using h.results n
  admitted := fun n => by simpa [c] using h.admitted n
  full := fun p e => by simpa [State.port, a] using h.full p e

theorem post {s t : State} (h : s.Grown t) {p : Port} {b : NoticeBody} : s.Grown (t.post p b) where
  notices := fun q => by
    refine (h.notices q).trans ?_
    unfold State.post
    rw [port_modPort]
    split
    · next e =>
      subst e
      unfold PortSt.post
      split
      · exact List.prefix_append _ _
      · exact List.prefix_rfl
    · exact List.prefix_rfl
  results := h.results
  admitted := h.admitted
  full := fun q e => by
    obtain ⟨a, b⟩ := h.full q e
    unfold State.post
    rw [port_modPort]
    split
    · next e' =>
      subst e'
      unfold PortSt.post
      rw [a, if_neg (Nat.not_lt.mpr e)]
      exact ⟨rfl, fun _ => rfl⟩
    · exact ⟨a, b⟩

theorem addResult {s t : State} (h : s.Grown t) {n : Station} {r : ResultRec} :
    s.Grown (t.modStation n fun x => { x with results := x.results ++ [r] }) where
  notices := h.notices
  results := fun m => by
    refine (h.results m).trans ?_
    rw [station_modStation]
    split
    · next e => subst e; exact List.prefix_append _ _
    · exact List.prefix_rfl
  admitted := h.admitted
  full := h.full

theorem dropAdmitted {s t : State} (h : s.Grown t) {n : Station} : s.Grown (t.modAdmitted n (· - 1)) where
  notices := h.notices
  results := h.results
  admitted := fun m => by
    refine le_trans ?_ (h.admitted m)
    unfold State.modAdmitted
    simp only [Fin.getElem_fin, Vector.getElem_set]
    split
    · next e =>
      have : n = m := Fin.ext e
      subst this
      exact Nat.sub_le _ _
    · exact le_rfl
  full := h.full

theorem folds {α : Type} {s t : State} (h : s.Grown t) {f : State → α → State} {l : List α}
    (hf : ∀ (u : State) x, s.Grown u → s.Grown (f u x)) : s.Grown (l.foldl f t) := by
  induction l generalizing t with
  | nil => exact h
  | cons x xs ih => exact ih (hf t x h)

end State.Grown

theorem raise_grown {s t : State} (h : s.Grown t) : s.Grown t.raise := h.fields

theorem setSlot_grown {s t : State} {k : SlotIx} {v : Slot} (h : s.Grown t) : s.Grown (t.setSlot k v) := h.fields

theorem dropCand_grown {s t : State} {k : SlotIx} (h : s.Grown t) : s.Grown (t.dropCand k) := h.fields

theorem modUse_grown {s t : State} {p : Fin 64} {f : Nat → Nat} (h : s.Grown t) : s.Grown (t.modUse p f) :=
  h.fields

theorem scanLeave_grown {s t : State} {x : Head} (h : s.Grown t) : s.Grown (scanLeave x t) := by
  rw [scanLeave_only]
  exact h.fields

theorem enterReady_grown {s t : State} {l : List SlotIx} (h : s.Grown t) : s.Grown (enterReady l t) := by
  unfold enterReady
  split
  · exact h
  · split
    · exact h
    · have h' := fun l => h.folds (f := fun s m => s.modJob m (·.ready s.lineClock)) (l := l)
        fun _ _ hu => hu.fields
      exact State.Grown.fields (h' _).fields

theorem freeSlot_grown {s t : State} {k : SlotIx} {j : Job} (h : s.Grown t) : s.Grown (freeSlot k j t) := by
  unfold freeSlot
  dsimp only
  split
  · exact raise_grown (scanLeave_grown (setSlot_grown h))
  · exact raise_grown (scanLeave_grown (setSlot_grown h))
  · exact raise_grown (dropCand_grown (setSlot_grown h))
  all_goals exact setSlot_grown h

theorem endSteps_grown {s t : State} {k : SlotIx} {j : Job} {r : Release} (h : s.Grown t) :
    s.Grown (endSteps k j r t) :=
  (freeSlot_grown (modUse_grown (State.Grown.dropAdmitted h.addResult))).post

theorem endJobFuel_grown {s t : State} {n : Nat} {k : SlotIx} {r : Release} (h : s.Grown t) :
    s.Grown (endJobFuel n k r t) := by
  induction n generalizing k r t with
  | zero => exact h
  | succ n ih =>
    unfold endJobFuel
    split
    · exact h
    · refine (endSteps_grown h).folds fun _ _ hu => ?_
      split
      · split
        · exact enterReady_grown hu
        · exact (hu.folds fun _ _ hv => hv.fields).folds fun _ _ hv => ih hv
      · exact hu

/-! ## Jobs that are not in PENDING are left as they are -/

/-- Every job that is not in PENDING, but for the one in a slot of `l`, is as it was. -/
def State.KeepsJobs (l : List SlotIx) (s t : State) : Prop :=
  ∀ m i, m ∉ l → s.job m = some i → i.state ≠ .pending → t.job m = some i

namespace State.KeepsJobs

variable {l : List SlotIx}

theorem refl (s : State) : s.KeepsJobs l s := fun _ _ _ e _ => e

theorem fields {s t u : State} (h : s.KeepsJobs l t) (e : u.slots = t.slots := by rfl) : s.KeepsJobs l u :=
  fun m i hm hi hp => by
    have := h m i hm hi hp
    simpa [State.job, State.slot, e] using this

/-- A slot is written that holds no job to be kept. -/
theorem setSlot {s t : State} (h : s.KeepsJobs l t) {k : SlotIx} {v : Slot}
    (hk : k ∈ l ∨ ∀ i, s.job k = some i → i.state = .pending) : s.KeepsJobs l (t.setSlot k v) :=
  fun m i hm hi hp => by
    rw [job_setSlot]
    split
    · next e =>
      subst e
      rcases hk with hk | hk
      · exact absurd hk hm
      · exact absurd (hk i hi) hp
    · exact h m i hm hi hp

theorem folds {α : Type} {s t : State} (h : s.KeepsJobs l t) {f : State → α → State} {xs : List α}
    (hf : ∀ (u : State) x, x ∈ xs → s.KeepsJobs l u → s.KeepsJobs l (f u x)) :
    s.KeepsJobs l (xs.foldl f t) := by
  induction xs generalizing t with
  | nil => exact h
  | cons x xs ih =>
    exact ih (hf t x (List.mem_cons_self ..) h) fun u y hy => hf u y (List.mem_cons_of_mem _ hy)

/-- A member of a unit that is in PENDING now was not a job to be kept. -/
theorem unit {s t : State} (h : s.KeepsJobs l t) {m k : SlotIx} (hk : k ∈ t.pendingUnit m) :
    k ∈ l ∨ ∀ i, s.job k = some i → i.state = .pending := by
  by_cases hl : k ∈ l
  · exact .inl hl
  · refine .inr fun i hi => ?_
    by_contra hp
    have e := h k i hl hi hp
    have := (List.mem_filter.mp hk).2
    simp [State.jobIs, e, hp] at this

end State.KeepsJobs

theorem enterReady_keeps {l : List SlotIx} {s t : State} {u : List SlotIx} (h : s.KeepsJobs l t)
    (hu : ∀ k ∈ u, k ∈ l ∨ ∀ i, s.job k = some i → i.state = .pending) : s.KeepsJobs l (enterReady u t) := by
  unfold enterReady
  split
  · exact h
  · split
    · exact h
    · exact (h.folds fun _ _ hx hv => hv.setSlot (hu _ hx)).fields

theorem freeSlot_keeps {l : List SlotIx} {s t : State} {k : SlotIx} {j : Job} (h : s.KeepsJobs l t)
    (hk : k ∈ l ∨ ∀ i, s.job k = some i → i.state = .pending) : s.KeepsJobs l (freeSlot k j t) := by
  unfold freeSlot
  dsimp only
  split
  · exact (h.setSlot hk).fields (by rw [raise, scanLeave_only])
  · exact (h.setSlot hk).fields (by rw [raise, scanLeave_only])
  · exact (h.setSlot hk).fields
  all_goals exact h.setSlot hk

theorem endJobFuel_keeps {l : List SlotIx} {s t : State} {n : Nat} {k : SlotIx} {r : Release}
    (h : s.KeepsJobs l t) (hk : k ∈ l ∨ ∀ i, s.job k = some i → i.state = .pending) :
    s.KeepsJobs l (endJobFuel n k r t) := by
  induction n generalizing k r t with
  | zero => exact h
  | succ n ih =>
    unfold endJobFuel
    split
    · exact h
    · refine State.KeepsJobs.folds ?_ fun v m _ hv => ?_
      · exact State.KeepsJobs.fields (t := freeSlot k _ ((writeResult k _ r t).modUse _ _))
          (freeSlot_keeps (h.fields (u := (writeResult k _ r t).modUse _ _)) hk)
      · split
        · split
          · exact enterReady_keeps hv fun _ => hv.unit
          · exact (hv.folds fun _ _ hx hw => hw.setSlot (hv.unit hx)).folds fun _ _ hx hw => ih hw (hv.unit hx)
        · exact hv

theorem endJob_keeps {l : List SlotIx} {s t : State} {k : SlotIx} {r : Release}
    (h : s.KeepsJobs l t) (hk : k ∈ l ∨ ∀ i, s.job k = some i → i.state = .pending) :
    s.KeepsJobs l (endJob k r t) :=
  endJobFuel_keeps h hk

/-! ## The end of a job -/

theorem endSteps_slot (k : SlotIx) (j : Job) (r : Release) (s : State) :
    (endSteps k j r s).slot k = ⟨(s.slot k).gen + 1, none⟩ := by
  unfold endSteps freeSlot
  dsimp only
  rw [post_slot]
  split
  all_goals first
    | (rw [raise_slot, show ∀ u : State, (scanLeave j.head u).slot k = u.slot k from
          fun u => by rw [scanLeave_only]; rfl, slot_setSlot_self]; rfl)
    | (simp only [raise_slot, dropCand_slot, slot_setSlot_self]; rfl)

/-- Step 1 of R78: the result joins the queue of the job's station. -/
theorem endSteps_station (k : SlotIx) (j : Job) (r : Release) (s : State) (n : Station) :
    (endSteps k j r s).station n =
      if j.station = n then { s.station n with results := (s.station n).results ++ [s.resultOf k j r] }
      else s.station n := by
  have e : (endSteps k j r s).station n = ((writeResult k j r s).modUse j.profile (· - 1)).station n := by
    unfold endSteps
    rw [post_station]
    unfold State.station
    rw [(freeSlot_frame k j _).2.1]
  rw [e]
  have e' : ((writeResult k j r s).modUse j.profile (· - 1)).station n =
      (s.modStation j.station fun t => { t with results := t.results ++ [s.resultOf k j r] }).station n := rfl
  rw [e']
  rw [station_modStation]
  split
  · next e => subst e; rfl
  · rfl

/-- Step 4 of R78: JOB_ENDED is posted to the job's station. -/
theorem endSteps_port (k : SlotIx) (j : Job) (r : Release) (s : State) (p : Port) :
    (endSteps k j r s).port p =
      if .sp j.station = p then (s.port p).post ⟨s.lineClock, .jobEnded (s.handleOf k) j.ref j.outcome r⟩
      else s.port p := by
  have e : ∀ q, (freeSlot k j ((writeResult k j r s).modUse j.profile (· - 1))).port q = s.port q := by
    intro q
    unfold State.port
    rw [(freeSlot_frame k j _).1]
    rfl
  unfold endSteps State.post
  dsimp only
  rw [port_modPort, (freeSlot_frame k j _).2.2.1]
  split
  · next h => subst h; rw [e]; rfl
  · rw [e]

/-- Step 1 of R78: the count of admitted jobs of the job's station falls. -/
theorem endSteps_admitted (k : SlotIx) (j : Job) (r : Release) (s : State) :
    (endSteps k j r s).admitted = (s.modAdmitted j.station (· - 1)).admitted := by
  unfold endSteps
  rw [post_admitted, (freeSlot_frame k j _).2.2.2.1]
  rfl

/-- The slot of a job that ended is free, and its generation has risen (R56, R78). -/
theorem endJob_slot {s : State} {k : SlotIx} {j : Job} (r : Release) (h : s.job k = some j) :
    (endJob k r s).slot k = ⟨(s.slot k).gen + 1, none⟩ := by
  unfold endJob endJobFuel
  rw [h]
  dsimp only
  rw [← endSteps_slot k j r s]
  refine (State.SameSettings.folds (.refl _) fun _ _ hu => ?_).free k (by unfold State.job; rw [endSteps_slot])
  split
  · split
    · exact enterReady_settings hu
    · exact (hu.folds fun _ _ hv => setOutcome_settings hv).folds fun _ _ hv => endJobFuel_settings hv
  · exact hu

/-- What follows steps 1 to 4 of R78 only lets the queues grow. -/
theorem endJob_grown {s : State} {k : SlotIx} {j : Job} (r : Release) (h : s.job k = some j) :
    (endSteps k j r s).Grown (endJob k r s) := by
  unfold endJob endJobFuel
  rw [h]
  refine State.Grown.folds (.refl _) fun _ _ hu => ?_
  split
  · split
    · exact enterReady_grown hu
    · exact (hu.folds fun _ _ hv => hv.fields).folds fun _ _ hv => endJobFuel_grown hv
  · exact hu

end Sys2Proof.Machine
end

