-- ==== Sys2Proof/Laws/Bank.lean ====
section
/-! SUPPORT. The converter bank and the connection matrix: what an operation at one converter can change, and the
converter it leaves. -/

namespace Sys2Proof.Machine

open State

/-! ## What an operation at one converter changes -/

/-- An operation at converter `c` changes that converter, relays, notice queues, the converter field of jobs and the
cause of arbitration, and nothing else. -/
structure State.BankAt (c : Conv) (s t : State) : Prop where
  only : t = { s with
    convs := t.convs, relays := t.relays, slots := t.slots, ports := t.ports, arbCause := t.arbCause }
  other : ∀ d, d ≠ c → t.conv d = s.conv d
  jobs : ∀ k, (t.slot k).gen = (s.slot k).gen ∧
    (t.job k = s.job k ∨ t.job k = (s.job k).map fun j => { j with converter := none })
  grown : s.Grown t
  cause : s.arbCause = true → t.arbCause = true

/-- Changes outside the fields listed add up. -/
theorem bankOnly_trans {s t u : State}
    (a : t = { s with
      convs := t.convs, relays := t.relays, slots := t.slots, ports := t.ports, arbCause := t.arbCause })
    (b : u = { t with
      convs := u.convs, relays := u.relays, slots := u.slots, ports := u.ports, arbCause := u.arbCause }) :
    u = { s with
      convs := u.convs, relays := u.relays, slots := u.slots, ports := u.ports, arbCause := u.arbCause } := by
  cases t
  cases u
  simp only [State.mk.injEq] at a b ⊢
  simp_all

namespace State.BankAt

variable {c : Conv}

theorem refl (s : State) : s.BankAt c s := ⟨rfl, fun _ _ => rfl, fun _ => ⟨rfl, .inl rfl⟩, .refl s, id⟩

theorem stations {s t : State} (h : s.BankAt c t) : t.stations = s.stations := by rw [h.only]
theorem admitted {s t : State} (h : s.BankAt c t) : t.admitted = s.admitted := by rw [h.only]
theorem mode {s t : State} (h : s.BankAt c t) : t.mode = s.mode := by rw [h.only]
theorem now {s t : State} (h : s.BankAt c t) : t.now = s.now := by rw [h.only]
theorem lineClock {s t : State} (h : s.BankAt c t) : t.lineClock = s.lineClock := by rw [h.only]
theorem relayHold {s t : State} (h : s.BankAt c t) : t.relayHold = s.relayHold := by rw [h.only]

theorem modConv {s t : State} (h : s.BankAt c t) {f : Converter → Converter} : s.BankAt c (t.modConv c f) where
  only := bankOnly_trans h.only rfl
  other := fun d hd => by rw [conv_modConv_ne _ (Ne.symm hd)]; exact h.other d hd
  jobs := h.jobs
  grown := h.grown.fields
  cause := h.cause

theorem modRelay {s t : State} (h : s.BankAt c t) {p : Pool} {f : Relay → Relay} : s.BankAt c (t.modRelay p f) where
  only := bankOnly_trans h.only rfl
  other := h.other
  jobs := h.jobs
  grown := h.grown.fields
  cause := h.cause

theorem post {s t : State} (h : s.BankAt c t) {p : Port} {b : NoticeBody} : s.BankAt c (t.post p b) where
  only := bankOnly_trans h.only rfl
  other := h.other
  jobs := h.jobs
  grown := h.grown.post
  cause := h.cause

theorem raise {s t : State} (h : s.BankAt c t) : s.BankAt c t.raise where
  only := bankOnly_trans h.only rfl
  other := h.other
  jobs := h.jobs
  grown := h.grown.fields
  cause := fun _ => rfl

theorem dropConverter {s t : State} (h : s.BankAt c t) {k : SlotIx} :
    s.BankAt c (t.modJob k fun j => { j with converter := none }) where
  only := bankOnly_trans h.only rfl
  other := h.other
  jobs := fun m => by
    rw [slot_modJob, job_modJob]
    split
    · next e =>
      subst e
      refine ⟨(h.jobs k).1, .inr ?_⟩
      rcases (h.jobs k).2 with e | e
      · rw [e]
      · rw [e]
        cases s.job k <;> rfl
    · exact h.jobs m
  grown := h.grown.fields
  cause := h.cause

end State.BankAt

theorem matrixTry_bank {c : Conv} {s t : State} {p : Pool} (h : s.BankAt c t) : s.BankAt c (matrixTry p t) := by
  unfold matrixTry
  split
  · exact h
  · dsimp only
    split <;> exact h.modRelay

theorem disconnect_bank {c d : Conv} {s t : State} (h : s.BankAt c t) : s.BankAt c (disconnect d t) := by
  unfold disconnect
  split
  · exact h
  · exact matrixTry_bank h.modRelay

theorem enterOff_bank {c : Conv} {s t : State} (h : s.BankAt c t) : s.BankAt c (enterOff c t) := by
  unfold enterOff
  dsimp only
  split
  · exact (disconnect_bank h.modConv).modConv
  · exact disconnect_bank h.modConv

theorem enterFaulted_bank {c : Conv} {s t : State} (h : s.BankAt c t) : s.BankAt c (enterFaulted c t) := by
  unfold enterFaulted postConverterState
  exact disconnect_bank h.modConv.post

theorem enterIdle_bank {c : Conv} {s t : State} (h : s.BankAt c t) : s.BankAt c (enterIdle c t) := by
  unfold enterIdle postConverterState
  dsimp only
  split
  · exact h.modConv.post.raise
  · exact h.modConv.raise

theorem resolveConv_bank {c : Conv} {s t : State} (h : s.BankAt c t) : s.BankAt c (resolveConv c t) := by
  unfold resolveConv
  split
  · exact enterFaulted_bank h
  · split
    · exact enterIdle_bank h
    · exact enterOff_bank h
  · exact disconnect_bank h.modConv
  · exact enterIdle_bank h

theorem warmupCheck_bank {c : Conv} {s t : State} (h : s.BankAt c t) : s.BankAt c (warmupCheck c t) := by
  unfold warmupCheck endWarmup
  split
  · split
    · exact enterFaulted_bank h.modConv
    · exact resolveConv_bank h
  · exact h

theorem clearServed_bank {c : Conv} {s t : State} (h : s.BankAt c t) : s.BankAt c (clearServed c t) := by
  unfold clearServed
  dsimp only
  split
  · exact h.modConv
  · exact h.dropConverter.modConv

theorem enterDischarge_bank {c : Conv} {s t : State} (h : s.BankAt c t) : s.BankAt c (enterDischarge c t) :=
  (clearServed_bank h).modConv

theorem connectionCheck_bank {c : Conv} {s t : State} (h : s.BankAt c t) : s.BankAt c (connectionCheck c t) := by
  unfold connectionCheck
  split
  · exact resolveConv_bank h
  · exact h

theorem withdrawConnection_bank {c : Conv} {s t : State} (h : s.BankAt c t) :
    s.BankAt c (withdrawConnection c t) := by
  unfold withdrawConnection
  dsimp only
  split
  · exact connectionCheck_bank (clearServed_bank h)
  · exact connectionCheck_bank (clearServed_bank h).modRelay

theorem pendOff_bank {c : Conv} {s t : State} (h : s.BankAt c t) : s.BankAt c (pendOff c t) := h.modConv

/-! ## The converter that an entry leaves -/

@[simp] theorem matrixTry_conv (p : Pool) (s : State) (d : Conv) : (matrixTry p s).conv d = s.conv d := by
  unfold matrixTry
  split
  · rfl
  · dsimp only
    split <;> rfl

@[simp] theorem disconnect_conv (c : Conv) (s : State) (d : Conv) : (disconnect c s).conv d = s.conv d := by
  unfold disconnect
  split <;> simp

theorem disconnect_convs (c : Conv) (s : State) : (disconnect c s).convs = s.convs := by
  unfold disconnect matrixTry
  split
  · rfl
  · split
    · rfl
    · dsimp only
      split <;> rfl

theorem disconnect_line (c : Conv) (s : State) : (disconnect c s).mode = s.mode ∧ (disconnect c s).now = s.now := by
  have h := (disconnect_bank (c := c) (d := c) (State.BankAt.refl s))
  exact ⟨h.mode, h.now⟩

theorem wantsService_disconnect (c : Conv) (s : State) : wantsService c (disconnect c s) = wantsService c s := by
  unfold wantsService
  rw [disconnect_conv, (disconnect_line c s).1]

/-- OFF entry (R23): OFF, or WARMUP at once when the converter is enabled outside STANDBY. -/
theorem enterOff_conv (c : Conv) (s : State) :
    (enterOff c s).conv c =
      if wantsService c s then { s.conv c with
        state := .warmup, pend := .none, warmTimer := some (s.now + 200) }
      else { s.conv c with state := .off, pend := .none, warmTimer := none } := by
  have e : wantsService c (disconnect c (s.modConv c fun v =>
      { v with state := .off, pend := .none, warmTimer := none })) = wantsService c s := by
    rw [wantsService_disconnect]
    unfold wantsService
    simp
  unfold enterOff
  dsimp only
  rw [e]
  split
  · unfold enterWarmup
    rw [conv_modConv_self, disconnect_conv, conv_modConv_self, (disconnect_line _ _).2]
    rfl
  · rw [disconnect_conv, conv_modConv_self]

theorem enterHeld_conv (c : Conv) (s : State) :
    (enterHeld c s).conv c = { s.conv c with state := .held, pend := .none } := by
  simp [enterHeld]

theorem enterFaulted_conv (c : Conv) (s : State) :
    (enterFaulted c s).conv c = { s.conv c with state := .faulted, pend := .none, warmTimer := none } := by
  simp [enterFaulted, postConverterState]

theorem enterIdle_conv (c : Conv) (s : State) :
    (enterIdle c s).conv c = { s.conv c with state := .idle, pend := .none } := by
  unfold enterIdle postConverterState
  dsimp only
  split <;> simp

/-- Clearing the served job changes only that field of the converter. -/
theorem clearServed_conv (c : Conv) (s : State) :
    (clearServed c s).conv c = { s.conv c with served := none } := by
  unfold clearServed
  dsimp only
  split <;> simp

theorem clearServed_line (c : Conv) (s : State) :
    (clearServed c s).now = s.now ∧ (clearServed c s).lineClock = s.lineClock := by
  have h := clearServed_bank (c := c) (State.BankAt.refl s)
  exact ⟨h.now, h.lineClock⟩

/-- DISCHARGE entry (R26). -/
theorem enterDischarge_conv (c : Conv) (s : State) :
    (enterDischarge c s).conv c =
      { (s.conv c).discharge s.lineClock s.now with served := none } := by
  unfold enterDischarge
  rw [conv_modConv_self, clearServed_conv]
  unfold Converter.discharge Converter.switchOff
  dsimp only
  split <;> rfl

/-- What DISCHARGE entry leaves in the converter, field by field (R22, R26, R52, R125). -/
theorem discharge_fields (v : Converter) (clock : Time) (now : Nat) :
    (v.discharge clock now).state = .discharge ∧ (v.discharge clock now).outputOn = false ∧
    (v.discharge clock now).command = 0 ∧ (v.discharge clock now).pend = v.pend ∧
    (v.discharge clock now).cause = v.cause ∧ (v.discharge clock now).dischTimer = some (now + v.interval) ∧
    (v.discharge clock now).tun.phase = .stopped ∧ (v.discharge clock now).eng.phase = .stopped ∧
    (v.discharge clock now).eng.timer = .stopped ∧ (v.discharge clock now).nextSample = none ∧
    (v.discharge clock now).lastOff = (if v.outputOn = true then clock else v.lastOff) ∧
    (v.discharge clock now).enabled = v.enabled ∧ (v.discharge clock now).interval = v.interval ∧
    (v.discharge clock now).pins = v.pins := by
  unfold Converter.discharge Converter.switchOff
  dsimp only
  split <;> simp_all [Tuner.stop, Engine.stop]

/-- A resolution leaves a converter in OFF, WARMUP, IDLE, HELD or FAULTED with its output, its served job, its
settings and its units as they were (R25). -/
theorem resolveConv_kept (c : Conv) (s : State) :
    ((resolveConv c s).conv c).outputOn = (s.conv c).outputOn ∧
    ((resolveConv c s).conv c).served = (s.conv c).served ∧
    ((resolveConv c s).conv c).enabled = (s.conv c).enabled ∧
    ((resolveConv c s).conv c).interval = (s.conv c).interval ∧
    ((resolveConv c s).conv c).cause = (s.conv c).cause ∧
    ((resolveConv c s).conv c).eng = (s.conv c).eng ∧
    ((resolveConv c s).conv c).state ∈ [.off, .warmup, .idle, .held, .faulted] ∧
    ((resolveConv c s).conv c).pend = .none := by
  unfold resolveConv
  split
  · rw [enterFaulted_conv]; simp
  · split
    · rw [enterIdle_conv]; simp
    · rw [enterOff_conv]; split <;> simp
  · rw [enterHeld_conv]; simp
  · rw [enterIdle_conv]; simp

/-- A withdrawn connection leaves no served job; the rest of the converter is resolved or as it was (R38). -/
theorem withdrawConnection_kept (c : Conv) (s : State) :
    ((withdrawConnection c s).conv c).outputOn = (s.conv c).outputOn ∧
    ((withdrawConnection c s).conv c).served = none ∧
    ((withdrawConnection c s).conv c).enabled = (s.conv c).enabled ∧
    ((withdrawConnection c s).conv c).interval = (s.conv c).interval ∧
    ((withdrawConnection c s).conv c).cause = (s.conv c).cause ∧
    ((withdrawConnection c s).conv c).eng = (s.conv c).eng ∧
    (((withdrawConnection c s).conv c) = { s.conv c with served := none } ∨
      ((withdrawConnection c s).conv c).state ∈ [.off, .warmup, .idle, .held, .faulted] ∧
        (s.conv c).state = .connecting) := by
  have key : ∀ u : State, u.conv c = { s.conv c with served := none } →
      ((connectionCheck c u).conv c).outputOn = (s.conv c).outputOn ∧
      ((connectionCheck c u).conv c).served = none ∧
      ((connectionCheck c u).conv c).enabled = (s.conv c).enabled ∧
      ((connectionCheck c u).conv c).interval = (s.conv c).interval ∧
      ((connectionCheck c u).conv c).cause = (s.conv c).cause ∧
      ((connectionCheck c u).conv c).eng = (s.conv c).eng ∧
      (((connectionCheck c u).conv c) = { s.conv c with served := none } ∨
        ((connectionCheck c u).conv c).state ∈ [.off, .warmup, .idle, .held, .faulted] ∧
          (s.conv c).state = .connecting) := by
    intro u e
    unfold connectionCheck
    split
    · next h =>
      have k := resolveConv_kept c u
      rw [e] at k h
      exact ⟨k.1, k.2.1, k.2.2.1, k.2.2.2.1, k.2.2.2.2.1, k.2.2.2.2.2.1, .inr ⟨k.2.2.2.2.2.2.1, h.1⟩⟩
    · rw [e]
      simp
  unfold withdrawConnection
  dsimp only
  split
  · exact key _ (clearServed_conv c s)
  · exact key _ (clearServed_conv c s)

/-! ## STANDBY entry -/

theorem standbyConv_bank (c : Conv) (s : State) : s.BankAt c (standbyConv c s) := by
  have r := State.BankAt.refl (c := c) s
  unfold standbyConv
  split
  · exact r
  · exact r
  · exact pendOff_bank r
  · exact pendOff_bank r
  · exact enterOff_bank r
  · exact enterOff_bank r
  · split
    · exact withdrawConnection_bank (pendOff_bank r)
    · exact pendOff_bank r
  all_goals exact enterDischarge_bank (pendOff_bank r)

/-- What STANDBY entry changes besides the mode: the bank and its relays, the converter field of jobs, notice queues
and the cause of arbitration. -/
structure State.BankWide (s t : State) : Prop where
  only : t = { s with
    convs := t.convs, relays := t.relays, slots := t.slots, ports := t.ports, arbCause := t.arbCause }
  jobs : ∀ k, (t.slot k).gen = (s.slot k).gen ∧
    (t.job k = s.job k ∨ t.job k = (s.job k).map fun j => { j with converter := none })
  grown : s.Grown t
  cause : s.arbCause = true → t.arbCause = true

theorem State.Grown.trans {s t u : State} (h : s.Grown t) (g : t.Grown u) : s.Grown u :=
  ⟨fun p => (h.notices p).trans (g.notices p), fun n => (h.results n).trans (g.results n),
    fun n => (g.admitted n).trans (h.admitted n), fun p e => by
      obtain ⟨a, b⟩ := h.full p e
      obtain ⟨a', b'⟩ := g.full p (by rw [a]; exact e)
      exact ⟨a'.trans a, fun x => b' (b x)⟩⟩

theorem bankFold_wide {f : State → Conv → State} (hf : ∀ c (s : State), s.BankAt c (f s c)) (l : List Conv) (s : State) :
    s.BankWide (l.foldl f s) := by
  induction l generalizing s with
  | nil => exact ⟨rfl, fun _ => ⟨rfl, .inl rfl⟩, .refl s, id⟩
  | cons c l ih =>
    have a := hf c s
    have b := ih (f s c)
    refine ⟨bankOnly_trans a.only b.only, fun k => ⟨(b.jobs k).1.trans (a.jobs k).1, ?_⟩, a.grown.trans b.grown,
      fun h => b.cause (a.cause h)⟩
    rw [List.foldl_cons]
    rcases (b.jobs k).2 with e | e <;> rcases (a.jobs k).2 with e' | e' <;> rw [e, e']
    · exact .inl rfl
    · exact .inr rfl
    · exact .inr rfl
    · refine .inr ?_
      cases s.job k <;> rfl

theorem standby_wide (s : State) : State.BankWide { s with mode := .standby } (standby s) :=
  bankFold_wide (fun c s => standbyConv_bank c s) _ _

/-- A fold over converters acts on each of them once. -/
theorem bankFold_conv {f : State → Conv → State} (hf : ∀ c (s : State), s.BankAt c (f s c)) (l : List Conv) (hl : l.Nodup)
    (s : State) (c : Conv) :
    (c ∉ l → (l.foldl f s).conv c = s.conv c) ∧
    (c ∈ l → ∃ u : State, u.conv c = s.conv c ∧ s.BankWide u ∧ (l.foldl f s).conv c = (f u c).conv c) := by
  induction l generalizing s with
  | nil => exact ⟨fun _ => rfl, fun h => by cases h⟩
  | cons d l ih =>
    obtain ⟨hd, hl'⟩ := List.nodup_cons.mp hl
    have hb := hf d s
    refine ⟨fun h => ?_, fun h => ?_⟩
    · rw [List.foldl_cons, (ih hl' _).1 fun x => h (List.mem_cons_of_mem _ x)]
      exact hb.other c fun e => h (e ▸ List.mem_cons_self ..)
    · rcases List.mem_cons.mp h with rfl | h
      · exact ⟨s, rfl, ⟨rfl, fun _ => ⟨rfl, .inl rfl⟩, .refl s, id⟩, (ih hl' _).1 hd⟩
      · obtain ⟨u, a, b, e⟩ := (ih hl' (f s d)).2 h
        refine ⟨u, a.trans (hb.other c fun e => hd (e ▸ h)), ?_, e⟩
        refine ⟨bankOnly_trans hb.only b.only, fun k => ⟨(b.jobs k).1.trans (hb.jobs k).1, ?_⟩,
          hb.grown.trans b.grown, fun h => b.cause (hb.cause h)⟩
        rcases (b.jobs k).2 with e | e <;> rcases (hb.jobs k).2 with e' | e' <;> rw [e, e']
        · exact .inl rfl
        · exact .inr rfl
        · exact .inr rfl
        · refine .inr ?_
          cases s.job k <;> rfl

/-- What STANDBY entry does to one converter is what it does to that converter alone (R28). -/
theorem standby_conv (s : State) (c : Conv) : ∃ u : State, u.conv c = s.conv c ∧ u.mode = .standby ∧
    u.now = s.now ∧ u.lineClock = s.lineClock ∧ (standby s).conv c = (standbyConv c u).conv c := by
  obtain ⟨u, a, b, e⟩ := (bankFold_conv (fun c s => standbyConv_bank c s) allConvs (by decide)
    { s with mode := .standby } c).2 (List.mem_finRange c)
  refine ⟨u, a, ?_, ?_, ?_, e⟩ <;> rw [b.only]

end Sys2Proof.Machine
end

