-- ==== Sys2Proof/Laws/Aborts.lean ====
section
/-! SUPPORT. The abort paths: no operation of them revives a job, and each leaves its own job ended or in
COOLING. -/

namespace Sys2Proof.Machine

open State

/-- Jobs only go on: a job that is there now was there before, keeps an outcome it had, stays in COOLING, and keeps its
converter or has none. -/
def State.Onward (s t : State) : Prop :=
  ∀ k j, t.job k = some j → ∃ i, s.job k = some i ∧
    (i.outcome.isSome = true → j.outcome = i.outcome) ∧ (i.state = .cooling → j.state = .cooling) ∧
    j.profile = i.profile ∧ j.head = i.head ∧ j.gang = i.gang ∧ (j.converter = i.converter ∨ j.converter = none)

namespace State.Onward

theorem refl (s : State) : s.Onward s := fun _ j h => ⟨j, h, fun _ => rfl, id, rfl, rfl, rfl, .inl rfl⟩

theorem fields {s t u : State} (h : s.Onward t) (e : u.slots = t.slots := by rfl) : s.Onward u :=
  fun k j hj => h k j (by simpa [State.job, State.slot, e] using hj)

theorem modJob {s t : State} (h : s.Onward t) {k : SlotIx} {f : Job → Job}
    (hf : ∀ i : Job, (i.outcome.isSome = true → (f i).outcome = i.outcome) ∧
      (i.state = .cooling → (f i).state = .cooling) ∧ (f i).profile = i.profile ∧ (f i).head = i.head ∧
      (f i).gang = i.gang ∧ (f i).converter = i.converter) : s.Onward (t.modJob k f) := by
  intro m j hj
  rw [job_modJob] at hj
  split at hj
  · next e =>
    subst e
    cases hk : t.job k with
    | none => simp [hk] at hj
    | some i' =>
      obtain ⟨i, a, b, c, d, e, g, l⟩ := h k i' hk
      obtain ⟨b', c', d', e', g', l'⟩ := hf i'
      rw [hk] at hj
      cases hj
      exact ⟨i, a, fun x => (b' (by rw [b x]; exact x)).trans (b x), fun x => c' (c x), d'.trans d, e'.trans e,
        g'.trans g, l.imp l'.trans l'.trans⟩
  · exact h m j hj

theorem freeSlot {s t : State} (h : s.Onward t) {k : SlotIx} {g : Byte} : s.Onward (t.setSlot k ⟨g, none⟩) := by
  intro m j hj
  rw [job_setSlot] at hj
  split at hj
  · cases hj
  · exact h m j hj

theorem folds {α : Type} {s t : State} (h : s.Onward t) {f : State → α → State} {l : List α}
    (hf : ∀ (u : State) x, s.Onward u → s.Onward (f u x)) : s.Onward (l.foldl f t) := by
  induction l generalizing t with
  | nil => exact h
  | cons x xs ih => exact ih (hf t x h)

theorem trans {s t u : State} (h : s.Onward t) (g : t.Onward u) : s.Onward u := by
  intro k j hj
  obtain ⟨i, a, b, c, d, e, f, l⟩ := g k j hj
  obtain ⟨i', a', b', c', d', e', f', l'⟩ := h k i a
  exact ⟨i', a', fun x => (b (by rw [b' x]; exact x)).trans (b' x), fun x => c (c' x), d.trans d', e.trans e',
    f.trans f', l.elim (fun x => l'.imp x.trans x.trans) .inr⟩

/-- An operation at a converter touches no more of a job than its converter field. -/
theorem bank {s t u : State} {c : Conv} (h : s.Onward t) (b : t.BankAt c u) : s.Onward u := by
  refine h.trans fun k j hj => ?_
  rcases (b.jobs k).2 with e | e
  · exact ⟨j, e.symm.trans hj, fun _ => rfl, id, rfl, rfl, rfl, .inl rfl⟩
  · rw [e] at hj
    cases hi : t.job k with
    | none => simp [hi] at hj
    | some i =>
      rw [hi] at hj
      cases hj
      exact ⟨i, rfl, fun _ => rfl, id, rfl, rfl, rfl, .inr rfl⟩

end State.Onward

theorem setOutcome_onward {s t : State} {k : SlotIx} {o : JobOutcome} (h : s.Onward t) :
    s.Onward (t.setOutcome k o) :=
  h.modJob fun i => by
    split
    · next e => simp [Option.isNone_iff_eq_none.mp e]
    · simp

theorem enterReady_onward {s t : State} {l : List SlotIx} (h : s.Onward t)
    (hl : ∀ m ∈ l, t.jobIs m (·.state == .pending) = true) : s.Onward (enterReady l t) := by
  unfold enterReady
  split
  · exact h
  · split
    · exact h
    · refine State.Onward.fields (t := List.foldl (fun s m => s.modJob m (·.ready s.lineClock)) t _) ?_
      have key : ∀ (xs : List SlotIx) (u : State), s.Onward u →
          (∀ m ∈ xs, ∀ i, u.job m = some i → i.state = .pending ∨ i.state = .ready) →
          s.Onward (xs.foldl (fun s m => s.modJob m (·.ready s.lineClock)) u) := by
        intro xs
        induction xs with
        | nil => exact fun u hu _ => hu
        | cons x xs ih =>
          intro u hu hx
          refine ih _ (fun m j hj => ?_) fun m hm i hi => ?_
          · rw [job_modJob] at hj
            split at hj
            · next e =>
              subst e
              cases hk : u.job x with
              | none => simp [hk] at hj
              | some i =>
                obtain ⟨i', a, b, c, d, e, g, l⟩ := hu x i hk
                rw [hk] at hj
                cases hj
                have hp := hx x (List.mem_cons_self ..) i hk
                refine ⟨i', a, b, fun y => ?_, d, e, g, l⟩
                rw [c y] at hp
                simp at hp
            · exact hu m j hj
          · rw [job_modJob] at hi
            split at hi
            · cases hk : u.job x with
              | none => simp [hk] at hi
              | some i' => rw [hk] at hi; cases hi; exact .inr rfl
            · exact hx m (List.mem_cons_of_mem _ hm) i hi
      refine key _ t h fun m hm i hi => .inl ?_
      have := hl m hm
      simpa [State.jobIs, hi] using this

theorem pendingUnit_pending (s : State) (k : SlotIx) : ∀ m ∈ s.pendingUnit k, s.jobIs m (·.state == .pending) = true :=
  fun _ h => (List.mem_filter.mp h).2

theorem freeSlot_onward {s t : State} {k : SlotIx} {j : Job} (h : s.Onward t) : s.Onward (freeSlot k j t) := by
  have h' := h.freeSlot (k := k) (g := (t.slot k).gen + 1)
  unfold freeSlot
  dsimp only
  split
  · exact h'.fields (by simp)
  · exact h'.fields (by simp)
  · exact h'.fields
  all_goals exact h'

theorem endSteps_onward {s t : State} {k : SlotIx} {j : Job} {r : Release} (h : s.Onward t) :
    s.Onward (endSteps k j r t) :=
  State.Onward.fields (t := freeSlot k j ((writeResult k j r t).modUse j.profile (· - 1)))
    (freeSlot_onward (h.fields (u := (writeResult k j r t).modUse j.profile (· - 1))))

theorem endJobFuel_onward {s t : State} {n : Nat} {k : SlotIx} {r : Release} (h : s.Onward t) :
    s.Onward (endJobFuel n k r t) := by
  induction n generalizing k r t with
  | zero => exact h
  | succ n ih =>
    unfold endJobFuel
    split
    · exact h
    · refine (endSteps_onward h).folds fun u _ hu => ?_
      split
      · split
        · exact enterReady_onward hu (pendingUnit_pending _ _)
        · exact (hu.folds fun _ _ hv => setOutcome_onward hv).folds fun _ _ hv => ih hv
      · exact hu

theorem endJob_onward {s t : State} {k : SlotIx} {r : Release} (h : s.Onward t) : s.Onward (endJob k r t) :=
  endJobFuel_onward h

theorem enterCooling_onward {s t : State} {k : SlotIx} (h : s.Onward t) : s.Onward (enterCooling k t) := by
  have h' := fun p g c n => h.modJob (k := k) (f := (·.cooling p g c n)) fun i => by simp [Job.cooling]
  unfold enterCooling
  split
  · exact h
  · dsimp only
    split
    · exact endJob_onward (h' _ _ _ _)
    · exact h' _ _ _ _

theorem abortPath_onward {s t : State} {k : SlotIx} (h : s.Onward t) : s.Onward (abortPath k t) := by
  unfold abortPath
  split
  · exact h
  · next j e =>
    have h' : s.Onward (t.releasePower j.reservation) := h.fields
    split
    · exact endJob_onward h
    · exact endJob_onward h
    · refine endJob_onward ?_
      split
      · exact h'.bank (withdrawConnection_bank (.refl _))
      · exact h'
    iterate 3
      refine enterCooling_onward ?_
      split
      · exact h'.bank (enterDischarge_bank (.refl _))
      · exact h'
    exact h

theorem giveOutcome_onward {s t : State} {o : JobOutcome} {k : SlotIx} (h : s.Onward t) :
    s.Onward (giveOutcome o t k) := by
  unfold giveOutcome
  split
  · exact setOutcome_onward h
  · exact h

/-- A job that is there is in COOLING. -/
def State.Cold (s : State) (k : SlotIx) : Prop := ∀ j, s.job k = some j → j.state = .cooling

theorem State.Onward.cold {s t : State} (h : s.Onward t) {k : SlotIx} (c : s.Cold k) : t.Cold k := by
  intro j hj
  obtain ⟨i, a, _, b, _⟩ := h k j hj
  exact b (c i a)

/-- The job of slot `k` is free after its end. -/
theorem endJob_none (k : SlotIx) (r : Release) (s : State) : (endJob k r s).job k = none := by
  cases h : s.job k with
  | none =>
    have := (endJob_settings (k := k) (r := r) (.refl s)).free k h
    unfold State.job at h ⊢
    rw [this, h]
  | some j =>
    have := endJob_slot r h
    unfold State.job
    rw [this]

theorem enterCooling_cold (k : SlotIx) (s : State) : (enterCooling k s).Cold k := by
  unfold enterCooling
  split
  · next h => intro j hj; rw [h] at hj; cases hj
  · dsimp only
    split
    · intro j hj
      rw [endJob_none] at hj
      cases hj
    · intro j hj
      rw [job_modJob_self] at hj
      cases h : s.job k with
      | none => simp [h] at hj
      | some i => rw [h] at hj; cases hj; rfl

/-- After its abort path a job has ended or cools (R147 to R150). -/
theorem abortPath_cold (k : SlotIx) (s : State) : (abortPath k s).Cold k := by
  unfold abortPath
  split
  · next h => intro j hj; rw [h] at hj; cases hj
  · next j h =>
    split
    iterate 3
      intro j hj
      rw [endJob_none] at hj
      cases hj
    iterate 3
      exact enterCooling_cold _ _
    · next e =>
      intro i hi
      rw [h] at hi
      cases hi
      exact e

/-! ## Frames of the end of a job and of COOLING entry -/

/-- The end of a job touches no converter, relay, head or committed power, and keeps a cause raised. -/
theorem endJob_frame (k : SlotIx) (r : Release) (s : State) :
    (endJob k r s).convs = s.convs ∧ (endJob k r s).committed = s.committed ∧
    (s.arbCause = true → (endJob k r s).arbCause = true) ∧ (endJob k r s).heads = s.heads ∧
    (endJob k r s).relays = s.relays := by
  have h := endJob_table (k := k) (r := r) (.refl s)
  exact ⟨by rw [h.only], by rw [h.only], h.cause, by rw [h.only], by rw [h.only]⟩

/-- COOLING entry touches no converter, relay, head or committed power, and keeps a cause raised. -/
theorem enterCooling_frame (k : SlotIx) (s : State) :
    (enterCooling k s).convs = s.convs ∧ (enterCooling k s).committed = s.committed ∧
    (s.arbCause = true → (enterCooling k s).arbCause = true) ∧ (enterCooling k s).heads = s.heads ∧
    (enterCooling k s).relays = s.relays := by
  unfold enterCooling
  split
  · exact ⟨rfl, rfl, id, rfl, rfl⟩
  · dsimp only
    split
    · exact endJob_frame _ _ _
    · exact ⟨rfl, rfl, id, rfl, rfl⟩

/-- A job that enters COOLING with a guard or a cool dwell that is not 0 cools (R140). -/
theorem enterCooling_job {s : State} {k : SlotIx} {j : Job} (h : s.job k = some j)
    (g : (s.head j.head).guardEnable = true ∨ (s.prof j.profile).coolDwell ≠ 0) :
    (enterCooling k s).job k =
      some (j.cooling (s.prof j.profile) (s.head j.head).guardEnable s.lineClock s.now) := by
  unfold enterCooling
  rw [h]
  dsimp only
  rw [if_neg (by rcases g with g | g <;> simp [g]), job_modJob_self, h]
  rfl

/-- A job that enters COOLING without a guard and with cool dwell 0 has ended (R142). -/
theorem enterCooling_none {s : State} {k : SlotIx} {j : Job} (h : s.job k = some j)
    (g : (s.head j.head).guardEnable = false) (g' : (s.prof j.profile).coolDwell = 0) :
    (enterCooling k s).job k = none := by
  unfold enterCooling
  rw [h]
  dsimp only
  rw [if_pos (by simp [g, g']), endJob_none]

/-- An operation at a converter leaves a job as it was, or with its converter field cleared. -/
theorem State.BankAt.job {c : Conv} {s t : State} (b : s.BankAt c t) {k : SlotIx} {j : Job}
    (h : s.job k = some j) : t.job k = some j ∨ t.job k = some { j with converter := none } := by
  rcases (b.jobs k).2 with e | e <;> rw [e, h] <;> simp

/-- The learned start frequency is all that learning writes (R53). -/
theorem learn_frame (j : Job) (o : JobOutcome) (s : State) :
    (learn j o s).convs = s.convs ∧ (learn j o s).committed = s.committed ∧
    (learn j o s).arbCause = s.arbCause ∧ (learn j o s).slots = s.slots ∧ (learn j o s).profs = s.profs ∧
    (learn j o s).lineClock = s.lineClock ∧ (learn j o s).now = s.now ∧ (learn j o s).relays = s.relays := by
  unfold learn
  split <;> simp

/-! ## Converters on the abort paths -/

/-- A property of one converter that DISCHARGE entry and the loss of its served job keep, and that no converter in
CONNECTING has, is kept by the abort paths. -/
structure AbortKept (q : Converter → Prop) : Prop where
  discharge : ∀ v t n, q v → q { v.discharge t n with served := none }
  served : ∀ v, q v → q { v with served := none }
  notConnecting : ∀ v, q v → v.state ≠ .connecting

theorem abortPath_conv {q : Converter → Prop} (hq : AbortKept q) {c : Conv} {s : State} (h : q (s.conv c))
    (k : SlotIx) : q ((abortPath k s).conv c) := by
  have ed : ∀ d (u : State), q (u.conv c) → q ((enterDischarge d u).conv c) := by
    intro d u hu
    by_cases e : d = c
    · subst e
      rw [enterDischarge_conv]
      exact hq.discharge _ _ _ hu
    · rw [(enterDischarge_bank (.refl u)).other c (Ne.symm e)]
      exact hu
  have wd : ∀ d (u : State), q (u.conv c) → q ((withdrawConnection d u).conv c) := by
    intro d u hu
    by_cases e : d = c
    · subst e
      rcases (withdrawConnection_kept d u).2.2.2.2.2.2 with e | e
      · rw [e]
        exact hq.served _ hu
      · exact absurd e.2 (hq.notConnecting _ hu)
    · rw [(withdrawConnection_bank (.refl u)).other c (Ne.symm e)]
      exact hu
  have ej : ∀ (u : State) r, q (u.conv c) → q ((endJob k r u).conv c) := by
    intro u r hu
    unfold State.conv
    rw [(endJob_frame k r u).1]
    exact hu
  have ec : ∀ (u : State), q (u.conv c) → q ((enterCooling k u).conv c) := by
    intro u hu
    unfold State.conv
    rw [(enterCooling_frame k u).1]
    exact hu
  unfold abortPath
  split
  · exact h
  · split
    · exact ej _ _ h
    · exact ej _ _ h
    · refine ej _ _ ?_
      split
      · exact wd _ _ h
      · exact h
    iterate 3
      refine ec _ ?_
      split
      · exact ed _ _ h
      · exact h
    exact h

/-- The abort path of a job leaves every converter but its own as it is. -/
theorem abortPath_conv_ne {k : SlotIx} {c : Conv} {s : State} (h : ∀ j, s.job k = some j → j.converter ≠ some c) :
    (abortPath k s).conv c = s.conv c := by
  have ej : ∀ (u : State) r, (endJob k r u).conv c = u.conv c := fun u r => by
    unfold State.conv
    rw [(endJob_frame k r u).1]
  have ec : ∀ u : State, (enterCooling k u).conv c = u.conv c := fun u => by
    unfold State.conv
    rw [(enterCooling_frame k u).1]
  unfold abortPath
  split
  · rfl
  · next j e =>
    have hc := h j e
    split
    · exact ej _ _
    · exact ej _ _
    · rw [ej]
      split
      · next d hd => exact (withdrawConnection_bank (.refl _)).other c fun x => hc (by rw [hd, x])
      · rfl
    iterate 3
      rw [ec]
      split
      · next d hd => exact (enterDischarge_bank (.refl _)).other c fun x => hc (by rw [hd, x])
      · rfl
    rfl

/-- A series of abort paths of jobs that have another converter, or none, leaves a converter as it is. -/
theorem abortPaths_conv_ne {c : Conv} {l : List SlotIx} {s : State}
    (h : ∀ m ∈ l, ∀ j, s.job m = some j → j.converter ≠ some c) :
    (l.foldl (fun s m => abortPath m s) s).conv c = s.conv c := by
  induction l generalizing s with
  | nil => rfl
  | cons x l ih =>
    have hx := abortPath_conv_ne (h x (List.mem_cons_self ..))
    rw [List.foldl_cons, ih fun m hm j hj => ?_, hx]
    obtain ⟨i, a, _, _, _, _, _, b⟩ := abortPath_onward (.refl s) m j hj
    rcases b with b | b
    · rw [b]
      exact h m (List.mem_cons_of_mem _ hm) i a
    · rw [b]
      simp

theorem giveOutcome_conv (o : JobOutcome) (s : State) (k : SlotIx) (c : Conv) :
    (giveOutcome o s k).conv c = s.conv c := by
  unfold giveOutcome
  split <;> rfl

theorem foldl_conv {α : Type} {f : State → α → State} {q : Converter → Prop} {c : Conv}
    (hf : ∀ (s : State) x, q (s.conv c) → q ((f s x).conv c)) (l : List α) {s : State} (h : q (s.conv c)) :
    q ((l.foldl f s).conv c) := by
  induction l generalizing s with
  | nil => exact h
  | cons x l ih => exact ih (hf s x h)

theorem failJob_conv {q : Converter → Prop} (hq : AbortKept q) {c : Conv} {s : State} (h : q (s.conv c))
    (o : JobOutcome) (k : SlotIx) : q ((failJob o k s).conv c) := by
  unfold failJob
  split
  · refine foldl_conv (fun u m hu => abortPath_conv hq hu m) _ (abortPath_conv hq ?_ k)
    exact foldl_conv (fun u m hu => by rw [giveOutcome_conv]; exact hu) _ h
  · exact h

theorem reach_conv {q : Converter → Prop} (hq : AbortKept q) {c : Conv} {s : State} (h : q (s.conv c))
    (o : JobOutcome) (p : Job → Bool) : q ((reach o p s).conv c) := by
  unfold reach
  refine foldl_conv (fun u m hu => ?_) _ (foldl_conv (fun u m hu => ?_) _ (foldl_conv (fun u m hu => ?_) _ h))
  · split
    · exact abortPath_conv hq hu m
    · exact hu
  · exact foldl_conv (fun u m hu => by rw [giveOutcome_conv]; exact hu) _ hu
  · rw [giveOutcome_conv]
    exact hu

end Sys2Proof.Machine
end

