-- ==== Sys2Proof/Laws/Grants.lean ====
section
/-! SUPPORT. What an arbitration cannot reach: a converter that is not in IDLE and its relay, a job that is not in READY, and
nothing at all outside RUN. -/

namespace Sys2Proof.Machine

open State

@[simp] theorem scanJoin_conv (h : Head) (s : State) (c : Conv) : (scanJoin h s).conv c = s.conv c := rfl
@[simp] theorem scanJoin_job (h : Head) (s : State) (k : SlotIx) : (scanJoin h s).job k = s.job k := rfl
@[simp] theorem scanJoin_slot (h : Head) (s : State) (k : SlotIx) : (scanJoin h s).slot k = s.slot k := rfl
@[simp] theorem scanJoin_relays (h : Head) (s : State) : (scanJoin h s).relays = s.relays := rfl
@[simp] theorem scanJoin_committed (h : Head) (s : State) : (scanJoin h s).committed = s.committed := rfl

theorem poolConv_of_poolOf {c : Conv} {p : Pool} (h : poolOf c = some p) : poolConv p = c := by
  unfold poolOf at h
  split at h
  · cases h
    ext
    simp [poolConv]
    omega
  · cases h

theorem poolOf_poolConv (p : Pool) : poolOf (poolConv p) = some p := by
  revert p
  decide

/-! ## Converters -/

theorem enterSeeking_conv_ne {c d : Conv} (h : d ≠ c) (k : SlotIx) (s : State) :
    (enterSeeking d k s).conv c = s.conv c := by
  unfold enterSeeking
  split
  · rfl
  · dsimp only
    split
    · rw [scanJoin_conv, conv_modConv_ne _ h]; rfl
    · rw [conv_modConv_ne _ h]; rfl

theorem connect_conv_ne {p : Pool} {c : Conv} (h : poolConv p ≠ c) (x : Head) (k : SlotIx) (s : State) :
    (connect p x k s).conv c = s.conv c := by
  unfold connect
  dsimp only
  split
  · exact enterSeeking_conv_ne h k s
  · rw [matrixTry_conv, modRelay_conv, conv_modConv_ne _ h]; rfl

/-- A grant touches only the converter that it gives. -/
theorem grantMember_conv_ne {x : SlotIx × Conv} {c : Conv} (h : x.2 ≠ c) (s : State) :
    (grantMember s x).conv c = s.conv c := by
  unfold grantMember
  split
  · rfl
  split
  · rfl
  · dsimp only
    split
    · rw [enterSeeking_conv_ne h, modJob_conv, conv_modConv_ne _ h]; rfl
    · next p hp =>
      rw [connect_conv_ne (by rw [poolConv_of_poolOf hp]; exact h), modJob_conv, conv_modConv_ne _ h]; rfl

/-- A grant needs its converter in IDLE. -/
theorem grantMember_conv_busy {c : Conv} {s : State} (h : (s.conv c).state ≠ .idle) (x : SlotIx × Conv) :
    (grantMember s x).conv c = s.conv c := by
  by_cases hx : x.2 = c
  · unfold grantMember
    split
    · rfl
    · rw [if_pos]
      refine .inr (.inl ?_)
      subst hx
      simp [State.convFree, h]
  · exact grantMember_conv_ne hx s

theorem grants_conv_busy {c : Conv} {s : State} (h : (s.conv c).state ≠ .idle) (l : List (SlotIx × Conv)) :
    (l.foldl grantMember s).conv c = s.conv c := by
  induction l generalizing s with
  | nil => rfl
  | cons x l ih =>
    have e := grantMember_conv_busy h x
    rw [List.foldl_cons, ih (by rw [e]; exact h), e]

theorem walk_conv_busy {c : Conv} {s : State} (h : (s.conv c).state ≠ .idle) (l : List Cand) :
    (walk l s).conv c = s.conv c := by
  induction l generalizing s with
  | nil => rfl
  | cons x l ih =>
    unfold walk
    split
    · exact ih h
    split
    · next g _ _ =>
      have e : (grant x g s).conv c = s.conv c := grants_conv_busy (s := s.dropCand x.slot) h g
      rw [ih (by rw [e]; exact h), e]
    · rfl

theorem scanSettle_conv (s : State) (c : Conv) : (scanSettle s).conv c = s.conv c := by
  rw [scanSettle_only]
  rfl

theorem scanSettle_job (s : State) (k : SlotIx) : (scanSettle s).job k = s.job k := by
  rw [scanSettle_only]
  rfl

/-- A converter that is not in IDLE is left as it is at the end of an event. -/
theorem finish_conv_busy {c : Conv} {s : State} (h : (s.conv c).state ≠ .idle) :
    (finish s).conv c = s.conv c := by
  unfold finish
  rw [scanSettle_conv]
  split
  · exact walk_conv_busy (s := { s with arbCause := false, arbSeq := s.arbSeq + 1 }) h _
  · rfl

/-! ## Relays -/

theorem matrixTry_relay_ne {p q : Pool} (h : p ≠ q) (s : State) : (matrixTry p s).relay q = s.relay q := by
  unfold matrixTry
  split
  · rfl
  · dsimp only
    split
    all_goals rw [relay_modRelay, if_neg h]

@[simp] theorem enterSeeking_relays (c : Conv) (k : SlotIx) (s : State) : (enterSeeking c k s).relays = s.relays := by
  unfold enterSeeking
  split
  · rfl
  · dsimp only
    split <;> rfl

theorem connect_relay_ne {p q : Pool} (h : p ≠ q) (x : Head) (k : SlotIx) (s : State) :
    (connect p x k s).relay q = s.relay q := by
  unfold connect
  dsimp only
  split
  · simp [State.relay]
  · rw [matrixTry_relay_ne h, relay_modRelay, if_neg h]
    rfl

/-- A grant moves no relay but that of the converter that it gives, which is in IDLE. -/
theorem grantMember_relay_busy {p : Pool} {s : State} (h : (s.conv (poolConv p)).state ≠ .idle)
    (x : SlotIx × Conv) : (grantMember s x).relay p = s.relay p := by
  unfold grantMember
  split
  · rfl
  split
  · rfl
  · next hn =>
    push Not at hn
    dsimp only
    split
    · simp [State.relay]
    · next q hq =>
      have e : q ≠ p := by
        rintro rfl
        have := hn.2.1
        rw [← poolConv_of_poolOf hq] at this
        simp [State.convFree, h] at this
      rw [connect_relay_ne e]
      rfl

theorem grants_relay_busy {p : Pool} {s : State} (h : (s.conv (poolConv p)).state ≠ .idle)
    (l : List (SlotIx × Conv)) : (l.foldl grantMember s).relay p = s.relay p := by
  induction l generalizing s with
  | nil => rfl
  | cons x l ih =>
    rw [List.foldl_cons, ih (by rw [grantMember_conv_busy h]; exact h), grantMember_relay_busy h]

theorem walk_relay_busy {p : Pool} {s : State} (h : (s.conv (poolConv p)).state ≠ .idle) (l : List Cand) :
    (walk l s).relay p = s.relay p := by
  induction l generalizing s with
  | nil => rfl
  | cons x l ih =>
    unfold walk
    split
    · exact ih h
    split
    · next g _ _ =>
      have c : (grant x g s).conv (poolConv p) = s.conv (poolConv p) :=
        grants_conv_busy (s := s.dropCand x.slot) h g
      have r : (grant x g s).relay p = s.relay p := grants_relay_busy (s := s.dropCand x.slot) h g
      rw [ih (by rw [c]; exact h), r]
    · rfl

/-- The relay of a pool converter that is not in IDLE is left as it is at the end of an event. -/
theorem finish_relay_busy {p : Pool} {s : State} (h : (s.conv (poolConv p)).state ≠ .idle) :
    (finish s).relay p = s.relay p := by
  unfold finish
  rw [show ∀ u : State, (scanSettle u).relay p = u.relay p from fun u => by rw [scanSettle_only]; rfl]
  split
  · exact walk_relay_busy (s := { s with arbCause := false, arbSeq := s.arbSeq + 1 }) h _
  · rfl

/-- A motion starts, but no relay changes its position, at the end of an event. -/
theorem matrixTry_pos (p q : Pool) (s : State) : ((matrixTry p s).relay q).pos = (s.relay q).pos := by
  unfold matrixTry
  split
  · rfl
  · dsimp only
    split
    · rw [relay_modRelay]
      split
      · next e =>
        subst e
        unfold Relay.startMotion
        split <;> simp_all
      · rfl
    · rw [relay_modRelay]
      split
      · next e => subst e; rfl
      · rfl

theorem grantMember_pos (x : SlotIx × Conv) (q : Pool) (s : State) :
    ((grantMember s x).relay q).pos = (s.relay q).pos := by
  unfold grantMember
  split
  · rfl
  split
  · rfl
  · dsimp only
    split
    · simp [State.relay]
    · unfold connect
      dsimp only
      split
      · simp [State.relay]
      · rw [matrixTry_pos, relay_modRelay]
        split
        · next e => subst e; rfl
        · rfl

theorem walk_pos (l : List Cand) (q : Pool) (s : State) : ((walk l s).relay q).pos = (s.relay q).pos := by
  have fold : ∀ (g : List (SlotIx × Conv)) (u : State), ((g.foldl grantMember u).relay q).pos = (u.relay q).pos := by
    intro g
    induction g with
    | nil => exact fun _ => rfl
    | cons x g ih => exact fun u => (ih _).trans (grantMember_pos x q u)
  induction l generalizing s with
  | nil => rfl
  | cons x l ih =>
    unfold walk
    split
    · exact ih s
    split
    · next g _ _ => exact (ih _).trans (fold g (s.dropCand x.slot))
    · rfl

theorem finish_pos (q : Pool) (s : State) : ((finish s).relay q).pos = (s.relay q).pos := by
  unfold finish
  rw [show ∀ u : State, (scanSettle u).relay q = u.relay q from fun u => by rw [scanSettle_only]; rfl]
  split
  · exact walk_pos _ q { s with arbCause := false, arbSeq := s.arbSeq + 1 }
  · rfl

/-! ## Jobs -/

theorem enterSeeking_job_ne {k m : SlotIx} (h : k ≠ m) (c : Conv) (s : State) :
    (enterSeeking c k s).job m = s.job m := by
  unfold enterSeeking
  split
  · rfl
  · dsimp only
    split <;> simp [h]

theorem matrixTry_slots (p : Pool) (s : State) : (matrixTry p s).slots = s.slots := by
  unfold matrixTry
  split
  · rfl
  · dsimp only
    split <;> rfl

@[simp] theorem matrixTry_job (p : Pool) (s : State) (k : SlotIx) : (matrixTry p s).job k = s.job k := by
  unfold State.job State.slot
  rw [matrixTry_slots]

theorem connect_job_ne {k m : SlotIx} (h : k ≠ m) (p : Pool) (x : Head) (s : State) :
    (connect p x k s).job m = s.job m := by
  unfold connect
  dsimp only
  split
  · exact enterSeeking_job_ne h _ s
  · simp [h]

theorem grantMember_job_ne {x : SlotIx × Conv} {m : SlotIx} (h : x.1 ≠ m) (s : State) :
    (grantMember s x).job m = s.job m := by
  unfold grantMember
  split
  · rfl
  split
  · rfl
  · dsimp only
    split
    · rw [enterSeeking_job_ne h, job_modJob_ne _ h]; rfl
    · rw [connect_job_ne h, job_modJob_ne _ h]; rfl

/-- A grant needs its job in READY. -/
theorem grantMember_job_keep {k : SlotIx} {j : Job} {s : State} (h : s.job k = some j) (hr : j.state ≠ .ready)
    (x : SlotIx × Conv) : (grantMember s x).job k = some j := by
  by_cases hx : x.1 = k
  · subst hx
    unfold grantMember
    rw [h]
    dsimp only
    rw [if_pos (.inl hr)]
    exact h
  · rw [grantMember_job_ne hx, h]

theorem grants_job_keep {k : SlotIx} {j : Job} {s : State} (h : s.job k = some j) (hr : j.state ≠ .ready)
    (l : List (SlotIx × Conv)) : (l.foldl grantMember s).job k = some j := by
  induction l generalizing s with
  | nil => exact h
  | cons x l ih => exact ih (grantMember_job_keep h hr x)

theorem walk_job_keep {k : SlotIx} {j : Job} {s : State} (h : s.job k = some j) (hr : j.state ≠ .ready)
    (l : List Cand) : (walk l s).job k = some j := by
  induction l generalizing s with
  | nil => exact h
  | cons x l ih =>
    unfold walk
    split
    · exact ih h
    split
    · next g _ _ => exact ih (grants_job_keep (s := s.dropCand x.slot) h hr g)
    · exact h

/-- A job that is not in READY is left as it is at the end of an event. -/
theorem finish_job_keep {k : SlotIx} {j : Job} {s : State} (h : s.job k = some j) (hr : j.state ≠ .ready) :
    (finish s).job k = some j := by
  unfold finish
  rw [scanSettle_job]
  split
  · exact walk_job_keep (s := { s with arbCause := false, arbSeq := s.arbSeq + 1 }) h hr _
  · exact h

/-- A free slot is left as it is at the end of an event. -/
theorem finish_free {k : SlotIx} {s : State} (h : s.job k = none) : (finish s).slot k = s.slot k :=
  (finish_settings (.refl s)).free k h

/-! ## What becomes of a job in READY -/

theorem enterSeeking_job (c : Conv) (k : SlotIx) (s : State) :
    (enterSeeking c k s).job k = (s.job k).map fun j => { j with state := .seeking } := by
  unfold enterSeeking
  split
  · next h => rw [h]; rfl
  · dsimp only
    split <;> simp

theorem grantMember_granted_job {k : SlotIx} {j : Job} {s : State} (h : s.job k = some j) (x : SlotIx × Conv) :
    ∃ i, (grantMember s x).job k = some i ∧ Job.OrGranted j i := by
  by_cases hx : x.1 = k
  · subst hx
    unfold grantMember
    rw [h]
    dsimp only
    split
    · exact ⟨j, h, .inl rfl⟩
    · next hn =>
      push Not at hn
      split
      · rw [enterSeeking_job, job_modJob_self]
        show ∃ i, ((Option.map _ (s.job x.1)).map _) = some i ∧ _
        rw [h]
        exact ⟨_, rfl, .inr ⟨hn.1, x.2, .inl rfl⟩⟩
      · next p _ =>
        unfold connect
        dsimp only
        split
        · rw [enterSeeking_job, job_modJob_self]
          show ∃ i, ((Option.map _ (s.job x.1)).map _) = some i ∧ _
          rw [h]
          exact ⟨_, rfl, .inr ⟨hn.1, x.2, .inl rfl⟩⟩
        · rw [matrixTry_job]
          refine ⟨{ j with state := .connecting, converter := some x.2 }, ?_, .inr ⟨hn.1, x.2, .inr rfl⟩⟩
          rw [modRelay_job, modConv_job, job_modJob_self, job_modJob_self]
          show (Option.map _ ((s.job x.1).map _)) = _
          rw [h]
          rfl
  · rw [grantMember_job_ne hx]
    exact ⟨j, h, .inl rfl⟩

theorem Job.OrGranted.trans {j i l : Job} (a : Job.OrGranted j i) (b : Job.OrGranted i l) : Job.OrGranted j l := by
  rcases a with rfl | ⟨r, c, e⟩
  · exact b
  · rcases b with rfl | ⟨r', _⟩
    · exact .inr ⟨r, c, e⟩
    · rcases e with rfl | rfl <;> cases r'

theorem grants_granted_job {k : SlotIx} {j : Job} {s : State} (h : s.job k = some j) (l : List (SlotIx × Conv)) :
    ∃ i, (l.foldl grantMember s).job k = some i ∧ Job.OrGranted j i := by
  induction l generalizing s j with
  | nil => exact ⟨j, h, .inl rfl⟩
  | cons x l ih =>
    obtain ⟨i, a, b⟩ := grantMember_granted_job h x
    obtain ⟨i', a', b'⟩ := ih a
    exact ⟨i', a', b.trans b'⟩

theorem walk_granted_job {k : SlotIx} {j : Job} {s : State} (h : s.job k = some j) (l : List Cand) :
    ∃ i, (walk l s).job k = some i ∧ Job.OrGranted j i := by
  induction l generalizing s j with
  | nil => exact ⟨j, h, .inl rfl⟩
  | cons x l ih =>
    unfold walk
    split
    · exact ih h
    split
    · next g _ _ =>
      obtain ⟨i, a, b⟩ := grants_granted_job (s := s.dropCand x.slot) h g
      obtain ⟨i', a', b'⟩ := ih (s := grant x g s) a
      exact ⟨i', a', b.trans b'⟩
    · exact ⟨j, h, .inl rfl⟩

/-- The end of an event leaves every job as it was, but for grants of jobs in READY. -/
theorem finish_granted_job {k : SlotIx} {j : Job} {s : State} (h : s.job k = some j) :
    ∃ i, (finish s).job k = some i ∧ Job.OrGranted j i := by
  unfold finish
  simp only [scanSettle_job]
  split
  · exact walk_granted_job (s := { s with arbCause := false, arbSeq := s.arbSeq + 1 }) h _
  · exact ⟨j, h, .inl rfl⟩

/-! ## The scanner -/

theorem matrixTry_scan (p : Pool) (s : State) :
    (matrixTry p s).conversion = s.conversion ∧ (matrixTry p s).passList = s.passList := by
  unfold matrixTry
  split
  · exact ⟨rfl, rfl⟩
  · dsimp only
    split <;> exact ⟨rfl, rfl⟩

theorem enterSeeking_scan (c : Conv) (k : SlotIx) (s : State) :
    (enterSeeking c k s).conversion = s.conversion ∧ (enterSeeking c k s).passList = s.passList := by
  unfold enterSeeking
  split
  · exact ⟨rfl, rfl⟩
  · dsimp only
    split <;> exact ⟨rfl, rfl⟩

theorem grantMember_scan (x : SlotIx × Conv) (s : State) :
    (grantMember s x).conversion = s.conversion ∧ (grantMember s x).passList = s.passList := by
  unfold grantMember
  split
  · exact ⟨rfl, rfl⟩
  split
  · exact ⟨rfl, rfl⟩
  dsimp only
  split
  · exact enterSeeking_scan _ _ _
  · unfold connect
    dsimp only
    split
    · exact enterSeeking_scan _ _ _
    · rw [(matrixTry_scan _ _).1, (matrixTry_scan _ _).2]
      constructor <;> simp

theorem grants_scan (l : List (SlotIx × Conv)) (s : State) :
    (l.foldl grantMember s).conversion = s.conversion ∧ (l.foldl grantMember s).passList = s.passList := by
  induction l generalizing s with
  | nil => exact ⟨rfl, rfl⟩
  | cons y l ih => exact ⟨(ih _).1.trans (grantMember_scan y s).1, (ih _).2.trans (grantMember_scan y s).2⟩

theorem walk_scan (l : List Cand) (s : State) :
    (walk l s).conversion = s.conversion ∧ (walk l s).passList = s.passList := by
  induction l generalizing s with
  | nil => exact ⟨rfl, rfl⟩
  | cons x l ih =>
    unfold walk
    split
    · exact ih s
    split
    · next g _ _ =>
      have a := grants_scan g (s.dropCand x.slot)
      have b := ih (grant x g s)
      exact ⟨b.1.trans a.1, b.2.trans a.2⟩
    · exact ⟨rfl, rfl⟩

/-- A pass in progress is not changed at the end of an event (R135). -/
theorem finish_scan {s : State} {x : Head × Nat} (h : s.conversion = some x) :
    (finish s).conversion = s.conversion ∧ (finish s).passList = s.passList := by
  have key : ∀ u : State, u.conversion = some x → scanSettle u = u := fun u e => by unfold scanSettle; rw [e]
  unfold finish
  split
  · have w := walk_scan s.cands { s with arbCause := false, arbSeq := s.arbSeq + 1 }
    have : scanSettle (arbitrate s) = arbitrate s := key _ (by exact w.1.trans h)
    rw [this]; exact w
  · rw [key s h]; exact ⟨rfl, rfl⟩

/-! ## The walk -/

/-- Candidates that are not eligible are passed by (R90). -/
theorem walk_skip {l : List Cand} {s : State} (h : ∀ y ∈ l, s.eligible y = none) (rest : List Cand) :
    walk (l ++ rest) s = walk rest s := by
  induction l with
  | nil => rfl
  | cons x l ih =>
    rw [List.cons_append, walk, h x (List.mem_cons_self ..)]
    exact ih fun y hy => h y (List.mem_cons_of_mem _ hy)

end Sys2Proof.Machine
end

