-- ==== Sys2Proof/Laws/Accounts.lean ====
section
/-! SUPPORT. What becomes of a job on the abort paths: it stays with its outcome, or it has ended and its result
carries the outcome; and what a cause makes of the jobs that it reaches. -/

namespace Sys2Proof.Machine

open State

/-! ## A job is there, or its result is -/

/-- Every job stays, with its station, an outcome that it had and its place before or after the energising of its
head; or it has ended, and a result of its handle carries the outcome. -/
structure State.Accounted (s t : State) : Prop where
  results : ∀ n, (s.station n).results <+: (t.station n).results
  free : ∀ k, s.job k = none → t.job k = none
  jobs : ∀ k j, s.job k = some j →
    (∃ i, t.slot k = ⟨(s.slot k).gen, some i⟩ ∧ i.station = j.station ∧
      (j.outcome.isSome = true → i.outcome = j.outcome) ∧ i.state.endsAtOnce = j.state.endsAtOnce) ∨
    (t.job k = none ∧ ∃ r ∈ (t.station j.station).results, r.handle = s.handleOf k ∧
      (j.outcome.isSome = true → r.outcome = j.outcome) ∧ (j.state.endsAtOnce = true → r.release = .none))

theorem State.slot_of_job {s : State} {k : SlotIx} {j : Job} (h : s.job k = some j) :
    s.slot k = ⟨(s.slot k).gen, some j⟩ := by
  unfold State.job at h
  rw [← h]

namespace State.Accounted

theorem refl (s : State) : s.Accounted s :=
  ⟨fun _ => List.prefix_rfl, fun _ => id, fun _ j h => .inl ⟨j, slot_of_job h, rfl, fun _ => rfl, rfl⟩⟩

theorem trans {s t u : State} (h : s.Accounted t) (g : t.Accounted u) : s.Accounted u where
  results := fun n => (h.results n).trans (g.results n)
  free := fun k e => g.free k (h.free k e)
  jobs := fun k j e => by
    rcases h.jobs k j e with ⟨i, a, b, c, d⟩ | ⟨a, r, b, c, d, f⟩
    · have ti : t.job k = some i := by unfold State.job; rw [a]
      have gen : (t.slot k).gen = (s.slot k).gen := by rw [a]
      rcases g.jobs k i ti with ⟨i', a', b', c', d'⟩ | ⟨a', r, b', c', d', f'⟩
      · exact .inl ⟨i', by rw [a', gen], b'.trans b, fun x => (c' (by rw [c x]; exact x)).trans (c x), d'.trans d⟩
      · refine .inr ⟨a', r, by rw [← b]; exact b', by rw [c']; unfold State.handleOf; rw [gen],
          fun x => (d' (by rw [c x]; exact x)).trans (c x), fun x => f' (by rw [d]; exact x)⟩
    · exact .inr ⟨g.free k a, r, (g.results _).subset b, c, d, f⟩

theorem of_fields {s t : State} (a : t.slots = s.slots := by rfl) (b : t.stations = s.stations := by rfl) :
    s.Accounted t where
  results := fun n => by simp [State.station, b]
  free := fun k e => by simpa [State.job, State.slot, a] using e
  jobs := fun k j e => .inl ⟨j, by rw [← slot_of_job e]; simp [State.slot, a], rfl, fun _ => rfl, rfl⟩

theorem fields {s t u : State} (h : s.Accounted t) (a : u.slots = t.slots := by rfl)
    (b : u.stations = t.stations := by rfl) : s.Accounted u := h.trans (of_fields a b)

/-- A job record is changed that keeps its station, an outcome that it has, and its place. -/
theorem of_modJob (s : State) (k : SlotIx) {f : Job → Job}
    (hf : ∀ j, s.job k = some j → (f j).station = j.station ∧ (j.outcome.isSome = true → (f j).outcome = j.outcome) ∧
      (f j).state.endsAtOnce = j.state.endsAtOnce) : s.Accounted (s.modJob k f) where
  results := fun n => List.prefix_rfl
  free := fun m e => by
    rw [job_modJob]
    split
    · next e' => subst e'; rw [e]; rfl
    · exact e
  jobs := fun m j e => .inl <| by
    rw [slot_modJob]
    split
    · next e' =>
      subst e'
      obtain ⟨a, b, c⟩ := hf j e
      exact ⟨f j, by rw [e]; rfl, a, b, c⟩
    · exact ⟨j, slot_of_job e, rfl, fun _ => rfl, rfl⟩

theorem modJob {s t : State} (h : s.Accounted t) {k : SlotIx} {f : Job → Job}
    (hf : ∀ j, t.job k = some j → (f j).station = j.station ∧ (j.outcome.isSome = true → (f j).outcome = j.outcome) ∧
      (f j).state.endsAtOnce = j.state.endsAtOnce) : s.Accounted (t.modJob k f) := h.trans (of_modJob t k hf)

theorem folds {α : Type} {s t : State} (h : s.Accounted t) {f : State → α → State} {l : List α}
    (hf : ∀ (u : State) x, s.Accounted u → s.Accounted (f u x)) : s.Accounted (l.foldl f t) := by
  induction l generalizing t with
  | nil => exact h
  | cons x xs ih => exact ih (hf t x h)

theorem bank {s t u : State} {c : Conv} (h : s.Accounted t) (b : t.BankAt c u) : s.Accounted u := by
  refine h.trans ⟨fun n => by simp [State.station, b.stations], fun k e => ?_, fun k j e => .inl ?_⟩
  · rcases (b.jobs k).2 with x | x <;> rw [x, e]
    rfl
  · have g := (b.jobs k).1
    rcases b.job e with x | x
    · exact ⟨j, by rw [← g]; exact slot_of_job x, rfl, fun _ => rfl, rfl⟩
    · exact ⟨{ j with converter := none }, by rw [← g]; exact slot_of_job x, rfl, fun _ => rfl, rfl⟩

end State.Accounted

theorem setOutcome_accounted {s t : State} {k : SlotIx} {o : JobOutcome} (h : s.Accounted t) :
    s.Accounted (t.setOutcome k o) :=
  h.modJob fun i _ => by
    split
    · next e => simp [Option.isNone_iff_eq_none.mp e]
    · simp

theorem giveOutcome_accounted {s t : State} {o : JobOutcome} {k : SlotIx} (h : s.Accounted t) :
    s.Accounted (giveOutcome o t k) := by
  unfold giveOutcome
  split
  · exact setOutcome_accounted h
  · exact h

theorem enterReady_accounted {s t : State} {l : List SlotIx} (h : s.Accounted t)
    (hl : ∀ m ∈ l, t.jobIs m (·.state == .pending) = true) : s.Accounted (enterReady l t) := by
  unfold enterReady
  split
  · exact h
  · split
    · exact h
    · refine State.Accounted.fields (t := List.foldl (fun s m => s.modJob m (·.ready s.lineClock)) t _) ?_
      have key : ∀ (xs : List SlotIx) (u : State), s.Accounted u →
          (∀ m ∈ xs, ∀ i, u.job m = some i → i.state.endsAtOnce = true) →
          s.Accounted (xs.foldl (fun s m => s.modJob m (·.ready s.lineClock)) u) := by
        intro xs
        induction xs with
        | nil => exact fun u hu _ => hu
        | cons x xs ih =>
          intro u hu hx
          refine ih _ (hu.modJob fun j e => ⟨rfl, fun _ => rfl, ?_⟩) fun m hm i hi => ?_
          · rw [hx x (List.mem_cons_self ..) j e]
            rfl
          · rw [job_modJob] at hi
            split at hi
            · cases hk : u.job x with
              | none => simp [hk] at hi
              | some i' => rw [hk] at hi; cases hi; rfl
            · exact hx m (List.mem_cons_of_mem _ hm) i hi
      refine key _ t h fun m hm i hi => ?_
      have := hl m hm
      rw [State.jobIs, hi] at this
      rw [show i.state = .pending by simpa using this]
      rfl

theorem endSteps_slot_ne {k m : SlotIx} (e : m ≠ k) (j : Job) (r : Release) (s : State) :
    (endSteps k j r s).slot m = s.slot m := by
  have h : (freeSlot k j ((writeResult k j r s).modUse j.profile (· - 1))).slot m = s.slot m := by
    unfold freeSlot
    dsimp only
    have e' : ∀ v, (((writeResult k j r s).modUse j.profile (· - 1)).setSlot k v).slot m = s.slot m := by
      intro v
      rw [slot_setSlot_ne _ (Ne.symm e)]
      rfl
    split
    · simp only [raise_slot]
      rw [scanLeave_only]
      exact e' _
    · simp only [raise_slot]
      rw [scanLeave_only]
      exact e' _
    all_goals exact e' _
  exact h

/-- Steps 1 to 4 of R78 leave a result of the job that ends. -/
theorem endSteps_accounted {s : State} {k : SlotIx} {j : Job} {r : Release} (h : s.job k = some j)
    (hr : j.state.endsAtOnce = true → r = .none) : s.Accounted (endSteps k j r s) where
  results := (endSteps_grown (.refl s)).results
  free := fun m e => by
    by_cases x : m = k
    · subst x; rw [h] at e; cases e
    · unfold State.job
      rw [endSteps_slot_ne x]
      exact e
  jobs := fun m i e => by
    by_cases x : m = k
    · subst x
      rw [h] at e
      cases e
      refine .inr ⟨by unfold State.job; rw [endSteps_slot], s.resultOf m j r, ?_, rfl, fun _ => rfl, hr⟩
      rw [endSteps_station, if_pos rfl]
      simp
    · exact .inl ⟨i, by rw [endSteps_slot_ne x]; exact slot_of_job e, rfl, fun _ => rfl, rfl⟩

theorem endJobFuel_accounted {s : State} {n : Nat} {k : SlotIx} {r : Release}
    (hr : ∀ j, s.job k = some j → j.state.endsAtOnce = true → r = .none) : s.Accounted (endJobFuel n k r s) := by
  induction n generalizing k r s with
  | zero => exact .refl s
  | succ n ih =>
    unfold endJobFuel
    split
    · exact .refl s
    · next j e =>
      refine (endSteps_accounted e (hr j e)).folds fun u _ hu => ?_
      split
      · split
        · exact enterReady_accounted hu (pendingUnit_pending _ _)
        · exact (hu.folds fun _ _ hv => setOutcome_accounted hv).folds fun v _ hv =>
            hv.trans (ih fun _ _ _ => rfl)
      · exact hu

theorem endJob_accounted {s t : State} {k : SlotIx} {r : Release} (h : s.Accounted t)
    (hr : ∀ j, t.job k = some j → j.state.endsAtOnce = true → r = .none) : s.Accounted (endJob k r t) :=
  h.trans (endJobFuel_accounted hr)

theorem enterCooling_accounted {s t : State} {k : SlotIx} (h : s.Accounted t)
    (hk : ∀ j, t.job k = some j → j.state.endsAtOnce = false) : s.Accounted (enterCooling k t) := by
  have h' : ∀ p g c n, s.Accounted (t.modJob k fun j => j.cooling p g c n) := fun p g c n =>
    h.modJob fun j e => ⟨rfl, fun _ => rfl, (hk j e).symm ▸ rfl⟩
  unfold enterCooling
  split
  · exact h
  · dsimp only
    split
    · refine endJob_accounted (h' _ _ _ _) fun j e x => ?_
      rw [job_modJob_self] at e
      cases hi : t.job k with
      | none => simp [hi] at e
      | some i => rw [hi] at e; cases e; cases x
    · exact h' _ _ _ _

theorem abortPath_accounted {s t : State} {k : SlotIx} (h : s.Accounted t) : s.Accounted (abortPath k t) := by
  refine h.trans ?_
  unfold abortPath
  split
  · exact .refl t
  · next j e =>
    have e' : (t.releasePower j.reservation).job k = some j := e
    have h' : t.Accounted (t.releasePower j.reservation) := .of_fields
    have hot : j.state.endsAtOnce = false → ∀ i,
        (match j.converter with
          | some c => enterDischarge c (t.releasePower j.reservation)
          | none => t.releasePower j.reservation).job k = some i → i.state.endsAtOnce = false := by
      intro x i hi
      split at hi
      · rcases (enterDischarge_bank (c := ‹_›) (.refl (t.releasePower j.reservation))).job e' with y | y
        all_goals
          rw [y] at hi
          cases hi
          exact x
      · rw [e'] at hi
        cases hi
        exact x
    split
    · exact endJob_accounted (.refl t) fun _ _ _ => rfl
    · exact endJob_accounted (.refl t) fun _ _ _ => rfl
    · refine endJob_accounted ?_ fun _ _ _ => rfl
      split
      · exact h'.bank (withdrawConnection_bank (.refl _))
      · exact h'
    iterate 3
      next x =>
        refine enterCooling_accounted ?_ (hot (by rw [x]; rfl))
        split
        · exact h'.bank (enterDischarge_bank (.refl _))
        · exact h'
    exact .refl t

/-! ## Jobs in COOLING go on -/

/-- Every job in COOLING stays as it was, but for its converter field. -/
def State.CoolsOn (s t : State) : Prop :=
  ∀ k j, s.job k = some j → j.state = .cooling → ∃ i, t.job k = some { j with converter := i }

namespace State.CoolsOn

theorem refl (s : State) : s.CoolsOn s := fun _ j e _ => ⟨j.converter, e⟩

theorem trans {s t u : State} (h : s.CoolsOn t) (g : t.CoolsOn u) : s.CoolsOn u := by
  intro k j e x
  obtain ⟨i, e'⟩ := h k j e x
  obtain ⟨i', e''⟩ := g k _ e' x
  exact ⟨i', e''⟩

theorem of_fields {s t : State} (a : t.slots = s.slots := by rfl) : s.CoolsOn t :=
  fun k j e _ => ⟨j.converter, by simpa [State.job, State.slot, a] using e⟩

/-- The record of a job that is not in COOLING is changed. -/
theorem of_modJob (s : State) (k : SlotIx) {f : Job → Job}
    (hk : ∀ j, s.job k = some j → j.state = .cooling → f j = j) : s.CoolsOn (s.modJob k f) := by
  intro m j e x
  rw [job_modJob]
  split
  · next e' =>
    subst e'
    exact ⟨j.converter, by rw [e, Option.map_some, hk j e x]⟩
  · exact ⟨j.converter, e⟩

theorem of_bank {s t : State} {c : Conv} (b : s.BankAt c t) : s.CoolsOn t := by
  intro k j e _
  rcases b.job e with y | y
  · exact ⟨j.converter, y⟩
  · exact ⟨none, y⟩

theorem of_endJob {s : State} {k : SlotIx} {r : Release} (hk : ∀ j, s.job k = some j → j.state ≠ .cooling) :
    s.CoolsOn (endJob k r s) := by
  intro m j e x
  refine ⟨j.converter, endJob_keeps (State.KeepsJobs.refl (l := [k]) s) (.inl (by simp)) m j ?_ e (by simp [x])⟩
  intro hm
  rw [List.mem_singleton] at hm
  subst hm
  exact hk j e x

theorem folds {α : Type} {s t : State} (h : s.CoolsOn t) {f : State → α → State} {l : List α}
    (hf : ∀ (u : State) x, s.CoolsOn u → s.CoolsOn (f u x)) : s.CoolsOn (l.foldl f t) := by
  induction l generalizing t with
  | nil => exact h
  | cons x xs ih => exact ih (hf t x h)

end State.CoolsOn

theorem giveOutcome_coolsOn (o : JobOutcome) (s : State) (k : SlotIx) : s.CoolsOn (giveOutcome o s k) := by
  unfold giveOutcome
  split
  · next h =>
    refine .of_modJob s k fun j e x => ?_
    simp [State.reachable, State.jobIs, e, x, JobState.beforeCooling] at h
  · exact .refl s

theorem abortPath_coolsOn (k : SlotIx) (s : State) : s.CoolsOn (abortPath k s) := by
  by_cases hc : ∃ j, s.job k = some j ∧ j.state = .cooling
  · obtain ⟨j, e, x⟩ := hc
    have : abortPath k s = s := by
      unfold abortPath
      rw [e]
      dsimp only
      rw [x]
    rw [this]
    exact .refl s
  · push Not at hc
    unfold abortPath
    split
    · exact .refl s
    · next j e =>
      have h' : s.CoolsOn (s.releasePower j.reservation) := .of_fields
      -- an operation of the bank leaves a job that is not in COOLING out of it
      have cold : ∀ (t : State) (c : Conv), (s.releasePower j.reservation).BankAt c t →
          ∀ i, t.job k = some i → i.state ≠ .cooling := by
        intro t c b i hi
        rcases b.job (show (s.releasePower j.reservation).job k = some j from e) with y | y
        all_goals
          rw [y] at hi
          cases hi
          exact hc j e
      have cools : ∀ (t : State), (∀ i, t.job k = some i → i.state ≠ .cooling) → t.CoolsOn (enterCooling k t) := by
        intro t ht
        have m : ∀ p g c n, t.CoolsOn (t.modJob k fun j => j.cooling p g c n) := fun p g c n =>
          .of_modJob t k fun i hi x => absurd x (ht i hi)
        unfold enterCooling
        split
        · exact .refl t
        · next i hi =>
          dsimp only
          split
          · intro q w hw hx
            by_cases hq : q = k
            · subst hq
              exact absurd hx (ht w hw)
            · have hw' : ∀ p g c n, (t.modJob k fun j => j.cooling p g c n).job q = some w := by
                intro p g c n
                rw [job_modJob, if_neg (Ne.symm hq), hw]
              exact ⟨w.converter, endJob_keeps (State.KeepsJobs.refl (l := [k]) _) (.inl (by simp)) q w
                (by simpa using hq) (hw' _ _ _ _) (by simp [hx])⟩
          · exact m _ _ _ _
      split
      · exact .of_endJob fun i hi => hc i hi
      · exact .of_endJob fun i hi => hc i hi
      · split
        · next c _ =>
          have b := withdrawConnection_bank (c := c) (.refl (s.releasePower j.reservation))
          exact h'.trans ((State.CoolsOn.of_bank b).trans (.of_endJob (cold _ c b)))
        · exact h'.trans (.of_endJob fun i hi => hc i hi)
      iterate 3
        split
        · next c _ =>
          have b := enterDischarge_bank (c := c) (.refl (s.releasePower j.reservation))
          exact h'.trans ((State.CoolsOn.of_bank b).trans (cools _ (cold _ c b)))
        · exact h'.trans (cools _ fun i hi => hc i hi)
      exact .refl s

/-! ## Outcomes that a pass gives -/

theorem reachable_iff {s : State} {k : SlotIx} :
    s.reachable k = true ↔ ∃ j, s.job k = some j ∧ j.outcome = none ∧ j.state ≠ .cooling := by
  unfold State.reachable State.jobIs
  cases s.job k with
  | none => simp
  | some j =>
    simp only [Option.any_some, Option.some.injEq, exists_eq_left', Bool.and_eq_true, Option.isNone_iff_eq_none]
    refine and_congr_right fun _ => ?_
    cases j.state <;> simp [JobState.beforeCooling]

/-- What the giving of an outcome does to the record of a job that can be reached. -/
def Job.given (j : Job) (o : JobOutcome) : Job := { j with outcome := some o }

theorem giveOutcome_slot (o : JobOutcome) (s : State) (m k : SlotIx) :
    (giveOutcome o s m).slot k =
      if m = k ∧ s.reachable k = true then { s.slot k with job := (s.job k).map (·.given o) } else s.slot k := by
  unfold giveOutcome
  by_cases e : m = k
  · subst e
    by_cases r : s.reachable m = true
    · rw [if_pos r, if_pos ⟨rfl, r⟩, State.setOutcome, slot_modJob, if_pos rfl]
      obtain ⟨j, h, h', _⟩ := reachable_iff.mp r
      simp [h, h', Job.given]
    · rw [if_neg r, if_neg (fun x => r x.2)]
  · rw [if_neg (c := m = k ∧ _) (fun x => e x.1)]
    split
    · rw [State.setOutcome, slot_modJob, if_neg e]
    · rfl

/-- A pass gives its outcome to the jobs of its list that can be reached, and changes no other slot. -/
theorem giveAll_slot (o : JobOutcome) (l : List SlotIx) (s : State) (k : SlotIx) :
    (l.foldl (giveOutcome o) s).slot k =
      if k ∈ l ∧ s.reachable k = true then { s.slot k with job := (s.job k).map (·.given o) } else s.slot k := by
  induction l generalizing s with
  | nil => simp
  | cons x l ih =>
    rw [List.foldl_cons, ih]
    have hs := giveOutcome_slot o s x k
    by_cases r : s.reachable k = true
    · obtain ⟨j, h, h', h''⟩ := reachable_iff.mp r
      by_cases e : x = k
      · subst e
        rw [if_pos ⟨rfl, r⟩] at hs
        have nr : ¬ (giveOutcome o s x).reachable x = true := by
          rw [reachable_iff]
          rintro ⟨i, a, b, _⟩
          unfold State.job at a
          rw [hs, h] at a
          cases a
          cases b
        rw [if_neg (fun y => nr y.2), if_pos ⟨List.mem_cons_self .., r⟩, hs]
      · rw [if_neg (fun y => e y.1)] at hs
        have r' : (giveOutcome o s x).reachable k = true := by
          rw [reachable_iff]
          exact ⟨j, by unfold State.job at h ⊢; rw [hs]; exact h, h', h''⟩
        simp only [r', and_true, r, List.mem_cons, Ne.symm e, false_or, State.job, hs]
    · have hs' : (giveOutcome o s x).slot k = s.slot k := by rw [hs, if_neg (fun y => r y.2)]
      have nr : ¬ (giveOutcome o s x).reachable k = true := by
        rw [reachable_iff]
        rintro ⟨i, a, b, c⟩
        exact r (reachable_iff.mpr ⟨i, by unfold State.job at a ⊢; rw [← hs']; exact a, b, c⟩)
      rw [if_neg (fun y => nr y.2), if_neg (fun y => r y.2), hs']

/-- The gangs of two states are the same where every job has the same gang. -/
theorem membersOf_congr {s t : State} (h : ∀ k, (t.job k).bind (·.gang) = (s.job k).bind (·.gang)) (k : SlotIx) :
    t.membersOf k = s.membersOf k := by
  unfold State.membersOf
  rw [h k]
  split
  · rfl
  · congr 1
    funext m
    rw [h m]

theorem giveAll_members (o : JobOutcome) (l : List SlotIx) (s : State) (k : SlotIx) :
    (l.foldl (giveOutcome o) s).membersOf k = s.membersOf k := by
  refine membersOf_congr (fun m => ?_) k
  unfold State.job
  rw [giveAll_slot]
  split
  · show ((s.job m).map (·.given o)).bind (·.gang) = _
    unfold State.job
    cases (s.slot m).job <;> rfl
  · rfl

/-- The gang pass of R151 is one pass over the members of every gang that was hit. -/
theorem gangPass (o : JobOutcome) (l : List SlotIx) {s u : State} (h : ∀ k, u.membersOf k = s.membersOf k) :
    l.foldl (fun s k => (s.membersOf k).foldl (giveOutcome o) s) u =
      (l.flatMap s.membersOf).foldl (giveOutcome o) u := by
  induction l generalizing u with
  | nil => rfl
  | cons x l ih =>
    rw [List.foldl_cons, List.flatMap_cons, List.foldl_append, h x]
    exact ih fun k => by rw [giveAll_members, h]

/-! ## Jobs that a cause stops -/

/-- A job whose outcome is set, and that is left ended or in COOLING, is stopped with that outcome. -/
theorem State.Accounted.stopped {s u t : State} {k : SlotIx} {j i : Job} {o : JobOutcome} (h : u.Accounted t)
    (e : u.slot k = ⟨(s.slot k).gen, some i⟩) (hs : i.station = j.station) (ho : i.outcome = some o)
    (hp : i.state.endsAtOnce = j.state.endsAtOnce) (c : t.Cold k) : s.Stopped t k j o := by
  have ui : u.job k = some i := by unfold State.job; rw [e]
  have gen : (u.slot k).gen = (s.slot k).gen := by rw [e]
  rcases h.jobs k i ui with ⟨x, a, _, b, d⟩ | ⟨a, r, b, d, f, g⟩
  · have tx : t.job k = some x := by unfold State.job; rw [a]
    have cx := c x tx
    refine .inr ⟨?_, x, tx, cx, (b (by rw [ho]; rfl)).trans ho⟩
    rw [← hp, ← d, cx]
    rfl
  · refine .inl ⟨a, r, by rw [← hs]; exact b, by rw [d]; unfold State.handleOf; rw [gen],
      (f (by rw [ho]; rfl)).trans ho, fun y => g (by rw [hp]; exact y)⟩

/-- A job that was given its outcome and then met a series of abort paths, its own among them, is stopped. -/
theorem stopped_of_given {s u t : State} {k : SlotIx} {j : Job} {o : JobOutcome} (h : s.job k = some j)
    (e : u.slot k = { s.slot k with job := (s.job k).map (·.given o) }) (ha : u.Accounted t) (c : t.Cold k) :
    s.Stopped t k j o :=
  ha.stopped (i := j.given o) (by rw [e, h]; rfl) rfl rfl rfl c

/-- A fold of steps of which each leaves what is cold cold leaves cold what one of them makes cold. -/
theorem foldl_cold {f : State → SlotIx → State} {k : SlotIx} (on : ∀ (u : State) x, u.Onward (f u x))
    (hk : ∀ u : State, (f u k).Cold k) {l : List SlotIx} (h : k ∈ l) (s : State) : (l.foldl f s).Cold k := by
  induction l generalizing s with
  | nil => cases h
  | cons x l ih =>
    by_cases e : k ∈ l
    · exact ih e _
    · have : k = x := by simpa [e] using h
      subst this
      have h' : (f s k).Onward (l.foldl f (f s k)) := (State.Onward.refl _).folds fun u y hu => hu.trans (on u y)
      exact h'.cold (hk s)

/-- One step of the third pass of R151. -/
def abortGiven (s : State) (k : SlotIx) : State :=
  if s.jobIs k (fun j => j.outcome.isSome && j.state.beforeCooling) then abortPath k s else s

theorem abortGiven_accounted (s : State) (k : SlotIx) : s.Accounted (abortGiven s k) := by
  unfold abortGiven
  split
  · exact abortPath_accounted (.refl s)
  · exact .refl s

theorem abortGiven_onward (s : State) (k : SlotIx) : s.Onward (abortGiven s k) := by
  unfold abortGiven
  split
  · exact abortPath_onward (.refl s)
  · exact .refl s

theorem abortGiven_coolsOn (s : State) (k : SlotIx) : s.CoolsOn (abortGiven s k) := by
  unfold abortGiven
  split
  · exact abortPath_coolsOn k s
  · exact .refl s

/-- A job with an outcome is cold after the third pass of R151. -/
theorem abortGiven_foldl_cold {l : List SlotIx} {k : SlotIx} (hk : k ∈ l) (s : State)
    (d : ∀ j, s.job k = some j → j.state = .cooling ∨ j.outcome.isSome = true) : (l.foldl abortGiven s).Cold k := by
  induction l generalizing s with
  | nil => cases hk
  | cons x l ih =>
    have step := abortGiven_onward s x
    by_cases h : k ∈ l
    · refine ih h _ fun j hj => ?_
      obtain ⟨i, a, b, c, _⟩ := step k j hj
      rcases d i a with e | e
      · exact .inl (c e)
      · exact .inr (by rw [b e]; exact e)
    · have : k = x := by simpa [h] using hk
      subst this
      have h' : (abortGiven s k).Onward (l.foldl abortGiven (abortGiven s k)) :=
        (State.Onward.refl _).folds fun u y hu => hu.trans (abortGiven_onward u y)
      refine h'.cold ?_
      unfold abortGiven
      split
      · exact abortPath_cold _ _
      · next hn =>
        intro j hj
        rcases d j hj with e | e
        · exact e
        · simp only [State.jobIs, hj, Option.any_some, e, Bool.true_and] at hn
          revert hn
          cases j.state <;> simp [JobState.beforeCooling]

/-- An outside cause reaches the jobs that satisfy its test (R151). -/
theorem reach_reached (o : JobOutcome) (p : Job → Bool) (s : State) :
    s.ReachedBy (reach o p s) o (fun k => s.jobIs k p = true) := by
  have mem : ∀ k j, s.job k = some j → j.outcome = none → j.state ≠ .cooling →
      (k ∈ s.reached p ↔ s.jobIs k p = true) := by
    intro k j a b c
    have r := reachable_iff.mpr ⟨j, a, b, c⟩
    unfold State.reached
    simp [allSlots, r]
  have e : reach o p s =
      allSlots.foldl abortGiven (((s.reached p).flatMap s.membersOf).foldl (giveOutcome .gangAbort)
        ((s.reached p).foldl (giveOutcome o) s)) := by
    rw [← gangPass .gangAbort _ fun k => giveAll_members o _ s k]
    rfl
  have acc : ∀ u : State, u.Accounted (allSlots.foldl abortGiven u) := fun u =>
    (State.Accounted.refl u).folds fun v x hv => hv.trans (abortGiven_accounted v x)
  have stop : ∀ (o' : JobOutcome) (u : State) k j, s.job k = some j →
      u.slot k = { s.slot k with job := (s.job k).map (·.given o') } →
      s.Stopped (allSlots.foldl abortGiven u) k j o' := by
    intro o' u k j h hu
    refine stopped_of_given h hu (acc u) (abortGiven_foldl_cold (List.mem_finRange k) u fun i hi => .inr ?_)
    unfold State.job at hi
    rw [hu, h] at hi
    cases hi
    rfl
  rw [e]
  constructor
  · intro k j hit h ho hc
    have hk := (mem k j h ho hc).mpr hit
    refine stop o _ k j h ?_
    have r := reachable_iff.mpr ⟨j, h, ho, hc⟩
    have s1 : ((s.reached p).foldl (giveOutcome o) s).slot k = { s.slot k with job := (s.job k).map (·.given o) } := by
      rw [giveAll_slot, if_pos ⟨hk, r⟩]
    rw [giveAll_slot, if_neg, s1]
    rintro ⟨_, x⟩
    obtain ⟨i, a, b, _⟩ := reachable_iff.mp x
    unfold State.job at a
    rw [s1, h] at a
    cases a
    cases b
  · intro k j m i hit h ho hc hm hn hi hio hic
    have hk := (mem k j h ho hc).mpr hit
    have hnm : m ∉ s.reached p := fun x => hn ((mem m i hi hio hic).mp x)
    refine stop .gangAbort _ m i hi ?_
    have r := reachable_iff.mpr ⟨i, hi, hio, hic⟩
    have s1 : ((s.reached p).foldl (giveOutcome o) s).slot m = s.slot m := by
      rw [giveAll_slot, if_neg (fun x => hnm x.1)]
    rw [giveAll_slot, if_pos, s1]
    · unfold State.job
      rw [s1]
    · refine ⟨List.mem_flatMap.mpr ⟨k, hk, hm⟩, reachable_iff.mpr ⟨i, ?_, hio, hic⟩⟩
      unfold State.job at hi ⊢
      rw [s1]
      exact hi
  · intro k j h x
    refine (State.CoolsOn.folds (State.CoolsOn.folds (State.CoolsOn.folds (.refl s) ?_) ?_) ?_) k j h x
    · exact fun u y hu => hu.trans (giveOutcome_coolsOn _ u y)
    · exact fun u y hu => hu.trans (giveOutcome_coolsOn _ u y)
    · exact fun u y hu => hu.trans (abortGiven_coolsOn u y)

/-- A cause that arises at one job reaches it and its gang (R154, R158, R159). -/
theorem failJob_reached (o : JobOutcome) (k : SlotIx) (s : State) :
    s.ReachedBy (failJob o k s) o (fun m => m = k) := by
  by_cases r : s.reachable k = true
  · have e : failJob o k s =
        ((s.membersOf k).filter fun m => m != k && s.reachable m).foldl (fun s m => abortPath m s) (abortPath k
          (((s.membersOf k).filter fun m => m != k && s.reachable m).foldl (giveOutcome .gangAbort)
            (giveOutcome o s k))) := by
      unfold failJob giveOutcome
      rw [if_pos r, if_pos r]
    rw [e]
    generalize hl : ((s.membersOf k).filter fun m => m != k && s.reachable m) = l
    have hk : k ∉ l := by rw [← hl]; simp
    have s1 : ∀ m, (giveOutcome o s k).slot m =
        if k = m then { s.slot m with job := (s.job m).map (·.given o) } else s.slot m := by
      intro m
      rw [giveOutcome_slot]
      by_cases x : k = m
      · subst x; rw [if_pos ⟨rfl, r⟩, if_pos rfl]
      · rw [if_neg (fun y => x y.1), if_neg x]
    have acc : ∀ u : State, u.Accounted (l.foldl (fun s m => abortPath m s) (abortPath k u)) := fun u =>
      (abortPath_accounted (.refl u)).folds fun v x hv => abortPath_accounted hv
    constructor
    · rintro _ j rfl h ho hc
      refine stopped_of_given h ?_ (acc _) ?_
      · rw [giveAll_slot, if_neg (fun x => hk x.1), s1, if_pos rfl]
      · exact ((State.Onward.refl _).folds fun u y hu => abortPath_onward hu).cold (abortPath_cold _ _)
    · rintro _ j m i rfl h ho hc hm hn hi hio hic
      have ri := reachable_iff.mpr ⟨i, hi, hio, hic⟩
      have hml : m ∈ l := by rw [← hl]; simp [hm, hn, ri]
      have s1m := s1 m
      rw [if_neg (Ne.symm hn)] at s1m
      refine stopped_of_given hi ?_ (acc _) (foldl_cold (f := fun s m => abortPath m s)
        (fun u x => abortPath_onward (.refl u)) (fun u => abortPath_cold m u) hml _)
      rw [giveAll_slot, if_pos, s1m]
      · unfold State.job
        rw [s1m]
      · refine ⟨hml, reachable_iff.mpr ⟨i, ?_, hio, hic⟩⟩
        unfold State.job at hi ⊢
        rw [s1m]
        exact hi
    · intro m j h x
      refine ((State.CoolsOn.folds (.trans ?_ (abortPath_coolsOn k _)) fun u y hu =>
        hu.trans (abortPath_coolsOn y u))) m j h x
      exact (giveOutcome_coolsOn o s k).folds fun u y hu => hu.trans (giveOutcome_coolsOn _ u y)
  · have e : failJob o k s = s := by unfold failJob; rw [if_neg r]
    rw [e]
    exact ⟨fun m j x h ho hc => absurd (reachable_iff.mpr ⟨j, x ▸ h, ho, hc⟩) r,
      fun m j _ _ x h ho hc => absurd (reachable_iff.mpr ⟨j, x ▸ h, ho, hc⟩) r, State.CoolsOn.refl s⟩

/-- What a cause reads of a job is the same in two records: station, outcome, place, gang; and a job in COOLING is the
same but for its converter field. -/
def Job.Alike (j i : Job) : Prop :=
  i.station = j.station ∧ i.outcome = j.outcome ∧ i.state = j.state ∧ i.gang = j.gang ∧
    (j.state = .cooling → ∃ c, i = { j with converter := c })

/-- What came before the cause in the same event changed nothing of a job that the cause reads. -/
theorem State.ReachedBy.pre {s u t : State} {o : JobOutcome} {hit : SlotIx → Prop} (h : u.ReachedBy t o hit)
    (gen : ∀ k, (u.slot k).gen = (s.slot k).gen)
    (ex : ∀ k, match s.job k with
      | some j => ∃ i, u.job k = some i ∧ j.Alike i
      | none => u.job k = none) :
    s.ReachedBy t o hit := by
  have get : ∀ {k j}, s.job k = some j → ∃ i, u.job k = some i ∧ j.Alike i := by
    intro k j e
    have := ex k
    rw [e] at this
    exact this
  have mem : ∀ k, u.membersOf k = s.membersOf k := membersOf_congr fun k => by
    have := ex k
    cases e : s.job k with
    | none => rw [e] at this; rw [this]
    | some j =>
      rw [e] at this
      obtain ⟨i, a, b⟩ := this
      rw [a]
      exact b.2.2.2.1
  have st : ∀ k j i o', j.Alike i → u.Stopped t k i o' → s.Stopped t k j o' := by
    intro k j i o' a x
    unfold State.Stopped State.handleOf at *
    rw [gen k, a.1, a.2.2.1] at x
    exact x
  constructor
  · intro k j x hj ho hc
    obtain ⟨i, hu, a⟩ := get hj
    exact st _ _ _ _ a (h.jobs k i x hu (a.2.1.trans ho) (by rw [a.2.2.1]; exact hc))
  · intro k j m i x hj ho hc hm hn hi hio hic
    obtain ⟨j', hu, a⟩ := get hj
    obtain ⟨i', hu', a'⟩ := get hi
    exact st _ _ _ _ a' (h.gangs k j' m i' x hu (a.2.1.trans ho) (by rw [a.2.2.1]; exact hc) (by rw [mem]; exact hm) hn
      hu' (a'.2.1.trans hio) (by rw [a'.2.2.1]; exact hic))
  · intro k j hj x
    obtain ⟨i, hu, a⟩ := get hj
    obtain ⟨c, rfl⟩ := a.2.2.2.2 x
    exact h.cooling k { j with converter := c } hu x

theorem Job.Alike.refl (j : Job) : j.Alike j := ⟨rfl, rfl, rfl, rfl, fun _ => ⟨j.converter, rfl⟩⟩

/-- The bank changed no more of the jobs than a converter field. -/
theorem State.ReachedBy.of_bank {s u t : State} {o : JobOutcome} {hit : SlotIx → Prop} (h : u.ReachedBy t o hit)
    (e : ∀ k, (u.slot k).gen = (s.slot k).gen ∧
      (u.job k = s.job k ∨ u.job k = (s.job k).map fun j => { j with converter := none })) :
    s.ReachedBy t o hit := by
  refine h.pre (fun k => (e k).1) fun k => ?_
  rcases (e k).2 with x | x
  · cases hj : s.job k with
    | none => rw [x, hj]
    | some j => exact ⟨j, by rw [x, hj], .refl j⟩
  · cases hj : s.job k with
    | none => rw [x, hj]; rfl
    | some j => exact ⟨{ j with converter := none }, by rw [x, hj]; rfl, rfl, rfl, rfl, rfl, fun _ => ⟨none, rfl⟩⟩

/-- A posting or a change of a port's or a station's own items touches no job. -/
theorem State.ReachedBy.of_slots {s u t : State} {o : JobOutcome} {hit : SlotIx → Prop} (h : u.ReachedBy t o hit)
    (e : u.slots = s.slots := by rfl) : s.ReachedBy t o hit :=
  h.of_bank fun k => by simp [State.slot, State.job, e]

/-- Measurements of a job before COOLING are nothing that a cause reads. -/
theorem State.ReachedBy.of_measure {s t : State} {o : JobOutcome} {hit : SlotIx → Prop} {k : SlotIx} {f : Job → Job}
    (h : (s.modJob k f).ReachedBy t o hit)
    (hf : ∀ j, s.job k = some j → (f j).station = j.station ∧ (f j).outcome = j.outcome ∧ (f j).state = j.state ∧
      (f j).gang = j.gang ∧ j.state ≠ .cooling) : s.ReachedBy t o hit := by
  refine h.pre (fun m => ?_) fun m => ?_
  · rw [slot_modJob]
    split
    · next e => subst e; rfl
    · rfl
  · rw [job_modJob]
    by_cases e : k = m
    · subst e
      rw [if_pos rfl]
      cases hj : s.job k with
      | none => rfl
      | some j =>
        obtain ⟨a, b, c, d, x⟩ := hf j hj
        exact ⟨f j, rfl, a, b, c, d, fun y => absurd y x⟩
    · rw [if_neg e]
      cases hj : s.job m with
      | none => rfl
      | some j => exact ⟨j, rfl, .refl j⟩

/-- The completion of the event changes nothing of it: an arbitration reaches only jobs in READY. -/
theorem State.Stopped.finish {s t : State} {k : SlotIx} {j : Job} {o : JobOutcome} (h : s.Stopped t k j o) :
    s.Stopped (finish t) k j o := by
  rcases h with ⟨a, r, b, c⟩ | ⟨a, i, b, c, d⟩
  · refine .inl ⟨?_, r, ?_, c⟩
    · unfold State.job
      rw [finish_free a]
      exact a
    · unfold State.station
      rw [finish_only]
      exact b
  · exact .inr ⟨a, i, finish_job_keep b (by simp [c]), c, d⟩

theorem State.ReachedBy.finish {s t : State} {o : JobOutcome} {hit : SlotIx → Prop} (h : s.ReachedBy t o hit) :
    s.ReachedBy (finish t) o hit where
  jobs := fun k j a b c d => (h.jobs k j a b c d).finish
  gangs := fun k j m i a b c d e f g x y => (h.gangs k j m i a b c d e f g x y).finish
  cooling := fun k j a b => by
    obtain ⟨i, e⟩ := h.cooling k j a b
    exact ⟨i, finish_job_keep e (by simp [b])⟩

/-- The slots that a cause hits matter only where there is a job. -/
theorem State.ReachedBy.congr {s t : State} {o : JobOutcome} {hit hit' : SlotIx → Prop} (h : s.ReachedBy t o hit)
    (e : ∀ k j, s.job k = some j → (hit k ↔ hit' k)) : s.ReachedBy t o hit' :=
  ⟨fun k j x y => h.jobs k j ((e k j y).mpr x) y,
    fun k j m i x y a b c d f => h.gangs k j m i ((e k j y).mpr x) y a b c (fun z => d ((e m i f).mp z)) f, h.cooling⟩

/-- An outside cause that acts after work of the bank in the same event reaches the jobs that satisfied its test
before. -/
theorem reach_reached_of {s u : State} (o : JobOutcome) {p : Job → Bool}
    (hp : ∀ j : Job, p { j with converter := none } = p j)
    (e : ∀ k, (u.slot k).gen = (s.slot k).gen ∧
      (u.job k = s.job k ∨ u.job k = (s.job k).map fun j => { j with converter := none })) :
    s.ReachedBy (reach o p u) o fun k => s.jobIs k p = true :=
  ((reach_reached o p u).of_bank e).congr fun k j hj => by
    unfold State.jobIs
    rcases (e k).2 with x | x
    · rw [x]
    · rw [x, hj]
      simp [hp]

/-- Nothing that touches no slot and no station changes it. -/
theorem State.ReachedBy.after {s t u : State} {o : JobOutcome} {hit : SlotIx → Prop} (h : s.ReachedBy t o hit)
    (a : u.slots = t.slots := by rfl) (b : u.stations = t.stations := by rfl) : s.ReachedBy u o hit := by
  have job : ∀ k, u.job k = t.job k := fun k => by simp [State.job, State.slot, a]
  have st : ∀ k j o', s.Stopped t k j o' → s.Stopped u k j o' := by
    intro k j o' x
    unfold State.Stopped State.station at *
    rw [job, b]
    exact x
  exact ⟨fun k j x y z w => st _ _ _ (h.jobs k j x y z w),
    fun k j m i x y z w e f g v c => st _ _ _ (h.gangs k j m i x y z w e f g v c),
    fun k j x y => by rw [job]; exact h.cooling k j x y⟩

/-! ## Queues only grow on the abort paths -/

theorem giveOutcome_grown {s t : State} {o : JobOutcome} {k : SlotIx} (h : s.Grown t) :
    s.Grown (giveOutcome o t k) := by
  unfold giveOutcome
  split
  · exact h.fields
  · exact h

theorem State.Grown.endJob {s t : State} {k : SlotIx} {r : Release} (h : s.Grown t) : s.Grown (endJob k r t) :=
  endJobFuel_grown h

theorem enterCooling_grown {s t : State} {k : SlotIx} (h : s.Grown t) : s.Grown (enterCooling k t) := by
  unfold enterCooling
  split
  · exact h
  · dsimp only
    split
    · exact State.Grown.endJob h.fields
    · exact h.fields

theorem abortPath_grown {s t : State} {k : SlotIx} (h : s.Grown t) : s.Grown (abortPath k t) := by
  unfold abortPath
  split
  · exact h
  · next j _ =>
    have h' : s.Grown (t.releasePower j.reservation) := h.fields
    split
    · exact h.endJob
    · exact h.endJob
    · refine State.Grown.endJob ?_
      split
      · exact h'.trans (withdrawConnection_bank (.refl _)).grown
      · exact h'
    iterate 3
      refine enterCooling_grown ?_
      split
      · exact h'.trans (enterDischarge_bank (.refl _)).grown
      · exact h'
    exact h

theorem reach_grown {s t : State} {o : JobOutcome} {p : Job → Bool} (h : s.Grown t) : s.Grown (reach o p t) := by
  unfold reach
  refine State.Grown.folds (State.Grown.folds (State.Grown.folds h fun u k hu => giveOutcome_grown hu) fun u k hu =>
    State.Grown.folds hu fun v m hv => giveOutcome_grown hv) fun u k hu => ?_
  split
  · exact abortPath_grown hu
  · exact hu

theorem failJob_grown {s t : State} {o : JobOutcome} {k : SlotIx} (h : s.Grown t) : s.Grown (failJob o k t) := by
  unfold failJob
  split
  · exact State.Grown.folds (abortPath_grown (State.Grown.folds h.fields fun u m hu => giveOutcome_grown hu))
      fun u m hu => abortPath_grown hu
  · exact h

theorem finish_grown {s t : State} (h : s.Grown t) : s.Grown (finish t) :=
  h.fields (by rw [finish_only]) (by rw [finish_only]) (by rw [finish_only])

end Sys2Proof.Machine
end

