-- ==== Sys2Proof/Laws/Matrix.lean ====
section
/-! SUPPORT. The connection matrix: when a motion starts, what a disconnect request makes of a relay, and what leaves a
relay alone. -/

namespace Sys2Proof.Machine

open State

/-! ## Motions and disconnect requests -/

/-- Nothing starts without a plan, in a motion, in the reset hold, or with the output on (R36). -/
theorem matrixTry_stays {p : Pool} {s : State}
    (h : (s.relay p).plan = .empty ∨ (s.relay p).motion ≠ .none ∨ s.relayHold ≠ none ∨
      (s.conv (poolConv p)).outputOn = true) : matrixTry p s = s := by
  unfold matrixTry
  rw [if_pos]
  rcases h with x | x | x | x
  · simp [x]
  · simp [x]
  · simp [Option.ne_none_iff_isSome.mp x]
  · simp [x]

/-- A plan starts when the discharge interval is over, and waits for that time otherwise (R36). -/
theorem matrixTry_moves {p : Pool} {s : State} (a : (s.relay p).plan ≠ .empty) (b : (s.relay p).motion = .none)
    (c : s.relayHold = none) (d : (s.conv (poolConv p)).outputOn = false) :
    matrixTry p s = s.setRelay p (if s.relayReadyAt p ≤ s.now then (s.relay p).startMotion s.now
      else { s.relay p with condTimer := some (s.relayReadyAt p) }) := by
  unfold matrixTry
  rw [if_neg (by simp [a, b, c, d])]
  dsimp only
  split <;> rfl

theorem disconnect_eq {c : Conv} {p : Pool} (h : poolOf c = some p) (s : State) :
    disconnect c s = matrixTry p (s.setRelay p (s.relay p).disconnect) := by
  unfold disconnect
  rw [h]
  rfl

/-- What a disconnect request makes of the relay (R37). -/
theorem disconnect_spec {c : Conv} {p : Pool} (h : poolOf c = some p) (s : State) :
    s.Disconnects (disconnect c s) p := by
  rw [disconnect_eq h]
  have key : ∀ r, (s.relay p).disconnect = r →
      ((r.plan = .empty ∨ r.motion ≠ .none ∨ s.relayHold ≠ none ∨ (s.conv (poolConv p)).outputOn = true) →
        (matrixTry p (s.setRelay p (s.relay p).disconnect)).relay p = r) ∧
      (r.plan ≠ .empty → r.motion = .none → s.relayHold = none → (s.conv (poolConv p)).outputOn = false →
        (matrixTry p (s.setRelay p (s.relay p).disconnect)).relay p =
          if s.relayReadyAt p ≤ s.now then r.startMotion s.now
          else { r with condTimer := some (s.relayReadyAt p) }) := by
    rintro _ rfl
    refine ⟨fun x => ?_, fun a b c d => ?_⟩
    · rw [matrixTry_stays (by rw [relay_setRelay_self]; exact x), relay_setRelay_self]
    · rw [matrixTry_moves (s := s.setRelay p (s.relay p).disconnect) (by rw [relay_setRelay_self]; exact a)
        (by rw [relay_setRelay_self]; exact b) c d, relay_setRelay_self, relay_setRelay_self]
      rfl
  constructor
  · intro a b
    exact (key { s.relay p with plan := .empty, condTimer := none }
      (by simp only [Relay.disconnect, a, b])).1 (.inl rfl)
  · intro g e a
    exact (key { s.relay p with plan := .empty, openingDue := true } (by simp only [Relay.disconnect, a])).1 (.inl rfl)
  · intro g e a
    exact (key { s.relay p with plan := .open, openingDue := true } (by simp only [Relay.disconnect, a])).1
      (.inr (.inl (by simp [a])))
  · intro g a b
    rw [(key { s.relay p with plan := .open, openingDue := true } (by simp only [Relay.disconnect, a, b.rest])).2
      (by simp) b.rest b.hold b.off, if_pos b.waited]
    simp [Relay.startMotion, a, Config.relayOpenMs]
  · intro g a b h1 h2 h3
    rw [(key { s.relay p with plan := .open, openingDue := true } (by simp only [Relay.disconnect, a, b])).2
      (by simp) b h1 h2, if_neg (Nat.not_le.mpr h3)]
  · intro g a b h1
    exact ⟨(s.relay p).condTimer, (key { s.relay p with plan := .open, openingDue := true }
      (by simp only [Relay.disconnect, a, b])).1 (.inr (.inr h1))⟩

/-! ## An operation at one converter leaves the relay of the other -/

/-- A disconnect request moves only the relay of its converter. -/
theorem disconnect_relay_ne {c : Conv} {q : Pool} (h : poolOf c ≠ some q) (s : State) :
    (disconnect c s).relay q = s.relay q := by
  unfold disconnect
  split
  · rfl
  · next p e =>
    have : p ≠ q := fun x => h (x ▸ e)
    rw [matrixTry_relay_ne this, relay_modRelay_ne _ this]

theorem enterOff_relay (c : Conv) (s : State) (q : Pool) :
    (enterOff c s).relay q = (disconnect c (s.modConv c fun v =>
      { v with state := .off, pend := .none, warmTimer := none })).relay q := by
  unfold enterOff
  dsimp only
  split <;> rfl

theorem enterFaulted_relay_ne {c : Conv} {q : Pool} (h : poolOf c ≠ some q) (s : State) :
    (enterFaulted c s).relay q = s.relay q := by
  unfold enterFaulted
  rw [disconnect_relay_ne h]
  rfl

theorem enterHeld_relay_ne {c : Conv} {q : Pool} (h : poolOf c ≠ some q) (s : State) :
    (enterHeld c s).relay q = s.relay q := by
  unfold enterHeld
  rw [disconnect_relay_ne h]
  rfl

theorem enterOff_relay_ne {c : Conv} {q : Pool} (h : poolOf c ≠ some q) (s : State) :
    (enterOff c s).relay q = s.relay q := by
  rw [enterOff_relay, disconnect_relay_ne h]; rfl

theorem enterIdle_relay (c : Conv) (q : Pool) (s : State) :
    (enterIdle c s).relay q = s.relay q := by
  unfold enterIdle
  dsimp only
  split <;> rfl

theorem resolveConv_relay_ne {c : Conv} {q : Pool} (h : poolOf c ≠ some q) (s : State) :
    (resolveConv c s).relay q = s.relay q := by
  unfold resolveConv
  split
  · exact enterFaulted_relay_ne h s
  · split
    · exact enterIdle_relay c q s
    · exact enterOff_relay_ne h s
  · exact enterHeld_relay_ne h s
  · exact enterIdle_relay c q s

theorem clearServed_relay (c : Conv) (q : Pool) (s : State) :
    (clearServed c s).relay q = s.relay q := by
  unfold clearServed
  dsimp only
  split <;> rfl

theorem withdrawConnection_relay_ne {c : Conv} {q : Pool} (h : poolOf c ≠ some q) (s : State) :
    (withdrawConnection c s).relay q = s.relay q := by
  have key : ∀ u : State, (connectionCheck c u).relay q = u.relay q := by
    intro u
    unfold connectionCheck
    split
    · exact resolveConv_relay_ne h u
    · rfl
  unfold withdrawConnection
  dsimp only
  split
  · rw [key, clearServed_relay]
  · next p e =>
    have : p ≠ q := fun x => h (x ▸ e)
    rw [key, relay_modRelay_ne _ this, clearServed_relay]

theorem standbyConv_relay_ne {c : Conv} {q : Pool} (h : poolOf c ≠ some q) (s : State) :
    (standbyConv c s).relay q = s.relay q := by
  unfold standbyConv
  split
  · rfl
  · rfl
  · rfl
  · rfl
  · exact enterOff_relay_ne h s
  · exact enterOff_relay_ne h s
  · split
    · rw [withdrawConnection_relay_ne h]; rfl
    · rfl
  all_goals
    unfold enterDischarge
    show (clearServed c (pendOff c s)).relay q = _
    rw [clearServed_relay]; rfl

/-- A disconnect request reads of the state the relay, the time and the output of its converter. -/
theorem State.Disconnects.congr {s u t : State} {p : Pool} (h : u.Disconnects t p) (r : u.relay p = s.relay p)
    (n : u.now = s.now) (hh : u.relayHold = s.relayHold)
    (c : (u.conv (poolConv p)).outputOn = (s.conv (poolConv p)).outputOn ∧
      (u.conv (poolConv p)).lastOffAt = (s.conv (poolConv p)).lastOffAt ∧
      (u.conv (poolConv p)).interval = (s.conv (poolConv p)).interval) :
    s.Disconnects t p := by
  have ra : u.relayReadyAt p = s.relayReadyAt p := by simp only [State.relayReadyAt, c]
  constructor
  · rw [← r]; exact h.opened
  · rw [← r]; exact h.opening
  · rw [← r]; exact h.closing
  · intro g a b
    rw [← r] at a ⊢
    rw [← n]
    exact h.moves g a ⟨by rw [hh]; exact b.hold, by rw [r]; exact b.rest, by rw [c.1]; exact b.off,
      by rw [ra, n]; exact b.waited⟩
  · rw [← r, ← n, ← hh, ← ra, ← c.1]; exact h.waits
  · rw [← r, ← hh, ← c.1]; exact h.stays

end Sys2Proof.Machine
end

