-- ==== Sys2Proof/WellFormed.lean ====
section
/-! DEFINITION. The operands that a command can carry: a payload fits a frame (R165, R202), an unknown
kind is unknown (R168), a reading lies in the range of its sensor (R108, R131). -/

namespace Sys2Proof

/-- A payload holds 0-250 bytes (R165). -/
def payloadFits (b : List Byte) : Bool := decide (b.length ≤ 250)

/-- A pyrometer temperature is 250-1250 °C (R108). -/
def PyroReading.wf : PyroReading → Bool
  | .temp t => decide (250 ≤ t ∧ t ≤ 1250)
  | .under | .over | .noSignal => true

/-- A guard temperature is 0-600 °C (R131). -/
def GuardReading.wf : GuardReading → Bool
  | .temp t => decide (t ≤ 600)
  | .over | .noSignal => true

/-- The command's operands are ones its row can carry. -/
def Instr.wf : Instr → Bool
  | .submit _ b | .submitGang _ b | .go _ b | .cancel _ b | .readJob _ b | .takeNotices _ b
  | .takeResults _ b | .readInputs _ b | .renew _ b | .stationStatus _ b | .setMode _ b
  | .setBudget _ b | .writeSegments _ b | .writeProfile _ b | .clearProfile _ b | .writeHead _ b
  | .forgetLearned _ b | .readTable _ b | .converterEnable _ b | .converterHold _ b
  | .converterRelease _ b | .converterClear _ b | .setDischarge _ b | .setLease _ b
  | .setGuardDwell _ b | .abortStation _ b | .lineReset _ b | .lineStatus _ b => payloadFits b
  | .unknownRequestKind _ k b => payloadFits b && (ReqKind.ofByte k).isNone
  | .pyrometerSample _ r _ => r.wf
  | .guardConversionComplete r => r.wf
  | .frameReceived .. | .receiveGapTimeout .. | .replyComplete .. | .byteArrival ..
  | .interlockChange .. | .indexEdge | .estopAssertion | .estopRelease | .powerOn | .pinReset
  | .lineClockMillisecond | .relayHoldEnd | .converterFaultEvent .. | .warmupEnd ..
  | .dischargeEnd .. | .relayOpeningComplete .. | .relayClosingComplete .. | .relayConditionTimer ..
  | .settleExpiry .. | .segmentDurationExpiry .. | .segmentLimitExpiry .. | .waitLimitExpiry ..
  | .leaseExpiry .. | .coolDwellExpiry .. | .coolingLimitExpiry .. => true

end Sys2Proof
end

