-- ==== Sys2Proof/Laws/PerInstr.lean ====
section
/-! SUPPORT. A request command and the frame it stands for: the kind byte and payload of a command that its row
can carry spell that command and no other (R168, R204). One lemma for each command. -/

namespace Sys2Proof.Laws.RequestFrame

/-- The frame of a command, where it has one, spells the command back. -/
def Statement (i : Instr) : Prop :=
  i.wf = true → ∀ p k b, frameOf i = some (p, k, b) → instrOfFrame p k b = i

/-- A command without a frame spells nothing. -/
theorem of_noFrame {i : Instr} (h : frameOf i = none) : Statement i := by
  intro _ p k b e
  rw [h] at e
  cases e

/-- A request command whose frame spells it back. -/
theorem of_frame {i : Instr} {p : Port} {k : Byte} {b : List Byte} (h : frameOf i = some (p, k, b))
    (e : instrOfFrame p k b = i) : Statement i := by
  intro _ p' k' b' e'
  rw [h] at e'
  obtain ⟨rfl, rfl, rfl⟩ : p = p' ∧ k = k' ∧ b = b' := by simpa using e'
  exact e

theorem submit (port : Port) (payload : List Byte) : Statement (.submit port payload) := of_frame rfl rfl

theorem submitGang (port : Port) (payload : List Byte) : Statement (.submitGang port payload) :=
  of_frame rfl rfl

theorem go (port : Port) (payload : List Byte) : Statement (.go port payload) := of_frame rfl rfl

theorem cancel (port : Port) (payload : List Byte) : Statement (.cancel port payload) := of_frame rfl rfl

theorem readJob (port : Port) (payload : List Byte) : Statement (.readJob port payload) := of_frame rfl rfl

theorem takeNotices (port : Port) (payload : List Byte) : Statement (.takeNotices port payload) :=
  of_frame rfl rfl

theorem takeResults (port : Port) (payload : List Byte) : Statement (.takeResults port payload) :=
  of_frame rfl rfl

theorem readInputs (port : Port) (payload : List Byte) : Statement (.readInputs port payload) :=
  of_frame rfl rfl

theorem renew (port : Port) (payload : List Byte) : Statement (.renew port payload) := of_frame rfl rfl

theorem stationStatus (port : Port) (payload : List Byte) : Statement (.stationStatus port payload) :=
  of_frame rfl rfl

theorem setMode (port : Port) (payload : List Byte) : Statement (.setMode port payload) := of_frame rfl rfl

theorem setBudget (port : Port) (payload : List Byte) : Statement (.setBudget port payload) :=
  of_frame rfl rfl

theorem writeSegments (port : Port) (payload : List Byte) : Statement (.writeSegments port payload) :=
  of_frame rfl rfl

theorem writeProfile (port : Port) (payload : List Byte) : Statement (.writeProfile port payload) :=
  of_frame rfl rfl

theorem clearProfile (port : Port) (payload : List Byte) : Statement (.clearProfile port payload) :=
  of_frame rfl rfl

theorem writeHead (port : Port) (payload : List Byte) : Statement (.writeHead port payload) :=
  of_frame rfl rfl

theorem forgetLearned (port : Port) (payload : List Byte) : Statement (.forgetLearned port payload) :=
  of_frame rfl rfl

theorem readTable (port : Port) (payload : List Byte) : Statement (.readTable port payload) :=
  of_frame rfl rfl

theorem converterEnable (port : Port) (payload : List Byte) : Statement (.converterEnable port payload) :=
  of_frame rfl rfl

theorem converterHold (port : Port) (payload : List Byte) : Statement (.converterHold port payload) :=
  of_frame rfl rfl

theorem converterRelease (port : Port) (payload : List Byte) : Statement (.converterRelease port payload) :=
  of_frame rfl rfl

theorem converterClear (port : Port) (payload : List Byte) : Statement (.converterClear port payload) :=
  of_frame rfl rfl

theorem setDischarge (port : Port) (payload : List Byte) : Statement (.setDischarge port payload) :=
  of_frame rfl rfl

theorem setLease (port : Port) (payload : List Byte) : Statement (.setLease port payload) := of_frame rfl rfl

theorem setGuardDwell (port : Port) (payload : List Byte) : Statement (.setGuardDwell port payload) :=
  of_frame rfl rfl

theorem abortStation (port : Port) (payload : List Byte) : Statement (.abortStation port payload) :=
  of_frame rfl rfl

theorem lineReset (port : Port) (payload : List Byte) : Statement (.lineReset port payload) :=
  of_frame rfl rfl

theorem lineStatus (port : Port) (payload : List Byte) : Statement (.lineStatus port payload) :=
  of_frame rfl rfl

theorem unknownRequestKind (port : Port) (kind : Byte) (payload : List Byte) :
    Statement (.unknownRequestKind port kind payload) := by
  intro h p k b e
  obtain ⟨rfl, rfl, rfl⟩ : port = p ∧ kind = k ∧ payload = b := by simpa [frameOf] using e
  have h : ReqKind.ofByte kind = none := by simpa [Instr.wf] using (Bool.and_eq_true_iff.mp h).2
  simp [instrOfFrame, h]

theorem frameReceived (port : Port) (secondCrc : Byte) : Statement (.frameReceived port secondCrc) :=
  of_noFrame rfl

theorem receiveGapTimeout (port : Port) : Statement (.receiveGapTimeout port) := of_noFrame rfl

theorem replyComplete (port : Port) : Statement (.replyComplete port) := of_noFrame rfl

theorem byteArrival (port : Port) (byte : Byte) : Statement (.byteArrival port byte) := of_noFrame rfl

theorem interlockChange (station : Station) (input : Interlock) (level : Bool) :
    Statement (.interlockChange station input level) :=
  of_noFrame rfl

theorem indexEdge : Statement .indexEdge := of_noFrame rfl

theorem estopAssertion : Statement .estopAssertion := of_noFrame rfl

theorem estopRelease : Statement .estopRelease := of_noFrame rfl

theorem powerOn : Statement .powerOn := of_noFrame rfl

theorem pinReset : Statement .pinReset := of_noFrame rfl

theorem lineClockMillisecond : Statement .lineClockMillisecond := of_noFrame rfl

theorem relayHoldEnd : Statement .relayHoldEnd := of_noFrame rfl

theorem converterFaultEvent (conv : Conv) (cond : FaultCond) (level : Bool) :
    Statement (.converterFaultEvent conv cond level) :=
  of_noFrame rfl

theorem warmupEnd (conv : Conv) : Statement (.warmupEnd conv) := of_noFrame rfl

theorem dischargeEnd (conv : Conv) : Statement (.dischargeEnd conv) := of_noFrame rfl

theorem relayOpeningComplete (pool : Pool) : Statement (.relayOpeningComplete pool) := of_noFrame rfl

theorem relayClosingComplete (pool : Pool) : Statement (.relayClosingComplete pool) := of_noFrame rfl

theorem relayConditionTimer (pool : Pool) : Statement (.relayConditionTimer pool) := of_noFrame rfl

theorem settleExpiry (conv : Conv) (report : PhaseReport) : Statement (.settleExpiry conv report) :=
  of_noFrame rfl

theorem pyrometerSample (conv : Conv) (reading : PyroReading) (flow : Bool) :
    Statement (.pyrometerSample conv reading flow) :=
  of_noFrame rfl

theorem segmentDurationExpiry (conv : Conv) : Statement (.segmentDurationExpiry conv) := of_noFrame rfl

theorem segmentLimitExpiry (conv : Conv) : Statement (.segmentLimitExpiry conv) := of_noFrame rfl

theorem guardConversionComplete (reading : GuardReading) : Statement (.guardConversionComplete reading) :=
  of_noFrame rfl

theorem waitLimitExpiry (slot : SlotIx) : Statement (.waitLimitExpiry slot) := of_noFrame rfl

theorem leaseExpiry (station : Station) : Statement (.leaseExpiry station) := of_noFrame rfl

theorem coolDwellExpiry (slot : SlotIx) : Statement (.coolDwellExpiry slot) := of_noFrame rfl

theorem coolingLimitExpiry (slot : SlotIx) : Statement (.coolingLimitExpiry slot) := of_noFrame rfl

end Sys2Proof.Laws.RequestFrame
end

