-- ==== Sys2Proof/Tests/Slice0.lean ====
section
/-! SUPPORT. The model's own tests: ill-formed operands that the check refuses, the CRC's known value, a state and
operands for the hypotheses of every statement of Certificates/Slice0/Obligations.lean, and a few steps. -/

namespace Sys2Proof.Tests

open Sys2Proof.Machine

set_option Elab.async false

/-! ## Well-formed operands -/

theorem test_wf_payload_refused : (Instr.submit (.sp 0) (List.replicate 251 0)).wf = false := by decide +kernel
theorem test_wf_payload_full : (Instr.submit (.sp 0) (List.replicate 250 0)).wf = true := by decide +kernel
theorem test_wf_known_kind_refused : (Instr.unknownRequestKind .svp 0x51 []).wf = false := by decide
theorem test_wf_unknown_payload_refused :
    (Instr.unknownRequestKind .svp 0x52 (List.replicate 251 0)).wf = false := by decide +kernel
theorem test_wf_pyrometer_refused :
    (Instr.pyrometerSample 0 (.temp 249) false).wf = false ∧
    (Instr.pyrometerSample 0 (.temp 1251) false).wf = false := by decide
theorem test_wf_guard_refused : (Instr.guardConversionComplete (.temp 601)).wf = false := by decide
theorem test_wf_events : (Instr.pyrometerSample 5 (.temp 250) true).wf = true ∧
    (Instr.guardConversionComplete (.temp 600)).wf = true ∧ (Instr.unknownRequestKind .svp 0x52 []).wf = true := by
  decide

/-- The CRC of the nine ASCII digits 1 to 9 (R202). -/
theorem test_crc : crc16 [0x31, 0x32, 0x33, 0x34, 0x35, 0x36, 0x37, 0x38, 0x39] = 0x29B1 := by
  decide +kernel

/-- No row of the opcode table gives bits. -/
theorem test_no_word : decodeTableWord 8 0 = none := rfl

/-! ## States for the witnesses -/

/-- A POWER segment of 100 W for 5 ms. -/
def seg0 : Segment := ⟨.power, 0, 0, 100, 0, 5, 0⟩

/-- A profile whose head run is segments 0 and 1. -/
def prof0 : Profile :=
  { headStart := 0, headCount := 2, tailStart := 0, tailCount := 0, flowTemp := 600, minAbove := 1,
    ceiling := 700, guardLimit := 100, releaseTemp := 50, coolLimit := 10, coolDwell := 20, valid := true }

/-- A head of station S0. -/
def head0 : HeadRec := ⟨some 0, 300, 100000, 50000, 200000, 500, 5, 10, true, false, none⟩

/-- The line in RUN with budget, segments, a profile and the heads H0 and H4, and every interlock high. -/
def stage : State :=
  { State.reset with
    mode := .run, budget := 500, segs := (State.reset.segs.set 0 seg0).set 1 ⟨.coast, 0, 0, 0, 0, 7, 0⟩,
    profs := State.reset.profs.set 0 prof0, heads := (State.reset.heads.set 0 head0).set 4 head0,
    stations := Vector.replicate 4 (.reset ⟨true, true, true⟩) }

/-- A job of S0 on H0 with profile 0. -/
def job0 (x : JobState) : Job :=
  { station := 0, ref := 7, head := 0, profile := 0, trigger := .go 1, urgency := 1, waitLimit := 0,
    gang := none, state := x, reservation := 100, converter := if x.running then some 0 else none,
    run := .head, index := 0, segEntry := none, noSig := 0, guardNoSig := 0, admittedAt := 0, readyAt := none,
    heatingAt := none, heatEnd := none, peak := 0, above := 0, energy := 0, locked := 0, guardPeak := 0,
    outcome := none, release := .none, coolLimitTimer := none, coolDwellTimer := none }

/-- A state with one job in slot 0. -/
def State.withJob (s : State) (j : Job) : State :=
  { s.setSlot 0 ⟨0, some j⟩ with
    admitted := s.admitted.set 0 1, profUse := s.profUse.set 0 1, segUse := (s.segUse.set 0 1).set 1 1 }

/-- The stage with a job in slot 0, and converter C0 in a state. -/
def scene (x : ConvState) (y : JobState) : State :=
  { (State.withJob stage (job0 y)).setConv 0 { stage.conv 0 with
      state := x, enabled := true, served := if y.running then some ⟨0, 0⟩ else none } with
    committed := if y.running then 100 else 0, now := 1000 }

/-- C0 heats the job of slot 0 in segment 0. -/
def heating : State :=
  (scene .heating .heating).setConv 0 { (scene .heating .heating).conv 0 with
    outputOn := true, command := 100, msCommand := 100, eng := ⟨.run, some ⟨0, seg0⟩, .duration 1000, 100, false⟩,
    tun := ⟨.track, 0, 0, some 1000⟩, drive := 100000, nextSample := some 1000 }

/-- C0 seeks for the job of slot 0. -/
def seeking : State :=
  (scene .seeking .seeking).setConv 0 { (scene .seeking .seeking).conv 0 with
    outputOn := true, command := 10, msCommand := 10, eng := ⟨.watch, none, .stopped, 0, false⟩,
    tun := ⟨.seek, 3, 2, some 1000⟩, drive := 100000, nextSample := some 1000 }

theorem stage_settled : stage.Settled := ⟨rfl, fun _ => ⟨rfl, rfl⟩⟩
theorem scene_settled (x : ConvState) (y : JobState) : (scene x y).Settled := ⟨rfl, fun _ => ⟨rfl, rfl⟩⟩
theorem heating_settled : heating.Settled := ⟨rfl, fun _ => ⟨rfl, rfl⟩⟩
theorem seeking_settled : seeking.Settled := ⟨rfl, fun _ => ⟨rfl, rfl⟩⟩

/-! ## Hypotheses that are met: queue, resets, ports -/

theorem test_witness_StepRunsFront : stage.pending = [] := rfl

theorem test_witness_StepsSettle : stage.Settled := stage_settled

/-- The relays of a pin reset: C4's is closed. -/
def held : State :=
  { stage.setRelay 0 { stage.relay 0 with pos := .closed 4 } with relayHold := some 500, now := 500 }

theorem test_witness_PowerOnAndPinReset : held.relayHold = some 500 ∧ 500 ≤ held.now ∧
    (held.relay 0).pos = .closed 4 ∧ (held.relay 0).motion = .none ∧
    (held.conv (poolConv 0)).outputOn = false ∧
    (held.conv (poolConv 0)).lastOffAt + (held.conv (poolConv 0)).interval ≤ held.now := by decide +kernel

theorem test_witness_LineResetFrees : heating.free .svp := by decide +kernel

/-- A station port with requests held and a reply in transmission. -/
def busy (l : List Request) : State :=
  stage.setPort (.sp 0) { stage.port (.sp 0) with holding := l, reply := some ⟨0x18, .accepted, [0]⟩ }

theorem busy_settled (l : List Request) : (busy l).Settled := ⟨rfl, fun _ => ⟨rfl, rfl⟩⟩

theorem test_witness_HoldingServesInOrder : stage.free (.sp 0) ∧
    ((busy [⟨0x18, []⟩]).port (.sp 0)).holding = [⟨0x18, []⟩] ∧
    ((busy [⟨0x18, []⟩, ⟨0x19, []⟩]).port (.sp 0)).holding = [⟨0x18, []⟩, ⟨0x19, []⟩] ∧
    ((busy [⟨0x18, []⟩]).port (.sp 0)).reply = some ⟨0x18, .accepted, [0]⟩ ∧
    ((busy [⟨0x18, []⟩, ⟨0x19, []⟩]).port (.sp 0)).reply = some ⟨0x18, .accepted, [0]⟩ ∧
    (stage.port (.sp 0)).reply = none := by decide +kernel

theorem test_witness_RequestsTurnedAway : stage.free .svp ∧ stage.free (.sp 3) ∧
    ReqKind.submit ∈ stationRequests ∧ ReqKind.lineStatus ∈ supervisorRequests ∧
    ∀ k ∈ ReqKind.all, k.code ≠ 0x52 := by decide +kernel

/-- A port whose receiver is in a given place, 2 ms after its last byte. -/
def receiver (r : Receiver) : State :=
  { stage.setPort .svp { stage.port .svp with rx := r, lastByteAt := 5 } with now := 7 }

theorem receiver_settled (r : Receiver) : (receiver r).Settled := ⟨rfl, fun _ => ⟨rfl, rfl⟩⟩

theorem test_witness_ReceiverDiscipline :
    ((receiver .hunting).port .svp).rx = .hunting ∧ (0xC2 : Byte) ≠ 0xC3 ∧
    ((receiver .synced).port .svp).rx = .synced ∧
    (1 ≤ (1 : Byte).toNat ∧ (1 : Byte).toNat ≤ 251) ∧ (1 ≤ (251 : Byte).toNat ∧ (251 : Byte).toNat ≤ 251) ∧
    (0 : Byte).toNat = 0 ∧ 252 ≤ (252 : Byte).toNat ∧
    ((receiver .synced).port .svp).rx ≠ .hunting ∧
    ((receiver .synced).port .svp).lastByteAt < (receiver .synced).now := by decide +kernel

/-- A frame of kind 0x51 without payload has the CRC bytes given, and no other. -/
theorem test_witness_FrameCompletion :
    ((receiver (.receiving 1 [0x51, 0xEA])).port .svp).rx = .receiving 1 (0x51 :: [] ++ [0xEA]) ∧
    frameBytes 0x51 [] = [0xC3, 1, 0x51, 0xEA, 0x64] ∧
    ([0xEA, 0x64] : List Byte) = le2 (crc16 (frameBody 0x51 [])).toNat ∧
    ([0xEA, 0x65] : List Byte) ≠ le2 (crc16 (frameBody 0x51 [])).toNat := by decide +kernel

theorem test_witness_FrameRoundTrip : (List.replicate 250 (0 : Byte)).length ≤ 250 ∧
    ((receiver .hunting).port .svp).rx = .hunting := by decide +kernel

/-! ## Hypotheses that are met: requests of a station -/

/-- The bytes of a SUBMIT of reference 7 on H0 with profile 0 and a trigger kind; the predecessor is slot 0. -/
def submitBytes (head prof kind : Byte) : List Byte := [7, 0, head, prof, kind, 5, 0, 0, 1, 0, 0, 0, 0]

/-- What they read as. -/
def desc (head : Head) (prof : Fin 64) (t : Trigger) : JobDesc := ⟨7, head, prof, t, 1, 0⟩

/-- A station with jobs and results counted, and a head H0 whose cap is the peak power of profile 0. -/
def full (a r : Nat) : State :=
  { stage with
    admitted := stage.admitted.set 0 a
    heads := stage.heads.set 0 { head0 with cap := 100 }
    stations := stage.stations.set 0 { stage.station 0 with
      results := List.replicate r (stage.resultOf 0 (job0 .cooling) .none) } }

theorem full_settled (a r : Nat) : (full a r).Settled := ⟨rfl, fun _ => ⟨rfl, rfl⟩⟩

/-- Every slot is taken. -/
def noRoom : State := { stage with slots := Vector.replicate 48 ⟨0, some (job0 .pending)⟩ }

theorem noRoom_settled : noRoom.Settled := ⟨rfl, fun _ => ⟨rfl, rfl⟩⟩

theorem test_witness_SubmitAdmits :
    parseSubmit (submitBytes 0 0 0) = some (desc 0 0 .immediate) ∧
    parseSubmit (submitBytes 0 0 1) = some (desc 0 0 (.go 5)) ∧
    parseSubmit (submitBytes 0 0 2) = some (desc 0 0 .index) ∧
    (full 15 16).free (.sp 0) ∧ ((full 15 16).head 0).owner = some 0 ∧
    ((full 15 16).prof 0).valid = true ∧
    (∀ x ∈ ((full 15 16).prof 0).runs, ((full 15 16).segAt x.2).unfit ((full 15 16).prof 0).ceiling = false) ∧
    max ((full 15 16).peakPower ((full 15 16).prof 0)) ((full 15 16).head 0).seekPower = ((full 15 16).head 0).cap ∧
    (full 15 16).predecessorOk 0 .immediate = true ∧ (full 15 16).predecessorOk 0 (.go 5) = true ∧
    (full 15 16).admitted[(0 : Station)] < 16 ∧
    (full 15 16).admitted[(0 : Station)] + ((full 15 16).station 0).results.length < 32 ∧
    (full 15 16).job 0 = none ∧ (∀ m : SlotIx, m < 0 → ((full 15 16).job m).isSome = true) := by decide +kernel

/-- A job AFTER the job of slot 0 takes slot 1. -/
theorem test_witness_SubmitAdmits_after :
    parseSubmit (submitBytes 0 0 3) = some (desc 0 0 (.after ⟨0, 0⟩)) ∧ (scene .idle .pending).free (.sp 0) ∧
    (scene .idle .pending).predecessorOk 0 (.after ⟨0, 0⟩) = true ∧
    ((scene .idle .pending).head 0).owner = some 0 ∧ (scene .idle .pending).profileOk (desc 0 0 .index) = true ∧
    (scene .idle .pending).job 1 = none ∧
    (∀ m : SlotIx, m < 1 → ((scene .idle .pending).job m).isSome = true) := by decide +kernel

theorem test_witness_SubmitRefusals : (full 16 15).Settled ∧ noRoom.Settled ∧
    (full 16 15).free (.sp 0) ∧ (full 15 17).free (.sp 0) ∧ noRoom.free (.sp 0) ∧
    parseSubmit [] = none ∧ parseSubmit (submitBytes 16 0 0) = none ∧
    parseSubmit (submitBytes 1 0 1) = some (desc 1 0 (.go 5)) ∧ ((full 16 15).head 1).owner ≠ some 0 ∧
    parseSubmit (submitBytes 0 1 1) = some (desc 0 1 (.go 5)) ∧ (full 16 15).profileOk (desc 0 1 (.go 5)) = false ∧
    parseSubmit (submitBytes 0 0 3) = some (desc 0 0 (.after ⟨0, 0⟩)) ∧
    ((full 16 15).head 0).owner = some 0 ∧ (full 16 15).profileOk (desc 0 0 (.after ⟨0, 0⟩)) = true ∧
    (full 16 15).predecessorOk 0 (.after ⟨0, 0⟩) = false ∧ (full 16 15).predecessorOk 0 (.go 5) = true ∧
    16 ≤ (full 16 15).admitted[(0 : Station)] ∧
    32 ≤ (full 15 17).admitted[(0 : Station)] + ((full 15 17).station 0).results.length ∧
    (noRoom.head 0).owner = some 0 ∧ noRoom.profileOk (desc 0 0 (.go 5)) = true ∧
    noRoom.predecessorOk 0 (.go 5) = true ∧ noRoom.admitted[(0 : Station)] < 16 ∧
    noRoom.admitted[(0 : Station)] + (noRoom.station 0).results.length < 32 ∧
    (∀ k, (noRoom.job k).isSome = true) :=
  ⟨full_settled _ _, noRoom_settled, by decide +kernel⟩

/-- The bytes of a SUBMIT-GANG of two members on H0 and H4. -/
def gangBytes (kind : Byte) : List Byte := [2, kind, 5, 0, 0, 1, 0, 0, 0, 0, 7, 0, 0, 0, 7, 0, 4, 0]

theorem test_witness_GangAdmits : stage.free (.sp 0) ∧
    (∀ x ∈ ([(0, .immediate), (1, .go 5)] : List (Byte × Trigger)),
      (parseGang (gangBytes x.1)).toOption = some [desc 0 0 x.2, desc 4 0 x.2] ∧
      stage.gangBadHead 0 [desc 0 0 x.2, desc 4 0 x.2] = none ∧
      (∀ d ∈ [desc 0 0 x.2, desc 4 0 x.2], stage.profileOk d = true ∧ stage.predecessorOk 0 d.trigger = true)) ∧
    stage.hasQuota 0 2 = true ∧ stage.freeSlots.take 2 = [0, 1] := by decide +kernel

theorem test_witness_TriggersFire :
    (scene .idle .pending).job 0 = some (job0 .pending) ∧ (job0 .pending).trigger = .go 1 ∧
    (scene .heating .heating).job 0 = some (job0 .heating) ∧ (job0 .heating).state ≠ .pending ∧
    (∀ m ∈ allSlots, (scene .idle .pending).jobIs m
      (fun i => i.state == .pending && i.trigger == .index) = true → 0 ∉ (scene .idle .pending).membersOf m) ∧
    (scene .idle .pending).free (.sp 0) := by decide +kernel

theorem test_witness_CancelSingle : (∀ x ∈ ([.pending, .ready, .connecting, .seeking, .aligning, .heating] :
      List JobState), (scene .heating x).job 0 = some (job0 x) ∧ (job0 x).outcome = none ∧ x ≠ .cooling ∧
      (scene .heating x).free (.sp 0)) ∧
    (scene .idle .cooling).job 0 = some (job0 .cooling) ∧ (job0 .cooling).station = 0 ∧
    (job0 .cooling).gang = none ∧ (scene .idle .cooling).free (.sp 0) := by decide +kernel

theorem test_witness_ReadJobReports : heating.free .svp ∧ heating.free (.sp 0) ∧
    heating.job 0 = some (job0 .heating) ∧ mayRead .svp (job0 .heating) = true ∧
    mayRead (.sp 0) (job0 .heating) = true := by decide +kernel

theorem test_witness_TakesRemoveOldest : stage.free .svp ∧ stage.free (.sp 0) ∧
    (1 ≤ (1 : Byte).toNat ∧ (1 : Byte).toNat ≤ 4) ∧ (1 ≤ (4 : Byte).toNat ∧ (4 : Byte).toNat ≤ 4) ∧
    (1 ≤ (8 : Byte).toNat ∧ (8 : Byte).toNat ≤ 8) := by decide +kernel

/-- The stage with the PURGE input of S0 low, marked or not. -/
def purge (mark : Bool) : State :=
  stage.setStation 0 { stage.station 0 with live := ⟨true, false, true⟩, marks := ⟨false, mark, false⟩ }

theorem test_witness_InputsReported : ((purge true).station 0).live.get .purge = false ∧ stage.Settled ∧
    (stage.station 0).live.get .purge = true ∧ (stage.station 0).live.get .purge ≠ false ∧
    ((purge false).station 0).live.get .purge ≠ true ∧ ((purge false).station 0).marks.get .purge = false ∧
    ((purge false).port (.sp 0)).notices.length < 16 ∧
    ((purge true).station 0).live.get .purge ≠ true ∧ ((purge true).station 0).marks.get .purge = true ∧
    stage.free (.sp 0) :=
  ⟨by decide +kernel, stage_settled, by decide +kernel⟩

/-- The stage with a lease of S0. -/
def leased (l : Lease) : State := { stage.setStation 0 { stage.station 0 with lease := l } with now := 1000 }

theorem leased_settled (l : Lease) : (leased l).Settled := ⟨rfl, fun _ => ⟨rfl, rfl⟩⟩

theorem test_witness_LeasesRenewAndRestart : (leased ⟨20, .hold, .lapsed, true, none⟩).free (.sp 0) ∧
    (stage.station 0).lease.state = .off ∧
    ((leased ⟨20, .hold, .lapsed, true, none⟩).station 0).lease.state ≠ .off ∧
    ((leased ⟨20, .hold, .lapsed, true, none⟩).station 0).lease.period ≠ 0 ∧ stage.free .svp ∧
    (0 : Byte).toNat + 256 * (0 : Byte).toNat = 0 ∧ (20 : Byte).toNat + 256 * (0 : Byte).toNat = 20 ∧
    (16 : Byte).toNat + 256 * (39 : Byte).toNat = 10000 := by decide +kernel

theorem test_witness_LeaseExpires :
    ((leased ⟨20, .hold, .live, false, some 1001⟩).station 0).lease.timer = some 1001 ∧
    (leased ⟨20, .hold, .live, false, some 1001⟩).now < 1001 ∧
    (leased ⟨20, .hold, .live, false, some 1001⟩).Settled ∧
    ((leased ⟨20, .hold, .live, false, some 1000⟩).station 0).lease.timer = some 1000 ∧
    1000 ≤ (leased ⟨20, .hold, .live, false, some 1000⟩).now ∧
    ((leased ⟨20, .hold, .live, false, some 1000⟩).station 0).lease.action = .hold ∧
    ((leased ⟨20, .hold, .live, false, some 1000⟩).port (.sp 0)).notices.length < 16 ∧
    ((leased ⟨20, .hold, .live, false, some 1000⟩).port .svp).notices.length < 16 :=
  ⟨by decide +kernel, by decide +kernel, leased_settled _, by decide +kernel⟩

theorem test_witness_StatusReports : stage.Settled ∧ stage.free (.sp 0) ∧ stage.free .svp :=
  ⟨stage_settled, rfl, rfl⟩

/-! ## Hypotheses that are met: requests of the supervisor -/

/-- The stage in STANDBY, the emergency stop asserted. -/
def stopped : State := { stage with mode := .standby, estop := true }

theorem stopped_settled : stopped.Settled := ⟨rfl, fun _ => ⟨rfl, rfl⟩⟩

theorem test_witness_SetModeChanges : stopped.Settled ∧ stopped.free .svp ∧ Mode.run ≠ .standby ∧
    stopped.estop = true ∧ stage.Settled ∧ stage.free .svp ∧ stage.estop = false ∧ Mode.run = stage.mode ∧
    Mode.hold ≠ stage.mode ∧ Mode.standby ≠ stage.mode ∧ ∀ p ∈ allPorts, (stage.port p).notices.length < 16 :=
  ⟨stopped_settled, rfl, by decide, rfl, stage_settled, by decide +kernel⟩

theorem test_witness_StandbyActsOnConverters :
    (∀ x ∈ ([.off, .faulted, .warmup, .discharge, .idle, .held, .seeking, .aligned, .heating, .connecting] :
      List ConvState), ((scene x .pending).conv 0).state = x) ∧ (heating.conv 0).state.drives = true ∧
    (heating.conv 0).outputOn = true ∧ ((scene .heating .heating).conv 0).state.drives = true ∧
    ((scene .heating .heating).conv 0).outputOn = false := by decide +kernel

theorem test_witness_BudgetAndDischargeStored : stage.Settled ∧ stage.free .svp ∧
    (220 : Byte).toNat + 256 * (5 : Byte).toNat = 1500 ∧ 1500 < (221 : Byte).toNat + 256 * (5 : Byte).toNat ∧
    (10 : Byte).toNat + 256 * (0 : Byte).toNat = 10 ∧ (244 : Byte).toNat + 256 * (1 : Byte).toNat = 500 ∧
    (9 : Byte).toNat + 256 * (0 : Byte).toNat < 10 ∧ 500 < (245 : Byte).toNat + 256 * (1 : Byte).toNat :=
  ⟨stage_settled, rfl, by decide⟩

theorem test_witness_GuardDwellStored : stage.Settled ∧ stage.free .svp ∧
    (2 ≤ (2 : Byte).toNat ∧ (50 : Byte).toNat ≤ 50) ∧ (1 : Byte).toNat < 2 ∧ 50 < (51 : Byte).toNat ∧
    ({ stage with passList := [3] } : State).passList = [3] :=
  ⟨stage_settled, rfl, by decide, by decide, by decide, rfl⟩

/-- The bytes of a POWER record of 100 W for 5 ms. -/
def segBytes : List Byte := [4, 0, 0, 0, 100, 0, 0, 0, 5, 0, 0, 0]

theorem test_witness_WriteSegmentsWhole : stage.Settled ∧ stage.free .svp ∧
    segBytes.length = 12 * (1 : Byte).toNat ∧ (255 : Byte).toNat + (1 : Byte).toNat ≤ 256 ∧
    parseSegments segBytes = [seg0].map some ∧
    (∀ i : Fin 256, (255 : Byte).toNat ≤ i.val → i.val < (255 : Byte).toNat + (1 : Byte).toNat →
      stage.segUse[i] = 0) ∧
    (scene .idle .pending).Settled ∧ (scene .idle .pending).free .svp ∧
    0 < (scene .idle .pending).segUse[(1 : Fin 256)] ∧ 0 < (scene .idle .pending).segUse[(0 : Fin 256)] :=
  ⟨stage_settled, rfl, rfl, by decide, by decide +kernel, by decide +kernel, scene_settled _ _, rfl,
    by decide +kernel⟩

theorem test_witness_SegmentChecks :
    checkSegment .empty 1 2 3 4 5 6 = some ⟨.empty, 0, 0, 0, 0, 0, 0⟩ ∧
    checkSegment .rise 300 0 1 0 0 1 = some ⟨.rise, 300, 0, 1, 0, 0, 1⟩ ∧
    checkSegment .rise 299 0 1 0 0 1 = none ∧ checkSegment .rise 1101 0 1 0 0 1 = none ∧
    checkSegment .soak 1100 50 300 300 60000 0 = some ⟨.soak, 1100, 50, 300, 300, 60000, 0⟩ ∧
    checkSegment .soak 1100 51 300 300 60000 0 = none ∧
    checkSegment .flow 500 1 300 0 0 60000 = some ⟨.flow, 500, 1, 300, 0, 0, 60000⟩ ∧
    checkSegment .flow 500 1 300 301 0 60000 = none ∧
    checkSegment .power 0 0 1 0 1 0 = some ⟨.power, 0, 0, 1, 0, 1, 0⟩ ∧
    checkSegment .power 0 0 301 0 1 0 = none ∧ checkSegment .coast 0 0 0 0 0 0 = none ∧
    checkSegment .coast 7 7 7 7 60000 7 = some ⟨.coast, 0, 0, 0, 0, 60000, 0⟩ := by decide +kernel

/-- The bytes of a WRITE-PROFILE of profile 0 with a head run of segments from an index. -/
def profBytes (hs : Byte) : List Byte := [0, hs, 2, 0, 0, 88, 2, 1, 0, 188, 2, 100, 0, 50, 0, 10, 0, 20, 0]

theorem test_witness_ProfilesWrittenAndCleared : stage.Settled ∧ stage.free .svp ∧
    parseWriteProfile (profBytes 0) = some (0, prof0) ∧ stage.profUse[(0 : Fin 64)] = 0 ∧
    stage.contentFail prof0 = none ∧
    parseWriteProfile (profBytes 1) = some (0, { prof0 with headStart := 1 }) ∧
    stage.contentFail { prof0 with headStart := 1 } = some (.head, 2) ∧
    (scene .idle .pending).Settled ∧ (scene .idle .pending).free .svp ∧
    0 < (scene .idle .pending).profUse[(0 : Fin 64)] :=
  ⟨stage_settled, rfl, by decide +kernel, rfl, by decide +kernel, by decide +kernel, by decide +kernel,
    scene_settled _ _, rfl, by decide +kernel⟩

/-- The bytes of a WRITE-HEAD of H0 with the written fields of `head0`. -/
def headBytes : List Byte :=
  [0, 0, 44, 1, 160, 134, 1, 0, 80, 195, 0, 0, 64, 13, 3, 0, 244, 1, 5, 10, 0, 1]

theorem test_witness_WriteHeadStores : stage.Settled ∧ stage.free .svp ∧
    parseWriteHead headBytes = some (0, head0) ∧ (∀ k, stage.job k = none) ∧
    (scene .idle .pending).Settled ∧ (scene .idle .pending).free .svp ∧
    (scene .idle .pending).job 0 = some (job0 .pending) ∧ (job0 .pending).head = 0 :=
  ⟨stage_settled, rfl, by decide +kernel, by decide +kernel, scene_settled _ _, rfl, by decide +kernel⟩

theorem test_witness_ForgetLearnedClears : stage.Settled ∧ stage.free .svp ∧
    (15 : Head).val = (15 : Byte).toNat ∧ (0 : Head).val = (0 : Byte).toNat ∧ 15 < (16 : Byte).toNat :=
  ⟨stage_settled, rfl, by decide⟩

theorem test_witness_ReadTableReads : stage.Settled ∧ stage.free .svp ∧
    ((16 : Byte).toNat ≤ TableSel.segments.limits.2 ∧ (240 : Byte).toNat + (16 : Byte).toNat ≤ TableSel.segments.limits.1) ∧
    ((8 : Byte).toNat ≤ TableSel.profiles.limits.2 ∧ (56 : Byte).toNat + (8 : Byte).toNat ≤ TableSel.profiles.limits.1) ∧
    ((8 : Byte).toNat ≤ TableSel.heads.limits.2 ∧ (8 : Byte).toNat + (8 : Byte).toNat ≤ TableSel.heads.limits.1) ∧
    (0 : Byte).toNat = 0 ∧ TableSel.segments.limits.2 < (17 : Byte).toNat ∧
    TableSel.heads.limits.1 < (9 : Byte).toNat + (8 : Byte).toNat :=
  ⟨stage_settled, rfl, by decide⟩

/-- The stage with converter C4 in a state with a pending target, enabled or not. -/
def bank (x : ConvState) (t : PendingTarget) (on : Bool) : State :=
  { stage.setConv 4 { stage.conv 4 with
      state := x, pend := t, enabled := on, dischTimer := some 1000, warmTimer := some 1000 } with now := 1000 }

theorem bank_settled (x : ConvState) (t : PendingTarget) (on : Bool) : (bank x t on).Settled :=
  ⟨rfl, fun _ => ⟨rfl, rfl⟩⟩

theorem test_witness_ConverterEnableActs :
    (∀ on, ((bank .idle .none on).conv 4).enabled = on ∧ (bank .idle .none on).Settled ∧
      (bank .idle .none on).free .svp) ∧
    (((bank .off .none false).conv 4).enabled = false ∧ ((bank .off .none false).conv 4).state = .off ∧
      (bank .off .none false).mode ≠ .standby) ∧
    (((bank .discharge .off false).conv 4).enabled = false ∧
      ((bank .discharge .off false).conv 4).state ≠ .off) ∧
    (∀ x ∈ ([.off, .faulted, .idle, .held, .warmup, .discharge] : List ConvState),
      ((bank x .none true).conv 4).enabled = true ∧ ((bank x .none true).conv 4).state = x) :=
  ⟨fun _ => ⟨rfl, bank_settled _ _ _, rfl⟩, by decide +kernel⟩

theorem test_witness_ConverterHoldAndRelease : (∀ x t on, (bank x t on).Settled ∧ (bank x t on).free .svp) ∧
    (∀ t ∈ ([.none, .held, .off, .faulted] : List PendingTarget),
      ((bank .idle t true).conv 4).state = .idle ∧ ((bank .idle t true).conv 4).pend = t ∧
      ((bank .discharge t true).conv 4).state ∉ [ConvState.off, .faulted, .held, .idle] ∧
      ((bank .discharge t true).conv 4).state ≠ .held ∧ ((bank .discharge t true).conv 4).pend = t) ∧
    (∀ x ∈ ([.off, .faulted, .held] : List ConvState), ((bank x .none true).conv 4).state = x) ∧
    (bank .held .none true).openingDue 4 = false ∧
    ((bank .held .none true).setRelay 0 { stage.relay 0 with openingDue := true }).openingDue 4 = true :=
  ⟨fun _ _ _ => ⟨bank_settled _ _ _, rfl⟩, by decide +kernel⟩

/-- A FAULTED converter C4 with its power-stage inputs. -/
def faulted (on : Bool) (q : PowerPins) : State :=
  (bank .faulted .none on).setConv 4 { (bank .faulted .none on).conv 4 with cause := .overcurrent, pins := q }

theorem test_witness_ConverterClearActs : (∀ on q, (faulted on q).free .svp ∧ (faulted on q).mode ≠ .standby ∧
      ((faulted on q).conv 4).state = .faulted ∧ ((faulted on q).conv 4).pins = q ∧
      ((faulted on q).conv 4).enabled = on) ∧
    (bank .idle .none true).Settled ∧ ((bank .idle .none true).conv 4).state ≠ .faulted ∧
    PowerPins.quiet.overcurrent = false ∧ PowerPins.quiet.coolantLow = false :=
  ⟨fun _ _ => ⟨rfl, nofun, rfl, rfl, rfl⟩, bank_settled _ _ _, nofun, rfl, rfl⟩

/-! ## Hypotheses that are met: the end of a job, line inputs -/

theorem test_witness_CauseLeavesNone :
    (reach .lineAbort (fun j => j.station == 0) heating).job 0 ≠ none ∧
    heating.jobIs 0 (fun j => j.station == 0) = true ∧ heating.free .svp := by decide +kernel

theorem test_witness_EndedReports : (scene .idle .cooling).job 0 = some (job0 .cooling) ∧
    ((scene .idle .cooling).port (.sp 0)).notices.length < 16 ∧
    (noRoom.job 1 = some (job0 .pending) ∧ (1 : SlotIx) ≠ 0) ∧
    (job0 .heating).trigger ≠ .after ⟨0, 0⟩ ∧ (job0 .heating).state ≠ .pending := by decide +kernel

/-- The same with a profile of no cool dwell and H0 without a guard. -/
def dry : State := { heating with profs := heating.profs.set 0 { prof0 with coolDwell := 0 } }

theorem test_witness_AbortOfRunningJob : heating.job 0 = some (job0 .heating) ∧
    (job0 .heating).converter = some 0 ∧ (job0 .heating).state.running = true ∧
    (job0 .heating).state ≠ .connecting ∧ (heating.prof 0).coolDwell ≠ 0 ∧
    (dry.head 0).guardEnable = false ∧ (dry.prof 0).coolDwell = 0 ∧ dry.job 0 = some (job0 .heating) := by
  decide +kernel

theorem heating_output : heating.OutputLaw :=
  ⟨by decide +kernel, by decide +kernel, by decide +kernel, by decide +kernel, by decide +kernel⟩

theorem test_witness_EstopActs : heating.estop = false ∧ heating.OutputLaw ∧ heating.mode ≠ .standby ∧
    (heating.port .svp).notices = [] ∧ stopped.estop = true ∧ stopped.Settled ∧
    (stopped.port .svp).notices.length < 16 ∧ stage.Settled ∧ stage.estop = false :=
  ⟨rfl, heating_output, by decide, by decide +kernel, rfl, stopped_settled, by decide +kernel, stage_settled, rfl⟩

theorem test_witness_ClockCounts : stage.Settled := stage_settled

/-! ## Hypotheses that are met: converters and relays -/

theorem test_witness_FaultByState :
    (∀ x ∈ ([.off, .faulted, .warmup, .held, .idle, .discharge, .seeking, .aligned, .heating] : List ConvState),
      ((bank x .none true).conv 4).state = x ∧ ((bank x .none true).conv 4).pend = .none ∧
      ∀ c ∈ ([.overcurrent, .coolantLow, .linkLow] : List FaultCond),
        ((bank x .none true).conv 4).pins.get c = false) ∧
    ((bank .discharge .faulted true).conv 4).pend = .faulted ∧ ConvState.drives .heating = true ∧
    (bank .off .none true).Settled :=
  ⟨by decide +kernel, rfl, rfl, bank_settled _ _ _⟩

theorem test_witness_ConvertersResolve :
    (∀ t ∈ ([.none, .held, .off, .faulted] : List PendingTarget), ∀ on,
      ((bank .discharge t on).conv 4).state = .discharge ∧ ((bank .discharge t on).conv 4).pend = t ∧
      ((bank .discharge t on).conv 4).dischTimer = some 1000 ∧ ((bank .discharge t on).conv 4).enabled = on ∧
      (bank .discharge t on).now = 1000 ∧ (bank .discharge t on).mode ≠ .standby ∧
      ({ bank .discharge t on with now := 999 } : State).now < 1000) ∧
    ({ bank .discharge .none true with now := 999 } : State).Settled ∧
    ((bank .warmup .none true).conv 4).state = .warmup ∧
    ((bank .warmup .none true).conv 4).warmTimer = some 1000 ∧
    warmupMayEnd 4 (bank .warmup .none true) = true ∧
    ((bank .warmup .none true).conv 4).pins = ⟨false, false, false⟩ ∧
    ((bank .warmup .none true).conv 4).pend = .none :=
  ⟨by decide +kernel, ⟨rfl, fun _ => ⟨rfl, rfl⟩⟩, by decide +kernel⟩

/-- At the end of warm-up a power-stage condition stands at C4. -/
def warm (q : PowerPins) : State :=
  (bank .warmup .none true).setConv 4 { (bank .warmup .none true).conv 4 with pins := q }

theorem test_witness_ConvertersResolve_pins :
    ∀ q ∈ ([⟨true, true, true⟩, ⟨false, true, true⟩, ⟨false, false, true⟩] : List PowerPins),
      ((warm q).conv 4).pins = q ∧ ((warm q).conv 4).state = .warmup ∧ warmupMayEnd 4 (warm q) = true ∧
      ((warm q).conv 4).warmTimer = some (warm q).now := by decide +kernel

/-- C4 in a state for the job of slot 0 on H4, its relay as given. -/
def pooled (x : ConvState) (y : JobState) (r : Relay) : State :=
  { ((stage.setSlot 0 ⟨0, some { job0 y with head := 4, converter := some 4 }⟩).setConv 4 { stage.conv 4 with
      state := x, enabled := true, served := some ⟨0, 0⟩ }).setRelay 0 r with now := 1000, committed := 100 }

theorem pooled_settled (x : ConvState) (y : JobState) (r : Relay) : (pooled x y r).Settled :=
  ⟨rfl, fun _ => ⟨rfl, rfl⟩⟩

/-- A relay that opens from H4, one that closes to H4, and one that waits to open. -/
def opening : Relay := ⟨.closed 4, .opening 4 1000, .empty, none, none, true⟩
def closing : Relay := ⟨.open, .closing 4 1000, .empty, none, none, false⟩
def waiting : Relay := ⟨.closed 4, .none, .open, some 1000, none, true⟩

theorem test_witness_RelayMotionsComplete :
    ((pooled .idle .ready opening).relay 0).motion = .opening 4 1000 ∧
    ((pooled .idle .ready opening).relay 0).plan = .empty ∧ 1000 ≤ (pooled .idle .ready opening).now ∧
    (pooled .connecting .connecting closing).Settled ∧
    ((pooled .connecting .connecting closing).relay 0).motion = .closing 4 1000 ∧
    ((pooled .connecting .connecting closing).relay 0).plan = .empty ∧
    ((pooled .connecting .connecting closing).conv (poolConv 0)).state = .connecting ∧
    ((pooled .connecting .connecting closing).conv (poolConv 0)).served =
      some ((pooled .connecting .connecting closing).handleOf 0) ∧
    (pooled .connecting .connecting closing).jobIs 0 (fun j => j.state == .connecting) = true ∧
    (pooled .idle .ready waiting).Settled ∧ ((pooled .idle .ready waiting).relay 0) = waiting ∧
    (pooled .idle .ready waiting).relayHold = none ∧
    ((pooled .idle .ready waiting).conv (poolConv 0)).outputOn = false ∧
    ((pooled .idle .ready waiting).conv (poolConv 0)).lastOffAt +
      ((pooled .idle .ready waiting).conv (poolConv 0)).interval ≤ (pooled .idle .ready waiting).now :=
  ⟨by decide +kernel, by decide +kernel, by decide +kernel, pooled_settled _ _ _, by decide +kernel,
    by decide +kernel, by decide +kernel, by decide +kernel, by decide +kernel, pooled_settled _ _ _,
    by decide +kernel⟩

theorem test_witness_WorkFrame : isWorkEvent .indexEdge = true ∧
    isWorkEvent (.pyrometerSample 0 (.temp 700) true) = true ∧ isWorkEvent (.waitLimitExpiry 0) = true :=
  ⟨rfl, rfl, rfl⟩

/-! ## Hypotheses that are met: tuning, samples, segments -/

/-- C0 seeks or tracks with a step count and a drive frequency. -/
def tuned (ph : TunePhase) (steps centred drive : Nat) : State :=
  seeking.setConv 0 { seeking.conv 0 with tun := ⟨ph, steps, centred, some 1000⟩, drive := drive }

theorem test_witness_SettleExpirySteps :
    (∀ x ∈ ([(63, 199500), (63, 50500), (64, 100000), (0, 199501)] : List (Nat × Nat)),
      ((tuned .seek x.1 1 x.2).conv 0).served = some ((tuned .seek x.1 1 x.2).handleOf 0) ∧
      (tuned .seek x.1 1 x.2).job 0 = some (job0 .seeking) ∧ ((tuned .seek x.1 1 x.2).conv 0).state = .seeking ∧
      ((tuned .seek x.1 1 x.2).conv 0).tun = ⟨.seek, x.1, 1, some (tuned .seek x.1 1 x.2).now⟩) ∧
    ((head0.fmin, head0.fmax, head0.step) = (50000, 200000, 500)) ∧
    (∀ d ∈ [100000, 199500, 50500, 199501], ((tuned .track 64 0 d).conv 0).tun.phase = .track ∧
      ((tuned .track 64 0 d).conv 0).tun.settleTimer = some (tuned .track 64 0 d).now ∧
      ((tuned .track 64 0 d).conv 0).served = some ((tuned .track 64 0 d).handleOf 0)) := by decide +kernel

/-- Segment 0 is a COAST. -/
def coasting (s : State) : State := { s with segs := s.segs.set 0 ⟨.coast, 0, 0, 0, 0, 7, 0⟩ }

theorem test_witness_LockStartsHeating : (tuned .seek 5 2 100000).Settled ∧
    (coasting (tuned .seek 5 2 100000)).Settled ∧
    (∀ s ∈ [tuned .seek 5 2 100000, coasting (tuned .seek 5 2 100000)],
      (s.conv 0).served = some (s.handleOf 0) ∧ s.job 0 = some (job0 .seeking) ∧
      (job0 .seeking).converter = some 0 ∧ (s.conv 0).state = .seeking ∧
      (s.conv 0).tun = ⟨.seek, 5, 2, some s.now⟩ ∧ (s.port (.sp 0)).notices.length < 16) ∧
    ((tuned .seek 5 2 100000).segAt 0).kind ≠ .coast ∧ ((coasting (tuned .seek 5 2 100000)).segAt 0).kind = .coast :=
  ⟨⟨rfl, fun _ => ⟨rfl, rfl⟩⟩, ⟨rfl, fun _ => ⟨rfl, rfl⟩⟩, by decide +kernel⟩

/-- C4 seeks 19 ms after its relay closed. -/
def fresh : State :=
  let s := pooled .seeking .seeking ⟨.closed 4, .none, .empty, none, some 981, false⟩
  s.setConv 4 { s.conv 4 with nextSample := some 1000, eng := ⟨.watch, none, .stopped, 0, false⟩ }

theorem test_witness_SamplesMeasure : seeking.Settled ∧ fresh.Settled ∧
    (seeking.conv 0).served = some (seeking.handleOf 0) ∧ seeking.job 0 = some (job0 .seeking) ∧
    (seeking.conv 0).nextSample = some seeking.now ∧ (seeking.conv 0).eng.phase = .watch ∧ poolOf 0 = none ∧
    700 ≤ (seeking.prof 0).ceiling ∧ (fresh.conv (poolConv 0)).nextSample = some fresh.now ∧
    (fresh.relay 0).lastClose = some 981 ∧ fresh.now < 981 + 20 ∧
    (({ fresh with now := 1001 } : State).conv 4).served = some (({ fresh with now := 1001 } : State).handleOf 0) ∧
    981 + 20 ≤ ({ fresh with now := 1001 } : State).now ∧ poolOf 4 = some 0 :=
  ⟨seeking_settled, ⟨rfl, fun _ => ⟨rfl, rfl⟩⟩, by decide +kernel⟩

/-- Every level of the three-level rule, at its bounds. -/
theorem test_witness_SegmentRules :
    let g : Segment := ⟨.soak, 600, 5, 100, 40, 10, 0⟩
    594 + g.band < g.target ∧ (g.target ≤ 595 + g.band ∧ 605 ≤ g.target + g.band) ∧ g.target + g.band < 606 ∧
    g.kind = .soak ∧ ({ g with kind := .rise } : Segment).kind = .rise ∧
    ({ g with kind := .flow } : Segment).kind = .flow := by decide

/-- C0 heats in a RISE or FLOW segment whose limit has come. -/
def limited (k : SegKind) : State :=
  heating.setConv 0 { heating.conv 0 with eng := ⟨.run, some ⟨0, ⟨k, 600, 5, 100, 40, 0, 5⟩⟩, .limit 1000, 100, false⟩ }

theorem test_witness_SegmentTimersExpire : heating.Settled ∧
    (heating.conv 0).served = some (heating.handleOf 0) ∧ heating.job 0 = some (job0 .heating) ∧
    (heating.conv 0).eng.timer = .duration heating.now ∧ (job0 .heating).run = .head ∧
    (job0 .heating).index + 1 < (heating.prof 0).headCount ∧ (heating.segAt 1).kind = .coast ∧
    (({ heating with segs := heating.segs.set 1 seg0 } : State).segAt 1).kind ∈ [SegKind.rise, .soak, .flow, .power] ∧
    (∀ k ∈ [SegKind.rise, .flow], (limited k).job 0 = some (job0 .heating) ∧
      ((limited k).conv 0).eng.timer = .limit (limited k).now ∧
      ((limited k).conv 0).eng.seg = some ⟨0, ⟨k, 600, 5, 100, 40, 0, 5⟩⟩ ∧
      ((limited k).prof 0).coolDwell ≠ 0) ∧
    (job0 .heating).outcome = none ∧ (job0 .heating).gang = none ∧ (job0 .heating).converter = some 0 :=
  ⟨heating_settled, by decide +kernel⟩

theorem test_witness_HeatingEnds : heating.job 0 = some (job0 .heating) ∧ (job0 .heating).outcome = none ∧
    (heating.prof 0).coolDwell ≠ 0 ∧ (heating.head 0).learning = true ∧
    ¬ (heating.prof 0).minAbove ≤ (job0 .heating).above ∧
    (dry.setHead 0 { head0 with guardEnable := true }).head 0 = { head0 with guardEnable := true } ∧
    (dry.setHead 0 { head0 with guardEnable := true }).job 0 = some (job0 .heating) := by decide +kernel

/-! ## Hypotheses that are met: guards, timers, grants -/

/-- The job of slot 0 cools with both timers due, and its head is under conversion. -/
def cooling : State :=
  { scene .idle .cooling with
    slots := (scene .idle .cooling).slots.set 0 ⟨0, some { job0 .cooling with
      coolLimitTimer := some 1000, coolDwellTimer := some 1000 }⟩
    conversion := some (0, 1000) }

theorem test_witness_GuardReleases : cooling.conversion = some (0, cooling.now) ∧ cooling.occupant 0 = some 0 ∧
    cooling.jobIs 0 (fun j => j.state == .cooling) = true ∧ 50 ≤ (cooling.prof 0).releaseTemp ∧
    (cooling.prof 0).releaseTemp < 51 ∧ cooling.arbCause = false := by decide +kernel

/-- The entry of slot 0 with a wait timer that is due. -/
def cand0 : Cand := ⟨1, 0, 0, 0, [0], some 1000⟩

/-- The job of slot 0 in READY, its converter C0 in IDLE. -/
def queued : State := { scene .idle .ready with cands := [cand0] }

theorem test_witness_TimersEndJobs :
    queued.cands.find? (fun x => x.members.contains 0) = some cand0 ∧ cand0.waitTimer = some queued.now ∧
    queued.job 0 = some (job0 .ready) ∧ (job0 .ready).outcome = none ∧
    cooling.job 0 = some { job0 .cooling with coolLimitTimer := some cooling.now, coolDwellTimer := some cooling.now } := by
  decide +kernel

theorem test_witness_GrantsKeepTheirConditions : stopped.mode ≠ .run ∧ stopped.estop = true := by decide

theorem test_witness_GrantGivesConverter :
    (let s : State := { queued with arbCause := true }
     s.arbCause = true ∧ s.cands = [cand0] ∧ s.job 0 = some (job0 .ready) ∧ s.stationServes 0 = true ∧
     fixedConv 0 = some 0 ∧ s.convFree 0 = true ∧ s.occupant 0 = none ∧
     s.committed + (job0 .ready).reservation ≤ s.budget) ∧
    (let s (a b : RelayPos) : State := ((bank .idle .none true).setRelay 0 { stage.relay 0 with pos := a }).setRelay 1
        { stage.relay 1 with pos := b }
     let two (a b : RelayPos) : State := (s a b).setConv 5 { (s a b).conv 4 with lastOffAt := 1 }
     ((s (.closed 4) .open).poolAvailable 4 [] 0 = true ∧ ((s (.closed 4) .open).relay 0).pos = .closed 4 ∧
       ((s (.closed 4) .open).relay (otherPool 0)).pos ≠ .closed 4) ∧
     ((s .open .open).poolAvailable 4 [] 0 = true ∧ (∀ q, ((s .open .open).relay q).pos ≠ .closed 4) ∧
       ((s .open .open).relay 0).pos = .open) ∧
     ((two (.closed 5) .open).poolAvailable 4 [] 1 = true ∧ ((two (.closed 5) .open).relay 1).pos = .open ∧
       ((two (.closed 5) .open).relay 0).pos ≠ .open) ∧
     ((two (.closed 5) (.closed 6)).poolAvailable 4 [] 0 = true ∧
       (∀ q, ((two (.closed 5) (.closed 6)).relay q).pos ≠ .closed 4 ∧ ((two (.closed 5) (.closed 6)).relay q).pos ≠ .open) ∧
       (two (.closed 5) (.closed 6)).poolAvailable 4 [] (otherPool 0) = true ∧
       ((two (.closed 5) (.closed 6)).conv (poolConv 0)).lastOffAt <
         ((two (.closed 5) (.closed 6)).conv (poolConv (otherPool 0))).lastOffAt)) := by decide +kernel

/-! ## Hypotheses that are met: requests that are turned away -/

theorem test_witness_WrongPorts : stage.Settled ∧ stage.free (.sp 0) ∧ stage.free .svp ∧
    ([1, 2] : List Byte).length ≠ 1 ∧ ([1] : List Byte).length ≠ 2 := ⟨stage_settled, rfl, rfl, by decide, by decide⟩

/-- Payloads of one byte just out of range, for every request that takes a number. -/
theorem test_witness_BadPayloads : 15 < (16 : Byte).toNat ∧ 63 < (64 : Byte).toNat ∧ 5 < (6 : Byte).toNat ∧
    1 < (2 : Byte).toNat ∧ 3 < (4 : Byte).toNat ∧ 8 < (9 : Byte).toNat ∧ 4 < (5 : Byte).toNat ∧
    (0 < (19 : Byte).toNat + 256 * (0 : Byte).toNat ∧ (19 : Byte).toNat + 256 * (0 : Byte).toNat < 20) ∧
    10000 < (17 : Byte).toNat + 256 * (39 : Byte).toNat ∧ parseWriteProfile [] = none := by decide

/-- The second of two records fails; and a count of 0, of 17, and a range past the table. -/
theorem test_witness_WriteSegmentsRefused :
    (segBytes ++ 9 :: segBytes.tail).length = 12 * (2 : Byte).toNat ∧
    (parseSegments (segBytes ++ 9 :: segBytes.tail))[1]? = some none ∧
    (parseSegments (segBytes ++ 9 :: segBytes.tail))[0]? = some (some seg0) ∧
    ([] : List Byte).length = 12 * (0 : Byte).toNat ∧ 16 < (17 : Byte).toNat ∧
    256 < (255 : Byte).toNat + (2 : Byte).toNat := by decide +kernel

theorem test_witness_BudgetBelowCommitted :
    ({ heating with budget := 99 } : State).budget < ({ heating with budget := 99 } : State).committed := by
  decide +kernel

/-! ## Hypotheses that are met: gangs -/

/-- The bytes of a SUBMIT-GANG with a count, a trigger kind (predecessor slot 0), an urgency, a wait limit and members. -/
def gangOf (count kind urgency wait : Byte) (members : List Byte) : List Byte :=
  [count, kind, 5, 0, 0, urgency, wait, 0, 0, 0] ++ members

/-- Two members on H0 and H4, with the profile of the second. -/
def twoMembers (prof : Byte) : List Byte := [7, 0, 0, 0, 7, 0, 4, prof]

/-- The answer of the field check is the refusal with a member index. -/
def refusedAt (i : Nat) (b : List Byte) : Bool :=
  match parseGang b with
  | .error m => m == i
  | .ok _ => false

theorem test_witness_SubmitRefusals_gangFields :
    refusedAt 0 (List.replicate 9 0) = true ∧ (List.replicate 9 (0 : Byte)).length < 10 ∧
    (∀ b ∈ [gangOf 1 1 1 0 [7, 0, 0, 0], gangOf 5 1 1 0 (twoMembers 0 ++ twoMembers 0 ++ [7, 0, 0, 0]),
      gangOf 2 1 1 0 [7, 0, 0, 0], gangOf 2 4 1 0 (twoMembers 0), gangOf 2 1 4 0 (twoMembers 0),
      gangOf 2 1 1 99 (twoMembers 0), gangOf 2 4 1 0 (twoMembers 64)], refusedAt 0 b = true) ∧
    refusedAt 1 (gangOf 2 1 3 100 (twoMembers 64)) = true ∧ (parseTrigger 1 5 0 0).isSome = true ∧
    parseTrigger 4 5 0 0 = none ∧ waitLimitOk 99 = false ∧ waitLimitOk 100 = true ∧
    (parseMembers (twoMembers 64))[1]? = some none ∧ (parseMembers (twoMembers 64))[0]? ≠ some none := by
  decide +kernel

/-- What two members on given heads with a profile of the second read as. -/
def pair (a b : Head) (prof : Fin 64) (t : Trigger) : List JobDesc := [desc a 0 t, desc b prof t]

theorem stage_ownsPair (prof : Fin 64) (t : Trigger) (i : Nat) : ¬ stage.BadMember 0 (pair 0 4 prof t) i := by
  have own : (stage.head 0).owner = some 0 ∧ (stage.head 4).owner = some 0 := by decide +kernel
  rintro ⟨d, hd, h⟩
  match i with
  | 0 =>
    cases hd
    rcases h with h | ⟨m, _, hm, _⟩
    · exact h own.1
    · exact absurd hm (Nat.not_lt_zero m)
  | 1 =>
    cases hd
    rcases h with h | ⟨m, e, hm, he, hh⟩
    · exact h own.2
    · obtain rfl : m = 0 := by omega
      cases he
      exact absurd hh (show (0 : Head) ≠ 4 by decide)
  | n + 2 => simp [pair] at hd

/-- The same head twice names the later member; a head of no station names itself. -/
theorem test_witness_SubmitRefusals_gangHeads : stage.BadMember 0 (pair 0 0 0 .index) 1 ∧
    ¬ stage.BadMember 0 (pair 0 0 0 .index) 0 ∧ stage.BadMember 0 (pair 1 0 0 .index) 0 := by
  have own : (stage.head 0).owner = some 0 ∧ (stage.head 1).owner ≠ some 0 := by decide +kernel
  refine ⟨⟨_, rfl, .inr ⟨0, _, by decide, rfl, rfl⟩⟩, ?_, ⟨_, rfl, .inl own.2⟩⟩
  rintro ⟨d, hd, h⟩
  cases hd
  rcases h with h | ⟨m, _, hm, _⟩
  · exact h own.1
  · exact absurd hm (Nat.not_lt_zero m)

/-- Every slot but one is taken. -/
def oneRoom : State := { noRoom with slots := noRoom.slots.set 47 ⟨0, none⟩ }

/-- The checks after the heads, each failing alone; the states differ from the stage in counts and slots only. -/
theorem test_witness_SubmitRefusals_gangLater : stage.Settled ∧ (full 15 0).Settled ∧ oneRoom.Settled ∧
    stage.free (.sp 0) ∧ (parseGang (gangOf 2 1 1 0 (twoMembers 1))).toOption = some (pair 0 4 1 (.go 5)) ∧
    stage.profileOk (desc 4 1 (.go 5)) = false ∧ stage.profileOk (desc 0 0 (.go 5)) = true ∧
    (∀ d ∈ pair 0 4 0 (.after ⟨0, 0⟩), stage.profileOk d = true ∧ stage.predecessorOk 0 d.trigger = false) ∧
    (∀ s ∈ [full 15 0, full 0 31, oneRoom], s.free (.sp 0) ∧
      ∀ d ∈ pair 0 4 0 (.go 5), s.profileOk d = true ∧ s.predecessorOk 0 d.trigger = true) ∧
    16 < (full 15 0).admitted[(0 : Station)] + (pair 0 4 0 .index).length ∧
    32 < (full 0 31).admitted[(0 : Station)] + ((full 0 31).station 0).results.length + (pair 0 4 0 .index).length ∧
    oneRoom.admitted[(0 : Station)] + (pair 0 4 0 .index).length ≤ 16 ∧
    oneRoom.freeSlots.length < (pair 0 4 0 .index).length :=
  ⟨stage_settled, full_settled _ _, ⟨rfl, fun _ => ⟨rfl, rfl⟩⟩, rfl, by decide +kernel⟩

/-- A gang of two jobs of S0, on H0 in slot 0 and on H4 in slot 1, with converters C0 and C4 in a state. -/
def ganged (x : ConvState) (y z : JobState) : State :=
  let s := stage.setSlot 0 ⟨0, some { job0 y with gang := some ⟨⟨0, 0⟩, 0⟩ }⟩
  let s := s.setSlot 1 ⟨0, some { job0 z with head := 4, converter := some 4, gang := some ⟨⟨0, 0⟩, 1⟩ }⟩
  let s := s.setConv 0 { s.conv 0 with
    state := x, served := if y.running then some ⟨0, 0⟩ else none, tun := ⟨.seek, 3, 2, some 1000⟩, drive := 100000 }
  { s.setConv 4 { s.conv 4 with
      state := if z.running then .aligned else x, served := if z.running then some ⟨1, 0⟩ else none } with
    now := 1000, committed := 200 }

theorem test_witness_CancelSingle_gang :
    (∀ y ∈ ([.pending, .ready, .connecting, .seeking, .aligning, .heating, .cooling] : List JobState),
      (ganged .idle y .cooling).free (.sp 0) ∧ (ganged .idle y .cooling).membersOf 0 = [0, 1] ∧
      (ganged .idle y .cooling).jobIs 0 (fun j => j.state == y && j.outcome.isNone && j.gang.isSome) = true ∧
      (ganged .idle y .cooling).jobIs 1 (fun j => j.state == .cooling) = true ∧
      (ganged .idle .cooling y).jobIs 0 (fun j => j.state == .cooling) = true) := by decide +kernel

theorem test_witness_HandleRefusals : heating.Settled ∧ heating.free (.sp 0) ∧ heating.free (.sp 1) ∧
    47 < (48 : Byte).toNat ∧ byteOf (47 : SlotIx).val = 47 ∧ (heating.slot 0).gen ≠ 1 ∧ heating.job 47 = none ∧
    heating.job 0 = some (job0 .heating) ∧ (job0 .heating).station ≠ 1 ∧ mayRead (.sp 1) (job0 .heating) = false :=
  ⟨heating_settled, by decide +kernel⟩

/-- The lock of the member on C0 while the other seeks, and while it aligns. -/
theorem test_witness_LockStartsHeating_gang : (ganged .seeking .seeking .seeking).Settled ∧
    (∀ z ∈ ([.seeking, .aligning] : List JobState), ((ganged .seeking .seeking z).conv 0).served = some ⟨0, 0⟩ ∧
      (ganged .seeking .seeking z).handleOf 0 = ⟨0, 0⟩ ∧ (ganged .seeking .seeking z).membersOf 0 = [0, 1] ∧
      ((ganged .seeking .seeking z).conv 0).state = .seeking ∧
      ((ganged .seeking .seeking z).conv 0).tun = ⟨.seek, 3, 2, some (ganged .seeking .seeking z).now⟩ ∧
      (ganged .seeking .seeking z).jobIs 0 (fun j => j.state == .seeking && j.converter == some 0) = true ∧
      (ganged .seeking .seeking z).jobIs 1 (fun j =>
        j.state == z && j.converter == some 4 && j.station == 0) = true ∧
      ((ganged .seeking .seeking z).port (.sp 0)).notices.length + 2 ≤ 16) :=
  ⟨⟨rfl, fun _ => ⟨rfl, rfl⟩⟩, by decide +kernel⟩

/-- The entry of the gang. -/
def candGang : Cand := ⟨1, 0, 0, 0, [0, 1], some 1000⟩

/-- The gang in READY, its converters in IDLE. -/
def gangQueued : State := { ganged .idle .ready .ready with cands := [candGang], committed := 0, arbCause := true }

theorem test_witness_TimersEndJobs_gang :
    gangQueued.cands.find? (fun x => x.members.contains 1) = some candGang ∧
    candGang.waitTimer = some gangQueued.now ∧
    (∀ m ∈ candGang.members, gangQueued.jobIs m (fun j => j.state == .ready && j.outcome.isNone) = true) := by
  decide +kernel

theorem test_witness_GrantGivesConverter_gang : gangQueued.arbCause = true ∧ candGang.slot ∈ candGang.members ∧
    candGang.members.Nodup ∧ (gangQueued.job 0).map (·.head) ≠ (gangQueued.job 1).map (·.head) ∧
    gangQueued.eligible candGang = some [(0, 0), (1, 4)] ∧
    gangQueued.committed + gangQueued.candReservation candGang ≤ gangQueued.budget := by decide +kernel

/-! ## Hypotheses that are met: the jobs that a cause reaches -/

theorem test_witness_InputsReported_fall : (heating.station 0).live.get .purge ≠ false ∧
    heating.jobIs 0 (fun j => j.station == 0 && j.state.running) = true ∧
    (heating.station 0).marks.get .purge = false ∧ (heating.port (.sp 0)).notices.length < 16 := by decide +kernel

/-- The scene of a heating job under a lease with action ABORT that runs out now. -/
def lapsing : State :=
  heating.setStation 0 { heating.station 0 with lease := ⟨20, .abort, .live, false, some 1000⟩ }

theorem test_witness_LeaseExpires_abort : (lapsing.station 0).lease.timer = some lapsing.now ∧
    (lapsing.station 0).lease.action = .abort ∧ lapsing.jobIs 0 (fun j => j.station == 0) = true := by decide +kernel

/-- In STANDBY with ESTOP released, C4 is OFF and enabled. -/
def resting : State := { bank .off .none true with mode := .standby }

theorem test_witness_SetModeChanges_standby : heating.mode ≠ .standby ∧ heating.free .svp ∧
    heating.jobIs 0 (fun j => j.state.running) = true ∧ resting.free .svp ∧ resting.mode = .standby ∧
    resting.estop = false ∧ (resting.conv 4).enabled = true ∧ (resting.conv 4).state = .off ∧
    2 < (3 : Byte).toNat := by decide +kernel

/-- C4 in CONNECTING, its relay in motion or waiting for its condition. -/
theorem test_witness_FaultByState_served :
    (∀ r ∈ [closing, ⟨.open, .none, .close 4, some 1050, none, false⟩],
      ((pooled .connecting .connecting r).conv 4).pins.get .coolantLow = false ∧
      ((pooled .connecting .connecting r).conv 4).served = some ((pooled .connecting .connecting r).handleOf 0) ∧
      ((pooled .connecting .connecting r).conv 4).state = .connecting ∧
      ((pooled .connecting .connecting r).conv 4).pend ≠ .faulted ∧
      (pooled .connecting .connecting r).jobIs 0
        (fun j => j.state == .connecting && j.converter == some 4 && j.outcome.isNone) = true ∧
      (pooled .connecting .connecting r).membersOf 0 = [0]) ∧
    poolOf 4 = some 0 ∧ (heating.conv 0).pins.get .linkLow = false ∧ (heating.conv 0).state.drives = true ∧
    (heating.conv 0).served = some (heating.handleOf 0) := by decide +kernel

/-! ## Hypotheses that are met: more of the bank -/

/-- The warm-up of C4 has waited for a reset hold that ends at a given time. -/
def waited (q : PowerPins) (e : Nat) : State :=
  { (warm q).setConv 4 { (warm q).conv 4 with warmTimer := none } with relayHold := some e }

theorem test_witness_PowerOnAndPinReset_warm :
    (waited .quiet 1001).Settled ∧ (waited .quiet 1001).relayHold = some 1001 ∧ (waited .quiet 1001).now < 1001 ∧
    (∀ q ∈ ([.quiet, ⟨false, true, false⟩] : List PowerPins), (waited q 1000).relayHold = some (waited q 1000).now ∧
      ((waited q 1000).conv (poolConv 0)).state = .warmup ∧ ((waited q 1000).conv (poolConv 0)).warmTimer = none ∧
      ((waited q 1000).conv (poolConv 0)).pins = q ∧ ((waited q 1000).relay 0).openingDue = false ∧
      ((waited q 1000).relay 0).pos = .open ∧ ((waited q 1000).relay 0).motion = .none) ∧
    PowerPins.quiet.firstFault = none ∧ (⟨false, true, false⟩ : PowerPins).firstFault = some .coolant :=
  ⟨⟨rfl, fun _ => ⟨rfl, rfl⟩⟩, by decide +kernel⟩

/-- The discharge interval of C4 has one millisecond to go at the end of the hold. -/
theorem test_witness_PowerOnAndPinReset_interval :
    let s := held.setConv 4 { held.conv 4 with lastOffAt := 401 }
    s.relayHold = some s.now ∧ (s.relay 0).pos = .closed 4 ∧ (s.relay 0).motion = .none ∧
    (s.conv (poolConv 0)).outputOn = false ∧ (s.conv (poolConv 0)).state ≠ .idle ∧
    s.now < (s.conv (poolConv 0)).lastOffAt + (s.conv (poolConv 0)).interval := by decide +kernel

theorem test_witness_ConvertersResolve_warm :
    (∀ t ∈ ([.held, .off] : List PendingTarget), ((bank .warmup t true).conv 4).pend = t ∧
      warmupMayEnd 4 (bank .warmup t true) = true ∧ ((bank .warmup t true).conv 4).pins = .quiet) ∧
    warmupMayEnd 4 ((bank .warmup .none true).setRelay 0 opening) = false ∧
    ((bank .warmup .none true).setRelay 0 opening).Settled ∧
    ({ bank .warmup .none true with now := 999 } : State).Settled :=
  ⟨by decide +kernel, by decide +kernel, ⟨rfl, fun _ => ⟨rfl, rfl⟩⟩, ⟨rfl, fun _ => ⟨rfl, rfl⟩⟩⟩

/-- The first motion of a reconnect from H5 to H4 ends, and a withdrawn connection whose relay still moves. -/
theorem test_witness_RelayMotionsComplete_more :
    (let s := pooled .connecting .connecting ⟨.closed 5, .opening 5 1000, .close 4, none, none, false⟩
     (s.relay 0).motion = .opening 5 s.now ∧ (s.relay 0).plan = .close 4 ∧ s.relayHold = none ∧
     (s.conv (poolConv 0)).state = .connecting ∧ (s.conv (poolConv 0)).served ≠ none ∧
     (s.conv (poolConv 0)).outputOn = false ∧
     (s.conv (poolConv 0)).lastOffAt + (s.conv (poolConv 0)).interval ≤ s.now) ∧
    ∀ t ∈ ([.none, .held, .off, .faulted] : List PendingTarget), ∀ r ∈ [opening, closing],
      let s := (bank .connecting t true).setRelay 0 r
      (s.conv (poolConv 0)).state = .connecting ∧ (s.conv (poolConv 0)).served = none ∧
      (s.conv (poolConv 0)).pend = t ∧ (s.relay 0).plan = .empty ∧ (s.relay 0).motion = r.motion := by
  decide +kernel

/-- The job of slot 0 waits in READY for H4 with a relay as given, C4's last output-off at a given time. -/
def pooledReady (r : Relay) (off : Nat) : State :=
  let s := queued.setSlot 0 ⟨0, some { job0 .ready with head := 4 }⟩
  { (s.setRelay 0 r).setConv 4 { s.conv 4 with state := .idle, lastOffAt := off } with arbCause := true }

theorem test_witness_GrantGivesConverter_pooled :
    ∀ r ∈ ([⟨.closed 4, .none, .empty, none, none, false⟩, ⟨.open, .none, .empty, none, none, false⟩,
        ⟨.closed 5, .none, .empty, none, none, false⟩] : List Relay), ∀ off ∈ [900, 901],
      let s := pooledReady r off
      s.arbCause = true ∧ s.cands = [cand0] ∧ s.jobIs 0 (fun j => j.state == .ready && j.head == 4) = true ∧
      s.stationServes 0 = true ∧ fixedConv 4 = none ∧ s.choosePool 4 [] [] = some 0 ∧ s.occupant 4 = none ∧
      s.committed + 100 ≤ s.budget ∧ s.relay 0 = r ∧ s.relayHold = none ∧
      (s.conv (poolConv 0)).outputOn = false ∧
      ((s.conv (poolConv 0)).lastOffAt + (s.conv (poolConv 0)).interval ≤ s.now ↔ off = 900) := by decide +kernel

/-! ## Hypotheses that are met: more of heating -/

theorem test_witness_SettleExpirySteps_outside :
    (∀ x ∈ ([(64, 100000), (0, 50499), (0, 200501)] : List (Nat × Nat)),
      ((tuned .seek x.1 1 x.2).conv 0).tun = ⟨.seek, x.1, 1, some (tuned .seek x.1 1 x.2).now⟩ ∧
      ((tuned .seek x.1 1 x.2).conv 0).drive = x.2) ∧
    0 < head0.fmin ∧ 50499 < head0.fmin + head0.step ∧ head0.fmax + head0.step < 200501 ∧
    ((tuned .track 64 0 50499).conv 0).tun = ⟨.track, 64, 0, some (tuned .track 64 0 50499).now⟩ ∧
    ((tuned .track 64 0 50499).conv 0).served = some ((tuned .track 64 0 50499).handleOf 0) := by decide +kernel

/-- The job of slot 0 after a run of NO_SIGNAL samples. -/
def silent (s : State) (n : Nat) : State := s.modJob 0 fun j => { j with noSig := n }

theorem test_witness_SamplesMeasure_readings :
    (∀ s ∈ [heating, seeking, silent heating 8, silent heating 9, limited .rise],
      (s.conv 0).served = some (s.handleOf 0) ∧ (s.conv 0).nextSample = some s.now ∧ poolOf 0 = none ∧
      s.jobIs 0 (fun j => j.outcome.isNone && j.state != .cooling) = true ∧ (s.prof 0).ceiling = 700) ∧
    (heating.conv 0).eng.phase = .run ∧ (seeking.conv 0).eng.phase = .watch ∧
    (heating.conv 0).eng.seg = some ⟨0, seg0⟩ ∧ seg0.endsAt .noSignal false = false ∧
    seg0.endsAt (.temp 700) true = false ∧
    (⟨.rise, 600, 5, 100, 40, 0, 5⟩ : Segment).endsAt (.temp 600) false = true ∧
    ((limited .rise).conv 0).eng.seg = some ⟨0, ⟨.rise, 600, 5, 100, 40, 0, 5⟩⟩ ∧
    (silent heating 8).jobIs 0 (fun j => j.noSig + 1 < 10) = true ∧
    (silent heating 9).jobIs 0 (fun j => 10 ≤ j.noSig + 1) = true ∧ (heating.prof 0).ceiling < 701 := by
  decide +kernel

/-- The job of slot 0 heats in the last segment of its head run; its profile has a tail run or not. -/
def lastSegment (tail : Nat) : State :=
  { heating.modJob 0 fun j => { j with index := 1 } with
    profs := heating.profs.set 0 { prof0 with tailStart := 1, tailCount := tail } }

theorem test_witness_SegmentTimersExpire_tail :
    (∀ n ∈ [0, 1], ((lastSegment n).conv 0).served = some ((lastSegment n).handleOf 0) ∧
      (lastSegment n).jobIs 0 (fun j => j.state == .heating && j.run == .head && j.index == 1) = true ∧
      ((lastSegment n).conv 0).eng.timer = .duration (lastSegment n).now ∧
      ((lastSegment n).prof 0).headCount ≤ 1 + 1 ∧ (((lastSegment n).prof 0).window .head).2 ≤ 1 + 1) ∧
    (lastSegment 1).Settled ∧ ((lastSegment 1).prof 0).tailCount ≠ 0 ∧ ((lastSegment 0).prof 0).tailCount = 0 :=
  ⟨by decide +kernel, ⟨rfl, fun _ => ⟨rfl, rfl⟩⟩, by decide +kernel⟩

/-- A job that is heated has its head under conversion, after a run of NO_SIGNAL conversions. -/
def guarded (y : JobState) (n : Nat) : State :=
  { (scene .heating y).modJob 0 fun j => { j with guardNoSig := n } with conversion := some (0, 1000) }

theorem test_witness_GuardReleases_heated :
    (∀ y ∈ ([.seeking, .aligning, .heating] : List JobState), ∀ n ∈ [0, 1],
      (guarded y n).conversion = some (0, (guarded y n).now) ∧ (guarded y n).occupant 0 = some 0 ∧
      (guarded y n).jobIs 0 (fun j => j.state == y && j.guardNoSig == n && j.outcome.isNone) = true ∧
      ((guarded y n).prof 0).guardLimit = 100) ∧ 0 + 1 < 2 ∧ 2 ≤ 1 + 1 := by decide +kernel

/-- Which bytes of a WRITE-HEAD pass, at bounds of their ranges. -/
theorem test_witness_WriteHeadStores_refused : parseWriteHead [] = none ∧ headBytes.length = 22 ∧
    (parseWriteHead (headBytes.set 1 0xFF)).map (·.2.owner) = some none ∧
    (parseWriteHead (headBytes.set 0 16)).isNone = true ∧ (parseWriteHead (headBytes.set 1 4)).isNone = true ∧
    (parseWriteHead (headBytes.set 2 45)).isNone = true ∧ (parseWriteHead (headBytes.set 18 0)).isNone = true ∧
    (parseWriteHead (headBytes.set 19 51)).isNone = true ∧ (parseWriteHead (headBytes.set 21 4)).isNone = true := by
  decide +kernel

/-! ## Hypotheses that are met: full queues, rises, successors -/

/-- The queues of S0's port and of SVP are full. -/
def crowded (s : State) : State :=
  let many := List.replicate 16 ⟨0, .estop false .run⟩
  (s.setPort (.sp 0) { s.port (.sp 0) with notices := many }).setPort .svp { s.port .svp with notices := many }

theorem test_witness_full_queues :
    (∀ s ∈ [purge false, lapsing, cooling, heating, stopped],
      16 ≤ ((crowded s).port (.sp 0)).notices.length ∧ 16 ≤ ((crowded s).port .svp).notices.length) ∧
    ((crowded (purge false)).station 0).marks.get .purge = false ∧
    ((crowded lapsing).station 0).lease.timer = some (crowded lapsing).now ∧
    (crowded cooling).jobIs 0 (fun j => j.station == 0) = true ∧ (crowded heating).estop = false ∧
    (crowded stopped).estop = true ∧ (crowded stopped).Settled :=
  ⟨by decide +kernel, by decide +kernel, by decide +kernel, by decide +kernel, rfl, rfl, rfl, fun _ => ⟨rfl, rfl⟩⟩

/-- The job of slot 0 waits in READY with PURGE low at its station, CLAMP as given. -/
def rising (clamp : Bool) : State :=
  queued.setStation 0 { queued.station 0 with live := ⟨clamp, false, true⟩ }

theorem test_witness_InputsReported_rise :
    (∀ b, (rising b).Settled ∧ ((rising b).station 0).live.get .purge ≠ true ∧
      (((rising b).station 0).live.put .purge true).allHigh = b ∧
      (rising b).jobIs 0 (fun j => j.state == .ready) = true ∧ (rising b).job 1 = none) ∧
    ((rising true).conv 1).state ≠ .idle :=
  ⟨fun b => ⟨⟨rfl, fun _ => ⟨rfl, rfl⟩⟩, by revert b; decide +kernel⟩, by decide +kernel⟩

/-- A law of jobs from a test of every slot. -/
theorem jobLaw_of {s : State} (h : ∀ k, (s.job k).all (fun j =>
    (j.outcome != some .ok && j.outcome != some .underwet || j.state == .cooling) &&
    j.converter.all fun c => (s.conv c).served == some (s.handleOf k) && (s.conv c).state.serves) = true) :
    s.JobLaw := by
  constructor
  · intro k j hk ho
    have := h k
    rw [hk] at this
    rcases ho with ho | ho <;> simp [ho] at this <;> exact this.1
  · intro k j c hk hc
    have := h k
    rw [hk] at this
    simp [hc] at this
    exact this.2

/-- The job of slot 0 cools with an outcome; the job of slot 1 waits in PENDING for it. -/
def chained (o : JobOutcome) : State :=
  (cooling.modJob 0 fun j => { j with outcome := some o }).setSlot 1
    ⟨0, some { job0 .pending with head := 4, trigger := .after ⟨0, 0⟩ }⟩

theorem test_witness_EndedReports_successors :
    (∀ o ∈ ([.ok, .cancelled] : List JobOutcome), (chained o).jobIs 0 (fun j => j.outcome == some o) = true ∧
      (chained o).membersOf 1 = [1] ∧ (chained o).handleOf 0 = ⟨0, 0⟩ ∧
      (chained o).jobIs 1 (fun i => i.state == .pending && i.trigger == .after ⟨0, 0⟩) = true) ∧
    (chained .cancelled).JobLaw ∧ (chained .ok).jobIs 0 (fun j => j.state == .cooling &&
      j.coolDwellTimer == some (chained .ok).now && j.coolLimitTimer == some (chained .ok).now) = true :=
  ⟨by decide +kernel, jobLaw_of (by decide +kernel), by decide +kernel⟩

/-! ## Hypotheses that are met: STANDBY and the connection matrix -/

/-- The bank with C4 in a state and a pending target, and its relay as given. -/
def matrix (x : ConvState) (t : PendingTarget) (r : Relay) : State := (bank x t true).setRelay 0 r

/-- A relay at rest closed to H4, with a plan. -/
def closedTo (plan : RelayPlan) : Relay := ⟨.closed 4, .none, plan, none, none, false⟩

theorem test_witness_StandbyActsOnConverters_jobs : heating.JobLaw ∧ heating.free .svp ∧ heating.mode ≠ .standby ∧
    heating.estop = false ∧ (pooled .connecting .connecting closing).JobLaw ∧
    (pooled .connecting .connecting (closedTo (.openThenClose 5))).JobLaw :=
  ⟨jobLaw_of (by decide +kernel), rfl, by decide, rfl, jobLaw_of (by decide +kernel), jobLaw_of (by decide +kernel)⟩

/-- In CONNECTING: served with the relay in motion and at rest, and withdrawn already. -/
theorem test_witness_StandbyActsOnConverters_connecting : poolOf 4 = some 0 ∧
    (∀ r ∈ [opening, closing, waiting, closedTo (.openThenClose 5)],
      ∀ t ∈ ([.none, .held, .off, .faulted] : List PendingTarget),
      let s := (pooled .connecting .connecting r).modConv 4 fun v => { v with pend := t }
      (s.conv 4).state = .connecting ∧ (s.conv 4).served ≠ none ∧ (s.conv 4).pend = t ∧
      ((s.relay 0).motion ≠ .none ↔ r = opening ∨ r = closing)) ∧
    ((matrix .connecting .none closing).conv 4).state = .connecting ∧
    ((matrix .connecting .none closing).conv 4).served = none := by decide +kernel

/-- A relay on which a disconnect request finds each case of `Disconnects`, in IDLE and in HELD. -/
theorem test_witness_Disconnects :
    ∀ x ∈ ([.idle, .held] : List ConvState),
      (let s := matrix x .none ⟨.open, .none, .empty, none, none, false⟩
       (s.relay 0).pos = .open ∧ (s.relay 0).motion = .none) ∧
      ((matrix x .none opening).relay 0).motion = .opening 4 1000 ∧
      ((matrix x .none closing).relay 0).motion = .closing 4 1000 ∧
      (let s := matrix x .none (closedTo .empty)
       (s.relay 0).pos = .closed 4 ∧ (s.relay 0).motion = .none ∧ s.relayHold = none ∧
       (s.conv (poolConv 0)).outputOn = false ∧ s.relayReadyAt 0 ≤ s.now ∧
       (s.conv 4).state = x ∧ (s.conv 4).enabled = true ∧ (s.conv 4).pend = .none ∧ s.free .svp ∧
       ({ s with now := 99 } : State).now < s.relayReadyAt 0 ∧
       ({ s with relayHold := some 1001 } : State).relayHold ≠ none ∧
       ((s.modConv 4 fun v => { v with outputOn := true }).conv 4).outputOn = true) := by decide +kernel

/-- What looks at each plan of a relay, and the first millisecond at which it may move. -/
theorem test_witness_BudgetAndDischargeStored_motion :
    (∀ pl ∈ ([.open, .openThenClose 5, .close 5] : List RelayPlan),
      let s := { matrix .connecting .none (closedTo pl) with now := 100 }
      (s.relay 0).pos = .closed 4 ∧ (s.relay 0).plan = pl ∧ (s.relay 0).motion = .none ∧ s.relayHold = none ∧
      (s.conv (poolConv 0)).outputOn = false ∧ s.relayReadyAt 0 = s.now ∧
      ({ s with now := 99 } : State).now < s.relayReadyAt 0) ∧
    (let s := matrix .connecting .none ⟨.open, .none, .openThenClose 5, none, none, false⟩
     (s.relay 0).plan = .openThenClose 5 ∧ (s.relay 0).pos = .open ∧ s.relayReadyAt 0 ≤ s.now) ∧
    ((matrix .connecting .none closing).relay 0).motion ≠ .none ∧
    ((matrix .connecting .none (closedTo .empty)).relay 0).plan = .empty := by decide +kernel

/-! ## Hypotheses that are met: passes and walks -/

/-- The scanner with a scan set and a pass list, over a state. -/
def scanning (s : State) (scan pass : List Head) : State := { s with scanSet := scan, passList := pass }

theorem test_witness_GuardReleases_pass :
    (∀ x ∈ ([([0, 3, 5], [3, 5]), ([0, 3], []), ([], [])] : List (List Head × List Head)),
      let s := scanning (guarded .heating 0) x.1 x.2
      s.Settled ∧ s.conversion = some (0, s.now) ∧ s.occupant 0 = some 0 ∧ s.scanSet = x.1 ∧ s.passList = x.2) ∧
    (let s := { guarded .heating 0 with now := 999 }
     s.Settled ∧ s.conversion = some (0, 1000) ∧ s.now < 1000) ∧
    (∀ x ∈ ([([0, 3, 5], [3, 5]), ([0, 3], [0]), ([0], [])] : List (List Head × List Head)),
      let s := scanning cooling x.1 x.2
      s.jobIs 0 (fun j => j.state == .cooling && j.head == 0) = true ∧ s.conversion = some (0, 1000) ∧
      ({ s with conversion := some (3, 1000) } : State).conversion = some (3, 1000)) ∧
    (let s := scanning stage [3] []
     s.arbCause = false ∧ s.conversion = none ∧ s.passList = [] ∧ s.scanSet = [3]) := by
  refine ⟨?_, ⟨⟨rfl, nofun⟩, rfl, by decide⟩, by decide +kernel, by decide +kernel⟩
  intro x hx
  exact ⟨⟨rfl, nofun⟩, rfl, show (guarded .heating 0).occupant 0 = some 0 by decide +kernel, rfl, rfl⟩

/-- An entry whose slot holds no job, and that of the job of slot 1. -/
def candGone : Cand := ⟨0, 0, 0, 5, [5], none⟩
def cand1 : Cand := ⟨2, 0, 1, 1, [1], none⟩

/-- Jobs of S0 wait in READY for H0 and H1, their converters in IDLE, with a budget. -/
def twoQueued (budget : Nat) : State :=
  let s := queued.setSlot 1 ⟨0, some { job0 .ready with head := 1 }⟩
  { s.setConv 1 { s.conv 1 with state := .idle, enabled := true } with
    cands := [candGone, cand0, candGone, cand1], budget := budget, arbCause := true }

theorem test_witness_GrantsKeepTheirConditions_walk :
    ({ twoQueued 99 with cands := [candGone] } : State).eligible candGone = none ∧
    (twoQueued 99).eligible candGone = none ∧ (twoQueued 99).eligible cand0 = some [(0, 0)] ∧
    (twoQueued 99).budget < (twoQueued 99).committed + (twoQueued 99).candReservation cand0 ∧
    (let s := twoQueued 199
     let u := grant cand0 [(0, 0)] { s with arbCause := false, arbSeq := s.arbSeq + 1 }
     s.cands = [candGone] ++ cand0 :: ([candGone] ++ cand1 :: []) ∧ s.eligible cand0 = some [(0, 0)] ∧
     s.committed + s.candReservation cand0 ≤ s.budget ∧ u.eligible candGone = none ∧
     u.eligible cand1 = some [(1, 1)] ∧ u.budget < u.committed + u.candReservation cand1) := by decide +kernel

/-- The first eligible of four candidates fits; and two pool converters with one time of the last output-off. -/
theorem test_witness_GrantGivesConverter_choice :
    ((twoQueued 100).eligible candGone = none ∧ (twoQueued 100).eligible cand0 = some [(0, 0)] ∧
      (twoQueued 100).cands = [candGone] ++ cand0 :: [candGone, cand1] ∧
      (twoQueued 100).committed + (twoQueued 100).candReservation cand0 = (twoQueued 100).budget) ∧
    let s := (matrix .idle .none ⟨.closed 5, .none, .empty, none, none, false⟩).setRelay 1
      ⟨.closed 6, .none, .empty, none, none, false⟩
    let s := s.setConv 5 (s.conv 4)
    s.poolAvailable 4 [] 0 = true ∧ s.poolAvailable 4 [] (otherPool 0) = true ∧
    (∀ q, (s.relay q).pos ≠ .closed 4 ∧ (s.relay q).pos ≠ .open) ∧
    (s.conv (poolConv 0)).lastOffAt = (s.conv (poolConv (otherPool 0))).lastOffAt := by decide +kernel

/-! ## Steps -/

/-- What one command leaves behind, seen through a test. -/
def after (s : State) (i : Instr) (test : State → Bool) : Bool :=
  match step { s with pending := [i] } with
  | .next t => test t && t.pending == []
  | .fault _ | .refused _ => false

theorem test_submit_granted : after (stage.setConv 0 { stage.conv 0 with state := .idle })
    (.submit (.sp 0) (submitBytes 0 0 0)) (fun t => t.jobIs 0 (·.state == .seeking) && t.committed == 100 &&
      (t.conv 0).outputOn && (t.port (.sp 0)).reply == some ⟨0x10, .accepted, [0, 0, 100, 0]⟩) = true := by
  decide +kernel

theorem test_sample_adds_energy : after heating (.pyrometerSample 0 (.temp 600) false) (fun t =>
    t.jobIs 0 (fun j => j.energy == 100 && j.peak == 600 && j.above == 1 && j.state == .heating)) = true := by
  decide +kernel

theorem test_sample_overheat : after heating (.pyrometerSample 0 (.temp 701) false) (fun t =>
    t.jobIs 0 (fun j => j.outcome == some .overheat && j.state == .cooling) && t.committed == 0 &&
      !(t.conv 0).outputOn && (t.conv 0).dischTimer == some 1100) = true := by decide +kernel

theorem test_lock_heats : after (tuned .seek 5 2 100000) (.settleExpiry 0 .centered) (fun t =>
    t.jobIs 0 (fun j => j.state == .heating && j.locked == 100000) && (t.conv 0).command == 100 &&
      (t.port (.sp 0)).notices == [⟨0, .jobHeating ⟨0, 0⟩ 7 0 0⟩]) = true := by decide +kernel

theorem test_duration_enters_coast : after heating (.segmentDurationExpiry 0) (fun t =>
    t.jobIs 0 (fun j => j.index == 1) && !(t.conv 0).outputOn && (t.conv 0).tun.phase == .suspended &&
      (t.conv 0).eng.timer == .duration 1007) = true := by decide +kernel

theorem test_estop_stops : after heating .estopAssertion (fun t => t.mode == .standby && t.committed == 0 &&
    t.jobIs 0 (fun j => j.outcome == some .estop && j.state == .cooling) && (t.conv 0).pend == .off &&
    (t.port .svp).notices == [⟨0, .estop true .run⟩, ⟨0, .modeChanged .standby .estop⟩]) = true := by
  decide +kernel

theorem test_guard_release : after cooling (.guardConversionComplete (.temp 50)) (fun t =>
    (t.job 0).isNone && (t.slot 0).gen == 1 && (t.station 0).results.length == 1 &&
      t.admitted[(0 : Station)] == 0 && t.segUse[(0 : Fin 256)] == 0) = true := by decide +kernel

theorem test_frame_arrives : after (receiver (.receiving 1 [0x51, 0xEA])) (.frameReceived .svp 0x64) (fun t =>
    (t.port .svp).reply == some ⟨0x51, .accepted, stage.lineStatus⟩ && (t.port .svp).rx == .hunting) = true := by
  decide +kernel

/-- The energy counts the command held over the millisecond, whatever another event of it has put in force. -/
theorem test_energy_of_held_command :
    after (heating.setConv 0 { heating.conv 0 with outputOn := false, command := 0 })
      (.pyrometerSample 0 (.temp 600) false) (fun t => t.jobIs 0 (fun j => j.energy == 100)) = true ∧
    after heating .lineClockMillisecond (fun t => (t.conv 0).msCommand == 100) = true := by decide +kernel

theorem test_gang_aligned_start : after (ganged .seeking .seeking .aligning) (.settleExpiry 0 .centered) (fun t =>
    t.jobIs 0 (·.state == .heating) && t.jobIs 1 (·.state == .heating) && (t.port (.sp 0)).notices ==
      [⟨0, .jobHeating ⟨0, 0⟩ 7 0 0⟩, ⟨0, .jobHeating ⟨1, 0⟩ 7 4 4⟩]) = true := by decide +kernel

theorem test_gang_cancelled : after (ganged .seeking .seeking .aligning) (.cancel (.sp 0) [1, 0]) (fun t =>
    t.jobIs 0 (fun j => j.state == .cooling && j.outcome == some .cancelled) &&
    t.jobIs 1 (fun j => j.state == .cooling && j.outcome == some .cancelled) && t.committed == 0 &&
    (t.port (.sp 0)).reply == some ⟨0x13, .accepted, [4, 2]⟩) = true := by decide +kernel

theorem test_warmups_end_with_hold : after (waited .quiet 1000) .relayHoldEnd (fun t =>
    (t.conv 4).state == .idle && t.relayHold == none) = true := by decide +kernel

/-- The successors of a job ended OK enter READY, those of any other end CHAIN_BROKEN. -/
theorem test_successors :
    after (chained .ok) (.coolDwellExpiry 0) (fun t => (t.job 0).isNone && t.jobIs 1 (·.state == .ready)) = true ∧
    after (chained .cancelled) (.coolDwellExpiry 0) (fun t => (t.job 0).isNone && (t.job 1).isNone &&
      (t.station 0).results.map (·.outcome) == [some .cancelled, some .chainBroken]) = true := by decide +kernel

theorem test_full_queue_drops : after (crowded lapsing) (.leaseExpiry 0) (fun t =>
    (t.port .svp).dropped && (t.port .svp).notices == ((crowded lapsing).port .svp).notices) = true := by decide +kernel

theorem test_next_head_converts : after (scanning (guarded .heating 0) [0, 3] []) (.guardConversionComplete (.temp 50))
    (fun t => t.conversion == some (0, 1005) && t.passList == [3]) = true := by decide +kernel

theorem test_walk_stops_at_budget : after { twoQueued 199 with arbCause := true } (.setBudget .svp [199, 0]) (fun t =>
    t.jobIs 0 (·.state == .seeking) && t.jobIs 1 (·.state == .ready) && t.committed == 100) = true := by decide +kernel

theorem test_standby_opens_relay : after (matrix .idle .none (closedTo .empty)) (.setMode .svp [0]) (fun t =>
    (t.conv 4).state == .off && (t.relay 0).motion == .opening 4 1010) = true := by decide +kernel

/-! ## States that satisfy the laws -/

/-- C0 heats and a tick of the line clock waits. -/
def ticking : State := { heating with pending := [.lineClockMillisecond] }

theorem ticking_steps : (match step ticking with | .next t => t.now | _ => 0) = 1001 := by decide +kernel

theorem ticking_alone : ∀ k : SlotIx, ∀ j, ticking.job k = some j → k = 0 := by
  have h : ∀ k : SlotIx, k ≠ 0 → ticking.job k = none := by decide +kernel
  intro k j hk
  by_contra hne
  rw [h k hne] at hk
  exact nomatch hk

theorem test_witness_OutputLawKept : ticking.OutputLaw :=
  ⟨by decide +kernel, by decide +kernel, by decide +kernel, by decide +kernel, by decide +kernel⟩

theorem test_witness_PowerLawKept : ticking.PowerLaw := by
  show ticking.committed = ∑ k, ticking.holds k
  decide +kernel

theorem test_witness_UseLawKept : ticking.UseLaw := by
  constructor
  · show ∀ p : Fin 64, ticking.profUse[p] = ∑ k, ticking.countIf k (fun j => j.profile == p)
    decide +kernel
  · show ∀ i : Fin 256, ticking.segUse[i] = ∑ k, ticking.usesOf k i.val
    decide +kernel

theorem test_witness_QuotaLawKept : ticking.QuotaLaw := by
  constructor
  · show ∀ n : Station, ticking.admitted[n] = ∑ k, ticking.countIf k (fun j => j.station == n)
    decide +kernel
  · show ∀ n : Station, ticking.admitted[n] ≤ Config.stationJobLimit
    decide +kernel
  · show ∀ n : Station, ticking.admitted[n] + ticking.resultsHeld n ≤ Config.resultPlaces
    decide +kernel

theorem test_witness_ScanLawKept : ticking.ScanLaw := by
  constructor
  · intro k m i j hk hm _ _ _
    rw [ticking_alone k i hk, ticking_alone m j hm]
  · have h : ∀ h, (ticking.head h).guardEnable = false := by decide +kernel
    have e : ticking.scanSet = [] := rfl
    simp [h, e]

theorem test_witness_PortAndCandLawKept : ticking.PortLaw ∧ ticking.CandLaw := by
  have h : ∀ p ∈ allPorts, (ticking.port p).notices.length ≤ Config.noticePlaces ∧
      (ticking.port p).holding.length ≤ Config.holdingPlaces ∧
      ((ticking.port p).reply = none ↔ (ticking.port p).holding = []) := by decide +kernel
  have all : ∀ p, p ∈ allPorts := by
    intro p
    cases p with
    | sp n => revert n; decide
    | svp => decide
  exact ⟨⟨fun p => (h p (all p)).1, fun p => (h p (all p)).2.1, fun p => (h p (all p)).2.2⟩,
    List.Pairwise.nil⟩

theorem test_witness_PortAndCandLawKept_jobs : ticking.JobLaw := jobLaw_of (by decide +kernel)

end Sys2Proof.Tests
end

section
/-! PROOFS. How a request of the supervisor port is answered on each port, and what its payload fields read as. -/

namespace Sys2Proof.Machine

open State

/-! ## Bytes and fields -/

@[simp] theorem byteOf_toNat (b : Byte) : byteOf b.toNat = b := by
  simp [byteOf]

theorem toNat_byteOf {n : Nat} (h : n < 256) : (byteOf n).toNat = n := by
  simp [byteOf, h]

theorem inRange_iff {lo n hi : Nat} : inRange lo n hi = true ↔ lo ≤ n ∧ n ≤ hi := by
  simp [inRange]

/-- A number that fits a byte and its range is read back. -/
theorem parseIndex_byteOf {n : Nat} (h : n ≤ 256) (i : Fin n) : parseIndex n [byteOf i.val] = some i := by
  have e : (byteOf i.val).toNat = i.val := toNat_byteOf (Nat.lt_of_lt_of_le i.isLt h)
  simp [parseIndex, rdFin, e]

/-- A payload that is not one byte, or whose byte is out of range, is no number (R168). -/
theorem parseIndex_eq_none {n : Nat} {b : List Byte} (h : ∀ x, b = [x] → n ≤ x.toNat) :
    parseIndex n b = none := by
  match b with
  | [] => rfl
  | [x] => exact dif_neg (Nat.not_lt.mpr (h x rfl))
  | _ :: _ :: _ => rfl

theorem withField_of_none {α : Type} {x : Option α} (h : x = none) (s : State) (f : α → State × Answer) :
    withField x s f = refuse .badField 0 0 s := by
  rw [h]
  rfl

theorem withField_of_some {α : Type} {x : Option α} {a : α} (h : x = some a) (s : State)
    (f : α → State × Answer) : withField x s f = f a := by
  rw [h]
  rfl

/-! ## Answers -/

/-- A request that every station port answers WRONG_PORT is wrong on the station ports (R170). -/
theorem wrongOnStations_of {c : Port → List Byte → Instr} {kind : Byte} {s : State}
    (hx : ∀ p b, exec (c p b) s = .next (finish (requestArrives p kind b s))) (hs : s.Settled)
    (h : ∀ n b u, carryOut (.sp n) kind b u = refuse .wrongPort 0 0 u) : WrongOnStations c kind s :=
  fun n b hf => refuses_of (hx (.sp n) b) hs hf (by decide) (h n b _)

/-- A request of the supervisor that is accepted with an effect which leaves the state settled: its effect and its
reply are all that the step makes of the state. -/
theorem exec_of_accept {c : Instr} {s u : State} {kind : Byte} {b data : List Byte}
    (hx : exec c s = .next (finish (requestArrives .svp kind b s))) (hf : s.free .svp) (hu : u.Settled)
    (h : carryOut .svp kind b (s.holdingIt .svp kind b) = accept data (u.holdingIt .svp kind b)) :
    exec c s = .next (u.answered .svp kind b .accepted data) := by
  rw [hx, requestArrives_of_free hf, take_of_accept h]
  exact congrArg _ (finish_of_settled (hu.answered .svp kind b .accepted data))

@[simp] theorem port_answered_reply (s : State) (p : Port) (kind : Byte) (b : List Byte) (code : ReplyCode)
    (data : List Byte) : ((s.answered p kind b code data).port p).reply = some ⟨kind, code, data⟩ := by
  simp only [answered, replying, port_setPort_self]

end Sys2Proof.Machine
end

section
/-! PROOFS. The segment table: what WRITE-SEGMENTS reads from its payload, checks and stores (R2, R12). -/

namespace Sys2Proof.Machine

open State

/-! ## The records of the payload -/

/-- Every 12 bytes are one record. -/
theorem length_parseSegments (b : List Byte) : (parseSegments b).length = b.length / 12 := by
  fun_induction parseSegments b with
  | case1 k t0 t1 b p0 p1 q0 q1 d0 d1 l0 l1 rest ih =>
    simp only [List.length_cons, ih]
    omega
  | case2 b h =>
    have short : b.length < 12 := by
      by_contra long
      obtain ⟨n, hn⟩ := Nat.exists_eq_add_of_le' (Nat.not_lt.mp long)
      match b, hn with
      | k :: t0 :: t1 :: b :: p0 :: p1 :: q0 :: q1 :: d0 :: d1 :: l0 :: l1 :: rest, _ =>
        exact h k t0 t1 b p0 p1 q0 q1 d0 d1 l0 l1 rest rfl
    simp [Nat.div_eq_of_lt short]

/-! ## The table after a write -/

theorem writeSegs_outside {n : Nat} (hn : n < 256) (gs : List Segment) (i : Nat) (v : Vector Segment 256)
    (h : n < i ∨ i + gs.length ≤ n) : (writeSegs i gs v)[n] = v[n] := by
  induction gs generalizing i v with
  | nil => rfl
  | cons g gs ih =>
    rw [List.length_cons] at h
    rw [writeSegs, ih _ _ (by omega)]
    split
    · exact Vector.getElem_set_ne _ _ (by omega)
    · rfl

theorem writeSegs_inside {g : Segment} {gs : List Segment} {i m : Nat} (hg : gs[m]? = some g)
    (v : Vector Segment 256) (h : i + m < 256) : (writeSegs i gs v)[i + m] = g := by
  induction gs generalizing i m v with
  | nil => cases hg
  | cons x gs ih =>
    cases m with
    | zero =>
      obtain rfl : x = g := by simpa using hg
      rw [writeSegs, writeSegs_outside h gs (i + 1) _ (.inl (by omega)), dif_pos (by omega)]
      exact Vector.getElem_set_self _
    | succ m =>
      have next : i + 1 + m = i + (m + 1) := by omega
      simpa only [writeSegs, next] using ih hg (i := i + 1) _ (next ▸ h)

/-- The state after an accepted WRITE-SEGMENTS of records `gs` from index `first` on (R12). -/
def State.withSegs (s : State) (first : Nat) (gs : List Segment) : State :=
  { s with segs := writeSegs first gs s.segs }

theorem State.Settled.withSegs {s : State} (h : s.Settled) (first : Nat) (gs : List Segment) :
    (s.withSegs first gs).Settled :=
  ⟨h.noCause, h.scanner⟩

/-- The written records stand at their indices. -/
theorem segAt_withSegs_inside {s : State} {first i : Nat} {gs : List Segment} {g : Segment}
    (hg : gs[i]? = some g) (h : first + gs.length ≤ 256) : (s.withSegs first gs).segAt (first + i) = g := by
  have hi : i < gs.length := (List.getElem?_eq_some_iff.mp hg).1
  have fits : first + i < 256 := by omega
  exact (dif_pos fits).trans (writeSegs_inside hg s.segs fits)

/-- Every other record stands as it was. -/
theorem segAt_withSegs_outside (s : State) {first i : Nat} {gs : List Segment}
    (h : i < first ∨ first + gs.length ≤ i) : (s.withSegs first gs).segAt i = s.segAt i := by
  unfold segAt
  split
  · exact writeSegs_outside _ gs first s.segs h
  · rfl

/-! ## The checks in their order -/

theorem segUseAt_val (s : State) (i : Fin 256) : s.segUseAt i.val = s.segUse[i] := dif_pos i.isLt

/-- No written segment is in use. -/
theorem find_segUse_eq_none {s : State} {first count : Nat} (fits : first + count ≤ 256)
    (h : ∀ i : Fin 256, first ≤ i.val → i.val < first + count → s.segUse[i] = 0) :
    ((List.range' first count).find? fun i => decide (0 < s.segUseAt i)) = none := by
  rw [List.find?_eq_none]
  intro i hi
  obtain ⟨lo, up⟩ := List.mem_range'_1.mp hi
  have unused := segUseAt_val s ⟨i, by omega⟩
  rw [h _ lo up] at unused
  simp [unused]

/-- The lowest written segment in use. -/
theorem find_segUse_eq_some {s : State} {first count : Nat} {i : Fin 256} (lo : first ≤ i.val)
    (up : i.val < first + count) (used : 0 < s.segUse[i])
    (least : ∀ m : Fin 256, first ≤ m.val → m < i → s.segUse[m] = 0) :
    ((List.range' first count).find? fun i => decide (0 < s.segUseAt i)) = some i.val := by
  rw [List.find?_range'_eq_some]
  refine ⟨by simpa [segUseAt_val] using used, List.mem_range'_1.mpr ⟨lo, up⟩, fun m hm hmi => ?_⟩
  have unused := segUseAt_val s ⟨m, by omega⟩
  rw [least _ hm hmi] at unused
  simp [unused]

/-- The first record that fails its check. -/
theorem findIdx_isNone_eq_some {recs : List (Option Segment)} {i : Nat} (h : recs[i]? = some none)
    (first : ∀ m, m < i → recs[m]? ≠ some none) : recs.findIdx? (·.isNone) = some i := by
  obtain ⟨hi, hnone⟩ := List.getElem?_eq_some_iff.mp h
  rw [List.findIdx?_eq_some_iff_getElem]
  refine ⟨hi, by simp [hnone], fun m hm => ?_⟩
  have passes := first m hm
  rw [List.getElem?_eq_getElem (by omega)] at passes
  simpa [Option.isNone_iff_eq_none] using passes

theorem writeSegments_of_tooFar {first count : Nat} (h : 256 < first + count) (recs : List (Option Segment))
    (s : State) : writeSegments first count recs s = refuse .badField (byteOf first) 0 s :=
  if_pos h

theorem writeSegments_of_badRecord {first count i : Nat} {recs : List (Option Segment)}
    (fits : first + count ≤ 256) (h : recs.findIdx? (·.isNone) = some i) (s : State) :
    writeSegments first count recs s = refuse .badField (byteOf (first + i)) 0 s := by
  unfold writeSegments
  rw [if_neg (Nat.not_lt.mpr fits), h]

theorem writeSegments_of_inUse {first count : Nat} {s : State} {i : Fin 256} (fits : first + count ≤ 256)
    (gs : List Segment) (lo : first ≤ i.val) (up : i.val < first + count) (used : 0 < s.segUse[i])
    (least : ∀ m : Fin 256, first ≤ m.val → m < i → s.segUse[m] = 0) :
    writeSegments first count (gs.map some) s = refuse .inUse (byteOf i.val) 0 s := by
  have pass : (gs.map some).findIdx? (·.isNone) = none := by simp
  unfold writeSegments
  rw [if_neg (Nat.not_lt.mpr fits), pass]
  simp only [find_segUse_eq_some lo up used least]

theorem writeSegments_of_unused {first count : Nat} {s : State} (fits : first + count ≤ 256)
    (gs : List Segment)
    (unused : ∀ i : Fin 256, first ≤ i.val → i.val < first + count → s.segUse[i] = 0) :
    writeSegments first count (gs.map some) s = accept [] (s.withSegs first gs) := by
  have pass : (gs.map some).findIdx? (·.isNone) = none := by simp
  unfold writeSegments
  rw [if_neg (Nat.not_lt.mpr fits), pass]
  simp only [find_segUse_eq_none fits unused, List.filterMap_map, Function.comp_def, id,
    List.filterMap_some, State.withSegs]

/-- A payload whose count is out of range is refused before anything else is looked at (R204). -/
theorem reqWriteSegments_of_badCount {c : Byte} (h : ¬ (1 ≤ c.toNat ∧ c.toNat ≤ 16)) (f : Byte)
    (body : List Byte) (s : State) : reqWriteSegments .svp (f :: c :: body) s = refuse .badField f 0 s := by
  rw [← inRange_iff, Bool.not_eq_true] at h
  simp [reqWriteSegments, onSupervisor, h]

/-- A payload of the right count and length is split into its records. -/
theorem reqWriteSegments_of_length {c : Byte} {body : List Byte} (hc : 1 ≤ c.toNat ∧ c.toNat ≤ 16)
    (len : body.length = 12 * c.toNat) (f : Byte) (s : State) :
    reqWriteSegments .svp (f :: c :: body) s = writeSegments f.toNat c.toNat (parseSegments body) s := by
  rw [← inRange_iff] at hc
  simp [reqWriteSegments, onSupervisor, hc, len]

theorem reqWriteSegments_of_unused {s : State} {f c : Byte} {body : List Byte} {gs : List Segment}
    (hc : 1 ≤ c.toNat ∧ c.toNat ≤ 16) (len : body.length = 12 * c.toNat) (fits : f.toNat + c.toNat ≤ 256)
    (recs : parseSegments body = gs.map some)
    (unused : ∀ i : Fin 256, f.toNat ≤ i.val → i.val < f.toNat + c.toNat → s.segUse[i] = 0) :
    reqWriteSegments .svp (f :: c :: body) s = accept [] (s.withSegs f.toNat gs) := by
  rw [reqWriteSegments_of_length hc len, recs]
  exact writeSegments_of_unused fits gs unused

/-! ## The command -/

theorem exec_writeSegments (p : Port) (b : List Byte) (s : State) :
    exec (.writeSegments p b) s = .next (finish (requestArrives p 0x42 b s)) :=
  exec_instrOfFrame p 0x42 b s

/-- WRITE-SEGMENTS is refused as the request itself is. -/
theorem writeSegments_refuses {s : State} {b : List Byte} {code : ReplyCode} {d0 d1 : Byte} (hs : s.Settled)
    (hf : s.free .svp) (hc : code ≠ .accepted)
    (h : reqWriteSegments .svp b (s.holdingIt .svp 0x42 b) = refuse code d0 d1 (s.holdingIt .svp 0x42 b)) :
    Refuses (.writeSegments .svp b) .svp 0x42 b code d0 d1 s :=
  refuses_of (exec_writeSegments .svp b s) hs hf hc h

/-- An accepted WRITE-SEGMENTS writes its records and builds its reply, and nothing else. -/
theorem exec_writeSegments_of_unused {s : State} {f c : Byte} {body : List Byte} {gs : List Segment}
    (hs : s.Settled) (hf : s.free .svp) (hc : 1 ≤ c.toNat ∧ c.toNat ≤ 16)
    (len : body.length = 12 * c.toNat) (fits : f.toNat + c.toNat ≤ 256)
    (recs : parseSegments body = gs.map some)
    (unused : ∀ i : Fin 256, f.toNat ≤ i.val → i.val < f.toNat + c.toNat → s.segUse[i] = 0) :
    exec (.writeSegments .svp (f :: c :: body)) s =
      .next ((s.withSegs f.toNat gs).answered .svp 0x42 (f :: c :: body) .accepted []) :=
  exec_of_accept (exec_writeSegments ..) hf (hs.withSegs f.toNat gs)
    (reqWriteSegments_of_unused (s := s.holdingIt .svp 0x42 (f :: c :: body)) hc len fits recs unused)

/-- Settles O27: each clause is one branch of the request's checks, and the written table is read back record by
record. -/
theorem writeSegmentsWhole : Obligations.WriteSegmentsWhole := by
  unfold Obligations.WriteSegmentsWhole
  refine ⟨fun s f c body gs hs hf one sixteen len fits recs => ⟨fun unused => ?written, ?inUse⟩,
    fun s hs => wrongOnStations_of (fun p b => exec_writeSegments p b s) hs fun _ _ _ => rfl,
    fun s f c body hs hf len => ⟨fun wrong => ?header, ?record⟩, ?checks⟩
  case written =>
    have count : gs.length = c.toNat := by
      have parsed := length_parseSegments body
      rw [recs, List.length_map, len] at parsed
      omega
    exact ⟨_, exec_writeSegments_of_unused hs hf ⟨one, sixteen⟩ len fits recs unused,
      port_answered_reply .., fun i g hg => segAt_withSegs_inside (s := s) hg (count ▸ fits),
      fun i hi => segAt_withSegs_outside s hi, rfl, rfl, rfl, rfl, rfl, rfl⟩
  case inUse =>
    intro i lo up used least
    refine writeSegments_refuses hs hf (by decide) ?_
    rw [reqWriteSegments_of_length ⟨one, sixteen⟩ len, recs]
    exact writeSegments_of_inUse fits gs lo up used least
  case header =>
    refine writeSegments_refuses hs hf (by decide) ?_
    by_cases hc : 1 ≤ c.toNat ∧ c.toNat ≤ 16
    · rw [reqWriteSegments_of_length hc len, writeSegments_of_tooFar (by omega), byteOf_toNat]
    · exact reqWriteSegments_of_badCount hc f body _
  case record =>
    intro i one sixteen fits bad first
    refine writeSegments_refuses hs hf (by decide) ?_
    rw [reqWriteSegments_of_length ⟨one, sixteen⟩ len]
    exact writeSegments_of_badRecord fits (findIdx_isNone_eq_some bad first) _
  case checks =>
    intro k target band p q duration limit g
    cases k with
    | empty => simp only [checkSegment, Segment.zero, Option.some.injEq, eq_comm]
    | rise | soak | flow | power | coast =>
      simp only [checkSegment, Option.ite_none_right_eq_some, Bool.and_eq_true, inRange_iff,
        decide_eq_true_eq, Option.some.injEq, and_assoc]
      rw [eq_comm (b := g)]
      tauto

end Sys2Proof.Machine
end

section
/-! PROOFS. The profile store: WRITE-PROFILE and CLEAR-PROFILE (R8, R13, R14). -/

namespace Sys2Proof.Machine

open State

/-! ## The requests, check by check -/

/-- A profile that a payload spells has its valid flag set (R13). -/
theorem valid_of_parseWriteProfile {b : List Byte} {i : Fin 64} {r : Profile}
    (h : parseWriteProfile b = some (i, r)) : r.valid = true := by
  unfold parseWriteProfile at h
  split at h
  · dsimp only at h
    split at h
    · obtain ⟨-, e⟩ := Option.ite_none_right_eq_some.mp h
      cases e
      rfl
    · cases h
  · cases h

theorem reqWriteProfile_of_inUse {b : List Byte} {i : Fin 64} {r : Profile} {s : State}
    (hb : parseWriteProfile b = some (i, r)) (used : 0 < s.profUse[i]) :
    reqWriteProfile .svp b s = refuse .inUse 0 0 s :=
  (withField_of_some hb s _).trans (if_pos used)

theorem reqWriteProfile_of_unfit {b : List Byte} {i : Fin 64} {r : Profile} {s : State} {run : Run} {m : Nat}
    (hb : parseWriteProfile b = some (i, r)) (unused : s.profUse[i] = 0)
    (unfit : s.contentFail r = some (run, m)) :
    reqWriteProfile .svp b s = refuse .badProfile run.code (byteOf m) s := by
  refine (withField_of_some hb s _).trans ?_
  simp only [unused, Nat.lt_irrefl, if_false, unfit]

theorem reqWriteProfile_of_fit {b : List Byte} {i : Fin 64} {r : Profile} {s : State}
    (hb : parseWriteProfile b = some (i, r)) (unused : s.profUse[i] = 0) (fit : s.contentFail r = none) :
    reqWriteProfile .svp b s = accept (le2 (s.peakPower r)) (s.setProf i r) := by
  refine (withField_of_some hb s _).trans ?_
  simp only [unused, Nat.lt_irrefl, if_false, fit]

theorem reqClearProfile_of_inUse {i : Fin 64} {s : State} (used : 0 < s.profUse[i]) :
    reqClearProfile .svp [byteOf i.val] s = refuse .inUse 0 0 s :=
  (withField_of_some (parseIndex_byteOf (by decide) i) s _).trans (if_pos used)

theorem reqClearProfile_of_unused {i : Fin 64} {s : State} (unused : s.profUse[i] = 0) :
    reqClearProfile .svp [byteOf i.val] s = accept [] (s.setProf i { s.prof i with valid := false }) :=
  (withField_of_some (parseIndex_byteOf (by decide) i) s _).trans (if_neg (by omega))

/-- A profile whose valid flag is clear fails the admission test (R9). -/
theorem admissible_of_not_valid {s : State} {i : Fin 64} (h : (s.prof i).valid = false) :
    s.admissible i = false := by
  simp [admissible, h]

theorem State.Settled.setProf {s : State} (h : s.Settled) (i : Fin 64) (r : Profile) :
    (s.setProf i r).Settled :=
  ⟨h.noCause, h.scanner⟩

/-! ## The commands -/

theorem exec_writeProfile (p : Port) (b : List Byte) (s : State) :
    exec (.writeProfile p b) s = .next (finish (requestArrives p 0x43 b s)) :=
  exec_instrOfFrame p 0x43 b s

theorem exec_clearProfile (p : Port) (b : List Byte) (s : State) :
    exec (.clearProfile p b) s = .next (finish (requestArrives p 0x44 b s)) :=
  exec_instrOfFrame p 0x44 b s

theorem exec_writeProfile_of_fit {s : State} {b : List Byte} {i : Fin 64} {r : Profile} (hs : s.Settled)
    (hf : s.free .svp) (hb : parseWriteProfile b = some (i, r)) (unused : s.profUse[i] = 0)
    (fit : s.contentFail r = none) :
    exec (.writeProfile .svp b) s =
      .next ((s.setProf i r).answered .svp 0x43 b .accepted (le2 (s.peakPower r))) :=
  exec_of_accept (exec_writeProfile ..) hf (hs.setProf i r)
    (reqWriteProfile_of_fit (s := s.holdingIt .svp 0x43 b) hb unused fit)

theorem exec_clearProfile_of_unused {s : State} {i : Fin 64} (hs : s.Settled) (hf : s.free .svp)
    (unused : s.profUse[i] = 0) :
    exec (.clearProfile .svp [byteOf i.val]) s =
      .next ((s.setProf i { s.prof i with valid := false }).answered
        .svp 0x44 [byteOf i.val] .accepted []) :=
  exec_of_accept (exec_clearProfile ..) hf (hs.setProf i _)
    (reqClearProfile_of_unused (s := s.holdingIt .svp 0x44 [byteOf i.val]) unused)

/-- Settles O28: each clause is one branch of the checks of WRITE-PROFILE or CLEAR-PROFILE, made on the state that
holds the request. -/
theorem profilesWrittenAndCleared : Obligations.ProfilesWrittenAndCleared := by
  unfold Obligations.ProfilesWrittenAndCleared
  refine ⟨fun s b i r hs hf hb => ⟨valid_of_parseWriteProfile hb, fun used => ?writeInUse,
      fun unused run m unfit => ?writeUnfit, exec_writeProfile_of_fit hs hf hb⟩,
    fun s i hs hf => ⟨exec_clearProfile_of_unused hs hf,
      admissible_of_not_valid (by rw [prof_setProf_self]), fun used => ?clearInUse⟩,
    fun s hs => ⟨wrongOnStations_of (fun p b => exec_writeProfile p b s) hs fun _ _ _ => rfl,
      wrongOnStations_of (fun p b => exec_clearProfile p b s) hs fun _ _ _ => rfl,
      fun b hf bad => ?writeFields, fun b hf bad => ?clearFields⟩⟩
  case writeInUse =>
    exact refuses_of (exec_writeProfile ..) hs hf (by decide) (reqWriteProfile_of_inUse hb used)
  case writeUnfit =>
    exact refuses_of (exec_writeProfile ..) hs hf (by decide) (reqWriteProfile_of_unfit hb unused unfit)
  case clearInUse =>
    exact refuses_of (exec_clearProfile ..) hs hf (by decide) (reqClearProfile_of_inUse used)
  case writeFields =>
    exact refuses_of (exec_writeProfile ..) hs hf (by decide) (withField_of_none bad _ _)
  case clearFields =>
    exact refuses_of (exec_clearProfile ..) hs hf (by decide) (withField_of_none (parseIndex_eq_none bad) _ _)

end Sys2Proof.Machine
end

section
/-! PROOFS. FORGET-LEARNED and what a head without a learned start frequency reads and starts at (R44, R54). -/

namespace Sys2Proof.Machine

open State

/-! ## A head without a learned start frequency -/

theorem learnedRead_of_none {r : HeadRec} (h : r.learned = none) : r.learnedRead = 0 := by
  rw [HeadRec.learnedRead, h, Option.getD_none]

/-- With nothing learned, the learning flag makes no difference to the start of a seek. -/
theorem startFreq_of_none {r : HeadRec} (h : r.learned = none) : r.startFreq = r.nominal := by
  rw [HeadRec.startFreq, h, Option.getD_none, ite_self]

/-! ## The command -/

theorem State.Settled.setHead {s : State} (h : s.Settled) (x : Head) (r : HeadRec) : (s.setHead x r).Settled :=
  ⟨h.noCause, h.scanner⟩

theorem reqForgetLearned_byteOf (h : Head) (s : State) :
    reqForgetLearned .svp [byteOf h.val] s = accept [] (s.setHead h { s.head h with learned := none }) :=
  withField_of_some (parseIndex_byteOf (by decide) h) s _

theorem exec_forgetLearned (p : Port) (b : List Byte) (s : State) :
    exec (.forgetLearned p b) s = .next (finish (requestArrives p 0x46 b s)) :=
  exec_instrOfFrame p 0x46 b s

theorem exec_forgetLearned_byteOf {s : State} (hs : s.Settled) (hf : s.free .svp) (h : Head) :
    exec (.forgetLearned .svp [byteOf h.val]) s =
      .next ((s.setHead h { s.head h with learned := none }).answered
        .svp 0x46 [byteOf h.val] .accepted []) :=
  exec_of_accept (exec_forgetLearned ..) hf (hs.setHead h _)
    (reqForgetLearned_byteOf h (s.holdingIt .svp 0x46 [byteOf h.val]))

/-- Settles O30: the byte of a head number is read as that head, and a payload that is no head number fails the
field check; no check looks at the mode. -/
theorem forgetLearnedClears : Obligations.ForgetLearnedClears := by
  unfold Obligations.ForgetLearnedClears
  refine fun s hs => ⟨fun x h hf hx => ⟨?cleared, learnedRead_of_none rfl, startFreq_of_none rfl⟩,
    wrongOnStations_of (fun p b => exec_forgetLearned p b s) hs fun _ _ _ => rfl,
    fun b hf bad => ?fields⟩
  case cleared =>
    have byte : byteOf h.val = x := by rw [hx, byteOf_toNat]
    exact byte ▸ exec_forgetLearned_byteOf hs hf h
  case fields =>
    exact refuses_of (exec_forgetLearned ..) hs hf (by decide) (withField_of_none (parseIndex_eq_none bad) _ _)

end Sys2Proof.Machine
end

section
/-! PROOFS. Trigger events: the walk over the slots that moves PENDING jobs to READY (R67, R70, R71), and GO. -/

namespace Sys2Proof.Machine

open State

/-! ## Units that enter READY -/

theorem mem_insertCand {x c : Cand} {l : List Cand} : x ∈ insertCand c l ↔ x = c ∨ x ∈ l := by
  induction l with
  | nil => simp [insertCand]
  | cons y ys ih =>
    unfold insertCand
    split
    · exact List.mem_cons
    · rw [List.mem_cons, List.mem_cons, ih, or_left_comm]

theorem self_mem_membersOf (s : State) (k : SlotIx) : k ∈ s.membersOf k := by
  unfold membersOf
  split
  · exact List.mem_singleton_self k
  · next h => simp [allSlots, h]

theorem self_mem_pendingUnit {s : State} {k : SlotIx} (h : s.jobIs k (·.state == .pending) = true) :
    k ∈ s.pendingUnit k :=
  List.mem_filter.mpr ⟨self_mem_membersOf s k, h⟩

theorem jobIs_iff {s : State} {k : SlotIx} {f : Job → Bool} :
    s.jobIs k f = true ↔ ∃ j, s.job k = some j ∧ f j = true :=
  Option.any_eq_true _ _

theorem jobIs_pending_iff {s : State} {k : SlotIx} :
    s.jobIs k (·.state == .pending) = true ↔ ∃ j, s.job k = some j ∧ j.state = .pending := by
  simp only [jobIs_iff, beq_iff_eq]

/-- The records of a unit enter READY, in its order (R68). -/
def State.readyRecords (s : State) (u : List SlotIx) : State :=
  u.foldl (fun s m => s.modJob m (·.ready s.lineClock)) s

@[simp] theorem readyRecords_cands (s : State) (u : List SlotIx) : (s.readyRecords u).cands = s.cands :=
  List.foldlRecOn (motive := fun t : State => t.cands = s.cands) _ _ rfl fun _ h _ _ => h

theorem job_readyRecords (u : List SlotIx) (s : State) (k : SlotIx) :
    (s.readyRecords u).job k = if k ∈ u then (s.job k).map (·.ready s.lineClock) else s.job k := by
  induction u generalizing s with
  | nil => rfl
  | cons x xs ih =>
    refine (ih (s.modJob x (·.ready s.lineClock))).trans ?_
    rw [modJob_lineClock]
    by_cases hx : x = k
    · subst hx
      have twice : (fun j : Job => (j.ready s.lineClock).ready s.lineClock) = (·.ready s.lineClock) := rfl
      simp [Function.comp_def, twice]
    · simp [hx, Ne.symm hx]

/-- A unit of PENDING jobs that enters READY: its records move, its entry joins the candidates, and a cause of
arbitration is raised (R67, R68, R83). -/
theorem enterReady_of_pending {u : List SlotIx} {s : State} (hne : u ≠ [])
    (hu : ∀ m ∈ u, s.jobIs m (·.state == .pending) = true) :
    ∃ c : Cand, c.members = u ∧
      enterReady u s = { s.readyRecords u with cands := insertCand c s.cands }.raise := by
  match u with
  | [] => exact absurd rfl hne
  | k :: ks =>
    obtain ⟨j, hj, -⟩ := jobIs_pending_iff.mp (hu k (List.mem_cons_self ..))
    refine ⟨s.newCand k (k :: ks) j, rfl, ?_⟩
    rw [← readyRecords_cands s (k :: ks)]
    simp only [enterReady, hj, readyRecords]

theorem job_enterReady {u : List SlotIx} {s : State}
    (hu : ∀ m ∈ u, s.jobIs m (·.state == .pending) = true) (k : SlotIx) :
    (enterReady u s).job k = if k ∈ u then (s.job k).map (·.ready s.lineClock) else s.job k := by
  by_cases hne : u = []
  · subst hne
    rfl
  · obtain ⟨c, -, e⟩ := enterReady_of_pending hne hu
    rw [e]
    exact job_readyRecords u s k

/-! ## A job that a trigger event has moved -/

/-- The job that waited in slot `k` of `s` in PENDING stands in READY in `t`, among the candidates, and has raised a
cause of arbitration (R67, R68, R83). -/
structure State.Readied (s t : State) (k : SlotIx) : Prop where
  job : ∃ j, s.job k = some j ∧ j.state = .pending ∧ t.job k = some (j.ready s.lineClock)
  cause : t.arbCause = true
  joined : ∃ c ∈ t.cands, k ∈ c.members

namespace State.Readied

/-- A job that has moved is in PENDING no more. -/
theorem not_pending {s t : State} {k : SlotIx} (h : s.Readied t k) : t.jobIs k (·.state == .pending) = false := by
  obtain ⟨j, -, -, ht⟩ := h.job
  simp [jobIs, ht, Job.ready]

/-- Each job of a unit that enters READY has moved. -/
theorem of_enterReady {u : List SlotIx} {s : State} {k : SlotIx}
    (hu : ∀ m ∈ u, s.jobIs m (·.state == .pending) = true) (hk : k ∈ u) : s.Readied (enterReady u s) k where
  job := by
    obtain ⟨j, hj, hp⟩ := jobIs_pending_iff.mp (hu k hk)
    exact ⟨j, hj, hp, by rw [job_enterReady hu, if_pos hk, hj, Option.map_some]⟩
  cause := by
    obtain ⟨c, -, e⟩ := enterReady_of_pending (List.ne_nil_of_mem hk) hu
    rw [e]
    rfl
  joined := by
    obtain ⟨c, hc, e⟩ := enterReady_of_pending (List.ne_nil_of_mem hk) hu
    rw [e]
    exact ⟨c, mem_insertCand.mpr (.inl rfl), hc ▸ hk⟩

/-- The units that enter READY later leave a job that has moved as it is. -/
theorem after_enterReady {s t : State} {k : SlotIx} (h : s.Readied t k) {u : List SlotIx}
    (hu : ∀ m ∈ u, t.jobIs m (·.state == .pending) = true) : s.Readied (enterReady u t) k where
  job := by
    have out : k ∉ u := fun hk => Bool.false_ne_true (h.not_pending.symm.trans (hu k hk))
    rw [job_enterReady hu, if_neg out]
    exact h.job
  cause := (enterReady_table (.refl t)).cause h.cause
  joined := by
    obtain ⟨c, hc, hk⟩ := h.joined
    by_cases hne : u = []
    · subst hne
      exact ⟨c, hc, hk⟩
    · obtain ⟨d, -, e⟩ := enterReady_of_pending hne hu
      rw [e]
      exact ⟨c, mem_insertCand.mpr (.inr hc), hk⟩

/-- A job that stood in `t` as in `s`, at the same line time, has moved from `s` when it has moved from `t`. -/
theorem rebase {s t u : State} {k : SlotIx} (h : t.Readied u k) (same : t.job k = s.job k)
    (clock : t.lineClock = s.lineClock) : s.Readied u k :=
  ⟨same ▸ clock ▸ h.job, h.cause, h.joined⟩

end State.Readied

/-! ## The walk over the slots -/

/-- A trigger event with test `p` is for the job in slot `k` (R67). -/
def State.fires (s : State) (p : Job → Bool) (k : SlotIx) : Bool := s.jobIs k fun j => j.state == .pending && p j

/-- A trigger event comes to slot `k`. -/
def fireAt (p : Job → Bool) (s : State) (k : SlotIx) : State :=
  if s.fires p k then enterReady (s.pendingUnit k) s else s

theorem fireTrigger_eq_foldl (p : Job → Bool) (s : State) : fireTrigger p s = allSlots.foldl (fireAt p) s := rfl

theorem pending_of_fires {s : State} {p : Job → Bool} {k : SlotIx} (h : s.fires p k = true) :
    s.jobIs k (·.state == .pending) = true := by
  obtain ⟨j, hj, hp⟩ := jobIs_iff.mp h
  exact jobIs_iff.mpr ⟨j, hj, (Bool.and_eq_true_iff.mp hp).1⟩

theorem fires_congr {s t : State} {k : SlotIx} (h : t.job k = s.job k) (p : Job → Bool) :
    t.fires p k = s.fires p k := by
  rw [fires, jobIs, h]
  rfl

theorem State.Readied.after_fireAt {s t : State} {k : SlotIx} (h : s.Readied t k) (p : Job → Bool) (m : SlotIx) :
    s.Readied (fireAt p t m) k := by
  unfold fireAt
  split
  · exact h.after_enterReady (pendingUnit_pending t m)
  · exact h

/-- How the job table of `t` stands while a trigger event with test `p` that began in `s` walks over the slots: a job
is as it was, or it has moved with the gang of a job that the event is for. -/
structure State.Firing (p : Job → Bool) (s t : State) : Prop where
  clock : t.lineClock = s.lineClock
  jobs : ∀ k, t.job k = s.job k ∨ s.Readied t k ∧ ∃ m, s.fires p m = true ∧ k ∈ s.membersOf m

namespace State.Firing

variable {p : Job → Bool} {s t : State}

theorem refl (p : Job → Bool) (s : State) : s.Firing p s := ⟨rfl, fun _ => .inl rfl⟩

/-- A job that is in PENDING during the walk is as it was. -/
theorem job_of_pending (h : s.Firing p t) {k : SlotIx} (hk : t.jobIs k (·.state == .pending) = true) :
    t.job k = s.job k :=
  (h.jobs k).resolve_right fun ⟨moved, _⟩ => Bool.false_ne_true (moved.not_pending.symm.trans hk)

theorem membersOf (h : s.Firing p t) (k : SlotIx) : t.membersOf k = s.membersOf k := by
  refine membersOf_congr (fun m => ?_) k
  rcases h.jobs m with same | ⟨moved, -⟩
  · rw [same]
  · obtain ⟨j, hs, -, ht⟩ := moved.job
    rw [hs, ht]
    rfl

theorem after_fireAt (h : s.Firing p t) (k : SlotIx) : s.Firing p (fireAt p t k) := by
  unfold fireAt
  split
  · next hf =>
    have pending := pendingUnit_pending t k
    refine ⟨?clock, fun m => ?jobs⟩
    case clock => rw [(enterReady_table (.refl t)).only]; exact h.clock
    case jobs =>
      by_cases hm : m ∈ t.pendingUnit k
      · have same := h.job_of_pending (pending m hm)
        have begun : s.fires p k = true := fires_congr (h.job_of_pending (pending_of_fires hf)) p ▸ hf
        exact .inr ⟨(Readied.of_enterReady pending hm).rebase same h.clock, k, begun,
          h.membersOf k ▸ (List.mem_filter.mp hm).1⟩
      · rw [job_enterReady pending, if_neg hm]
        exact (h.jobs m).imp_right fun ⟨moved, gang⟩ => ⟨moved.after_enterReady pending, gang⟩
  · exact h

/-- When the walk comes to a job that the event is for, the job moves, unless it has moved with its gang before. -/
theorem readied_fireAt (h : s.Firing p t) {k : SlotIx} (hk : s.fires p k = true) :
    s.Readied (fireAt p t k) k := by
  rcases h.jobs k with same | ⟨moved, -⟩
  · have hf : t.fires p k = true := fires_congr same p ▸ hk
    have unit := self_mem_pendingUnit (pending_of_fires hf)
    rw [fireAt, if_pos hf]
    exact (Readied.of_enterReady (pendingUnit_pending t k) unit).rebase same h.clock
  · exact moved.after_fireAt p k

theorem after_foldl (h : s.Firing p t) (l : List SlotIx) : s.Firing p (l.foldl (fireAt p) t) :=
  List.foldlRecOn l _ h fun _ hu k _ => hu.after_fireAt k

end State.Firing

theorem fireTrigger_firing (p : Job → Bool) (s : State) : s.Firing p (fireTrigger p s) :=
  (Firing.refl p s).after_foldl allSlots

/-- Every job that a trigger event is for moves to READY (R67): the walk comes to its slot, and what follows leaves it
moved. -/
theorem fireTrigger_readied {p : Job → Bool} {s : State} {k : SlotIx} (h : s.fires p k = true) :
    s.Readied (fireTrigger p s) k := by
  have slot : k ∈ allSlots := List.mem_finRange k
  obtain ⟨before, after, e⟩ := List.append_of_mem slot
  have here := ((Firing.refl p s).after_foldl before).readied_fireAt h
  rw [fireTrigger_eq_foldl, e, List.foldl_append, List.foldl_cons]
  exact List.foldlRecOn (motive := (s.Readied · k)) after _ here fun _ moved m _ => moved.after_fireAt p m

/-! ## GO and the INDEX edge -/

theorem exec_go (p : Port) (b : List Byte) (s : State) :
    exec (.go p b) s = .next (finish (requestArrives p 0x12 b s)) :=
  exec_instrOfFrame p 0x12 b s

/-- A request of a station that the supervisor port answers WRONG_PORT is wrong there (R170). -/
theorem wrongOnSvp_of {c : Port → List Byte → Instr} {kind : Byte} {s : State}
    (hx : ∀ p b, exec (c p b) s = .next (finish (requestArrives p kind b s))) (hs : s.Settled)
    (h : ∀ b u, carryOut .svp kind b u = refuse .wrongPort 0 0 u) : WrongOnSvp c kind s :=
  fun b hf => refuses_of (hx .svp b) hs hf (by decide) (h b _)

theorem parseTag_eq_none {b : List Byte} (h : b.length ≠ 1) : parseTag b = none := by
  match b with
  | [] => rfl
  | [_] => exact absurd rfl h
  | _ :: _ :: _ => rfl

/-- Settles O15: the walk of a trigger event leaves every job as it was or moved, and has moved each job that it is for
when it has passed its slot; GO and the INDEX edge are that walk with their own test. -/
theorem triggersFire : Obligations.TriggersFire := by
  unfold Obligations.TriggersFire
  refine ⟨fun s p k j hj => ⟨fun pending test => ?moves, fun rests => ?rests, fun apart => ?apart⟩,
    fun s n tag hf => accepts_of (exec_go ..) hf rfl rfl,
    fun s hs => ⟨wrongOnSvp_of (fun p b => exec_go p b s) hs fun _ _ => rfl, fun n b hf len =>
      refuses_of (exec_go ..) hs hf (by decide) (withField_of_none (parseTag_eq_none len) _ _)⟩,
    fun s => rfl⟩
  case moves =>
    have moved := fireTrigger_readied (p := p) (s := s) (k := k) (by simp [fires, jobIs, hj, pending, test])
    obtain ⟨i, hi, -, ready⟩ := moved.job
    obtain rfl : j = i := Option.some.inj (hj.symm.trans hi)
    exact ⟨ready, moved.cause, moved.joined⟩
  case rests =>
    rcases (fireTrigger_firing p s).jobs k with same | ⟨moved, -⟩
    · exact same.trans hj
    · obtain ⟨i, hi, pending, -⟩ := moved.job
      obtain rfl : j = i := Option.some.inj (hj.symm.trans hi)
      exact absurd pending rests
  case apart =>
    rcases (fireTrigger_firing p s).jobs k with same | ⟨-, m, hm, gang⟩
    · exact same.trans hj
    · exact absurd gang (apart m (List.mem_finRange m) hm)

end Sys2Proof.Machine
end

section
/-! PROOFS. SET-BUDGET and SET-DISCHARGE, and when the motion of a relay's plan starts (R35, R36, R82, R90). -/

namespace Sys2Proof.Machine

open State

/-! ## The payloads -/

theorem parseBudget_of_le {lo hi : Byte} (h : lo.toNat + 256 * hi.toNat ≤ 1500) :
    parseBudget [lo, hi] = some (lo.toNat + 256 * hi.toNat) :=
  if_pos h

theorem parseBudget_of_lt {lo hi : Byte} (h : 1500 < lo.toNat + 256 * hi.toNat) : parseBudget [lo, hi] = none :=
  if_neg (Nat.not_le.mpr h)

theorem parseBudget_of_length {b : List Byte} (h : b.length ≠ 2) : parseBudget b = none := by
  match b with
  | [] => rfl
  | [_] => rfl
  | [_, _] => exact absurd rfl h
  | _ :: _ :: _ :: _ => rfl

theorem parseSetDischarge_byteOf {c : Conv} {lo hi : Byte} (least : 10 ≤ lo.toNat + 256 * hi.toNat)
    (most : lo.toNat + 256 * hi.toNat ≤ 500) :
    parseSetDischarge [byteOf c.val, lo, hi] = some (c, lo.toNat + 256 * hi.toNat) := by
  have number : rdFin 6 (byteOf c.val) = some c := parseIndex_byteOf (by decide) c
  have range : inRange 10 (rd2 lo hi) 500 = true := inRange_iff.mpr ⟨least, most⟩
  simp only [parseSetDischarge, number, range, if_true]
  rfl

/-- A payload that is not three bytes, or whose converter number or interval is out of range, fails the checks of
R35. -/
theorem parseSetDischarge_eq_none {b : List Byte}
    (h : ∀ c lo hi, b = [c, lo, hi] →
      5 < c.toNat ∨ lo.toNat + 256 * hi.toNat < 10 ∨ 500 < lo.toNat + 256 * hi.toNat) :
    parseSetDischarge b = none := by
  match b with
  | [] => rfl
  | [_] => rfl
  | [_, _] => rfl
  | _ :: _ :: _ :: _ :: _ => rfl
  | [c, lo, hi] =>
    unfold parseSetDischarge
    dsimp only
    split
    · next conv number =>
      have valid : c.toNat < 6 := by
        by_contra large
        rw [rdFin, dif_neg large] at number
        cases number
      refine if_neg fun range => ?_
      have bounds : 10 ≤ lo.toNat + 256 * hi.toNat ∧ lo.toNat + 256 * hi.toNat ≤ 500 := inRange_iff.mp range
      rcases h c lo hi rfl with bad | bad | bad <;> omega
    · rfl

/-! ## The arbitration under a budget below committed power -/

/-- With committed power above the budget the walk of R90 grants nothing. -/
theorem walk_of_budget_lt {s : State} (h : s.budget < s.committed) (l : List Cand) : walk l s = s := by
  induction l with
  | nil => rfl
  | cons c l ih =>
    unfold walk
    split
    · exact ih
    · exact if_neg (by omega)

theorem arbitrate_of_budget_lt {s : State} (h : s.budget < s.committed) :
    arbitrate s = { s with arbCause := false, arbSeq := s.arbSeq + 1 } :=
  walk_of_budget_lt (s := { s with arbCause := false, arbSeq := s.arbSeq + 1 }) h s.cands

/-- The end of an event grants nothing while committed power is above the budget (R82). -/
theorem finish_of_budget_lt {s : State} (h : s.budget < s.committed) :
    (finish s).slots = s.slots ∧ (finish s).convs = s.convs ∧ (finish s).committed = s.committed := by
  unfold finish
  rw [scanSettle_only]
  split
  · rw [arbitrate_of_budget_lt h]
    exact ⟨rfl, rfl, rfl⟩
  · exact ⟨rfl, rfl, rfl⟩

/-! ## The first motion of a plan -/

theorem startMotion_of_open {r : Relay} {g : Head} (plan : r.plan = .open) (pos : r.pos = .closed g) (now : Nat) :
    r.startMotion now = { r with motion := .opening g (now + 10), plan := .empty, condTimer := none } := by
  simp only [Relay.startMotion, plan, pos, Config.relayOpenMs]

theorem startMotion_of_openThenClose {r : Relay} {g h : Head} (plan : r.plan = .openThenClose h)
    (pos : r.pos = .closed g) (now : Nat) :
    r.startMotion now = { r with motion := .opening g (now + 10), plan := .close h, condTimer := none } := by
  simp only [Relay.startMotion, plan, pos, Config.relayOpenMs]

theorem startMotion_of_close {r : Relay} {h : Head}
    (plan : r.plan = .close h ∨ r.plan = .openThenClose h ∧ r.pos = .open) (now : Nat) :
    r.startMotion now = { r with motion := .closing h (now + 15), plan := .empty, condTimer := none } := by
  rcases plan with plan | ⟨plan, pos⟩
  · simp only [Relay.startMotion, plan, Config.relayCloseMs]
  · simp only [Relay.startMotion, plan, pos, Config.relayCloseMs]

/-- A relay that may move starts the first motion of its plan. -/
theorem matrixTry_of_mayMove {s : State} {p : Pool} (may : s.MayMove p) (planned : (s.relay p).plan ≠ .empty) :
    matrixTry p s = s.setRelay p ((s.relay p).startMotion s.now) := by
  rw [matrixTry_moves planned may.rest may.hold may.off, if_pos may.waited]

/-- Before the end of the discharge interval a planned motion waits for that end. -/
theorem matrixTry_waits {s : State} {p : Pool} (hold : s.relayHold = none) (rest : (s.relay p).motion = .none)
    (planned : (s.relay p).plan ≠ .empty) (off : (s.conv (poolConv p)).outputOn = false)
    (early : s.now < s.relayReadyAt p) :
    matrixTry p s = s.setRelay p { s.relay p with condTimer := some (s.relayReadyAt p) } := by
  rw [matrixTry_moves planned rest hold off, if_neg (Nat.not_le.mpr early)]

/-! ## The requests -/

theorem reqSetBudget_of_le {lo hi : Byte} (h : lo.toNat + 256 * hi.toNat ≤ 1500) (s : State) :
    reqSetBudget .svp [lo, hi] s = accept (le2 (lo.toNat + 256 * hi.toNat) ++ le2 s.committed)
      { s with budget := lo.toNat + 256 * hi.toNat, arbCause := true } :=
  withField_of_some (parseBudget_of_le h) s _

/-- An interval in range is stored, and the relay of a pool converter is looked at again (R35, R36). -/
theorem reqSetDischarge_byteOf {c : Conv} {lo hi : Byte} (least : 10 ≤ lo.toNat + 256 * hi.toNat)
    (most : lo.toNat + 256 * hi.toNat ≤ 500) (s : State) :
    reqSetDischarge .svp [byteOf c.val, lo, hi] s = accept [] (match poolOf c with
      | none => s.setConv c { s.conv c with interval := lo.toNat + 256 * hi.toNat }
      | some p => matrixTry p (s.setConv c { s.conv c with interval := lo.toNat + 256 * hi.toNat })) :=
  withField_of_some (parseSetDischarge_byteOf least most) s _

theorem exec_setBudget (p : Port) (b : List Byte) (s : State) :
    exec (.setBudget p b) s = .next (finish (requestArrives p 0x41 b s)) :=
  exec_instrOfFrame p 0x41 b s

theorem exec_setDischarge (p : Port) (b : List Byte) (s : State) :
    exec (.setDischarge p b) s = .next (finish (requestArrives p 0x4C b s)) :=
  exec_instrOfFrame p 0x4C b s

theorem setBudget_refuses {s : State} {b : List Byte} (hs : s.Settled) (hf : s.free .svp)
    (h : parseBudget b = none) : Refuses (.setBudget .svp b) .svp 0x41 b .badField 0 0 s :=
  refuses_of (exec_setBudget ..) hs hf (by decide) (withField_of_none h _ _)

theorem setDischarge_refuses {s : State} {b : List Byte} (hs : s.Settled) (hf : s.free .svp)
    (h : ∀ c lo hi, b = [c, lo, hi] →
      5 < c.toNat ∨ lo.toNat + 256 * hi.toNat < 10 ∨ 500 < lo.toNat + 256 * hi.toNat) :
    Refuses (.setDischarge .svp b) .svp 0x4C b .badField 0 0 s :=
  refuses_of (exec_setDischarge ..) hs hf (by decide) (withField_of_none (parseSetDischarge_eq_none h) _ _)

/-- Settles O25: each request is accepted or refused as its payload reads, an arbitration over budget stops at its
first eligible entry, and the relay's row is the branch of `matrixTry` that its plan and the time select. -/
theorem budgetAndDischargeStored : Obligations.BudgetAndDischargeStored := by
  unfold Obligations.BudgetAndDischargeStored
  refine ⟨⟨fun s lo hi hf => ⟨fun most => ?budget, fun above hs =>
        setBudget_refuses hs hf (parseBudget_of_lt above)⟩,
      fun s hs => ⟨wrongOnStations_of (fun p b => exec_setBudget p b s) hs fun _ _ _ => rfl,
        wrongOnStations_of (fun p b => exec_setDischarge p b s) hs fun _ _ _ => rfl,
        fun b hf len => setBudget_refuses hs hf (parseBudget_of_length len)⟩,
      fun s above => finish_of_budget_lt above,
      fun s c lo hi hf => ⟨fun least most => ?interval, fun bad hs => ?intervalRange⟩⟩,
    fun s p => ⟨fun still => matrixTry_stays ?stays, fun hold rest planned off early =>
        matrixTry_waits hold rest planned off early,
      fun may g h => ⟨fun plan pos => ?opens, fun plan pos => ?reopens, fun plan => ?closes⟩⟩,
    fun s b hs hf bad => setDischarge_refuses hs hf bad⟩
  case budget =>
    exact accepts_of (exec_setBudget ..) hf (reqSetBudget_of_le most _) rfl
  case interval =>
    exact accepts_of (exec_setDischarge ..) hf (reqSetDischarge_byteOf least most _) rfl
  case intervalRange =>
    refine setDischarge_refuses hs hf fun _ _ _ e => ?_
    cases e
    exact .inr bad
  case stays =>
    rcases still with hold | moving | unplanned | on
    · exact .inr (.inr (.inl hold))
    · exact .inr (.inl moving)
    · exact .inl unplanned
    · exact .inr (.inr (.inr on))
  case opens =>
    rw [matrixTry_of_mayMove may (by simp [plan]), startMotion_of_open plan pos]
  case reopens =>
    rw [matrixTry_of_mayMove may (by simp [plan]), startMotion_of_openThenClose plan pos]
  case closes =>
    have planned : (s.relay p).plan ≠ .empty := by
      rcases plan with plan | ⟨plan, -⟩ <;> simp [plan]
    rw [matrixTry_of_mayMove may planned, startMotion_of_close plan]

end Sys2Proof.Machine
end

section
/-! PROOFS. SET-GUARD-DWELL and the completion time of the conversion that starts (R134, R136). -/

namespace Sys2Proof.Machine

open State

/-! ## The payload -/

theorem parseCount_of_inRange {lo hi : Nat} {d : Byte} (least : lo ≤ d.toNat) (most : d.toNat ≤ hi) :
    parseCount lo hi [d] = some d.toNat :=
  if_pos (inRange_iff.mpr ⟨least, most⟩)

theorem parseCount_of_outOfRange {lo hi : Nat} {d : Byte} (h : d.toNat < lo ∨ hi < d.toNat) :
    parseCount lo hi [d] = none := by
  refine if_neg fun range => ?_
  have bounds : lo ≤ d.toNat ∧ d.toNat ≤ hi := inRange_iff.mp range
  omega

theorem parseCount_of_length {lo hi : Nat} {b : List Byte} (h : b.length ≠ 1) : parseCount lo hi b = none := by
  match b with
  | [] => rfl
  | [_] => exact absurd rfl h
  | _ :: _ :: _ => rfl

/-! ## The request -/

theorem exec_setGuardDwell (p : Port) (b : List Byte) (s : State) :
    exec (.setGuardDwell p b) s = .next (finish (requestArrives p 0x4E b s)) :=
  exec_instrOfFrame p 0x4E b s

/-- A dwell in range is stored, and a conversion in progress keeps its completion time (R136). -/
theorem reqSetGuardDwell_of_inRange {d : Byte} (least : 2 ≤ d.toNat) (most : d.toNat ≤ 50) (s : State) :
    reqSetGuardDwell .svp [d] s = accept [] { s with guardDwell := d.toNat } :=
  withField_of_some (parseCount_of_inRange least most) s _

theorem setGuardDwell_refuses {s : State} {b : List Byte} (hs : s.Settled) (hf : s.free .svp)
    (h : parseCount 2 50 b = none) : Refuses (.setGuardDwell .svp b) .svp 0x4E b .badField 0 0 s :=
  refuses_of (exec_setGuardDwell ..) hs hf (by decide) (withField_of_none h _ _)

/-! ## The conversion that starts -/

/-- The first head of the pass list is converted, with the dwell in force (R134). -/
theorem startConversion_of_cons {s : State} {h : Head} {rest : List Head} (front : s.passList = h :: rest) :
    startConversion s = { s with passList := rest, conversion := some (h, s.now + s.guardDwell) } := by
  unfold startConversion
  rw [front]

/-- Settles O26: the payload decides between the stored dwell and BAD_FIELD, the dwell is no part of what settles an
event, and a conversion reads the dwell only when it starts. -/
theorem guardDwellStored : Obligations.GuardDwellStored := by
  unfold Obligations.GuardDwellStored
  refine ⟨fun s d hs hf => ⟨fun least most => ?stored,
      fun bad => setGuardDwell_refuses hs hf (parseCount_of_outOfRange bad)⟩,
    fun s hs => ⟨wrongOnStations_of (fun p b => exec_setGuardDwell p b s) hs fun _ _ _ => rfl,
      fun b hf len => setGuardDwell_refuses hs hf (parseCount_of_length len)⟩,
    fun s h rest front => ?started⟩
  case stored =>
    have settled : ({ s with guardDwell := d.toNat } : State).Settled := ⟨hs.noCause, hs.scanner⟩
    exact exec_of_accept (exec_setGuardDwell ..) hf settled (reqSetGuardDwell_of_inRange least most _)
  case started =>
    rw [startConversion_of_cons front]

end Sys2Proof.Machine
end

section
/-! PROOFS. TAKE-NOTICES and TAKE-RESULTS (R174, R176), and what a port holds beside the request that it has taken. -/

namespace Sys2Proof.Machine

open State

/-! ## A port that holds a request -/

@[simp] theorem port_holdingIt_self (s : State) (p : Port) (kind : Byte) (b : List Byte) :
    (s.holdingIt p kind b).port p = { s.port p with holding := [⟨kind, b⟩] } :=
  port_setPort_self ..

/-- Only the holding of a port shows the request that stands in it (R167). -/
theorem notices_holdingIt (s : State) (p : Port) (kind : Byte) (b : List Byte) :
    ((s.holdingIt p kind b).port p).notices = (s.port p).notices := by
  rw [port_holdingIt_self]

/-! ## The requests -/

/-- A payload that is not one byte, or whose byte is out of range, is no count (R174, R176). -/
theorem parseCount_eq_none {lo hi : Nat} {b : List Byte}
    (h : ∀ c, b = [c] → c.toNat < lo ∨ hi < c.toNat) : parseCount lo hi b = none := by
  match b with
  | [] => rfl
  | [c] => exact parseCount_of_outOfRange (h c rfl)
  | _ :: _ :: _ => rfl

/-- The oldest notices of the queue `q` are answered between the numbers removed and left, and leave it (R174). -/
theorem reqTakeNotices_of_inRange {s : State} {p : Port} {q : List Notice} (hq : (s.port p).notices = q) {c : Byte}
    (least : 1 ≤ c.toNat) (most : c.toNat ≤ 8) :
    reqTakeNotices p [c] s = accept
      (byteOf (min c.toNat q.length) :: byteOf (q.length - c.toNat) :: (q.take c.toNat).flatMap Notice.bytes)
      (s.setPort p { s.port p with notices := (s.port p).notices.drop c.toNat }) := by
  subst hq
  refine (withField_of_some (parseCount_of_inRange least most) s _).trans ?_
  dsimp only
  rw [List.length_take, List.length_drop]
  rfl

/-- The oldest results of the queue are answered after the numbers removed and left, and leave it (R176). -/
theorem reqTakeResults_of_inRange {n : Station} {c : Byte} (least : 1 ≤ c.toNat) (most : c.toNat ≤ 4) (s : State) :
    reqTakeResults (.sp n) [c] s = accept
      (byteOf (min c.toNat (s.station n).results.length) :: byteOf ((s.station n).results.length - c.toNat)
        :: ((s.station n).results.take c.toNat).flatMap ResultRec.bytes)
      (s.setStation n { s.station n with results := (s.station n).results.drop c.toNat }) := by
  refine (withField_of_some (parseCount_of_inRange least most) s _).trans ?_
  dsimp only
  rw [List.length_take, List.length_drop]
  rfl

theorem exec_takeNotices (p : Port) (b : List Byte) (s : State) :
    exec (.takeNotices p b) s = .next (finish (requestArrives p 0x15 b s)) :=
  exec_instrOfFrame p 0x15 b s

theorem exec_takeResults (p : Port) (b : List Byte) (s : State) :
    exec (.takeResults p b) s = .next (finish (requestArrives p 0x16 b s)) :=
  exec_instrOfFrame p 0x16 b s

/-- Settles O18: the count decides between the first part of the queue and BAD_FIELD, and the request that stands in
the holding of its port shows in no queue. -/
theorem takesRemoveOldest : Obligations.TakesRemoveOldest := by
  unfold Obligations.TakesRemoveOldest
  refine ⟨fun s p c hf least most => ?notices, fun s n c hf least most => ?results,
    fun s hs => ⟨fun p b hf bad => ?noticesRefused,
      wrongOnSvp_of (fun p b => exec_takeResults p b s) hs fun _ _ => rfl, fun n b hf bad => ?resultsRefused⟩⟩
  case notices =>
    exact accepts_of (exec_takeNotices ..) hf (reqTakeNotices_of_inRange (notices_holdingIt ..) least most) rfl
  case results =>
    exact accepts_of (exec_takeResults ..) hf (reqTakeResults_of_inRange least most _) rfl
  case noticesRefused =>
    have unread : parseCount 1 8 b = none := parseCount_eq_none fun c e => (bad c e).imp_left Nat.lt_one_iff.mpr
    exact refuses_of (exec_takeNotices ..) hs hf (by decide) (withField_of_none unread _ _)
  case resultsRefused =>
    have unread : parseCount 1 4 b = none := parseCount_eq_none fun c e => (bad c e).imp_left Nat.lt_one_iff.mpr
    exact refuses_of (exec_takeResults ..) hs hf (by decide) (withField_of_none unread _ _)

end Sys2Proof.Machine
end

section
/-! PROOFS. RENEW and SET-LEASE: what the renewal and the restart of a lease make of its station (R180, R183, R184). -/

namespace Sys2Proof.Machine

open State

/-! ## The payloads -/

@[simp] theorem LeaseAction.ofByte_code (a : LeaseAction) : LeaseAction.ofByte a.code = some a := by
  cases a <;> rfl

/-- The lease actions are 0 and 1 (R203). -/
theorem LeaseAction.ofByte_eq_none {b : Byte} (h : 1 < b.toNat) : LeaseAction.ofByte b = none := by
  refine List.find?_eq_none.mpr fun a _ same => ?_
  obtain rfl : a.code = b := beq_iff_eq.mp same
  cases a <;> exact absurd h (by decide)

theorem parseSetLease_byteOf {lo hi : Byte}
    (range : lo.toNat + 256 * hi.toNat = 0 ∨
      20 ≤ lo.toNat + 256 * hi.toNat ∧ lo.toNat + 256 * hi.toNat ≤ 10000) (n : Station) (a : LeaseAction) :
    parseSetLease [byteOf n.val, lo, hi, a.code] = some (n, lo.toNat + 256 * hi.toNat, a) := by
  have number : rdFin 4 (byteOf n.val) = some n := parseIndex_byteOf (by decide) n
  have valid : (rd2 lo hi == 0 || inRange 20 (rd2 lo hi) 10000) = true := by
    rw [Bool.or_eq_true, beq_iff_eq, inRange_iff]
    exact range
  simp only [parseSetLease, number, LeaseAction.ofByte_code, valid, if_true]
  rfl

/-- A payload that is not four bytes, or whose station, action or period is out of range, fails the checks of R183. -/
theorem parseSetLease_eq_none {b : List Byte}
    (h : ∀ st lo hi a, b = [st, lo, hi, a] → 3 < st.toNat ∨ 1 < a.toNat ∨
      0 < lo.toNat + 256 * hi.toNat ∧ lo.toNat + 256 * hi.toNat < 20 ∨ 10000 < lo.toNat + 256 * hi.toNat) :
    parseSetLease b = none := by
  match b with
  | [] => rfl
  | [_] => rfl
  | [_, _] => rfl
  | [_, _, _] => rfl
  | _ :: _ :: _ :: _ :: _ :: _ => rfl
  | [st, lo, hi, a] =>
    unfold parseSetLease
    dsimp only
    rcases h st lo hi a rfl with station | action | period
    · have unread : rdFin 4 st = none := dif_neg (Nat.not_lt.mpr station)
      rw [unread]
    · rw [LeaseAction.ofByte_eq_none action]
      cases rdFin 4 st <;> rfl
    · have invalid : ¬ (rd2 lo hi == 0 || inRange 20 (rd2 lo hi) 10000) = true := by
        rw [Bool.or_eq_true, beq_iff_eq, inRange_iff, rd2]
        omega
      split
      · exact if_neg invalid
      · rfl

/-! ## The lease of a station -/

@[simp] theorem setStation_station (s : State) (n : Station) : s.setStation n (s.station n) = s := by
  simp [setStation, station]

/-- A change of the lease is stored, and a hold that it clears is a cause of arbitration (R85, R182). -/
theorem modLease_eq (n : Station) (f : Lease → Lease) (s : State) :
    modLease n f s = { s.setStation n { s.station n with lease := f (s.station n).lease } with
      arbCause := s.arbCause || ((s.station n).lease.hold && !(f (s.station n).lease).hold) } := by
  unfold modLease
  dsimp only
  split
  · next clears =>
    rw [clears, Bool.or_true]
    rfl
  · next keeps =>
    rw [Bool.eq_false_iff.mpr keeps, Bool.or_false]
    rfl

theorem modLease_of_hold_clear {s : State} {n : Station} {f : Lease → Lease} {l : Lease}
    (stored : f (s.station n).lease = l) (clear : l.hold = false) :
    modLease n f s = { s.setStation n { s.station n with lease := l } with
      arbCause := s.arbCause || (s.station n).lease.hold } := by
  rw [modLease_eq, stored, clear, Bool.not_false, Bool.and_true]

/-- A lease with period 0 restarts in OFF, and another one LIVE for its period (R183). -/
theorem restart_eq (l : Lease) (now : Nat) : l.restart now =
    if l.period = 0 then ⟨0, l.action, .off, false, none⟩
    else ⟨l.period, l.action, .live, false, some (now + l.period)⟩ := by
  unfold Lease.restart
  split
  · next zero => rw [zero]
  · rfl

theorem restart_hold (l : Lease) (now : Nat) : (l.restart now).hold = false := by
  rw [restart_eq]
  split <;> rfl

/-- A lease in OFF is not renewed (R180). -/
theorem renewLease_of_off {s : State} {n : Station} (off : (s.station n).lease.state = .off) :
    renewLease n s = s := by
  rw [renewLease, modLease_eq, if_pos off, Bool.and_not_self, Bool.or_false]
  exact setStation_station s n

/-- A renewal restarts a lease that is LIVE or LAPSED (R180, R182). -/
theorem renewLease_of_on {s : State} {n : Station} (on : (s.station n).lease.state ≠ .off) :
    renewLease n s = { s.setStation n { s.station n with lease := (s.station n).lease.restart s.now } with
      arbCause := s.arbCause || (s.station n).lease.hold } :=
  modLease_of_hold_clear (if_neg on) (restart_hold ..)

/-! ## The requests -/

/-- The period and the action of a valid payload are stored, and the lease restarts with them (R183). -/
theorem reqSetLease_byteOf {lo hi : Byte}
    (range : lo.toNat + 256 * hi.toNat = 0 ∨
      20 ≤ lo.toNat + 256 * hi.toNat ∧ lo.toNat + 256 * hi.toNat ≤ 10000) (n : Station) (a : LeaseAction)
    (s : State) :
    reqSetLease .svp [byteOf n.val, lo, hi, a.code] s = accept []
      { s.setStation n { s.station n with lease :=
          if lo.toNat + 256 * hi.toNat = 0 then ⟨0, a, .off, false, none⟩
          else ⟨lo.toNat + 256 * hi.toNat, a, .live, false,
            some (s.now + (lo.toNat + 256 * hi.toNat))⟩ } with
        arbCause := s.arbCause || (s.station n).lease.hold } := by
  refine (withField_of_some (parseSetLease_byteOf range n a) s _).trans (congrArg (accept []) ?_)
  exact modLease_of_hold_clear (restart_eq ..) (by split <;> rfl)

theorem exec_renew (p : Port) (b : List Byte) (s : State) :
    exec (.renew p b) s = .next (finish (requestArrives p 0x18 b s)) :=
  exec_instrOfFrame p 0x18 b s

theorem exec_setLease (p : Port) (b : List Byte) (s : State) :
    exec (.setLease p b) s = .next (finish (requestArrives p 0x4D b s)) :=
  exec_instrOfFrame p 0x4D b s

/-- Settles O20: RENEW has no effect but the renewal of every accepted request, SET-LEASE restarts the lease as it
stores it, and both clear the hold. -/
theorem leasesRenewAndRestart : Obligations.LeasesRenewAndRestart := by
  unfold Obligations.LeasesRenewAndRestart
  refine ⟨fun s n hf => ⟨accepts_of (exec_renew ..) hf rfl rfl, renewLease_of_off, fun on armed => ?renewed⟩,
    fun s n lo hi a hf range => ?stored,
    fun s hs => ⟨wrongOnSvp_of (fun p b => exec_renew p b s) hs fun _ _ => rfl,
      wrongOnStations_of (fun p b => exec_setLease p b s) hs fun _ _ _ => rfl,
      fun n x b hf => ?payload, fun b hf bad => ?fields⟩⟩
  case renewed =>
    rw [renewLease_of_on on, Lease.restart, if_neg armed]
  case stored =>
    exact accepts_of (exec_setLease ..) hf (reqSetLease_byteOf range n a _) rfl
  case payload =>
    exact refuses_of (exec_renew ..) hs hf (by decide) rfl
  case fields =>
    exact refuses_of (exec_setLease ..) hs hf (by decide) (withField_of_none (parseSetLease_eq_none bad) _ _)

end Sys2Proof.Machine
end

section
/-! PROOFS. STATION-STATUS and LINE-STATUS: what is read with the request in the holding, and the length of the line
status (R185, R200). -/

namespace Sys2Proof.Machine

open State

/-! ## The status beside a request in the holding -/

/-- The holding of a port shows in no byte of the station status (R185). -/
theorem stationStatus_holdingIt (s : State) (n : Station) (kind : Byte) (b : List Byte) :
    (s.holdingIt (.sp n) kind b).stationStatus n = s.stationStatus n := by
  unfold stationStatus
  rw [port_holdingIt_self]
  rfl

/-- The holding of the supervisor port shows in no byte of the line status (R200). -/
theorem lineStatus_holdingIt (s : State) (kind : Byte) (b : List Byte) :
    (s.holdingIt .svp kind b).lineStatus = s.lineStatus := by
  unfold lineStatus
  rw [port_holdingIt_self]
  rfl

@[simp] theorem setPort_setPort (s : State) (p : Port) (v w : PortSt) :
    (s.setPort p v).setPort p w = s.setPort p w := by
  simp [setPort]

/-- The flags of a port clear beside the request that stands in its holding (R167, R169). -/
theorem clearFlags_holdingIt (s : State) (p : Port) (kind : Byte) (b : List Byte) :
    (s.holdingIt p kind b).modPort p PortSt.clearFlags =
      (s.setPort p (s.port p).clearFlags).holdingIt p kind b := by
  simp only [modPort, holdingIt, port_setPort_self, setPort_setPort]
  rfl

/-! ## The length of the line status -/

@[simp] theorem length_le2 (n : Nat) : (le2 n).length = 2 := rfl

@[simp] theorem length_timeBytes (t : Time) : (timeBytes t).length = 4 := rfl

theorem length_converterStatus (v : Converter) : v.status.length = 18 := rfl

theorem length_relayStatus (r : Relay) : r.status.length = 4 := rfl

theorem length_stationLine (s : State) (n : Station) : (s.stationLine n).length = 5 := rfl

/-- Records of one length make a list of that length for each (R204). -/
theorem length_flatMap_of_const {α : Type} {f : α → List Byte} {m : Nat} (h : ∀ x, (f x).length = m) (l : List α) :
    (l.flatMap f).length = l.length * m := by
  simp [List.length_flatMap, h]

theorem length_lineStatus (s : State) : s.lineStatus.length = 155 := by
  have converters := length_flatMap_of_const (fun c => length_converterStatus (s.conv c)) allConvs
  have stations := length_flatMap_of_const (length_stationLine s) allStations
  simp only [lineStatus, List.length_append, converters, stations, length_relayStatus, length_le2,
    length_timeBytes]
  rfl

/-! ## The requests -/

theorem exec_stationStatus (p : Port) (b : List Byte) (s : State) :
    exec (.stationStatus p b) s = .next (finish (requestArrives p 0x19 b s)) :=
  exec_instrOfFrame p 0x19 b s

theorem exec_lineStatus (p : Port) (b : List Byte) (s : State) :
    exec (.lineStatus p b) s = .next (finish (requestArrives p 0x51 b s)) :=
  exec_instrOfFrame p 0x51 b s

/-- With the request in the holding the station's status is answered as it stood before, and the flags clear (R185). -/
theorem reqStationStatus_holdingIt (s : State) (n : Station) (kind : Byte) :
    reqStationStatus (.sp n) [] (s.holdingIt (.sp n) kind []) =
      accept (s.stationStatus n) ((s.holdingIt (.sp n) kind []).modPort (.sp n) PortSt.clearFlags) :=
  congrArg (accept · _) (stationStatus_holdingIt s n kind [])

/-- With the request in the holding the line's status is answered as it stood before, and the flags clear (R200). -/
theorem reqLineStatus_holdingIt (s : State) (kind : Byte) :
    reqLineStatus .svp [] (s.holdingIt .svp kind []) =
      accept s.lineStatus ((s.setPort .svp (s.port .svp).clearFlags).holdingIt .svp kind []) :=
  congrArg₂ accept (lineStatus_holdingIt s kind []) (clearFlags_holdingIt s .svp kind [])

/-- Settles O22: each status is read before the flags clear, and clearing the flags of a port is no part of what settles
an event. -/
theorem statusReports : Obligations.StatusReports := by
  unfold Obligations.StatusReports
  refine ⟨fun s n hf => ?station, fun s hs hf => ⟨?line, length_lineStatus s⟩,
    fun s hs => ⟨wrongOnSvp_of (fun p b => exec_stationStatus p b s) hs fun _ _ => rfl,
      wrongOnStations_of (fun p b => exec_lineStatus p b s) hs fun _ _ _ => rfl, fun n x b hf => ?payload⟩⟩
  case station =>
    exact accepts_of (exec_stationStatus ..) hf (reqStationStatus_holdingIt s n 0x19) rfl
  case line =>
    have settled : (s.setPort .svp (s.port .svp).clearFlags).Settled := ⟨hs.noCause, hs.scanner⟩
    exact exec_of_accept (exec_lineStatus ..) hf settled (reqLineStatus_holdingIt s 0x51)
  case payload =>
    exact refuses_of (exec_stationStatus ..) hs hf (by decide) rfl

end Sys2Proof.Machine
end

section
/-! PROOFS. What it is for an operation to keep the laws of Safety.lean. Inside an event three laws are open for a while:
committed power has been released before its job leaves HEATING, a job has its outcome before it enters COOLING, and
a port has a request in its holding before the reply. `Debt` names what is open, and `State.Keeps d e` leads from the
laws with debt `d` to the laws with debt `e`. -/

namespace Sys2Proof.Machine

open State

/-! ## The laws with a debt -/

/-- What is open inside an event: the power that jobs hold above committed power, the slot of a job whose outcome
comes before its COOLING, and the port whose request has no reply yet. -/
structure Debt where
  power : Int
  slot : Option SlotIx
  port : Option Port

/-- Nothing is open but the reply at a port. -/
abbrev Debt.only (p : Option Port) : Debt := ⟨0, none, p⟩

/-- The sum of a weight over the admitted jobs. -/
@[irreducible] def State.total (s : State) (w : Job → Nat) : Nat := ∑ k, (s.job k).elim 0 w

/-- The reservation that a job holds in committed power (R81). -/
def Job.held (j : Job) : Nat := if j.state.running then j.reservation else 0

/-- How often a segment lies in the runs of a job's profile (R10). -/
def State.usesBy (s : State) (i : Nat) (j : Job) : Nat :=
  ((s.prof j.profile).runs.filter fun x => x.2 == i).length

/-- One for a job that a test selects. -/
def Job.countFor (p : Job → Bool) (j : Job) : Nat := if p j then 1 else 0

/-- The law of the outputs for one converter (R22). -/
structure Converter.Ok (m : Mode) (v : Converter) : Prop where
  output : v.outputOn = true → v.state.drives = true
  drives : v.state.drives = true → m ≠ .standby
  served : v.served ≠ none → v.state.serves = true ∧ m ≠ .standby
  engine : v.eng.phase = .run ∨ v.eng.timer ≠ .stopped → v.state = .heating

/-- Committed power with the debt is what the jobs hold (R81). -/
def State.PowerDebt (d : Int) (s : State) : Prop := (s.committed : Int) + d = s.total Job.held

/-- OK and UNDERWET are outcomes of jobs in COOLING, but for a job that is about to enter it (R126). -/
def State.OutcomeDebt (x : Option SlotIx) (s : State) : Prop :=
  ∀ k j, x ≠ some k → s.job k = some j → j.outcome = some .ok ∨ j.outcome = some .underwet → j.state = .cooling

/-- A job that names a converter is the one that it serves (R21, R58). -/
def State.LinkLaw (s : State) : Prop :=
  ∀ k j c, s.job k = some j → j.converter = some c →
    (s.conv c).served = some (s.handleOf k) ∧ (s.conv c).state.serves = true

/-- The law of the ports, but for a port whose request waits for its reply (R167, R168, R171). -/
structure State.PortDebt (x : Option Port) (s : State) : Prop where
  notices : ∀ p, (s.port p).notices.length ≤ Config.noticePlaces
  holding : ∀ p, (s.port p).holding.length ≤ Config.holdingPlaces
  reply : ∀ p, x ≠ some p → ((s.port p).reply = none ↔ (s.port p).holding = [])
  taken : ∀ p, x = some p → (s.port p).holding ≠ []

/-- An operation leads from the laws with debt `d` to the laws with debt `e`. -/
structure State.Keeps (d e : Debt) (s t : State) : Prop where
  output : s.OutputLaw → t.OutputLaw
  power : s.PowerDebt d.power → t.PowerDebt e.power
  uses : s.UseLaw → t.UseLaw
  quota : s.QuotaLaw → t.QuotaLaw
  scan : s.ScanLaw → t.ScanLaw
  ports : s.PortDebt d.port → t.PortDebt e.port
  cands : s.CandLaw → t.CandLaw
  outcome : s.OutcomeDebt d.slot → t.OutcomeDebt e.slot
  link : s.LinkLaw → t.LinkLaw

/-! ## The laws without a debt -/

theorem outputLaw_iff {s : State} :
    s.OutputLaw ↔ (s.mode ≠ .standby → s.estop = false) ∧ ∀ c, (s.conv c).Ok s.mode :=
  ⟨fun h => ⟨h.stop, fun c => ⟨h.output c, h.drives c, h.served c, h.engine c⟩⟩,
    fun h => ⟨h.1, fun c => (h.2 c).output, fun c => (h.2 c).drives, fun c => (h.2 c).served,
      fun c => (h.2 c).engine⟩⟩

theorem holds_eq (s : State) (k : SlotIx) : s.holds k = (s.job k).elim 0 Job.held := by
  unfold holds Job.held
  cases s.job k <;> rfl

theorem countIf_eq (s : State) (k : SlotIx) (p : Job → Bool) : s.countIf k p = (s.job k).elim 0 (Job.countFor p) := by
  unfold countIf jobIs Job.countFor
  cases s.job k <;> rfl

theorem usesOf_eq (s : State) (k : SlotIx) (i : Nat) : s.usesOf k i = (s.job k).elim 0 (s.usesBy i) := by
  unfold usesOf usesBy
  cases s.job k <;> rfl

theorem powerLaw_iff {s : State} : s.PowerLaw ↔ s.PowerDebt 0 := by
  simp only [PowerLaw, PowerDebt, total, holds_eq, add_zero, Nat.cast_inj]

/-- The use counts as totals over the admitted jobs (R10, R11). -/
theorem useLaw_iff {s : State} : s.UseLaw ↔
    (∀ p : Fin 64, s.profUse[p] = s.total (Job.countFor fun j => j.profile == p)) ∧
      ∀ i : Fin 256, s.segUse[i] = s.total (s.usesBy i.val) := by
  constructor
  · rintro ⟨profiles, segments⟩
    exact ⟨fun p => by simp only [profiles p, total, countIf_eq], fun i => by simp only [segments i, total, usesOf_eq]⟩
  · rintro ⟨profiles, segments⟩
    exact ⟨fun p => by simp only [profiles p, total, countIf_eq], fun i => by simp only [segments i, total, usesOf_eq]⟩

/-- The quota with its counts as totals over the admitted jobs (R61, R175). -/
theorem quotaLaw_iff {s : State} : s.QuotaLaw ↔ ∀ n : Station,
    s.admitted[n] = s.total (Job.countFor fun j => j.station == n) ∧ s.admitted[n] ≤ Config.stationJobLimit ∧
      s.admitted[n] + s.resultsHeld n ≤ Config.resultPlaces := by
  constructor
  · rintro ⟨counted, jobs, places⟩ n
    exact ⟨by simp only [counted n, total, countIf_eq], jobs n, places n⟩
  · intro h
    exact ⟨fun n => by simp only [(h n).1, total, countIf_eq], fun n => (h n).2.1, fun n => (h n).2.2⟩

theorem portLaw_iff {s : State} : s.PortLaw ↔ s.PortDebt none :=
  ⟨fun h => ⟨h.notices, h.holding, fun p _ => h.reply p, nofun⟩,
    fun h => ⟨h.notices, h.holding, fun p => h.reply p nofun⟩⟩

theorem jobLaw_iff {s : State} : s.JobLaw ↔ s.OutcomeDebt none ∧ s.LinkLaw :=
  ⟨fun h => ⟨fun k j _ => h.outcome k j, h.converter⟩, fun h => ⟨fun k j => h.1 k j nofun, h.2⟩⟩

/-! ## Totals -/

theorem total_congr {s t : State} {w w' : Job → Nat} (h : ∀ k, (t.job k).elim 0 w' = (s.job k).elim 0 w) :
    t.total w' = s.total w := by
  unfold total
  exact Finset.sum_congr rfl fun k _ => h k

theorem State.PowerDebt.congr {d : Int} {s t : State} (law : s.PowerDebt d) (committed : t.committed = s.committed)
    (jobs : ∀ k, t.job k = s.job k) : t.PowerDebt d := by
  rw [PowerDebt, committed, total_congr (s := s) (w := Job.held) fun k => by rw [jobs]]
  exact law

/-- A change of one slot changes a total by what its job weighs. -/
theorem total_change {s t : State} {k : SlotIx} (w : Job → Nat) (h : ∀ m, m ≠ k → t.job m = s.job m) :
    t.total w + (s.job k).elim 0 w = s.total w + (t.job k).elim 0 w := by
  unfold total
  rw [← Finset.add_sum_erase _ _ (Finset.mem_univ k), ← Finset.add_sum_erase (a := k) _ _ (Finset.mem_univ k),
    Finset.sum_congr rfl fun m hm => by rw [h m (Finset.ne_of_mem_erase hm)]]
  omega

theorem le_total {s : State} {k : SlotIx} {j : Job} (h : s.job k = some j) (w : Job → Nat) : w j ≤ s.total w := by
  have weight : w j = (s.job k).elim 0 w := by rw [h]; rfl
  rw [weight, total]
  exact Finset.single_le_sum (f := fun k => (s.job k).elim 0 w) (fun _ _ => Nat.zero_le _) (Finset.mem_univ k)

/-! ## Keeping the laws is a preorder -/

namespace State.Keeps

theorem refl (d : Debt) (s : State) : s.Keeps d d s := ⟨id, id, id, id, id, id, id, id, id⟩

theorem trans {d e f : Debt} {s t u : State} (h : s.Keeps d e t) (g : t.Keeps e f u) : s.Keeps d f u :=
  ⟨g.output ∘ h.output, g.power ∘ h.power, g.uses ∘ h.uses, g.quota ∘ h.quota, g.scan ∘ h.scan, g.ports ∘ h.ports,
    g.cands ∘ h.cands, g.outcome ∘ h.outcome, g.link ∘ h.link⟩

theorem folds {α : Type} {d : Debt} {f : State → α → State} (hf : ∀ (u : State) x, u.Keeps d d (f u x))
    (l : List α) (s : State) : s.Keeps d d (l.foldl f s) := by
  induction l generalizing s with
  | nil => exact refl d s
  | cons x l ih => exact (hf s x).trans (ih _)

end State.Keeps

/-! ## Changes that keep every law -/

/-- The record `i` of a job after a change that no law sees: the description and what the job holds stand, and its
converter stands or goes. -/
structure Job.Kin (j i : Job) : Prop where
  station : i.station = j.station
  profile : i.profile = j.profile
  head : i.head = j.head
  held : i.held = j.held
  occupies : i.state.occupies = j.state.occupies
  scanned : i.state.scanned = j.state.scanned
  outcome : i.outcome = some .ok ∨ i.outcome = some .underwet →
    i.state = .cooling ∨ i.outcome = j.outcome ∧ (j.state = .cooling → i.state = .cooling)
  converter : i.converter = none ∨ i.converter = j.converter

theorem Job.Kin.refl (j : Job) : j.Kin j := ⟨rfl, rfl, rfl, rfl, rfl, rfl, fun _ => .inr ⟨rfl, id⟩, .inr rfl⟩

/-- A change of measurements, counters and times alone. -/
theorem Job.Kin.of_same {j i : Job} (h : i.station = j.station ∧ i.profile = j.profile ∧ i.head = j.head ∧
    i.reservation = j.reservation ∧ i.state = j.state ∧ i.outcome = j.outcome ∧ i.converter = j.converter := by
      exact ⟨rfl, rfl, rfl, rfl, rfl, rfl, rfl⟩) : j.Kin i := by
  obtain ⟨station, profile, head, reservation, state, outcome, converter⟩ := h
  exact ⟨station, profile, head, by rw [Job.held, Job.held, state, reservation], by rw [state], by rw [state],
    fun _ => .inr ⟨outcome, fun cool => state.trans cool⟩, .inr converter⟩

/-- Two states agree in what the laws say of everything but the converters. -/
structure State.Alike (s t : State) : Prop where
  mode : t.mode = s.mode
  estop : t.estop = s.estop
  committed : t.committed = s.committed
  profUse : t.profUse = s.profUse
  segUse : t.segUse = s.segUse
  admitted : t.admitted = s.admitted
  scanSet : t.scanSet = s.scanSet
  cands : t.cands = s.cands
  heads : ∀ h, (t.head h).guardEnable = (s.head h).guardEnable
  profs : ∀ p, (t.prof p).runs = (s.prof p).runs
  results : ∀ n, (t.station n).results = (s.station n).results
  notices : ∀ p, (s.port p).notices.length ≤ Config.noticePlaces → (t.port p).notices.length ≤ Config.noticePlaces
  links : ∀ p, (t.port p).holding = (s.port p).holding ∧ (t.port p).reply = (s.port p).reply
  jobs : ∀ k, (t.slot k).gen = (s.slot k).gen ∧ Option.Rel Job.Kin (s.job k) (t.job k)

theorem Option.Rel.kin_refl (x : Option Job) : Option.Rel Job.Kin x x := by
  cases x with
  | none => exact .none
  | some j => exact .some (.refl j)

namespace State.Alike

theorem total {s t : State} (h : s.Alike t) {w w' : Job → Nat} (hw : ∀ j i : Job, j.Kin i → w' i = w j) :
    t.total w' = s.total w := by
  refine total_congr fun k => ?_
  have rel := (h.jobs k).2
  generalize s.job k = x at rel ⊢
  generalize t.job k = y at rel ⊢
  cases rel with
  | none => rfl
  | some kin => exact hw _ _ kin

theorem countFor {s t : State} (h : s.Alike t) {p : Job → Bool} (hp : ∀ j i : Job, j.Kin i → p i = p j) :
    t.total (Job.countFor p) = s.total (Job.countFor p) :=
  h.total fun j i kin => by rw [Job.countFor, Job.countFor, hp j i kin]

/-- A job after the change comes from one before it. -/
theorem job {s t : State} (h : s.Alike t) {k : SlotIx} {i : Job} (e : t.job k = some i) :
    ∃ j, s.job k = some j ∧ j.Kin i := by
  have rel := (h.jobs k).2
  rw [e] at rel
  generalize hx : s.job k = x at rel
  cases rel with
  | some kin => exact ⟨_, rfl, kin⟩

theorem job' {s t : State} (h : s.Alike t) {k : SlotIx} {j : Job} (e : s.job k = some j) :
    ∃ i, t.job k = some i ∧ j.Kin i := by
  have rel := (h.jobs k).2
  rw [e] at rel
  generalize hx : t.job k = x at rel
  cases rel with
  | some kin => exact ⟨_, rfl, kin⟩

theorem scanLaw {s t : State} (h : s.Alike t) (law : s.ScanLaw) : t.ScanLaw where
  heads := by
    intro k m i j hi hj hh oi oj
    obtain ⟨i', hi', ki⟩ := h.job hi
    obtain ⟨j', hj', kj⟩ := h.job hj
    exact law.heads k m i' j' hi' hj' (by rw [← ki.head, ← kj.head, hh]) (by rw [← ki.occupies, oi])
      (by rw [← kj.occupies, oj])
  scan := by
    intro x
    rw [h.scanSet, law.scan, h.heads]
    refine and_congr_right fun _ => ⟨?_, ?_⟩
    · rintro ⟨k, j, hj, hh, hs⟩
      obtain ⟨i, hi, kin⟩ := h.job' hj
      exact ⟨k, i, hi, by rw [kin.head, hh], by rw [kin.scanned, hs]⟩
    · rintro ⟨k, i, hi, hh, hs⟩
      obtain ⟨j, hj, kin⟩ := h.job hi
      exact ⟨k, j, hj, by rw [← kin.head, hh], by rw [← kin.scanned, hs]⟩

theorem handleOf {s t : State} (h : s.Alike t) (k : SlotIx) : t.handleOf k = s.handleOf k := by
  rw [State.handleOf, State.handleOf, (h.jobs k).1]

/-- A change that the laws do not see keeps them, if every converter stays in order and serves the job that names
it. -/
theorem keeps_of_link {s t : State} (d : Debt) (h : s.Alike t)
    (ok : s.OutputLaw → ∀ c, (s.conv c).Ok s.mode → (t.conv c).Ok s.mode) (link : s.LinkLaw → t.LinkLaw) : s.Keeps d d t where
  output law := by
    obtain ⟨stop, convs⟩ := outputLaw_iff.1 law
    rw [outputLaw_iff, h.mode, h.estop]
    exact ⟨stop, fun c => ok law c (convs c)⟩
  power law := by
    rw [PowerDebt, h.committed, h.total fun _ _ kin => kin.held]
    exact law
  uses law := by
    rw [useLaw_iff] at law ⊢
    refine ⟨fun p => ?_, fun i => ?_⟩
    · rw [h.profUse, h.countFor fun _ _ kin => by rw [kin.profile]]
      exact law.1 p
    · rw [h.segUse, h.total (w := s.usesBy i.val) fun _ _ kin => by rw [usesBy, usesBy, kin.profile, h.profs]]
      exact law.2 i
  quota law := by
    rw [quotaLaw_iff] at law ⊢
    intro n
    rw [h.admitted, h.countFor fun _ _ kin => by rw [kin.station], resultsHeld, h.results]
    exact law n
  scan := h.scanLaw
  ports law := by
    refine ⟨fun p => h.notices p (law.notices p), fun p => ?_, fun p => ?_, fun p => ?_⟩ <;> rw [(h.links p).1]
    · exact law.holding p
    · rw [(h.links p).2]
      exact law.reply p
    · exact law.taken p
  cands law := by
    rw [CandLaw, h.cands]
    exact law
  outcome law := by
    intro k i hx hi ho
    obtain ⟨j, hj, kin⟩ := h.job hi
    rcases kin.outcome ho with cool | ⟨same, cool⟩
    · exact cool
    · exact cool (law k j hx hj (same ▸ ho))
  link := link

/-- A change that the laws do not see keeps them, if every converter stays in order and goes on serving. -/
theorem keeps {s t : State} (d : Debt) (h : s.Alike t)
    (ok : s.OutputLaw → ∀ c, (s.conv c).Ok s.mode → (t.conv c).Ok s.mode)
    (serving : ∀ c, (s.conv c).served ≠ none → (s.conv c).state.serves = true →
      (t.conv c).served = (s.conv c).served ∧ (t.conv c).state.serves = true) : s.Keeps d d t := by
  refine h.keeps_of_link d ok fun law => ?_
  intro k i c hi hc
  obtain ⟨j, hj, kin⟩ := h.job hi
  have named : j.converter = some c := by
    rcases kin.converter with gone | same
    · rw [gone] at hc
      nomatch hc
    · rw [← same, hc]
  obtain ⟨served, serves⟩ := law k j c hj named
  obtain ⟨served', serves'⟩ := serving c (by rw [served]; nofun) serves
  exact ⟨by rw [served', served, h.handleOf], serves'⟩

/-- States that agree in the fields that the laws read. -/
theorem of_fields {s t : State} (mode : t.mode = s.mode := by exact rfl) (estop : t.estop = s.estop := by exact rfl)
    (committed : t.committed = s.committed := by exact rfl) (profUse : t.profUse = s.profUse := by exact rfl)
    (segUse : t.segUse = s.segUse := by exact rfl) (admitted : t.admitted = s.admitted := by exact rfl)
    (scanSet : t.scanSet = s.scanSet := by exact rfl) (cands : t.cands = s.cands := by exact rfl)
    (heads : ∀ h, (t.head h).guardEnable = (s.head h).guardEnable := by exact fun _ => rfl)
    (profs : ∀ p, (t.prof p).runs = (s.prof p).runs := by exact fun _ => rfl)
    (results : ∀ n, (t.station n).results = (s.station n).results := by exact fun _ => rfl)
    (ports : ∀ p, t.port p = s.port p := by exact fun _ => rfl)
    (slots : ∀ k, t.slot k = s.slot k := by exact fun _ => rfl) : s.Alike t where
  mode := mode
  estop := estop
  committed := committed
  profUse := profUse
  segUse := segUse
  admitted := admitted
  scanSet := scanSet
  cands := cands
  heads := heads
  profs := profs
  results := results
  notices p h := by rwa [ports]
  links p := by rw [ports]; exact ⟨rfl, rfl⟩
  jobs k := by
    rw [State.job, State.job, slots]
    exact ⟨rfl, Option.Rel.kin_refl _⟩

theorem modJob {s : State} {k : SlotIx} {f : Job → Job} (h : ∀ j, s.job k = some j → j.Kin (f j)) :
    s.Alike (s.modJob k f) := by
  refine ⟨rfl, rfl, rfl, rfl, rfl, rfl, rfl, rfl, fun _ => rfl, fun _ => rfl, fun _ => rfl, fun _ => id,
    fun _ => ⟨rfl, rfl⟩, fun m => ?_⟩
  rw [slot_modJob, job_modJob]
  split
  · next same =>
    subst same
    refine ⟨rfl, ?_⟩
    cases e : s.job k with
    | none => exact .none
    | some j => exact .some (h j e)
  · exact ⟨rfl, Option.Rel.kin_refl _⟩

theorem modConv {s t : State} (h : s.Alike t) (c : Conv) (f : Converter → Converter) : s.Alike (t.modConv c f) :=
  ⟨h.mode, h.estop, h.committed, h.profUse, h.segUse, h.admitted, h.scanSet, h.cands, h.heads, h.profs, h.results,
    h.notices, h.links, h.jobs⟩

end State.Alike

namespace State.Keeps

/-- States that agree in the fields that the laws read, with the converters. -/
theorem fields {d : Debt} {s t : State} (mode : t.mode = s.mode := by exact rfl)
    (estop : t.estop = s.estop := by exact rfl)
    (committed : t.committed = s.committed := by exact rfl) (profUse : t.profUse = s.profUse := by exact rfl)
    (segUse : t.segUse = s.segUse := by exact rfl) (admitted : t.admitted = s.admitted := by exact rfl)
    (scanSet : t.scanSet = s.scanSet := by exact rfl) (cands : t.cands = s.cands := by exact rfl)
    (heads : ∀ h, (t.head h).guardEnable = (s.head h).guardEnable := by exact fun _ => rfl)
    (profs : ∀ p, (t.prof p).runs = (s.prof p).runs := by exact fun _ => rfl)
    (results : ∀ n, (t.station n).results = (s.station n).results := by exact fun _ => rfl)
    (ports : ∀ p, t.port p = s.port p := by exact fun _ => rfl)
    (slots : ∀ k, t.slot k = s.slot k := by exact fun _ => rfl)
    (convs : ∀ c, t.conv c = s.conv c := by exact fun _ => rfl) : s.Keeps d d t :=
  (Alike.of_fields mode estop committed profUse segUse admitted scanSet cands heads profs results ports slots).keeps d
    (fun _ c h => by rwa [convs]) fun c _ h => by rw [convs]; exact ⟨rfl, h⟩

/-- One converter changes, stays in order by the law of the outputs, and goes on serving. -/
theorem modConv_of_law {d : Debt} {s : State} {c : Conv} {f : Converter → Converter}
    (ok : s.OutputLaw → (s.conv c).Ok s.mode → (f (s.conv c)).Ok s.mode)
    (serving : (s.conv c).served ≠ none → (s.conv c).state.serves = true →
      (f (s.conv c)).served = (s.conv c).served ∧ (f (s.conv c)).state.serves = true) :
    s.Keeps d d (s.modConv c f) := by
  have same : s.Alike (s.modConv c f) := Alike.of_fields
  refine same.keeps d (fun law e h => ?_) fun e a b => ?_
  · rw [conv_modConv]
    split
    · next same => subst same; exact ok law h
    · exact h
  · rw [conv_modConv]
    split
    · next same => subst same; exact serving a b
    · exact ⟨rfl, b⟩

/-- One converter changes, stays in order and goes on serving. -/
theorem modConv {d : Debt} {s : State} {c : Conv} {f : Converter → Converter}
    (ok : (s.conv c).Ok s.mode → (f (s.conv c)).Ok s.mode)
    (serving : (s.conv c).served ≠ none → (s.conv c).state.serves = true →
      (f (s.conv c)).served = (s.conv c).served ∧ (f (s.conv c)).state.serves = true) :
    s.Keeps d d (s.modConv c f) :=
  modConv_of_law (fun _ => ok) serving

/-- What the laws read of a converter stands. -/
theorem modConv_plain {d : Debt} {s : State} {c : Conv} {f : Converter → Converter}
    (h : (f (s.conv c)).state = (s.conv c).state ∧ (f (s.conv c)).outputOn = (s.conv c).outputOn ∧
      (f (s.conv c)).served = (s.conv c).served ∧ (f (s.conv c)).eng.phase = (s.conv c).eng.phase ∧
      (f (s.conv c)).eng.timer = (s.conv c).eng.timer := by exact ⟨rfl, rfl, rfl, rfl, rfl⟩) :
    s.Keeps d d (s.modConv c f) := by
  obtain ⟨state, output, served, phase, timer⟩ := h
  refine modConv (fun ok => ?_) fun _ b => ⟨served, by rw [state, b]⟩
  exact ⟨by rw [state, output]; exact ok.output, by rw [state]; exact ok.drives,
    by rw [state, served]; exact ok.served, by rw [state, phase, timer]; exact ok.engine⟩

/-- A job changes in what no law sees. -/
theorem modJob {d : Debt} {s : State} {k : SlotIx} {f : Job → Job} (h : ∀ j, s.job k = some j → j.Kin (f j)) :
    s.Keeps d d (s.modJob k f) :=
  (Alike.modJob h).keeps d (fun _ _ => id) fun _ _ b => ⟨rfl, b⟩

theorem modPort {d : Debt} {s : State} {p : Port} {f : PortSt → PortSt}
    (h : (f (s.port p)).holding = (s.port p).holding ∧ (f (s.port p)).reply = (s.port p).reply)
    (fit : (s.port p).notices.length ≤ Config.noticePlaces → (f (s.port p)).notices.length ≤ Config.noticePlaces) :
    s.Keeps d d (s.modPort p f) := by
  refine Alike.keeps d ⟨rfl, rfl, rfl, rfl, rfl, rfl, rfl, rfl, fun _ => rfl, fun _ => rfl, fun _ => rfl,
    fun q => ?_, fun q => ?_, fun k => ⟨rfl, Option.Rel.kin_refl _⟩⟩ (fun _ _ => id) fun _ _ b => ⟨rfl, b⟩
  all_goals
    rw [port_modPort]
    split
  · next same => subst same; exact fit
  · exact id
  · next same => subst same; exact h
  · exact ⟨rfl, rfl⟩

/-- A notice joins a queue that has a place for it (R171). -/
theorem post {d : Debt} {s : State} (p : Port) (b : NoticeBody) : s.Keeps d d (s.post p b) := by
  refine modPort ?_ ?_
  all_goals
    unfold PortSt.post
    split
  · exact ⟨rfl, rfl⟩
  · exact ⟨rfl, rfl⟩
  · intro _
    simp only [List.length_append, List.length_singleton]
    omega
  · exact id

theorem modStation {d : Debt} {s : State} {n : Station} {f : StationSt → StationSt}
    (h : (f (s.station n)).results = (s.station n).results := by exact rfl) : s.Keeps d d (s.modStation n f) := by
  refine fields (results := fun m => ?_)
  rw [station_modStation]
  split
  · next same => subst same; exact h
  · rfl

end State.Keeps

end Sys2Proof.Machine
end

section
/-! PROOFS. The scanner and the converter bank keep the laws. -/

namespace Sys2Proof.Machine

open State

/-! ## The scanner -/

theorem startConversion_laws (d : Debt) (s : State) : s.Keeps d d (startConversion s) := by
  unfold startConversion
  split
  · exact .refl d s
  · exact .fields

theorem scanNext_laws (d : Debt) (s : State) : s.Keeps d d (scanNext s) := by
  unfold scanNext startPass
  split
  · exact .trans .fields (startConversion_laws d _)
  · exact startConversion_laws d s

theorem scanSettle_laws (d : Debt) (s : State) : s.Keeps d d (scanSettle s) := by
  unfold scanSettle
  split
  · exact .refl d s
  · exact scanNext_laws d s

/-! ## The connection matrix -/

theorem matrixTry_laws (d : Debt) (p : Pool) (s : State) : s.Keeps d d (matrixTry p s) := by
  unfold matrixTry
  split
  · exact .refl d s
  · dsimp only
    split <;> exact .fields

theorem disconnect_laws (d : Debt) (c : Conv) (s : State) : s.Keeps d d (disconnect c s) := by
  unfold disconnect
  split
  · exact .refl d s
  · exact .trans .fields (matrixTry_laws d _ _)

/-! ## A converter that serves no job -/

/-- The converter neither drives nor connects a job. -/
structure Converter.Rests (v : Converter) : Prop where
  drives : v.state.drives = false
  served : v.state = .connecting → v.served = none

theorem Converter.Rests.of_state {v : Converter} (h : v.state ∈ [.off, .warmup, .idle, .discharge, .held, .faulted]) :
    v.Rests := by
  constructor
  · revert h
    cases v.state <;> decide
  · intro e
    rw [e] at h
    simp at h

/-- What a resting converter holds, by the law of the outputs. -/
theorem Converter.Ok.rests {m : Mode} {v : Converter} (ok : v.Ok m) (h : v.Rests) :
    v.outputOn = false ∧ v.served = none ∧ v.eng.phase ≠ .run ∧ v.eng.timer = .stopped := by
  have cold : v.state ≠ .heating := by
    intro e
    have drives := h.drives
    rw [e] at drives
    nomatch drives
  refine ⟨?_, ?_, fun e => cold (ok.engine (.inl e)), ?_⟩
  · by_contra on
    rw [Bool.not_eq_false] at on
    have drives := h.drives
    rw [ok.output on] at drives
    nomatch drives
  · by_contra some_
    have serves := (ok.served some_).1
    rw [ConvState.serves, h.drives, Bool.false_or, beq_iff_eq] at serves
    exact some_ (h.served serves)
  · by_contra armed
    exact cold (ok.engine (.inr armed))

/-- A resting converter enters another state at rest. -/
theorem State.Keeps.modConv_rests {d : Debt} {s : State} {c : Conv} {f : Converter → Converter}
    (h : (s.conv c).Rests) (rest : (f (s.conv c)).state ∈ [.off, .warmup, .idle, .discharge, .held, .faulted])
    (same : (f (s.conv c)).outputOn = (s.conv c).outputOn ∧ (f (s.conv c)).served = (s.conv c).served ∧
      (f (s.conv c)).eng = (s.conv c).eng := by exact ⟨rfl, rfl, rfl⟩) : s.Keeps d d (s.modConv c f) := by
  obtain ⟨output, served, eng⟩ := same
  have rests := Converter.Rests.of_state rest
  refine .modConv (fun ok => ?_) fun some_ serves => ?_
  · obtain ⟨off, none_, stopped, timer⟩ := ok.rests h
    exact ⟨by rw [output, off]; nofun, by rw [rests.drives]; nofun, by rw [served, none_]; exact fun e => (e rfl).elim,
      by rw [eng, timer]; exact fun e => (e.elim stopped fun e => e rfl).elim⟩
  · rw [ConvState.serves, h.drives, Bool.false_or, beq_iff_eq] at serves
    exact (some_ (h.served serves)).elim

/-! ## State entries -/

theorem enterWarmup_laws {d : Debt} {c : Conv} {s : State} (h : (s.conv c).Rests) :
    s.Keeps d d (enterWarmup c s) :=
  .modConv_rests h (by simp)

theorem enterOff_laws {d : Debt} {c : Conv} {s : State} (h : (s.conv c).Rests) : s.Keeps d d (enterOff c s) := by
  have off : s.Keeps d d (disconnect c (s.modConv c fun v => { v with state := .off, pend := .none, warmTimer := none })) :=
    (State.Keeps.modConv_rests h (by simp)).trans (disconnect_laws d c _)
  unfold enterOff
  dsimp only
  split
  · exact off.trans (enterWarmup_laws (.of_state (by simp)))
  · exact off

theorem enterHeld_laws {d : Debt} {c : Conv} {s : State} (h : (s.conv c).Rests) : s.Keeps d d (enterHeld c s) :=
  (State.Keeps.modConv_rests h (by simp)).trans (disconnect_laws d c _)

theorem enterFaulted_laws {d : Debt} {c : Conv} {s : State} (h : (s.conv c).Rests) :
    s.Keeps d d (enterFaulted c s) :=
  ((State.Keeps.modConv_rests h (by simp)).trans (.post _ _)).trans (disconnect_laws d c _)

theorem enterIdle_laws {d : Debt} {c : Conv} {s : State} (h : (s.conv c).Rests) : s.Keeps d d (enterIdle c s) := by
  have idle : s.Keeps d d (s.modConv c fun v => { v with state := .idle, pend := .none }) := .modConv_rests h (by simp)
  unfold enterIdle
  dsimp only
  split
  · exact (idle.trans (.post _ _)).trans .fields
  · exact idle.trans .fields

theorem resolveConv_laws {d : Debt} {c : Conv} {s : State} (h : (s.conv c).Rests) : s.Keeps d d (resolveConv c s) := by
  unfold resolveConv
  split
  · exact enterFaulted_laws h
  · split
    · exact enterIdle_laws h
    · exact enterOff_laws h
  · exact enterHeld_laws h
  · exact enterIdle_laws h

theorem warmupCheck_laws (d : Debt) (c : Conv) (s : State) : s.Keeps d d (warmupCheck c s) := by
  unfold warmupCheck
  split
  · next h =>
    have rests : (s.conv c).Rests := .of_state (by simp [h.1])
    unfold endWarmup
    split
    · exact .trans .modConv_plain (enterFaulted_laws (.of_state (by simp [h.1])))
    · exact resolveConv_laws rests
  · exact .refl d s

/-! ## The served job -/

/-- A job that a converter serves is the one in its served slot. -/
theorem servedSlot_of {s : State} {c : Conv} {k : SlotIx} {j : Job} (served : (s.conv c).served = some (s.handleOf k))
    (h : s.job k = some j) : s.servedSlot c = some k := by
  unfold servedSlot
  rw [served]
  simp [current, State.handleOf, h]

theorem served_of_servedSlot {s : State} {c : Conv} {k : SlotIx} (h : s.servedSlot c = some k) :
    (s.conv c).served = some (s.handleOf k) ∧ ∃ j, s.job k = some j := by
  unfold servedSlot at h
  split at h
  · nomatch h
  · next x e =>
    unfold current at h
    split at h
    · next gen =>
      split at h
      · next now =>
        obtain rfl := Option.some.inj h
        exact ⟨by rw [e, State.handleOf, gen], Option.isSome_iff_exists.1 now⟩
      · nomatch h
    · nomatch h

/-- The record of a job that names no converter any more. -/
theorem Job.Kin.dropConverter (j : Job) : j.Kin { j with converter := none } :=
  { Job.Kin.refl j with converter := .inl rfl }

/-- The jobs after a converter has stopped serving: the one that it served names none (R58). -/
theorem clearServed_job (c : Conv) (s : State) (k : SlotIx) : (clearServed c s).job k =
    if s.servedSlot c = some k then (s.job k).map fun j => { j with converter := none } else s.job k := by
  unfold clearServed
  cases e : s.servedSlot c with
  | none => rfl
  | some m =>
    dsimp only
    rw [modConv_job, job_modJob]
    simp only [Option.some.injEq]
    split
    · next same => rw [same]
    · rfl

/-- A converter stops serving, and the job that it serves names no converter any more (R58). -/
theorem clearServed_laws (d : Debt) (c : Conv) (s : State) : s.Keeps d d (clearServed c s) := by
  have bank := clearServed_bank (.refl (c := c) s)
  have alike : s.Alike (clearServed c s) := by
    unfold clearServed
    dsimp only
    split
    · exact (State.Alike.of_fields (t := s)).modConv c _
    · exact (State.Alike.modJob fun j _ => .dropConverter j).modConv c _
  refine alike.keeps_of_link d (fun _ e ok => ?_) fun law k j e hj he => ?_
  · by_cases same : e = c
    · subst same
      rw [clearServed_conv]
      exact ⟨ok.output, ok.drives, fun x => (x rfl).elim, ok.engine⟩
    · rwa [bank.other e same]
  · rw [clearServed_job] at hj
    split at hj
    · obtain ⟨i, -, rfl⟩ := Option.map_eq_some_iff.1 hj
      nomatch he
    · next other =>
      obtain ⟨served, serves⟩ := law k j e hj he
      have ne : e ≠ c := by
        rintro rfl
        exact other (servedSlot_of served hj)
      rw [bank.other e ne, alike.handleOf]
      exact ⟨served, serves⟩

theorem enterDischarge_laws (d : Debt) (c : Conv) (s : State) : s.Keeps d d (enterDischarge c s) := by
  refine (clearServed_laws d c s).trans (.modConv (fun ok => ?_) fun some_ => ?_)
  · obtain ⟨state, output, -, -, -, -, -, phase, timer, -⟩ :=
      discharge_fields ((clearServed c s).conv c) s.lineClock s.now
    refine ⟨by rw [output]; nofun, by rw [state]; nofun, fun some_ => ?_, by rw [phase, timer]; simp⟩
    exact (some_ (by rw [clearServed_conv]; unfold Converter.discharge Converter.switchOff; split <;> rfl)).elim
  · rw [clearServed_conv] at some_
    exact (some_ rfl).elim

theorem connectionCheck_laws (d : Debt) (c : Conv) (s : State) : s.Keeps d d (connectionCheck c s) := by
  unfold connectionCheck
  split
  · next h => exact resolveConv_laws ⟨by rw [h.1]; rfl, fun _ => h.2.1⟩
  · exact .refl d s

theorem withdrawConnection_laws (d : Debt) (c : Conv) (s : State) : s.Keeps d d (withdrawConnection c s) := by
  refine (clearServed_laws d c s).trans (.trans ?_ (connectionCheck_laws d c _))
  split
  · exact .refl d _
  · exact .fields

theorem pendOff_laws (d : Debt) (c : Conv) (s : State) : s.Keeps d d (pendOff c s) := by
  refine .modConv_plain ?_
  split <;> exact ⟨rfl, rfl, rfl, rfl, rfl⟩

theorem pendFault_laws (d : Debt) (c : Conv) (cause : FaultCause) (s : State) :
    s.Keeps d d (pendFault c cause s) := by
  refine .modConv_plain ?_
  split <;> exact ⟨rfl, rfl, rfl, rfl, rfl⟩

/-! ## STANDBY and its end -/

theorem standbyConv_laws (d : Debt) (s : State) (c : Conv) : s.Keeps d d (standbyConv c s) := by
  unfold standbyConv
  split
  · exact .refl d s
  · exact .refl d s
  · exact pendOff_laws d c s
  · exact pendOff_laws d c s
  · next e => exact enterOff_laws (.of_state (by simp [e]))
  · next e => exact enterOff_laws (.of_state (by simp [e]))
  · split
    · exact (pendOff_laws d c s).trans (withdrawConnection_laws d c _)
    · exact pendOff_laws d c s
  all_goals exact (pendOff_laws d c s).trans (enterDischarge_laws d c _)

/-- A converter in order that did not drive is in order in every mode once it serves no job, with its output and engine
as they were. -/
theorem Converter.Ok.of_idle {m m' : Mode} {v w : Converter} (ok : v.Ok m) (drives : v.state.drives = false)
    (same : w.outputOn = v.outputOn ∧ w.eng = v.eng) (served : w.served = none) (rest : w.state.drives = false) :
    w.Ok m' := by
  have rests : ({ v with served := none } : Converter).Rests := ⟨drives, fun _ => rfl⟩
  have ok' : ({ v with served := none } : Converter).Ok m :=
    ⟨ok.output, ok.drives, fun x => (x rfl).elim, ok.engine⟩
  obtain ⟨off, -, stopped, timer⟩ := ok'.rests rests
  refine ⟨?_, by rw [rest]; nofun, fun x => (x served).elim, fun x => ?_⟩
  · rw [same.1]
    exact fun on => absurd (on.symm.trans off) nofun
  · rw [same.2] at x
    exact (x.elim stopped fun x => x timer).elim

theorem pendOff_conv (c : Conv) (s : State) :
    (pendOff c s).conv c = { s.conv c with pend := (s.conv c).offPending } := by
  unfold pendOff Converter.offPending
  rw [conv_modConv_self]
  split
  · next e => rw [← e]
  · rfl

theorem offConv_rest (w : Converter) (h : w.state ∈ [.off, .warmup, .idle, .held, .faulted]) :
    w.state.drives = false := by
  revert h
  cases w.state <;> simp [ConvState.drives]

/-- After STANDBY entry a converter that was in order is in order in STANDBY (R28). -/
theorem standbyConv_ok {m : Mode} {c : Conv} {s : State} (ok : (s.conv c).Ok m) :
    ((standbyConv c s).conv c).Ok .standby := by
  have discharged : (s.conv c).state.drives = true → ((enterDischarge c (pendOff c s)).conv c).Ok .standby := by
    intro _
    rw [enterDischarge_conv]
    obtain ⟨state, output, -, -, -, -, -, phase, timer, -⟩ :=
      discharge_fields ((pendOff c s).conv c) (pendOff c s).lineClock (pendOff c s).now
    exact ⟨by dsimp only; rw [output]; nofun, by dsimp only; rw [state]; nofun, fun x => (x rfl).elim,
      by dsimp only; rw [phase, timer]; simp⟩
  have idle : ∀ w : Converter, (s.conv c).Rests → w.outputOn = (s.conv c).outputOn → w.eng = (s.conv c).eng →
      w.served = (s.conv c).served → w.state.drives = false → w.Ok .standby := fun w rests output eng served rest =>
    ok.of_idle rests.drives ⟨output, eng⟩ (served.trans (ok.rests rests).2.1) rest
  have off : (s.conv c).Rests → ((enterOff c s).conv c).Ok .standby := by
    intro rests
    rw [enterOff_conv]
    split <;> exact idle _ rests rfl rfl rfl rfl
  have pending : (s.conv c).Rests → ((pendOff c s).conv c).Ok .standby := by
    intro rests
    rw [pendOff_conv]
    exact idle _ rests rfl rfl rfl rests.drives
  unfold standbyConv
  split
  · next e => exact idle _ (.of_state (by simp [e])) rfl rfl rfl (by simp [e, ConvState.drives])
  · next e => exact idle _ (.of_state (by simp [e])) rfl rfl rfl (by simp [e, ConvState.drives])
  · next e => exact pending (.of_state (by simp [e]))
  · next e => exact pending (.of_state (by simp [e]))
  · next e => exact off (.of_state (by simp [e]))
  · next e => exact off (.of_state (by simp [e]))
  · next e =>
    split
    · obtain ⟨output, served, -, -, -, eng, state⟩ := withdrawConnection_kept c (pendOff c s)
      rw [pendOff_conv] at output eng state
      refine ok.of_idle (by simp [e, ConvState.drives]) ⟨output, eng⟩ served ?_
      rcases state with same | ⟨rest, -⟩
      · rw [same]
        simp [e, ConvState.drives]
      · exact offConv_rest _ rest
    · next none_ => exact pending ⟨by simp [e, ConvState.drives], fun _ => by simpa using none_⟩
  · next e => exact discharged (by simp [e, ConvState.drives])
  · next e => exact discharged (by simp [e, ConvState.drives])
  · next e => exact discharged (by simp [e, ConvState.drives])

theorem standby_mode (s : State) : (standby s).mode = .standby := by rw [(standby_wide s).only]

/-- After STANDBY entry the law of the outputs holds, whatever the emergency stop does (R28, R190). -/
theorem standby_outputLaw {m : Mode} {s : State} (ok : ∀ c, (s.conv c).Ok m) : (standby s).OutputLaw := by
  rw [outputLaw_iff]
  refine ⟨fun x => (x (standby_mode s)).elim, fun c => ?_⟩
  obtain ⟨u, same, -, -, -, e⟩ := standby_conv s c
  rw [standby_mode, e]
  exact standbyConv_ok (same ▸ ok c)

/-- STANDBY entry keeps the laws, with whatever level the emergency stop takes (R28, R193). -/
theorem standby_laws (d : Debt) (s : State) (stop : Bool) : s.Keeps d d (standby { s with estop := stop }) := by
  have bank : State.Keeps d d { s with estop := stop, mode := .standby } (standby { s with estop := stop }) :=
    .folds (fun u c => standbyConv_laws d u c) _ _
  exact {
    output := fun law => standby_outputLaw (s := { s with estop := stop }) (outputLaw_iff.1 law).2
    power := fun law => bank.power (law.congr rfl fun _ => rfl)
    uses := fun law => bank.uses ⟨law.profiles, law.segments⟩
    quota := fun law => bank.quota ⟨law.counted, law.jobs, law.places⟩
    scan := fun law => bank.scan ⟨law.heads, law.scan⟩
    ports := fun law => bank.ports ⟨law.notices, law.holding, law.reply, law.taken⟩
    cands := fun law => bank.cands law
    outcome := fun law => bank.outcome law
    link := fun law => bank.link law }

theorem bankStart_laws (d : Debt) (s : State) : s.Keeps d d (bankStart s) := by
  refine .folds (fun u c => ?_) _ _
  split
  · next h => exact enterWarmup_laws (.of_state (by simp [h.1]))
  · exact .refl d u

end Sys2Proof.Machine
end

section
/-! PROOFS. The job table keeps the laws: READY entry, admission, and the end of a job with its successors. -/

namespace Sys2Proof.Machine

open State

/-! ## The candidate list -/

theorem before_iff (a b : Cand) : a.before b = true ↔
    a.urgency.val < b.urgency.val ∨ a.urgency.val = b.urgency.val ∧ (a.seq < b.seq ∨ a.seq = b.seq ∧
      (a.head.val < b.head.val ∨ a.head.val = b.head.val ∧ a.slot.val < b.slot.val)) := by
  simp only [Cand.before, Bool.or_eq_true, Bool.and_eq_true, decide_eq_true_eq, beq_iff_eq, Fin.lt_def, Fin.ext_iff]

theorem before_trans {a b c : Cand} (h : a.before b = true) (g : b.before c = true) : a.before c = true := by
  rw [before_iff] at *
  omega

theorem before_asymm {a b : Cand} (h : a.before b = true) : b.before a = false := by
  rw [Bool.eq_false_iff]
  intro g
  rw [before_iff] at *
  omega

/-- An entry takes its place in an ordered list (R84). -/
theorem insertCand_pairwise {c : Cand} {l : List Cand} (h : l.Pairwise fun a b => b.before a = false) :
    (insertCand c l).Pairwise fun a b => b.before a = false := by
  induction l with
  | nil => exact List.pairwise_singleton ..
  | cons x xs ih =>
    obtain ⟨first, rest⟩ := List.pairwise_cons.1 h
    unfold insertCand
    split
    · next less =>
      refine List.pairwise_cons.2 ⟨fun y hy => ?_, h⟩
      rcases List.mem_cons.1 hy with rfl | hy
      · exact before_asymm less
      · rw [Bool.eq_false_iff]
        intro g
        exact absurd (first y hy) (by rw [before_trans g less]; nofun)
    · next more =>
      refine List.pairwise_cons.2 ⟨fun y hy => ?_, ih rest⟩
      rcases mem_insertCand.1 hy with rfl | hy
      · exact Bool.eq_false_iff.2 more
      · exact first y hy

/-- The candidate list changes and stays in order. -/
theorem State.Keeps.withCands {d : Debt} {s : State} {l : List Cand}
    (h : s.CandLaw → l.Pairwise fun a b => b.before a = false) : s.Keeps d d { s with cands := l } where
  output law := ⟨law.stop, law.output, law.drives, law.served, law.engine⟩
  power law := law.congr rfl fun _ => rfl
  uses law := ⟨law.profiles, law.segments⟩
  quota law := ⟨law.counted, law.jobs, law.places⟩
  scan law := ⟨law.heads, law.scan⟩
  ports law := ⟨law.notices, law.holding, law.reply, law.taken⟩
  cands := h
  outcome law := law
  link law := law

theorem dropCand_laws (d : Debt) (k : SlotIx) (s : State) : s.Keeps d d (s.dropCand k) :=
  .withCands fun law => law.filter _

/-! ## READY entry -/

/-- The job of a slot, if there is one, is in PENDING or READY. -/
def State.Waits (s : State) (k : SlotIx) : Prop := ∀ j, s.job k = some j → j.state = .pending ∨ j.state = .ready

/-- An operation leaves waiting jobs waiting. -/
def State.Tends (s t : State) : Prop := ∀ k, s.Waits k → t.Waits k

theorem State.Tends.refl (s : State) : s.Tends s := fun _ => id

theorem State.Tends.trans {s t u : State} (h : s.Tends t) (g : t.Tends u) : s.Tends u := fun k w => g k (h k w)

theorem State.Tends.modJob {s : State} {k : SlotIx} {f : Job → Job}
    (hf : ∀ j, j.state = .pending ∨ j.state = .ready → (f j).state = .pending ∨ (f j).state = .ready) :
    s.Tends (s.modJob k f) := by
  intro m w i hi
  rw [job_modJob] at hi
  split at hi
  · next same =>
    subst same
    obtain ⟨j, hj, rfl⟩ := Option.map_eq_some_iff.1 hi
    exact hf j (w j hj)
  · exact w i hi

/-- READY entry of a waiting job changes nothing that a law reads. -/
theorem Job.Kin.ready {j : Job} (h : j.state = .pending ∨ j.state = .ready) (clock : Time) :
    j.Kin (j.ready clock) := by
  refine ⟨rfl, rfl, rfl, ?_, ?_, ?_, fun _ => .inr ⟨rfl, fun cool => ?_⟩, .inr rfl⟩ <;> rcases h with h | h
  all_goals first
    | (rw [h] at cool; nomatch cool)
    | simp [Job.held, Job.ready, h, JobState.running, JobState.occupies, JobState.scanned]

theorem readyRecords_laws (d : Debt) {u : List SlotIx} {s : State} (hu : ∀ m ∈ u, s.Waits m) :
    s.Keeps d d (s.readyRecords u) ∧ s.Tends (s.readyRecords u) := by
  unfold readyRecords
  induction u generalizing s with
  | nil => exact ⟨.refl d s, .refl s⟩
  | cons m u ih =>
    have tends : s.Tends (s.modJob m (·.ready s.lineClock)) := .modJob fun _ _ => .inr rfl
    have keeps : s.Keeps d d (s.modJob m (·.ready s.lineClock)) :=
      .modJob fun j hj => .ready (hu m (List.mem_cons_self ..) j hj) _
    obtain ⟨rest, rest'⟩ := ih fun n hn => tends n (hu n (List.mem_cons_of_mem _ hn))
    exact ⟨keeps.trans rest, tends.trans rest'⟩

theorem waits_of_pending {s : State} {k : SlotIx} (h : s.jobIs k (·.state == .pending) = true) : s.Waits k := by
  intro j hj
  obtain ⟨i, hi, pending⟩ := jobIs_pending_iff.1 h
  rw [hi] at hj
  exact .inl (Option.some.inj hj ▸ pending)

theorem enterReady_laws (d : Debt) {u : List SlotIx} {s : State}
    (hu : ∀ m ∈ u, s.jobIs m (·.state == .pending) = true) :
    s.Keeps d d (enterReady u s) ∧ s.Tends (enterReady u s) := by
  by_cases hne : u = []
  · subst hne
    exact ⟨.refl d s, .refl s⟩
  · obtain ⟨c, -, e⟩ := enterReady_of_pending hne hu
    obtain ⟨keeps, tends⟩ := readyRecords_laws d fun m hm => waits_of_pending (hu m hm)
    have joined : (s.readyRecords u).Keeps d d { s.readyRecords u with cands := insertCand c s.cands } :=
      .withCands fun law => insertCand_pairwise (readyRecords_cands s u ▸ law)
    rw [e]
    exact ⟨(keeps.trans joined).trans .fields, tends⟩

theorem fireTrigger_laws (d : Debt) (p : Job → Bool) (s : State) : s.Keeps d d (fireTrigger p s) := by
  refine .folds (fun u k => ?_) _ _
  split
  · exact (enterReady_laws d (pendingUnit_pending u k)).1
  · exact .refl d u

/-! ## Use counts -/

/-- A use count rises or falls once for each run in which the segment lies (R10). -/
theorem segUse_foldl (f : Nat → Nat) (l : List (Run × Nat)) (v : Vector Nat 256) (i : Fin 256) :
    (l.foldl (fun v x => modSegUse f x.2 v) v)[i] = f^[(l.filter fun x => x.2 == i.val).length] v[i] := by
  induction l generalizing v with
  | nil => rfl
  | cons x l ih =>
    rw [List.foldl_cons, ih, List.filter_cons]
    by_cases same : x.2 = i.val
    · have one : (modSegUse f x.2 v)[i] = f v[i] := by
        unfold modSegUse
        rw [dif_pos (same ▸ i.isLt)]
        simp [same]
      rw [one, if_pos (beq_iff_eq.2 same), List.length_cons, Function.iterate_succ_apply]
    · have none_ : (modSegUse f x.2 v)[i] = v[i] := by
        unfold modSegUse
        split
        · exact Vector.getElem_set_ne _ _ same
        · rfl
      rw [none_, if_neg (by simpa using same)]

theorem iterate_succ_nat (n m : Nat) : (· + 1)^[n] m = m + n := by
  induction n generalizing m with
  | zero => rfl
  | succ n ih => rw [Function.iterate_succ_apply, ih]; omega

theorem iterate_pred_nat (n m : Nat) : (· - 1)^[n] m = m - n := by
  induction n generalizing m with
  | zero => rfl
  | succ n ih => rw [Function.iterate_succ_apply, ih]; omega

theorem segUse_modUse (s : State) (p : Fin 64) (f : Nat → Nat) (i : Fin 256) :
    (s.modUse p f).segUse[i] = f^[((s.prof p).runs.filter fun x => x.2 == i.val).length] s.segUse[i] :=
  segUse_foldl f _ _ i

theorem profUse_modUse (s : State) (p q : Fin 64) (f : Nat → Nat) :
    (s.modUse p f).profUse[q] = if p = q then f s.profUse[q] else s.profUse[q] := by
  unfold modUse
  dsimp only [Fin.getElem_fin]
  rw [Vector.getElem_set]
  simp only [Fin.ext_iff]
  split
  · next e => simp only [e]
  · rfl

theorem admitted_modAdmitted (s : State) (n m : Station) (f : Nat → Nat) :
    (s.modAdmitted n f).admitted[m] = if n = m then f s.admitted[m] else s.admitted[m] := by
  unfold modAdmitted
  dsimp only [Fin.getElem_fin]
  rw [Vector.getElem_set]
  simp only [Fin.ext_iff]
  split
  · next e => simp only [e]
  · rfl

/-! ## Admission -/

theorem admitAt_job (n : Station) (x : JobDesc) (g : Option GangTag) (k : SlotIx) (s : State) (m : SlotIx) :
    (admitAt n x g k s).job m = if k = m then some (s.newJob n x g) else s.job m :=
  job_setSlot s k m _

theorem admitAt_gen (n : Station) (x : JobDesc) (g : Option GangTag) (k : SlotIx) (s : State) (m : SlotIx) :
    ((admitAt n x g k s).slot m).gen = (s.slot m).gen := by
  have e : (admitAt n x g k s).slot m = _ := slot_setSlot s k m _
  rw [e]
  split
  · next same => rw [← same]
  · rfl

theorem admitAt_profUse (n : Station) (x : JobDesc) (g : Option GangTag) (k : SlotIx) (s : State) (p : Fin 64) :
    (admitAt n x g k s).profUse[p] = if x.profile = p then s.profUse[p] + 1 else s.profUse[p] :=
  profUse_modUse _ x.profile p (· + 1)

theorem admitAt_segUse (n : Station) (x : JobDesc) (g : Option GangTag) (k : SlotIx) (s : State) (i : Fin 256) :
    (admitAt n x g k s).segUse[i] =
      s.segUse[i] + ((s.prof x.profile).runs.filter fun y => y.2 == i.val).length := by
  have e : (admitAt n x g k s).segUse[i] = _ := segUse_modUse _ x.profile (· + 1) i
  rw [e, iterate_succ_nat]
  rfl

theorem admitAt_admitted (n : Station) (x : JobDesc) (g : Option GangTag) (k : SlotIx) (s : State) (m : Station) :
    (admitAt n x g k s).admitted[m] = if n = m then s.admitted[m] + 1 else s.admitted[m] :=
  admitted_modAdmitted (s.setSlot k _) n m (· + 1)

/-- An admission to a free slot adds the new record to every total. -/
theorem admitAt_total {n : Station} {x : JobDesc} {g : Option GangTag} {k : SlotIx} {s : State}
    (free : s.job k = none) (w : Job → Nat) :
    (admitAt n x g k s).total w = s.total w + w (s.newJob n x g) := by
  have change := total_change (s := s) (t := admitAt n x g k s) (k := k) w fun m hm => by
    rw [admitAt_job, if_neg (Ne.symm hm)]
  simpa only [free, admitAt_job, if_pos, Option.elim_none, Option.elim_some, Nat.add_zero] using change

/-- A job after an admission that is not in PENDING was there before. -/
theorem admitAt_old {n : Station} {x : JobDesc} {g : Option GangTag} {k m : SlotIx} {s : State} {i : Job}
    (h : (admitAt n x g k s).job m = some i) (state : i.state ≠ .pending) : s.job m = some i := by
  rw [admitAt_job] at h
  split at h
  · exact (state (by rw [← Option.some.inj h]; rfl)).elim
  · exact h

theorem admitAt_useLaw {n : Station} {x : JobDesc} {g : Option GangTag} {k : SlotIx} {s : State}
    (free : s.job k = none) (law : s.UseLaw) : (admitAt n x g k s).UseLaw := by
  rw [useLaw_iff] at law ⊢
  refine ⟨fun p => ?_, fun i => ?_⟩
  · have weight : Job.countFor (fun j => j.profile == p) (s.newJob n x g) = if x.profile = p then 1 else 0 := by
      unfold Job.countFor newJob
      simp only [beq_iff_eq]
    rw [admitAt_total free, admitAt_profUse, law.1 p, weight]
    split <;> omega
  · have same : (admitAt n x g k s).usesBy i.val = s.usesBy i.val := rfl
    rw [admitAt_segUse, same, admitAt_total free, law.2 i]
    rfl

theorem admitAt_quotaLaw {n : Station} {x : JobDesc} {g : Option GangTag} {k : SlotIx} {s : State}
    (free : s.job k = none) (jobs : s.admitted[n] + 1 ≤ Config.stationJobLimit)
    (places : s.admitted[n] + s.resultsHeld n + 1 ≤ Config.resultPlaces) (law : s.QuotaLaw) :
    (admitAt n x g k s).QuotaLaw := by
  rw [quotaLaw_iff] at law ⊢
  intro m
  obtain ⟨counted, most, room⟩ := law m
  have held : (admitAt n x g k s).resultsHeld m = s.resultsHeld m := rfl
  have weight : Job.countFor (fun j => j.station == m) (s.newJob n x g) = if n = m then 1 else 0 := by
    unfold Job.countFor newJob
    simp only [beq_iff_eq]
  rw [admitAt_admitted, admitAt_total free, weight, held]
  by_cases same : n = m
  · subst same
    rw [if_pos rfl, if_pos rfl, counted]
    rw [counted] at jobs places
    omega
  · rw [if_neg same, if_neg same, Nat.add_zero]
    exact ⟨counted, most, room⟩

theorem admitAt_scanLaw {n : Station} {x : JobDesc} {g : Option GangTag} {k : SlotIx} {s : State}
    (free : s.job k = none) (law : s.ScanLaw) : (admitAt n x g k s).ScanLaw where
  heads m m' i i' hi hi' hh oi oi' :=
    law.heads m m' i i' (admitAt_old hi (by rintro e; rw [e] at oi; nomatch oi))
      (admitAt_old hi' (by rintro e; rw [e] at oi'; nomatch oi')) hh oi oi'
  scan h := by
    refine (law.scan h).trans (and_congr_right fun _ => ⟨?_, ?_⟩)
    · rintro ⟨m, i, hi, hh, scanned⟩
      exact ⟨m, i, by rw [admitAt_job, if_neg (by rintro rfl; rw [free] at hi; nomatch hi), hi], hh, scanned⟩
    · rintro ⟨m, i, hi, hh, scanned⟩
      exact ⟨m, i, admitAt_old hi (by rintro e; rw [e] at scanned; nomatch scanned), hh, scanned⟩

/-- A job takes a free slot of a station that has room for it (R61, R64). -/
theorem admitAt_laws (d : Debt) {n : Station} {x : JobDesc} {g : Option GangTag} {k : SlotIx} {s : State}
    (free : s.job k = none) (jobs : s.admitted[n] + 1 ≤ Config.stationJobLimit)
    (places : s.admitted[n] + s.resultsHeld n + 1 ≤ Config.resultPlaces) : s.Keeps d d (admitAt n x g k s) where
  output law := ⟨law.stop, law.output, law.drives, law.served, law.engine⟩
  power law := by
    have none_ : (s.newJob n x g).held = 0 := rfl
    rw [PowerDebt, admitAt_total free, none_, Nat.add_zero]
    exact law
  uses := admitAt_useLaw free
  quota := admitAt_quotaLaw free jobs places
  scan := admitAt_scanLaw free
  ports law := ⟨law.notices, law.holding, law.reply, law.taken⟩
  cands law := law
  outcome law m i hx hi ho := by
    rw [admitAt_job] at hi
    split at hi
    · rw [← Option.some.inj hi] at ho
      rcases ho with ho | ho <;> nomatch ho
    · exact law m i hx hi ho
  link law m i c hi hc := by
    rw [admitAt_job] at hi
    split at hi
    · rw [← Option.some.inj hi] at hc
      nomatch hc
    · rw [State.handleOf, admitAt_gen]
      exact law m i c hi hc

end Sys2Proof.Machine
end

section
/-! PROOFS. The end of a job keeps the laws (R78): what it takes from every count, and the resolution of its successors. -/

namespace Sys2Proof.Machine

open State

/-! ## What the end of a job takes away -/

/-- Job states in which a job can reach ENDED: all but those in which its converter drives (R78). -/
def JobState.ends : JobState → Bool
  | .pending | .ready | .connecting | .cooling => true
  | .seeking | .aligning | .heating => false

theorem endSteps_profUse (k : SlotIx) (j : Job) (r : Release) (s : State) (p : Fin 64) :
    (endSteps k j r s).profUse[p] = if j.profile = p then s.profUse[p] - 1 else s.profUse[p] := by
  have e : (endSteps k j r s).profUse = ((writeResult k j r s).modUse j.profile (· - 1)).profUse :=
    (freeSlot_frame k j _).2.2.2.2.2
  rw [e]
  exact profUse_modUse _ j.profile p (· - 1)

theorem endSteps_segUse (k : SlotIx) (j : Job) (r : Release) (s : State) (i : Fin 256) :
    (endSteps k j r s).segUse[i] = s.segUse[i] - s.usesBy i.val j := by
  have e : (endSteps k j r s).segUse = ((writeResult k j r s).modUse j.profile (· - 1)).segUse :=
    (freeSlot_frame k j _).2.2.2.2.1
  rw [e]
  have counts := segUse_modUse (writeResult k j r s) j.profile (· - 1) i
  rw [iterate_pred_nat] at counts
  exact counts

theorem endSteps_cands (k : SlotIx) (j : Job) (r : Release) (s : State) :
    (endSteps k j r s).cands = if j.state = .ready then (s.dropCand k).cands else s.cands := by
  have e : (endSteps k j r s).cands = (freeSlot k j ((writeResult k j r s).modUse j.profile (· - 1))).cands := rfl
  rw [e]
  unfold freeSlot
  dsimp only
  cases h : j.state <;> simp only [raise_cands, scanLeave_cands, reduceCtorEq, if_false, if_true] <;> rfl

theorem scanLeave_scanSet (h : Head) (s : State) : (scanLeave h s).scanSet = s.scanSet.filter (· != h) := by
  unfold scanLeave
  dsimp only
  split
  · rfl
  · split
    · rw [scanNext_only]
    · rfl

/-- A job that ends in CONNECTING or COOLING takes its head out of the scan set (R60, R132). -/
theorem endSteps_scanSet (k : SlotIx) (j : Job) (r : Release) (s : State) : (endSteps k j r s).scanSet =
    if j.state = .connecting ∨ j.state = .cooling then s.scanSet.filter (· != j.head) else s.scanSet := by
  have e : (endSteps k j r s).scanSet = (freeSlot k j ((writeResult k j r s).modUse j.profile (· - 1))).scanSet := rfl
  rw [e]
  unfold freeSlot
  dsimp only
  cases h : j.state <;> simp only [raise_scanSet, scanLeave_scanSet, reduceCtorEq, or_self, or_false, or_true,
    if_false, if_true] <;> rfl

theorem endSteps_job (k : SlotIx) (j : Job) (r : Release) (s : State) (m : SlotIx) :
    (endSteps k j r s).job m = if m = k then none else s.job m := by
  rw [State.job, State.job]
  split
  · next same => rw [same, endSteps_slot]
  · next other => rw [endSteps_slot_ne other]

theorem endSteps_job_of {k m : SlotIx} {j i : Job} {r : Release} {s : State}
    (h : (endSteps k j r s).job m = some i) : m ≠ k ∧ s.job m = some i := by
  rw [endSteps_job] at h
  split at h
  · nomatch h
  · next other => exact ⟨other, h⟩

/-- The end of a job takes it out of every total. -/
theorem endSteps_total {k : SlotIx} {j : Job} {r : Release} {s : State} (h : s.job k = some j) (w : Job → Nat) :
    (endSteps k j r s).total w + w j = s.total w := by
  have change := total_change (s := s) (t := endSteps k j r s) (k := k) w fun m hm => by rw [endSteps_job, if_neg hm]
  simpa only [h, endSteps_job, if_pos, Option.elim_none, Option.elim_some, Nat.add_zero] using change

/-- The fields that the end of a job leaves as they were. -/
theorem endSteps_frame (k : SlotIx) (j : Job) (r : Release) (s : State) :
    (endSteps k j r s).mode = s.mode ∧ (endSteps k j r s).estop = s.estop ∧ (endSteps k j r s).committed = s.committed ∧
      (endSteps k j r s).convs = s.convs ∧ (endSteps k j r s).heads = s.heads ∧
      (endSteps k j r s).profs = s.profs := by
  have only := (endSteps_table (k := k) (j := j) (r := r) (State.TableOnly.refl s)).only
  refine ⟨?_, ?_, ?_, ?_, ?_, ?_⟩ <;> rw [only]

/-! ## The laws at the end of a job -/

section
variable {k : SlotIx} {j : Job} {r : Release} {s : State}

theorem endSteps_useLaw (h : s.job k = some j) (law : s.UseLaw) : (endSteps k j r s).UseLaw := by
  rw [useLaw_iff] at law ⊢
  refine ⟨fun p => ?_, fun i => ?_⟩
  · have left := endSteps_total (r := r) h (Job.countFor fun i => i.profile == p)
    have weight : Job.countFor (fun i => i.profile == p) j = if j.profile = p then 1 else 0 := by
      unfold Job.countFor
      simp only [beq_iff_eq]
    rw [endSteps_profUse, law.1 p, ← left, weight]
    split <;> omega
  · have left := endSteps_total (r := r) h (s.usesBy i.val)
    have same : (endSteps k j r s).usesBy i.val = s.usesBy i.val := by
      funext x
      have profs := (endSteps_frame k j r s).2.2.2.2.2
      unfold usesBy prof
      rw [profs]
    rw [endSteps_segUse, same, law.2 i, ← left]
    omega

theorem endSteps_quotaLaw (h : s.job k = some j) (law : s.QuotaLaw) : (endSteps k j r s).QuotaLaw := by
  rw [quotaLaw_iff] at law ⊢
  intro n
  obtain ⟨counted, most, room⟩ := law n
  have left := endSteps_total (r := r) h (Job.countFor fun i => i.station == n)
  have weight : Job.countFor (fun i => i.station == n) j = if j.station = n then 1 else 0 := by
    unfold Job.countFor
    simp only [beq_iff_eq]
  have admitted : (endSteps k j r s).admitted[n] = if j.station = n then s.admitted[n] - 1 else s.admitted[n] := by
    rw [endSteps_admitted]
    exact admitted_modAdmitted s j.station n (· - 1)
  have held : (endSteps k j r s).resultsHeld n = s.resultsHeld n + if j.station = n then 1 else 0 := by
    unfold resultsHeld
    rw [endSteps_station]
    split
    · exact List.length_append
    · rfl
  rw [admitted, held]
  rw [weight] at left
  split at left
  · next same =>
    simp only [if_pos same]
    omega
  · next other =>
    simp only [if_neg other]
    omega

theorem endSteps_scanLaw (h : s.job k = some j) (ends : j.state.ends = true) (law : s.ScanLaw) :
    (endSteps k j r s).ScanLaw where
  heads m m' i i' hi hi' := law.heads m m' i i' (endSteps_job_of hi).2 (endSteps_job_of hi').2
  scan x := by
    have guard : (endSteps k j r s).head x = s.head x := by
      have heads := (endSteps_frame k j r s).2.2.2.2.1
      unfold State.head
      rw [heads]
    have others : (∃ m i, (endSteps k j r s).job m = some i ∧ i.head = x ∧ i.state.scanned = true) ↔
        ∃ m i, m ≠ k ∧ s.job m = some i ∧ i.head = x ∧ i.state.scanned = true := by
      refine exists_congr fun m => exists_congr fun i => ?_
      rw [endSteps_job]
      by_cases same : m = k
      · simp [same]
      · simp [same]
    rw [endSteps_scanSet, guard, others]
    split
    · next occupies =>
      have stands : j.state.occupies = true := by rcases occupies with e | e <;> rw [e] <;> rfl
      rw [List.mem_filter, law.scan, bne_iff_ne]
      constructor
      · rintro ⟨⟨enabled, m, i, hi, hh, scanned⟩, ne⟩
        exact ⟨enabled, m, i, by rintro rfl; exact ne (by rw [← hh, Option.some.inj (h.symm.trans hi)]), hi, hh, scanned⟩
      · rintro ⟨enabled, m, i, other, hi, hh, scanned⟩
        refine ⟨⟨enabled, m, i, hi, hh, scanned⟩, fun same => other ?_⟩
        exact law.heads m k i j hi h (hh.trans same) (by
          revert scanned
          cases i.state <;> simp [JobState.scanned, JobState.occupies]) stands
    · next waits =>
      have plain : j.state.scanned = false := by
        revert ends waits
        cases j.state <;> simp [JobState.ends, JobState.scanned, JobState.occupies]
      rw [law.scan]
      refine and_congr_right fun _ => ⟨?_, ?_⟩
      · rintro ⟨m, i, hi, hh, scanned⟩
        refine ⟨m, i, ?_, hi, hh, scanned⟩
        rintro rfl
        rw [Option.some.inj (h.symm.trans hi), scanned] at plain
        nomatch plain
      · rintro ⟨m, i, -, hi, hh, scanned⟩
        exact ⟨m, i, hi, hh, scanned⟩

/-- The end of a job gives back the power that it held (R78). -/
theorem endSteps_laws {a : Int} {x : Option SlotIx} {q : Option Port} (h : s.job k = some j)
    (ends : j.state.ends = true) : s.Keeps ⟨a + j.held, x, q⟩ ⟨a, x, q⟩ (endSteps k j r s) := by
  obtain ⟨mode, estop, committed, convs, -, -⟩ := endSteps_frame k j r s
  have conv : ∀ c, (endSteps k j r s).conv c = s.conv c := fun c => by
    unfold State.conv
    rw [convs]
  refine ⟨fun law => ?_, fun law => ?_, endSteps_useLaw h, endSteps_quotaLaw h, endSteps_scanLaw h ends,
    fun law => ?_, fun law => ?_, fun law _ i hx hi => law _ i hx (endSteps_job_of hi).2, fun law m i c hi hc => ?_⟩
  · obtain ⟨stop, all⟩ := outputLaw_iff.1 law
    rw [outputLaw_iff, mode, estop]
    exact ⟨stop, fun c => conv c ▸ all c⟩
  · have left := endSteps_total (r := r) h Job.held
    unfold PowerDebt at law ⊢
    rw [committed]
    dsimp only at law ⊢
    omega
  · have post := State.Keeps.post (d := ⟨a, x, q⟩) (s := s) (.sp j.station)
      (.jobEnded (s.handleOf k) j.ref j.outcome r)
    have same : ∀ p, (endSteps k j r s).port p =
        (s.post (.sp j.station) (.jobEnded (s.handleOf k) j.ref j.outcome r)).port p := fun p => by
      rw [endSteps_port, State.post, port_modPort]
      split
      · next e => rw [e]
      · rfl
    have after := post.ports law
    exact ⟨fun p => same p ▸ after.notices p, fun p => same p ▸ after.holding p, fun p => same p ▸ after.reply p,
      fun p => same p ▸ after.taken p⟩
  · rw [CandLaw, endSteps_cands]
    split
    · exact law.filter _
    · exact law
  · obtain ⟨other, hi⟩ := endSteps_job_of hi
    rw [conv, State.handleOf, endSteps_slot_ne other]
    exact law m i c hi hc

theorem endSteps_tends : s.Tends (endSteps k j r s) := fun _ w i hi => w i (endSteps_job_of hi).2

end

/-! ## Successors -/

/-- A record once an outcome has been given: one that was set before stays (R146). -/
def Job.withOutcome (o : JobOutcome) (j : Job) : Job := if j.outcome.isNone then { j with outcome := some o } else j

theorem setOutcome_eq (s : State) (k : SlotIx) (o : JobOutcome) : s.setOutcome k o = s.modJob k (·.withOutcome o) := rfl

/-- Giving an outcome changes nothing else in the record. -/
theorem withOutcome_only (o : JobOutcome) (j : Job) : j.withOutcome o = { j with outcome := (j.withOutcome o).outcome } := by
  unfold Job.withOutcome
  split <;> rfl

/-- An outcome other than OK and UNDERWET may come before COOLING. -/
theorem Job.Kin.withOutcome {j : Job} {o : JobOutcome} (h : o ≠ .ok ∧ o ≠ .underwet) : j.Kin (j.withOutcome o) := by
  unfold Job.withOutcome
  split
  · refine { Job.Kin.refl j with outcome := fun e => ?_ }
    rcases e with e | e
    · exact (h.1 (Option.some.inj e)).elim
    · exact (h.2 (Option.some.inj e)).elim
  · exact .refl j

theorem setOutcome_laws {d : Debt} {k : SlotIx} {o : JobOutcome} {s : State} (h : o ≠ .ok ∧ o ≠ .underwet) :
    s.Keeps d d (s.setOutcome k o) :=
  .modJob fun _ _ => .withOutcome h

theorem setOutcome_tends {k : SlotIx} {o : JobOutcome} {s : State} : s.Tends (s.setOutcome k o) :=
  .modJob (f := (·.withOutcome o)) fun j h => by rwa [withOutcome_only]

/-- The operations over a list keep the laws and leave waiting jobs waiting, if each does while the listed jobs wait. -/
theorem fold_laws {d : Debt} {f : State → SlotIx → State} {P : SlotIx → State → Prop}
    (hf : ∀ (u : State) m, P m u → u.Keeps d d (f u m) ∧ u.Tends (f u m))
    (stable : ∀ (u v : State) m, u.Tends v → P m u → P m v) :
    ∀ (l : List SlotIx) (s : State), (∀ m ∈ l, P m s) → s.Keeps d d (l.foldl f s) ∧ s.Tends (l.foldl f s)
  | [], s, _ => ⟨.refl d s, .refl s⟩
  | m :: l, s, h => by
    obtain ⟨keeps, tends⟩ := hf s m (h m (List.mem_cons_self ..))
    obtain ⟨keeps', tends'⟩ := fold_laws hf stable l (f s m) fun n hn =>
      stable s _ n tends (h n (List.mem_cons_of_mem _ hn))
    exact ⟨keeps.trans keeps', tends.trans tends'⟩

theorem held_of_waits {j : Job} (h : j.state = .pending ∨ j.state = .ready) :
    j.held = 0 ∧ j.state.ends = true := by
  rcases h with e | e <;> simp [Job.held, e, JobState.running, JobState.ends]

/-- What the end of the job of handle `h` with outcome `o` does at slot `m`: a successor that waits there is resolved
with its gang (R73). -/
def succeed (n : Nat) (h : Handle) (o : Option JobOutcome) (s : State) (m : SlotIx) : State :=
  if s.awaits h m then
    if o = some .ok then enterReady (s.pendingUnit m) s
    else (s.pendingUnit m).foldl (fun s u => endJobFuel n u .none s)
      ((s.pendingUnit m).foldl (fun s u => s.setOutcome u .chainBroken) s)
  else s

/-- The end of a job is its own steps and then the resolution of its successors in ascending slot order (R78). -/
theorem endJobFuel_succ {n : Nat} {k : SlotIx} {j : Job} {r : Release} {s : State} (h : s.job k = some j) :
    endJobFuel (n + 1) k r s = allSlots.foldl (succeed n (s.handleOf k) j.outcome) (endSteps k j r s) := by
  rw [endJobFuel, h]
  rfl

theorem endJobFuel_of_free {n : Nat} {k : SlotIx} {r : Release} {s : State} (h : s.job k = none) :
    endJobFuel n k r s = s := by
  cases n with
  | zero => rfl
  | succ n => rw [endJobFuel, h]

/-- The resolution of successors keeps the laws, if the ends of waiting jobs at the next depth do. -/
theorem succeed_laws {d : Debt} {n : Nat}
    (ih : ∀ {k : SlotIx} {r : Release} {s : State}, s.Waits k →
      s.Keeps d d (endJobFuel n k r s) ∧ s.Tends (endJobFuel n k r s))
    (h : Handle) (o : Option JobOutcome) (s : State) :
    s.Keeps d d (allSlots.foldl (succeed n h o) s) ∧ s.Tends (allSlots.foldl (succeed n h o) s) := by
  refine fold_laws (P := fun _ _ => True) (fun u m _ => ?_) (fun _ _ _ _ => id) _ _ fun _ _ => trivial
  have waits : ∀ m' ∈ u.pendingUnit m, u.Waits m' := fun m' hm => waits_of_pending (pendingUnit_pending u m m' hm)
  have still : ∀ (v w : State) (m' : SlotIx), v.Tends w → v.Waits m' → w.Waits m' := fun _ _ m' tends => tends m'
  unfold succeed
  split
  · split
    · exact enterReady_laws d (pendingUnit_pending u m)
    · obtain ⟨keeps, tends⟩ := fold_laws (P := fun m' v => v.Waits m') (f := fun s u => s.setOutcome u .chainBroken)
        (fun v m' _ => ⟨setOutcome_laws (d := d) (by decide), setOutcome_tends⟩) still _ u waits
      obtain ⟨keeps', tends'⟩ := fold_laws (P := fun m' v => v.Waits m') (f := fun s u => endJobFuel n u .none s)
        (fun _ _ w => ih w) still _ _ fun m' hm => tends m' (waits m' hm)
      exact ⟨keeps.trans keeps', tends.trans tends'⟩
  · exact ⟨.refl d u, .refl u⟩

/-- The end of a waiting job, with its successors, keeps the laws and leaves waiting jobs waiting. -/
theorem endJobFuel_laws {d : Debt} {n : Nat} {k : SlotIx} {r : Release} {s : State} (h : s.Waits k) :
    s.Keeps d d (endJobFuel n k r s) ∧ s.Tends (endJobFuel n k r s) := by
  induction n generalizing k r s with
  | zero => exact ⟨.refl d s, .refl s⟩
  | succ n ih =>
    cases e : s.job k with
    | none =>
      rw [endJobFuel_of_free e]
      exact ⟨.refl d s, .refl s⟩
    | some j =>
      obtain ⟨held, ends⟩ := held_of_waits (h j e)
      have steps := endSteps_laws (a := d.power) (x := d.slot) (q := d.port) (r := r) e ends
      rw [held, Nat.cast_zero, add_zero] at steps
      obtain ⟨keeps, tends⟩ := succeed_laws (fun w => ih w) (s.handleOf k) j.outcome (endSteps k j r s)
      rw [endJobFuel_succ e]
      exact ⟨steps.trans keeps, endSteps_tends.trans tends⟩

/-- The end of a job gives back the power that it held (R78). -/
theorem endJob_laws {a : Int} {x : Option SlotIx} {q : Option Port} {k : SlotIx} {r : Release} {s : State}
    (ends : ∀ j, s.job k = some j → j.state.ends = true) :
    s.Keeps ⟨a + (s.holds k : Int), x, q⟩ ⟨a, x, q⟩ (endJob k r s) := by
  rw [holds_eq]
  cases e : s.job k with
  | none =>
    rw [endJob, endJobFuel_of_free e, Option.elim_none, Nat.cast_zero, add_zero]
    exact .refl _ s
  | some j =>
    rw [endJob, endJobFuel_succ e]
    exact (endSteps_laws e (ends j e)).trans (succeed_laws (fun w => endJobFuel_laws w) _ _ _).1

/-- The end of a job that holds no power keeps the laws. -/
theorem endJob_laws_of_idle {d : Debt} {k : SlotIx} {r : Release} {s : State}
    (idle : ∀ j, s.job k = some j → j.state = .pending ∨ j.state = .ready ∨ j.state = .cooling) :
    s.Keeps d d (endJob k r s) := by
  have none_ : s.holds k = 0 := by
    rw [holds_eq]
    cases e : s.job k with
    | none => rfl
    | some j => rcases idle j e with h | h | h <;> simp [Job.held, h, JobState.running]
  have keeps := endJob_laws (a := d.power) (x := d.slot) (q := d.port) (k := k) (r := r) (s := s) fun j e => by
    rcases idle j e with h | h | h <;> rw [h] <;> rfl
  rw [none_, Nat.cast_zero, add_zero] at keeps
  exact keeps

end Sys2Proof.Machine
end

section
/-! PROOFS. A job that goes from one state to the next keeps the laws: the grant of a job, SEEKING and COOLING entry. -/

namespace Sys2Proof.Machine

open State

/-! ## One job changes its state -/

/-- One job, the record `j` in slot `k`, becomes `i`, which is on the same head for the same station and profile, and
its head joins the scan set if `i` is the first of them to be scanned; the converters and committed power may change with it. -/
structure State.Change (k : SlotIx) (j i : Job) (s t : State) : Prop where
  before : s.job k = some j
  after : t.job k = some i
  others : ∀ m, m ≠ k → t.job m = s.job m
  gens : ∀ m, (t.slot m).gen = (s.slot m).gen
  desc : i.station = j.station ∧ i.profile = j.profile ∧ i.head = j.head
  mode : t.mode = s.mode
  estop : t.estop = s.estop
  counts : t.profUse = s.profUse ∧ t.segUse = s.segUse ∧ t.admitted = s.admitted ∧ t.cands = s.cands
  tables : t.heads = s.heads ∧ t.profs = s.profs ∧ t.stations = s.stations ∧ t.ports = s.ports
  scanned : ∀ h, h ∈ t.scanSet ↔
    h ∈ s.scanSet ∨ h = j.head ∧ (s.head j.head).guardEnable = true ∧ i.state.scanned = true ∧ j.state.scanned = false

/-- A change of one slot by `modJob`, beside whatever the converters and committed power do. -/
theorem State.Change.of_modJob {k : SlotIx} {j : Job} {s t : State} (f : Job → Job) (before : s.job k = some j)
    (slots : ∀ m, t.slot m = (s.modJob k f).slot m)
    (desc : (f j).station = j.station ∧ (f j).profile = j.profile ∧ (f j).head = j.head)
    (scanned : ∀ h, h ∈ t.scanSet ↔ h ∈ s.scanSet ∨
      h = j.head ∧ (s.head j.head).guardEnable = true ∧ (f j).state.scanned = true ∧ j.state.scanned = false)
    (mode : t.mode = s.mode := by exact rfl) (estop : t.estop = s.estop := by exact rfl)
    (counts : t.profUse = s.profUse ∧ t.segUse = s.segUse ∧ t.admitted = s.admitted ∧ t.cands = s.cands := by
      exact ⟨rfl, rfl, rfl, rfl⟩)
    (tables : t.heads = s.heads ∧ t.profs = s.profs ∧ t.stations = s.stations ∧ t.ports = s.ports := by
      exact ⟨rfl, rfl, rfl, rfl⟩) : s.Change k j (f j) t where
  before := before
  after := by
    rw [State.job, slots, slot_modJob, if_pos rfl, before]
    rfl
  others m hm := by rw [State.job, State.job, slots, slot_modJob, if_neg (Ne.symm hm)]
  gens m := by
    rw [slots, slot_modJob]
    split
    · next same => rw [← same]
    · rfl
  desc := desc
  mode := mode
  estop := estop
  counts := counts
  tables := tables
  scanned := scanned

namespace State.Change

variable {k : SlotIx} {j i : Job} {s t : State}

theorem total (h : s.Change k j i t) (w : Job → Nat) : t.total w + w j = s.total w + w i := by
  have change := total_change (s := s) (t := t) w h.others
  simpa only [h.before, h.after, Option.elim_some] using change

theorem useLaw (h : s.Change k j i t) (law : s.UseLaw) : t.UseLaw := by
  obtain ⟨-, profile, -⟩ := h.desc
  obtain ⟨profUse, segUse, -, -⟩ := h.counts
  obtain ⟨-, profs, -, -⟩ := h.tables
  rw [useLaw_iff] at law ⊢
  refine ⟨fun p => ?_, fun n => ?_⟩
  · have total := h.total (Job.countFor fun x => x.profile == p)
    have same : Job.countFor (fun x => x.profile == p) i = Job.countFor (fun x => x.profile == p) j := by
      simp only [Job.countFor, profile]
    rw [profUse, law.1 p]
    omega
  · have uses : t.usesBy n.val = s.usesBy n.val := by
      funext x
      unfold usesBy prof
      rw [profs]
    have total := h.total (s.usesBy n.val)
    have same : s.usesBy n.val i = s.usesBy n.val j := by rw [usesBy, usesBy, profile]
    rw [segUse, law.2 n, uses]
    omega

theorem quotaLaw (h : s.Change k j i t) (law : s.QuotaLaw) : t.QuotaLaw := by
  obtain ⟨station, -, -⟩ := h.desc
  obtain ⟨-, -, admitted, -⟩ := h.counts
  obtain ⟨-, -, stations, -⟩ := h.tables
  rw [quotaLaw_iff] at law ⊢
  intro n
  have total := h.total (Job.countFor fun x => x.station == n)
  have same : Job.countFor (fun x => x.station == n) i = Job.countFor (fun x => x.station == n) j := by
    simp only [Job.countFor, station]
  have held : t.resultsHeld n = s.resultsHeld n := by rw [resultsHeld, resultsHeld, State.station, State.station, stations]
  have law := law n
  rw [admitted, held]
  omega

theorem job_cases (h : s.Change k j i t) {m : SlotIx} {x : Job} (e : t.job m = some x) :
    m = k ∧ x = i ∨ m ≠ k ∧ s.job m = some x := by
  by_cases same : m = k
  · subst same
    exact .inl ⟨rfl, Option.some.inj (e.symm.trans h.after)⟩
  · exact .inr ⟨same, h.others m same ▸ e⟩

/-- A change that follows one which left the state of the job as it was. -/
theorem trans {i' : Job} {u : State} (h : s.Change k j i t) (g : t.Change k i i' u) (same : i.state = j.state) :
    s.Change k j i' u where
  before := h.before
  after := g.after
  others m hm := (g.others m hm).trans (h.others m hm)
  gens m := (g.gens m).trans (h.gens m)
  desc := ⟨g.desc.1.trans h.desc.1, g.desc.2.1.trans h.desc.2.1, g.desc.2.2.trans h.desc.2.2⟩
  mode := g.mode.trans h.mode
  estop := g.estop.trans h.estop
  counts := by
    obtain ⟨a, b, c, d⟩ := h.counts
    obtain ⟨a', b', c', d'⟩ := g.counts
    exact ⟨a'.trans a, b'.trans b, c'.trans c, d'.trans d⟩
  tables := by
    obtain ⟨a, b, c, d⟩ := h.tables
    obtain ⟨a', b', c', d'⟩ := g.tables
    exact ⟨a'.trans a, b'.trans b, c'.trans c, d'.trans d⟩
  scanned x := by
    have guard : ∀ y, t.head y = s.head y := fun y => by rw [State.head, State.head, h.tables.1]
    rw [g.scanned, h.scanned, guard, same, h.desc.2.2]
    refine or_congr_left (or_iff_left_of_imp ?_)
    rintro ⟨-, -, a, b⟩
    rw [a] at b
    nomatch b

/-- The scan set stays exact if the job goes on with its head, or takes one that no other job occupies. -/
theorem scanLaw (h : s.Change k j i t) (law : s.ScanLaw)
    (occupies : i.state.occupies = true → j.state.occupies = true ∨
      ∀ m x, s.job m = some x → x.head = j.head → x.state.occupies = false)
    (scanned : j.state.scanned = true → i.state.scanned = true) : t.ScanLaw := by
  obtain ⟨-, -, head⟩ := h.desc
  have alone : ∀ m x, m ≠ k → s.job m = some x → x.head = i.head → x.state.occupies = true →
      i.state.occupies = true → False := by
    intro m x ne hx hh ox oi
    rcases occupies oi with oj | free
    · exact ne (law.heads m k x j hx h.before (hh.trans head) ox oj)
    · exact absurd ox (by rw [free m x hx (hh.trans head)]; nofun)
  refine ⟨fun m m' x x' hx hx' hh ox ox' => ?_, fun c => ?_⟩
  · rcases h.job_cases hx with ⟨rfl, rfl⟩ | ⟨ne, hx⟩ <;> rcases h.job_cases hx' with ⟨rfl, rfl⟩ | ⟨ne', hx'⟩
    · rfl
    · exact (alone m' x' ne' hx' hh.symm ox' ox).elim
    · exact (alone m x ne hx hh ox ox').elim
    · exact law.heads m m' x x' hx hx' hh ox ox'
  · have guard : (t.head c).guardEnable = (s.head c).guardEnable := by rw [State.head, State.head, h.tables.1]
    rw [h.scanned, law.scan, guard]
    constructor
    · rintro (⟨enabled, m, x, hx, hh, sx⟩ | ⟨rfl, enabled, si, -⟩)
      · refine ⟨enabled, ?_⟩
        by_cases same : m = k
        · subst same
          obtain rfl := Option.some.inj (hx.symm.trans h.before)
          exact ⟨m, i, h.after, by rw [head, hh], scanned sx⟩
        · exact ⟨m, x, by rw [h.others m same, hx], hh, sx⟩
      · exact ⟨enabled, k, i, h.after, head, si⟩
    · rintro ⟨enabled, m, x, hx, hh, sx⟩
      rcases h.job_cases hx with ⟨rfl, rfl⟩ | ⟨-, hx⟩
      · rw [head] at hh
        subst hh
        cases sj : j.state.scanned with
        | true => exact .inl ⟨enabled, m, j, h.before, rfl, sj⟩
        | false => exact .inr ⟨rfl, enabled, sx, rfl⟩
      · exact .inl ⟨enabled, m, x, hx, hh, sx⟩

/-- The change of one job keeps the laws, with the debts that it opens and closes. -/
theorem keeps {d e : Debt} (h : s.Change k j i t)
    (power : (t.committed : Int) + e.power + j.held = s.committed + d.power + i.held) (port : e.port = d.port)
    (occupies : i.state.occupies = true → j.state.occupies = true ∨
      ∀ m x, s.job m = some x → x.head = j.head → x.state.occupies = false)
    (scanned : j.state.scanned = true → i.state.scanned = true)
    (slot : ∀ m, m ≠ k → d.slot = some m → e.slot = some m)
    (outcome : e.slot ≠ some k → i.outcome = some .ok ∨ i.outcome = some .underwet →
      i.state = .cooling ∨ i.outcome = j.outcome ∧ d.slot = e.slot ∧ (j.state = .cooling → i.state = .cooling))
    (ok : ∀ c, (s.conv c).Ok s.mode → (t.conv c).Ok s.mode)
    (link : s.LinkLaw → ∀ m x c, t.job m = some x → x.converter = some c →
      (t.conv c).served = some (s.handleOf m) ∧ (t.conv c).state.serves = true) : s.Keeps d e t where
  output law := by
    obtain ⟨stop, all⟩ := outputLaw_iff.1 law
    rw [outputLaw_iff, h.mode, h.estop]
    exact ⟨stop, fun c => ok c (all c)⟩
  power law := by
    have total := h.total Job.held
    unfold PowerDebt at law ⊢
    omega
  uses := h.useLaw
  quota := h.quotaLaw
  scan law := h.scanLaw law occupies scanned
  ports law := by
    have same : ∀ p, t.port p = s.port p := fun p => by rw [State.port, State.port, h.tables.2.2.2]
    rw [port]
    exact ⟨fun p => same p ▸ law.notices p, fun p => same p ▸ law.holding p, fun p => same p ▸ law.reply p,
      fun p => same p ▸ law.taken p⟩
  cands law := by
    rw [CandLaw, h.counts.2.2.2]
    exact law
  outcome law m x hm hx ho := by
    rcases h.job_cases hx with ⟨rfl, rfl⟩ | ⟨ne, hx⟩
    · rcases outcome hm ho with cool | ⟨same, slots, cool⟩
      · exact cool
      · exact cool (law m j (slots ▸ hm) h.before (same ▸ ho))
    · exact law m x (fun e => hm (slot m ne e)) hx ho
  link law m x c hx hc := by
    rw [State.handleOf, h.gens]
    exact link law m x c hx hc

end State.Change

/-! ## COOLING entry -/

/-- Job states in which the job's converter drives (R59). -/
def JobState.hot : JobState → Bool
  | .seeking | .aligning | .heating => true
  | .pending | .ready | .connecting | .cooling => false

theorem JobState.of_hot {x : JobState} (h : x.hot = true) :
    x.running = true ∧ x.occupies = true ∧ x.scanned = true := by
  revert h
  cases x <;> simp [JobState.hot, JobState.running, JobState.occupies, JobState.scanned]

/-- A hot job enters COOLING: it holds no power from then on, and an outcome that was set before is in its place (R126,
R140). -/
theorem coolJob_laws {a : Int} {x : Option SlotIx} {q : Option Port} {k : SlotIx} {j : Job} {s : State}
    {p : Profile} {guarded : Bool} (h : s.job k = some j) (hot : j.state.hot = true) (hx : x = none ∨ x = some k) :
    s.Keeps ⟨a + j.held, x, q⟩ ⟨a, none, q⟩ (s.modJob k fun j => j.cooling p guarded s.lineClock s.now) := by
  obtain ⟨-, occupies, scanned⟩ := JobState.of_hot hot
  have change : s.Change k j (j.cooling p guarded s.lineClock s.now) _ :=
    .of_modJob (fun j => j.cooling p guarded s.lineClock s.now) h (fun _ => rfl) ⟨rfl, rfl, rfl⟩ fun c =>
      (or_iff_left_of_imp fun ⟨_, _, _, plain⟩ => absurd scanned (by rw [plain]; nofun)).symm
  refine change.keeps ?_ rfl (fun _ => .inl occupies) (fun _ => rfl) (fun m ne e => ?_) (fun _ _ => .inl rfl) (fun _ => id) ?_
  · have none_ : (j.cooling p guarded s.lineClock s.now).held = 0 := rfl
    rw [none_, modJob_committed]
    dsimp only
    omega
  · rcases hx with rfl | rfl
    · nomatch e
    · exact (ne (Option.some.inj e).symm).elim
  · intro law m y c hy hc
    rw [job_modJob] at hy
    split at hy
    · next same =>
      subst same
      obtain ⟨y', hy', rfl⟩ := Option.map_eq_some_iff.1 hy
      exact law _ y' c hy' hc
    · exact law m y c hy hc

/-! ## SEEKING entry -/

/-- What the scan set is after SEEKING entry (R102). -/
theorem mem_insertHead {h x : Head} {l : List Head} : x ∈ insertHead h l ↔ x = h ∨ x ∈ l := by
  induction l with
  | nil => simp [insertHead]
  | cons y ys ih =>
    unfold insertHead
    split
    · simp
    · split
      · next same => simp [same]
      · rw [List.mem_cons, ih, List.mem_cons]
        tauto

theorem enterSeeking_conv {c : Conv} {k : SlotIx} {j : Job} {s : State} (h : s.job k = some j) (e : Conv) :
    (enterSeeking c k s).conv e = if c = e then (s.conv c).seek (s.head j.head) s.now else s.conv e := by
  unfold enterSeeking
  rw [h]
  dsimp only
  split <;> simp only [scanJoin_conv, conv_modConv, modJob_conv]

theorem enterSeeking_slot {c : Conv} {k : SlotIx} {j : Job} {s : State} (h : s.job k = some j) (m : SlotIx) :
    (enterSeeking c k s).slot m = (s.modJob k fun j => { j with state := .seeking }).slot m := by
  unfold enterSeeking
  rw [h]
  dsimp only
  split <;> rfl

/-- A guard-enabled head joins the scan set at SEEKING entry (R102). -/
theorem mem_scanSet_enterSeeking {c : Conv} {k : SlotIx} {j : Job} {s : State} (h : s.job k = some j) (x : Head) :
    x ∈ (enterSeeking c k s).scanSet ↔ x ∈ s.scanSet ∨ x = j.head ∧ (s.head j.head).guardEnable = true := by
  unfold enterSeeking
  rw [h]
  dsimp only
  split
  · next guarded =>
    refine mem_insertHead.trans ?_
    rw [or_comm]
    exact or_congr_right ⟨fun e => ⟨e, guarded⟩, And.left⟩
  · next plain => exact ⟨.inl, fun y => y.elim id fun y => (plain y.2).elim⟩

/-- What SEEKING entry leaves as it was. -/
theorem enterSeeking_frame {c : Conv} {k : SlotIx} {j : Job} {s : State} (h : s.job k = some j) :
    enterSeeking c k s = { s with
      slots := (enterSeeking c k s).slots, convs := (enterSeeking c k s).convs,
      scanSet := (enterSeeking c k s).scanSet } := by
  unfold enterSeeking
  rw [h]
  dsimp only
  split <;> rfl

/-- SEEKING entry from a state that is not scanned, as a change of the job (R102). -/
theorem enterSeeking_change {c : Conv} {k : SlotIx} {j : Job} {s : State} (h : s.job k = some j)
    (plain : j.state.scanned = false) : s.Change k j { j with state := .seeking } (enterSeeking c k s) := by
  refine .of_modJob (fun j => { j with state := .seeking }) h (enterSeeking_slot h) ⟨rfl, rfl, rfl⟩ (fun x => ?_)
    ?_ ?_ ?_ ?_
  · rw [mem_scanSet_enterSeeking h, plain]
    simp [JobState.scanned, JobState.occupies]
  all_goals
    rw [enterSeeking_frame h]
  · exact ⟨rfl, rfl, rfl, rfl⟩
  · exact ⟨rfl, rfl, rfl, rfl⟩

/-- A converter that seeks outside STANDBY with its job is in order. -/
theorem Converter.seek_ok {m : Mode} {v : Converter} (mode : m ≠ .standby) (r : HeadRec) (now : Nat) :
    (v.seek r now).Ok m :=
  ⟨fun _ => rfl, fun _ => mode, fun _ => ⟨rfl, mode⟩, fun x => by rcases x with x | x <;> [nomatch x; exact (x rfl).elim]⟩

/-- A job whose connection completes enters SEEKING with its converter (R38, R102). -/
theorem enterSeeking_laws {d : Debt} {c : Conv} {k : SlotIx} {j : Job} {s : State} (h : s.job k = some j)
    (connecting : j.state = .connecting) (served : (s.conv c).served = some (s.handleOf k)) :
    s.Keeps d d (enterSeeking c k s) := by
  have change := enterSeeking_change (c := c) h (by rw [connecting]; rfl)
  have same : ({ j with state := .seeking } : Job).held = j.held := by simp [Job.held, connecting, JobState.running]
  refine change.keeps ?_ rfl (fun _ => .inl (by rw [connecting]; rfl)) (fun _ => rfl) (fun _ _ => id)
    (fun _ _ => .inr ⟨rfl, rfl, fun x => absurd x (by rw [connecting]; nofun)⟩) (fun e ok => ?_) fun law m x e hx he => ?_
  · rw [same, enterSeeking_frame h]
  · rw [enterSeeking_conv h]
    split
    · next same =>
      subst same
      exact Converter.seek_ok (ok.served (by rw [served]; nofun)).2 _ _
    · exact ok
  · have named : (s.conv e).served = some (s.handleOf m) ∧ (s.conv e).state.serves = true := by
      rcases change.job_cases hx with ⟨rfl, rfl⟩ | ⟨-, hx⟩
      · exact law m j e h he
      · exact law m x e hx he
    rw [enterSeeking_conv h]
    split
    · next same =>
      subst same
      exact ⟨named.1, rfl⟩
    · exact named

/-! ## Grants -/

theorem occupant_eq_none {s : State} {h : Head} : s.occupant h = none ↔
    ∀ k j, s.job k = some j → j.head = h → j.state.occupies = false := by
  unfold occupant
  rw [List.find?_eq_none]
  constructor
  · intro free k j hj hh
    have := free k (List.mem_finRange k)
    simpa [jobIs, hj, hh] using this
  · intro free k _ occ
    obtain ⟨j, hj, both⟩ := jobIs_iff.1 occ
    rw [Bool.and_eq_true, beq_iff_eq] at both
    rw [free k j hj both.1] at both
    exact absurd both.2 nofun

/-- A job in READY is granted on an idle converter: it goes to SEEKING or CONNECTING with it, and committed power rises
by its reservation (R91). -/
theorem granted_laws {d : Debt} {s t : State} {k : SlotIx} {c : Conv} {j : Job} {w : Converter} {x : JobState}
    (hx : x = .seeking ∨ x = .connecting)
    (change : s.Change k j { j with state := x, converter := some c } t) (ready : j.state = .ready)
    (idle : (s.conv c).state = .idle) (free : s.occupant j.head = none)
    (committed : t.committed = s.committed + j.reservation)
    (convs : ∀ e, t.conv e = if c = e then w else s.conv e) (served : w.served = some (s.handleOf k))
    (serves : w.state.serves = true) (ok : (s.conv c).Ok s.mode → w.Ok s.mode) : s.Keeps d d t := by
  refine change.keeps ?_ rfl (fun _ => .inr (occupant_eq_none.1 free)) (fun y => ?_) (fun _ _ => id)
    (fun _ _ => .inr ⟨rfl, rfl, fun y => absurd y (by rw [ready]; nofun)⟩) (fun e oke => ?_) fun law m y e hy he => ?_
  · have before : j.held = 0 := by simp [Job.held, ready, JobState.running]
    have after : ({ j with state := x, converter := some c } : Job).held = j.reservation := by
      rcases hx with rfl | rfl <;> simp [Job.held, JobState.running]
    rw [before, after, committed]
    push_cast
    omega
  · rw [ready] at y
    nomatch y
  · rw [convs]
    split
    · next same =>
      subst same
      exact ok oke
    · exact oke
  · rcases change.job_cases hy with ⟨rfl, rfl⟩ | ⟨-, hy⟩
    · obtain rfl := Option.some.inj he
      rw [convs, if_pos rfl]
      exact ⟨served, serves⟩
    · obtain ⟨served', serves'⟩ := law m y e hy he
      have other : c ≠ e := by
        rintro rfl
        rw [idle] at serves'
        nomatch serves'
      rw [convs, if_neg other]
      exact ⟨served', serves'⟩

/-- The first steps of a grant: power is committed, and job and converter name each other (R91). -/
def State.granting (s : State) (k : SlotIx) (c : Conv) (j : Job) : State :=
  (({ s with committed := s.committed + j.reservation }.modConv c fun v =>
    { v with served := some (s.handleOf k), drive := (s.head j.head).nominal }).modJob k fun j =>
      { j with converter := some c })

theorem granting_change {k : SlotIx} {c : Conv} {j : Job} {s : State} (h : s.job k = some j) :
    s.Change k j { j with converter := some c } (s.granting k c j) :=
  .of_modJob (fun j => { j with converter := some c }) h (fun _ => rfl) ⟨rfl, rfl, rfl⟩ fun x =>
    (or_iff_left_of_imp (by rintro ⟨-, -, a, b⟩; rw [a] at b; nomatch b)).symm

theorem granting_conv (k : SlotIx) (c : Conv) (j : Job) (s : State) (e : Conv) : (s.granting k c j).conv e =
    if c = e then { s.conv c with served := some (s.handleOf k), drive := (s.head j.head).nominal } else s.conv e := by
  unfold granting
  rw [modJob_conv, conv_modConv]
  rfl

/-- A grant that is not passed by: the job in READY, the converter free and no occupant of the head (R59, R88, R91). -/
theorem grantMember_of {s : State} {k : SlotIx} {c : Conv} {j : Job} (h : s.job k = some j) (ready : j.state = .ready)
    (free : s.convFree c = true) (head : s.occupant j.head = none) : grantMember s (k, c) =
      match poolOf c with
      | none => enterSeeking c k (s.granting k c j)
      | some p => connect p j.head k (s.granting k c j) := by
  unfold grantMember
  dsimp only
  rw [h]
  dsimp only
  rw [if_neg (by simp [ready, free, head])]
  rfl

/-- A grant is passed by, or is made to a job in READY on an idle converter for a head that no job occupies (R91). -/
theorem grantMember_cases (s : State) (x : SlotIx × Conv) : grantMember s x = s ∨
    ∃ j, s.job x.1 = some j ∧ j.state = .ready ∧ s.convFree x.2 = true ∧ s.occupant j.head = none := by
  unfold grantMember
  split
  · exact .inl rfl
  · next j h =>
    split
    · exact .inl rfl
    · next open_ =>
      refine .inr ⟨j, h, ?_⟩
      simpa [not_or] using open_

/-- The converter and the job of a grant wait in CONNECTING for the relay (R38). -/
def State.connecting (s : State) (c : Conv) (k : SlotIx) : State :=
  (s.modJob k fun j => { j with state := .connecting }).modConv c fun v => { v with state := .connecting }

theorem connect_eq (p : Pool) (h : Head) (k : SlotIx) (s : State) : connect p h k s =
    if (s.relay p).pos = .closed h then enterSeeking (poolConv p) k s
    else matrixTry p ((s.connecting (poolConv p) k).modRelay p fun r => { r with plan := r.connectPlan h }) := rfl

theorem grantMember_laws {d : Debt} {s : State} (mode : s.mode ≠ .standby) (x : SlotIx × Conv) :
    s.Keeps d d (grantMember s x) := by
  rcases grantMember_cases s x with same | ⟨j, h, ready, free, head⟩
  · rw [same]
    exact .refl d s
  · obtain ⟨k, c⟩ := x
    have idle : (s.conv c).state = .idle := by
      unfold convFree at free
      rw [Bool.and_eq_true, beq_iff_eq] at free
      exact free.1
    have first := granting_change (c := c) h
    have plain : ({ j with converter := some c } : Job).state.scanned = false := by
      change j.state.scanned = false
      rw [ready]
      rfl
    have seeks : s.Keeps d d (enterSeeking c k (s.granting k c j)) := by
      refine granted_laws (.inl rfl) (first.trans (enterSeeking_change first.after plain) rfl) ready idle head ?_
        (w := ((s.granting k c j).conv c).seek (s.head j.head) s.now) (fun e => ?_) ?_ rfl
        fun _ => Converter.seek_ok mode _ _
      · rw [enterSeeking_frame first.after]
        rfl
      · rw [enterSeeking_conv first.after]
        split
        · rfl
        · next other => rw [granting_conv, if_neg other]
      · rw [granting_conv, if_pos rfl]
        rfl
    have connects : s.Keeps d d ((s.granting k c j).connecting c k) := by
      refine granted_laws (.inr rfl) (first.trans (.of_modJob (fun j => { j with state := .connecting }) first.after
        (fun _ => rfl) ⟨rfl, rfl, rfl⟩ fun x => (or_iff_left_of_imp ?_).symm) rfl) ready idle head rfl
        (w := { (s.granting k c j).conv c with state := .connecting }) (fun e => ?_) ?_ rfl fun ok => ?_
      · rintro ⟨-, -, a, -⟩
        nomatch a
      · rw [State.connecting, conv_modConv, modJob_conv]
        split
        · rfl
        · next other => rw [modJob_conv, granting_conv, if_neg other]
      · rw [granting_conv, if_pos rfl]
      · obtain ⟨off, -, stopped, timer⟩ := ok.rests (.of_state (by simp [idle]))
        rw [granting_conv, if_pos rfl]
        exact ⟨fun on => absurd (on.symm.trans off) nofun, nofun, fun _ => ⟨rfl, mode⟩,
          fun x => (x.elim stopped fun x => x timer).elim⟩
    rw [grantMember_of h ready free head]
    cases e : poolOf c with
    | none => exact seeks
    | some p =>
      dsimp only
      rw [connect_eq, poolConv_of_poolOf e]
      split
      · exact seeks
      · exact connects.trans (.trans .fields (matrixTry_laws d p _))

/-! ## Arbitration and the end of an event -/

theorem byHead_nil {s : State} {c : Cand} (h : c.members = []) : s.byHead c = [] := by
  unfold byHead
  rw [h]
  rfl

/-- A candidate is granted converters only in RUN (R87). -/
theorem mode_of_eligible {s : State} {c : Cand} {given : List (SlotIx × Conv)} (h : s.eligible c = some given)
    (some_ : given ≠ []) : s.mode = .run := by
  unfold eligible at h
  split at h
  · next all =>
    cases e : c.members with
    | nil =>
      rw [byHead_nil e] at h
      exact (some_ (Option.some.inj h).symm).elim
    | cons k ks =>
      rw [e, List.all_cons, Bool.and_eq_true] at all
      obtain ⟨j, -, serves⟩ := jobIs_iff.1 all.1
      simp only [Bool.and_eq_true, stationServes, beq_iff_eq] at serves
      exact serves.1.2.1.1.1
  · nomatch h

theorem grantMember_mode (s : State) (x : SlotIx × Conv) : (grantMember s x).mode = s.mode :=
  (grantMember_settings (x := x) (State.SameSettings.refl s)).line.1

theorem grants_laws {d : Debt} {s : State} (mode : s.mode ≠ .standby) (l : List (SlotIx × Conv)) :
    s.Keeps d d (l.foldl grantMember s) := by
  induction l generalizing s with
  | nil => exact .refl d s
  | cons x l ih => exact (grantMember_laws mode x).trans (ih (by rwa [grantMember_mode]))

theorem grant_laws {d : Debt} {s : State} {c : Cand} {given : List (SlotIx × Conv)} (h : s.eligible c = some given) :
    s.Keeps d d (grant c given s) := by
  refine (dropCand_laws d c.slot s).trans ?_
  by_cases some_ : given = []
  · subst some_
    exact .refl d _
  · exact grants_laws (by rw [dropCand_mode, mode_of_eligible h some_]; nofun) given

theorem walk_laws {d : Debt} (l : List Cand) (s : State) : s.Keeps d d (walk l s) := by
  induction l generalizing s with
  | nil => exact .refl d s
  | cons c cs ih =>
    unfold walk
    split
    · exact ih s
    · next given e =>
      split
      · exact (grant_laws e).trans (ih _)
      · exact .refl d s

theorem arbitrate_laws (d : Debt) (s : State) : s.Keeps d d (arbitrate s) :=
  State.Keeps.trans .fields (walk_laws s.cands { s with arbCause := false, arbSeq := s.arbSeq + 1 })

/-- The completion of an event keeps the laws (R86, R133). -/
theorem finish_laws (d : Debt) (s : State) : s.Keeps d d (finish s) := by
  unfold finish
  split
  · exact (arbitrate_laws d s).trans (scanSettle_laws d _)
  · exact scanSettle_laws d s

end Sys2Proof.Machine
end

section
/-! PROOFS. The abort paths, heating and the guard conversions keep the laws. -/

namespace Sys2Proof.Machine

open State

/-! ## Committed power and COOLING entry -/

/-- Committed power is released before the job leaves its state; the law holds with the debt of what it holds (R81). -/
theorem releasePower_laws {x : Option SlotIx} {q : Option Port} {k : SlotIx} {j : Job} {s : State}
    (h : s.job k = some j) (running : j.state.running = true) :
    s.Keeps ⟨0, x, q⟩ ⟨j.reservation, x, q⟩ (s.releasePower j.reservation) where
  output law := ⟨law.stop, law.output, law.drives, law.served, law.engine⟩
  power law := by
    have least := le_total h Job.held
    have held : j.held = j.reservation := by rw [Job.held, if_pos running]
    have same : (s.releasePower j.reservation).total Job.held = s.total Job.held := total_congr fun _ => rfl
    have left : (s.releasePower j.reservation).committed = s.committed - j.reservation := rfl
    unfold PowerDebt at law ⊢
    rw [same, left]
    dsimp only at law ⊢
    omega
  uses law := by
    rw [useLaw_iff] at law ⊢
    exact ⟨fun p => (law.1 p).trans (total_congr fun _ => rfl), fun i => (law.2 i).trans (total_congr fun _ => rfl)⟩
  quota law := ⟨law.counted, law.jobs, law.places⟩
  scan law := ⟨law.heads, law.scan⟩
  ports law := ⟨law.notices, law.holding, law.reply, law.taken⟩
  cands law := law
  outcome law := law
  link law := law

/-- A hot job enters COOLING and its power is free; the outcome that came before is in its place (R126, R140). -/
theorem enterCooling_laws {a : Int} {x : Option SlotIx} {q : Option Port} {k : SlotIx} {j : Job} {s : State}
    (h : s.job k = some j) (hot : j.state.hot = true) (hx : x = none ∨ x = some k) :
    s.Keeps ⟨a + j.held, x, q⟩ ⟨a, none, q⟩ (enterCooling k s) := by
  unfold enterCooling
  rw [h]
  dsimp only
  split
  · refine (coolJob_laws h hot hx).trans (endJob_laws_of_idle fun i hi => ?_)
    rw [job_modJob_self, h] at hi
    rw [← Option.some.inj hi]
    exact .inr (.inr rfl)
  · exact coolJob_laws h hot hx

/-! ## Abort paths -/

/-- The record of a job after its converter has let it go. -/
theorem State.BankAt.alike {c : Conv} {s t : State} (b : s.BankAt c t) {k : SlotIx} {j : Job} (h : s.job k = some j) :
    ∃ i, t.job k = some i ∧ i.state = j.state ∧ i.held = j.held ∧ i.outcome = j.outcome := by
  rcases b.job h with e | e
  · exact ⟨j, e, rfl, rfl, rfl⟩
  · exact ⟨_, e, rfl, rfl, rfl⟩

theorem abortPath_laws (q : Option Port) (k : SlotIx) (s : State) :
    s.Keeps (.only q) (.only q) (abortPath k s) := by
  unfold abortPath
  split
  · exact .refl _ s
  · next j h =>
    have hot : j.state.hot = true → ∀ {u : State} {i : Job}, (s.releasePower j.reservation).Keeps
        ⟨j.reservation, none, q⟩ ⟨j.reservation, none, q⟩ u → u.job k = some i → i.state = j.state →
        i.held = j.held → s.Keeps (.only q) (.only q) (enterCooling k u) := by
      intro hot u i bank hi state held
      have running := (JobState.of_hot hot).1
      refine (releasePower_laws h running).trans (bank.trans ?_)
      have cools := enterCooling_laws (a := 0) (x := none) (q := q) hi (state ▸ hot) (.inl rfl)
      have reserved : i.held = j.reservation := by rw [held, Job.held, if_pos running]
      rwa [reserved, zero_add] at cools
    have path : j.state.hot = true → s.Keeps (.only q) (.only q) (enterCooling k
        (match j.converter with
          | some c => enterDischarge c (s.releasePower j.reservation)
          | none => s.releasePower j.reservation)) := by
      intro is_hot
      split
      · next c _ =>
        obtain ⟨i, hi, state, held, -⟩ := (enterDischarge_bank (.refl (c := c) (s.releasePower j.reservation))).alike h
        exact hot is_hot (enterDischarge_laws _ c _) hi state held
      · exact hot is_hot (.refl _ _) h rfl rfl
    split
    · next e => exact endJob_laws_of_idle fun i hi => .inl (Option.some.inj (h.symm.trans hi) ▸ e)
    · next e => exact endJob_laws_of_idle fun i hi => .inr (.inl (Option.some.inj (h.symm.trans hi) ▸ e))
    · next e =>
      have ends : ∀ {u : State} {i : Job}, (s.releasePower j.reservation).Keeps
          ⟨j.reservation, none, q⟩ ⟨j.reservation, none, q⟩ u → u.job k = some i → i.state = j.state →
          i.held = j.held → s.Keeps (.only q) (.only q) (endJob k .none u) := by
        intro u i bank hi state held
        have running : j.state.running = true := by rw [e]; rfl
        refine (releasePower_laws h running).trans (bank.trans ?_)
        have ended := endJob_laws (a := 0) (x := none) (q := q) (r := .none) (k := k) (s := u) fun i' hi' => by
          rw [← Option.some.inj (hi.symm.trans hi'), state, e]
          rfl
        have reserved : u.holds k = j.reservation := by
          rw [holds_eq, hi, Option.elim_some, held, Job.held, if_pos running]
        rwa [reserved, zero_add] at ended
      dsimp only
      split
      · next c _ =>
        obtain ⟨i, hi, state, held, -⟩ :=
          (withdrawConnection_bank (.refl (c := c) (s.releasePower j.reservation))).alike h
        exact ends (withdrawConnection_laws _ c _) hi state held
      · exact ends (.refl _ _) h rfl rfl
    · next e => exact path (by rw [e]; rfl)
    · next e => exact path (by rw [e]; rfl)
    · next e => exact path (by rw [e]; rfl)
    · exact .refl _ s

theorem giveOutcome_laws {d : Debt} {o : JobOutcome} (ho : o ≠ .ok ∧ o ≠ .underwet) (s : State) (k : SlotIx) :
    s.Keeps d d (giveOutcome o s k) := by
  unfold giveOutcome
  split
  · exact setOutcome_laws ho
  · exact .refl d s

theorem failJob_laws {q : Option Port} {o : JobOutcome} (ho : o ≠ .ok ∧ o ≠ .underwet) (k : SlotIx) (s : State) :
    s.Keeps (.only q) (.only q) (failJob o k s) := by
  unfold failJob
  split
  · exact ((setOutcome_laws ho).trans (.folds (giveOutcome_laws (by decide)) _ _)).trans
      ((abortPath_laws q k _).trans (.folds (fun u m => abortPath_laws q m u) _ _))
  · exact .refl _ s

theorem reach_laws {q : Option Port} {o : JobOutcome} (ho : o ≠ .ok ∧ o ≠ .underwet) (p : Job → Bool) (s : State) :
    s.Keeps (.only q) (.only q) (reach o p s) := by
  refine ((State.Keeps.folds (giveOutcome_laws ho) _ _).trans (.folds (fun u k => ?_) _ _)).trans
    (.folds (fun u k => ?_) _ _)
  · exact .folds (giveOutcome_laws (by decide)) _ _
  · split
    · exact abortPath_laws q k u
    · exact .refl _ u

/-! ## Segments and the end of heating -/

theorem enterSegment_laws {d : Debt} {c : Conv} {k : SlotIx} {run : Run} {n : Nat} {s : State}
    (heating : s.OutputLaw → (s.conv c).state = .heating) : s.Keeps d d (enterSegment c k run n s) := by
  unfold enterSegment
  split
  · exact .refl d s
  · refine .trans (.modJob fun _ _ => .of_same) (.modConv_of_law (fun law ok => ?_) fun _ serves => ?_)
    all_goals
      unfold Converter.enterSegment
      dsimp only [modJob_conv] at *
      split
    · have heating := heating ⟨law.stop, law.output, law.drives, law.served, law.engine⟩
      have drives := ok.drives
      have served := ok.served
      unfold Converter.switchOff
      split <;> exact ⟨fun _ => by simp [heating, ConvState.drives], drives, served, fun _ => heating⟩
    · have heating := heating ⟨law.stop, law.output, law.drives, law.served, law.engine⟩
      exact ⟨fun _ => by simp [heating, ConvState.drives], ok.drives, ok.served, fun _ => heating⟩
    · unfold Converter.switchOff
      split <;> exact ⟨rfl, serves⟩
    · exact ⟨rfl, serves⟩

theorem learn_laws (d : Debt) (j : Job) (o : JobOutcome) (s : State) : s.Keeps d d (learn j o s) := by
  unfold learn
  split
  · refine .fields (heads := fun x => ?_)
    rw [head_setHead]
    split
    · next same => rw [same]
    · rfl
  · exact .refl d s

/-- A hot job gets the outcome of its heating, which opens the debt of an outcome before COOLING (R126). -/
theorem heatOutcome_laws {q : Option Port} {k : SlotIx} {j : Job} {o : JobOutcome} {s : State} (h : s.job k = some j) :
    s.Keeps ⟨0, none, q⟩ ⟨0, some k, q⟩ (s.setOutcome k o) := by
  have change : s.Change k j (j.withOutcome o) (s.setOutcome k o) := by
    refine .of_modJob (·.withOutcome o) h (fun _ => rfl) ?_ fun x => (or_iff_left_of_imp ?_).symm
    · rw [withOutcome_only]
      exact ⟨rfl, rfl, rfl⟩
    · rw [withOutcome_only]
      rintro ⟨-, -, a, b⟩
      exact absurd (a.symm.trans b) nofun
  refine change.keeps ?_ rfl (fun x => .inl ?_) (fun x => ?_) (fun _ _ => nofun) (fun x => (x rfl).elim) (fun _ => id)
    fun law m x e hx he => ?_
  · rw [withOutcome_only]
    rfl
  · rwa [withOutcome_only] at x
  · rwa [withOutcome_only]
  · rcases change.job_cases hx with ⟨rfl, rfl⟩ | ⟨-, hx⟩
    · rw [withOutcome_only] at he
      exact law m j e h he
    · exact law m x e hx he

theorem setOutcome_job (s : State) (k : SlotIx) (o : JobOutcome) (m : SlotIx) :
    (s.setOutcome k o).job m = if k = m then (s.job k).map (·.withOutcome o) else s.job m :=
  job_modJob ..

/-- The end of heating keeps the laws: the outcome is set before COOLING, and the power is free after it (R126). -/
theorem endHeating_laws {q : Option Port} {c : Conv} {k : SlotIx} {j : Job} {s : State} (h : s.job k = some j)
    (heating : j.state = .heating) : s.Keeps (.only q) (.only q) (endHeating c k s) := by
  unfold endHeating
  rw [h]
  dsimp only
  generalize j.heatOutcome (s.prof j.profile) = o
  obtain ⟨i, hi, state, reservation⟩ : ∃ i, (s.setOutcome k o).job k = some i ∧ i.state = .heating ∧
      i.reservation = j.reservation := by
    rw [setOutcome_job, if_pos rfl, h]
    refine ⟨j.withOutcome o, rfl, ?_⟩
    rw [withOutcome_only]
    exact ⟨heating, rfl⟩
  have running : i.state.running = true := by rw [state]; rfl
  obtain ⟨i', hi', state', held, -⟩ :=
    (enterDischarge_bank (.refl (c := c) ((s.setOutcome k o).releasePower j.reservation))).alike hi
  have learned : (learn j o (enterDischarge c ((s.setOutcome k o).releasePower j.reservation))).job k = some i' := by
    rw [State.job, State.slot, (learn_frame j o _).2.2.2.1]
    exact hi'
  have released := releasePower_laws (x := some k) (q := q) hi running
  have cooled := enterCooling_laws (a := 0) (x := some k) (q := q) learned (by rw [state', state]; rfl) (.inr rfl)
  rw [zero_add, held, Job.held, if_pos running] at cooled
  rw [reservation] at released cooled
  exact ((heatOutcome_laws h).trans released).trans
    ((enterDischarge_laws _ c _).trans ((learn_laws _ j o _).trans cooled))

theorem advance_laws {q : Option Port} {c : Conv} {k : SlotIx} {s : State}
    (heating : s.OutputLaw → (s.conv c).state = .heating) : s.Keeps (.only q) (.only q) (advance c k s) := by
  unfold advance
  split
  · exact .refl _ s
  · next j h =>
    dsimp only
    split
    · exact .refl _ s
    · next hot =>
      split
      · exact enterSegment_laws heating
      · split
        · exact enterSegment_laws heating
        · exact endHeating_laws h (Decidable.not_not.1 hot)

/-! ## Lock and HEATING entry -/

/-- Some converter drives, so the line is not in STANDBY (R22). -/
def State.Drives (s : State) : Prop := ∃ c, (s.conv c).state.drives = true

theorem State.OutputLaw.mode {s : State} (law : s.OutputLaw) (h : s.Drives) : s.mode ≠ .standby :=
  h.elim fun c drives => law.drives c drives

/-- A hot job goes on to another hot state, which no law sees. -/
theorem Job.Kin.of_hot {j i : Job} (hot : j.state.hot = true) (hot' : i.state.hot = true)
    (same : i.station = j.station ∧ i.profile = j.profile ∧ i.head = j.head ∧ i.reservation = j.reservation ∧
      i.outcome = j.outcome ∧ i.converter = j.converter := by exact ⟨rfl, rfl, rfl, rfl, rfl, rfl⟩) : j.Kin i := by
  obtain ⟨station, profile, head, reservation, outcome, converter⟩ := same
  obtain ⟨a, b, c⟩ := JobState.of_hot hot
  obtain ⟨a', b', c'⟩ := JobState.of_hot hot'
  exact ⟨station, profile, head, by rw [Job.held, Job.held, a, a', reservation], b'.trans b.symm, c'.trans c.symm,
    fun _ => .inr ⟨outcome, fun cool => by rw [cool] at hot; nomatch hot⟩, .inr converter⟩

/-- The job of a slot, if there is one, is hot. -/
def State.Hot (s : State) (k : SlotIx) : Prop := ∀ j, s.job k = some j → j.state.hot = true

theorem enterSegment_job (c : Conv) (k : SlotIx) (run : Run) (n : Nat) (s : State) (m : SlotIx) :
    (enterSegment c k run n s).job m = if k = m then
      (s.job k).map fun j => { j with run := run, index := n, segEntry := some s.lineClock } else s.job m := by
  unfold enterSegment
  split
  · next h =>
    split
    · next same => rw [← same, h]; rfl
    · rfl
  · dsimp only
    rw [modConv_job, job_modJob]

theorem enterSegment_conv_state {c : Conv} {k : SlotIx} {run : Run} {n : Nat} {s : State} (e : Conv) :
    ((enterSegment c k run n s).conv e).state = (s.conv e).state := by
  unfold enterSegment
  split
  · rfl
  · dsimp only
    rw [conv_modConv]
    split
    · next same =>
      subst same
      unfold Converter.enterSegment Converter.switchOff
      dsimp only
      split
      · split <;> rfl
      · rfl
    · rfl

/-- HEATING entry of a hot job keeps the laws, its converter drives after it, and hot jobs stay hot (R103, R106). -/
theorem enterHeating_laws {d : Debt} {k : SlotIx} {s : State} (hot : s.Hot k) (drives : s.Drives) :
    s.Keeps d d (enterHeating s k) ∧ (enterHeating s k).Drives ∧ ∀ m, s.Hot m → (enterHeating s k).Hot m := by
  unfold enterHeating
  split
  · exact ⟨.refl d s, drives, fun _ => id⟩
  · next j h =>
    split
    · exact ⟨.refl d s, drives, fun _ => id⟩
    · next c _ =>
      dsimp only
      have hotj := hot j h
      have job : s.Keeps d d (s.modJob k fun j => { j with state := .heating, heatingAt := some s.lineClock }) :=
        .modJob fun i hi => .of_hot (hot i hi) rfl
      have conv : ∀ {u : State}, u.Drives → u.Keeps d d (u.modConv c fun v => { v with state := .heating }) :=
        fun drives => .modConv_of_law
          (fun law ok => ⟨fun _ => rfl, fun _ => law.mode drives, fun x => ⟨rfl, (ok.served x).2⟩, fun _ => rfl⟩)
          fun _ _ => ⟨rfl, rfl⟩
      have heating : (((s.modJob k fun j => { j with state := .heating, heatingAt := some s.lineClock }).modConv c
          fun v => { v with state := .heating }).conv c).state = .heating := by rw [conv_modConv_self]
      refine ⟨((job.trans (conv drives)).trans (enterSegment_laws fun _ => heating)).trans (.post _ _), ⟨c, ?_⟩,
        fun m hm i hi => ?_⟩
      · rw [post_conv, enterSegment_conv_state, heating]
        rfl
      · rw [post_job, enterSegment_job] at hi
        simp only [modConv_job, job_modJob, if_true] at hi
        split at hi
        · obtain ⟨i', hi', rfl⟩ := Option.map_eq_some_iff.1 hi
          obtain ⟨i'', -, rfl⟩ := Option.map_eq_some_iff.1 hi'
          rfl
        · exact hm i hi

theorem enterHeatings_laws {d : Debt} {l : List SlotIx} {s : State} (hot : ∀ m ∈ l, s.Hot m) (drives : s.Drives) :
    s.Keeps d d (l.foldl enterHeating s) := by
  induction l generalizing s with
  | nil => exact .refl d s
  | cons m l ih =>
    obtain ⟨keeps, drives', stay⟩ := enterHeating_laws (d := d) (hot m (List.mem_cons_self ..)) drives
    exact keeps.trans (ih (fun n hn => stay n (hot n (List.mem_cons_of_mem _ hn))) drives')

/-- The lock of a job in SEEKING on a converter in SEEKING keeps the laws (R49, R103 to R106). -/
theorem lock_laws {d : Debt} {c : Conv} {k : SlotIx} {s : State} (hot : s.Hot k) (seeking : (s.conv c).state = .seeking) :
    s.Keeps d d (lock c k s) := by
  unfold lock
  dsimp only
  have locked : s.Keeps d d (s.modJob k fun j => { j with locked := (s.conv c).drive }) := .modJob fun _ _ => .of_same
  have hot' : State.Hot (s.modJob k fun j => { j with locked := (s.conv c).drive }) k := by
    intro i hi
    rw [job_modJob_self] at hi
    obtain ⟨j, hj, rfl⟩ := Option.map_eq_some_iff.1 hi
    exact hot j hj
  split
  · next all =>
    refine locked.trans (enterHeatings_laws (fun m hm => ?_) ⟨c, by rw [modJob_conv, seeking]; rfl⟩)
    have either := List.all_eq_true.1 all m hm
    rw [Bool.or_eq_true, beq_iff_eq] at either
    rcases either with rfl | aligning
    · exact hot'
    · intro i hi
      obtain ⟨i', hi', e⟩ := jobIs_iff.1 aligning
      rw [beq_iff_eq] at e
      rw [← Option.some.inj (hi'.symm.trans hi), e]
      rfl
  · refine locked.trans (.trans (.modJob fun i hi => .of_hot (hot' i hi) rfl) (.modConv (fun ok => ?_) fun _ _ => ⟨rfl, rfl⟩))
    rw [modJob_conv, modJob_conv] at ok ⊢
    have mode := ok.drives (by rw [seeking]; rfl)
    exact ⟨fun _ => rfl, fun _ => mode, fun x => ⟨rfl, mode⟩, fun x => absurd (ok.engine x) (by rw [seeking]; nofun)⟩

/-! ## Settle expiry -/

theorem setConv_laws_of_plain {d : Debt} {c : Conv} {v : Converter} {s : State}
    (h : v.state = (s.conv c).state ∧ v.outputOn = (s.conv c).outputOn ∧ v.served = (s.conv c).served ∧
      v.eng.phase = (s.conv c).eng.phase ∧ v.eng.timer = (s.conv c).eng.timer := by exact ⟨rfl, rfl, rfl, rfl, rfl⟩) :
    s.Keeps d d (s.setConv c v) :=
  State.Keeps.modConv_plain (f := fun _ => v) h

theorem settleSeek_laws {q : Option Port} {c : Conv} {k : SlotIx} {r : HeadRec} {report : PhaseReport} {s : State}
    (hot : s.Hot k) (seeking : (s.conv c).state = .seeking) :
    s.Keeps (.only q) (.only q) (settleSeek c k r report s) := by
  have step : ∀ v : Converter, v.state = (s.conv c).state ∧ v.outputOn = (s.conv c).outputOn ∧
      v.served = (s.conv c).served ∧ v.eng.phase = (s.conv c).eng.phase ∧ v.eng.timer = (s.conv c).eng.timer →
      s.Keeps (.only q) (.only q) (s.setConv c v) := fun _ h => setConv_laws_of_plain h
  have fails : ∀ v : Converter, v.state = (s.conv c).state ∧ v.outputOn = (s.conv c).outputOn ∧
      v.served = (s.conv c).served ∧ v.eng.phase = (s.conv c).eng.phase ∧ v.eng.timer = (s.conv c).eng.timer →
      s.Keeps (.only q) (.only q) (failJob .tuneFail k (s.setConv c v)) := fun v h =>
    (step v h).trans (failJob_laws (by decide) k _)
  unfold settleSeek
  dsimp only
  split
  · split
    · exact step _ ⟨rfl, rfl, rfl, rfl, rfl⟩
    · refine .trans (step _ ?_) (lock_laws hot ?_)
      · exact ⟨rfl, rfl, rfl, rfl, rfl⟩
      · rw [conv_setConv_self, seeking]
  all_goals
    split
    · exact step _ ⟨rfl, rfl, rfl, rfl, rfl⟩
    · exact fails _ ⟨rfl, rfl, rfl, rfl, rfl⟩

theorem settleTrack_laws {q : Option Port} {c : Conv} {k : SlotIx} {r : HeadRec} {report : PhaseReport} {s : State} :
    s.Keeps (.only q) (.only q) (settleTrack c k r report s) := by
  have track : ∀ inside : Bool, s.Keeps (.only q) (.only q) (if inside then
      s.setConv c { s.conv c with
        drive := stepFreq report (s.conv c).drive r.step, tun := (s.conv c).tun.rearm r.settle s.now }
      else failJob .tuneLost k
        (s.setConv c { s.conv c with tun := { (s.conv c).tun with settleTimer := none } })) := by
    intro inside
    split
    · exact setConv_laws_of_plain
    · exact .trans setConv_laws_of_plain (failJob_laws (by decide) k _)
  exact track _

theorem settleExpiry_laws {q : Option Port} {c : Conv} {report : PhaseReport} {s : State} :
    s.Keeps (.only q) (.only q) (settleExpiry c report s) := by
  unfold settleExpiry
  split
  · split
    · exact .refl _ s
    · split
      · exact .refl _ s
      · next k _ j h =>
        split
        · next seeks =>
          refine settleSeek_laws (fun i hi => ?_) seeks.2.1
          rw [← Option.some.inj (h.symm.trans hi), seeks.2.2]
          rfl
        · split
          · exact settleTrack_laws
          · exact .refl _ s
  · exact .refl _ s

/-! ## Samples -/

/-- A failure that the engine reports is none of the outcomes of a finished heating (R146). -/
theorem engineFail_laws {q : Option Port} {o : JobOutcome} (ho : o ≠ .ok ∧ o ≠ .underwet) (c : Conv) (k : SlotIx)
    (s : State) : s.Keeps (.only q) (.only q) (engineFail c k o s) := by
  refine .trans (.modConv (fun ok => ?_) fun _ serves => ⟨rfl, serves⟩) (failJob_laws ho k _)
  exact ⟨ok.output, ok.drives, ok.served, fun x => x.elim nofun fun x => (x rfl).elim⟩

theorem segmentWork_laws {q : Option Port} {c : Conv} {k : SlotIx} {reading : PyroReading} {flow : Bool} {s : State}
    (run : (s.conv c).eng.phase = .run) : s.Keeps (.only q) (.only q) (segmentWork c k reading flow s) := by
  unfold segmentWork
  split
  · exact .refl _ s
  · split
    · exact advance_laws fun law => law.engine c (.inl run)
    · refine .modConv_plain ?_
      exact ⟨rfl, rfl, rfl, rfl, rfl⟩

theorem signalCheck_laws {d : Debt} {c : Conv} {k : SlotIx} {lost : Bool} {n : Nat} {s : State} :
    s.Keeps d d (signalCheck c k lost n s) := by
  unfold signalCheck
  have counted : s.Keeps d d (s.modJob k fun j => { j with noSig := if lost then j.noSig + 1 else 0 }) :=
    .modJob fun _ _ => .of_same
  refine counted.trans (.modConv_plain ?_)
  exact ⟨rfl, rfl, rfl, rfl, rfl⟩

theorem Job.Kin.measure (j : Job) (n flow : Nat) (reading : PyroReading) : j.Kin (j.measure n flow reading) := by
  unfold Job.measure
  cases reading <;> exact .of_same

theorem sampleWork_laws {q : Option Port} {c : Conv} {k : SlotIx} {j : Job} {reading : PyroReading} {flow : Bool}
    {s : State} : s.Keeps (.only q) (.only q) (sampleWork c k j reading flow s) := by
  unfold sampleWork
  dsimp only
  have measured : s.Keeps (.only q) (.only q)
      (s.modJob k (·.measure (s.conv c).msCommand (s.prof j.profile).flowTemp reading)) :=
    .modJob fun i _ => .measure i _ _ _
  refine measured.trans ?_
  split
  · exact engineFail_laws (by decide) c k _
  · split
    · refine .trans (.modJob ?_) (engineFail_laws (by decide) c k _)
      exact fun _ _ => .of_same
    · split
      · next run => exact .trans signalCheck_laws (segmentWork_laws run)
      · exact signalCheck_laws

theorem pyroSample_laws {q : Option Port} {c : Conv} {reading : PyroReading} {flow : Bool} {s : State} :
    s.Keeps (.only q) (.only q) (pyroSample c reading flow s) := by
  unfold pyroSample
  split
  · have next : s.Keeps (.only q) (.only q) (s.modConv c fun v => { v with nextSample := some (s.now + 1) }) :=
      .modConv_plain
    refine next.trans ?_
    dsimp only
    split
    · exact .refl _ _
    · split
      · exact .refl _ _
      · split
        · exact .refl _ _
        · split
          · exact sampleWork_laws
          · exact sampleWork_laws
          · exact .refl _ _
          · exact .refl _ _
  · exact .refl _ s

/-! ## Segment timers -/

theorem durationExpiry_laws {q : Option Port} {c : Conv} {s : State} :
    s.Keeps (.only q) (.only q) (durationExpiry c s) := by
  unfold durationExpiry
  split
  · next e k armed _ =>
    split
    · exact advance_laws fun law => law.engine c (.inr (by rw [armed]; nofun))
    · exact .refl _ s
  · exact .refl _ s

theorem timeout_aborts (g : Segment) : g.timeout ≠ .ok ∧ g.timeout ≠ .underwet := by
  unfold Segment.timeout
  split <;> decide

theorem limitExpiry_laws {q : Option Port} {c : Conv} {s : State} :
    s.Keeps (.only q) (.only q) (limitExpiry c s) := by
  unfold limitExpiry
  split
  · split
    · exact engineFail_laws (timeout_aborts _) c _ _
    · exact .refl _ s
  · exact .refl _ s

/-! ## Guard conversions -/

theorem guardHot_laws {q : Option Port} {k : SlotIx} {j : Job} {p : Profile} {reading : GuardReading} {s : State} :
    s.Keeps (.only q) (.only q) (guardHot k j p reading s) := by
  unfold guardHot
  have seen : s.Keeps (.only q) (.only q) (s.modJob k fun j =>
      { j.guardSeen reading with guardNoSig := if reading == .noSignal then j.guardNoSig + 1 else 0 }) :=
    .modJob fun i _ => by cases reading <;> exact .of_same
  have rest : ∀ t : State, t.Keeps (.only q) (.only q)
      (if (reading == .noSignal) = true ∧ Config.guardNoSignalLimit ≤ j.guardNoSig + 1 then failJob .sensorLost k t
        else if guardExceeds p.guardLimit reading then failJob .guardOver k t else t) := by
    intro t
    split
    · exact failJob_laws (by decide) k _
    · split
      · exact failJob_laws (by decide) k _
      · exact .refl _ _
  exact seen.trans (rest _)

theorem guardCool_laws {q : Option Port} {k : SlotIx} {j : Job} {p : Profile} {reading : GuardReading} {s : State}
    (h : s.job k = some j) (cooling : j.state = .cooling) :
    s.Keeps (.only q) (.only q) (guardCool k p reading s) := by
  have seen : ∀ i : Job, (i.guardSeen reading).state = i.state := fun i => by cases reading <;> rfl
  unfold guardCool
  dsimp only
  have kept : s.Keeps (.only q) (.only q) (s.modJob k (·.guardSeen reading)) :=
    .modJob fun i _ => by cases reading <;> exact .of_same
  refine kept.trans ?_
  split
  · refine endJob_laws_of_idle fun i hi => ?_
    rw [job_modJob_self, h] at hi
    rw [← Option.some.inj hi, seen]
    exact .inr (.inr cooling)
  · exact .refl _ _

theorem guardComplete_laws {q : Option Port} {reading : GuardReading} {s : State} :
    s.Keeps (.only q) (.only q) (guardComplete reading s) := by
  unfold guardComplete
  split
  · exact .refl _ s
  · split
    · exact .refl _ s
    · have cleared : s.Keeps (.only q) (.only q) { s with conversion := none } := .fields
      refine cleared.trans (.trans ?_ (scanNext_laws _ _))
      split
      · exact .refl _ _
      · split
        · exact .refl _ _
        · next h =>
          split
          · exact guardHot_laws
          · exact guardHot_laws
          · exact guardHot_laws
          · next cooling => exact guardCool_laws h cooling
          all_goals exact .refl _ _

end Sys2Proof.Machine
end

section
/-! PROOFS. Every event keeps the laws of Safety.lean: the events of the bank, of the timers and of the line. -/

namespace Sys2Proof.Machine

open State

/-! ## Converters and relays -/

theorem faultJob_laws {q : Option Port} (k : Option SlotIx) (s : State) :
    s.Keeps (.only q) (.only q) (faultJob k s) := by
  cases k with
  | none => exact .refl _ s
  | some k => exact failJob_laws (by decide) k s

theorem convFault_laws {q : Option Port} (c : Conv) (cause : FaultCause) (s : State) :
    s.Keeps (.only q) (.only q) (convFault c cause s) := by
  unfold convFault
  split
  iterate 2 exact .refl _ s
  iterate 2
    next state =>
      have rests : ((s.modConv c fun v => { v with cause := cause }).conv c).Rests := by
        rw [conv_modConv_self]
        exact Converter.Rests.of_state (by simp [state])
      exact .trans .modConv_plain (enterFaulted_laws rests)
  · exact .trans (pendFault_laws _ _ _ _) (enterDischarge_laws _ _ _)
  · exact pendFault_laws _ _ _ _
  · exact .trans (pendFault_laws _ _ _ _) (faultJob_laws _ _)
  all_goals exact .trans (pendFault_laws _ _ _ _) (.trans (enterDischarge_laws _ _ _) (faultJob_laws _ _))

theorem faultEvent_laws {q : Option Port} (c : Conv) (cond : FaultCond) (level : Bool) (s : State) :
    s.Keeps (.only q) (.only q)
      (if level then convFault c (faultCauseOf cond) (s.modConv c fun v => { v with pins := v.pins.put cond level })
        else s.modConv c fun v => { v with pins := v.pins.put cond level }) := by
  have wired : s.Keeps (.only q) (.only q) (s.modConv c fun v => { v with pins := v.pins.put cond level }) :=
    .modConv_plain
  split
  · exact wired.trans (convFault_laws c _ _)
  · exact wired

theorem modRelay_laws {d : Debt} {p : Pool} {f : Relay → Relay} {s : State} : s.Keeps d d (s.modRelay p f) := .fields

theorem openingDone_laws {d : Debt} (p : Pool) (s : State) : s.Keeps d d (openingDone p s) :=
  .trans modRelay_laws (.trans (matrixTry_laws d p _)
    (.trans .fields (.trans (connectionCheck_laws d _ _) (warmupCheck_laws d _ _))))

theorem connectingJob_eq_some {s : State} {c : Conv} {k : SlotIx} (h : s.connectingJob c = some k) :
    s.servedSlot c = some k ∧ ∃ j, s.job k = some j ∧ j.state = .connecting := by
  unfold connectingJob at h
  split at h
  · obtain ⟨served, connecting⟩ := Option.filter_eq_some_iff.1 h
    obtain ⟨j, hj, state⟩ := jobIs_iff.1 connecting
    exact ⟨served, j, hj, beq_iff_eq.1 state⟩
  · nomatch h

theorem closingDone_laws {d : Debt} (p : Pool) (h : Head) (s : State) : s.Keeps d d (closingDone p h s) := by
  have closed : s.Keeps d d
      (s.modRelay p fun r => { r with pos := .closed h, motion := .none, lastClose := some s.now }) := modRelay_laws
  refine closed.trans (.trans ?_ (matrixTry_laws d p _))
  split
  · next k job =>
    obtain ⟨served, j, hj, state⟩ := connectingJob_eq_some job
    exact enterSeeking_laws hj state (served_of_servedSlot served).1
  · exact connectionCheck_laws d _ _

theorem holdDone_laws {d : Debt} (s : State) : s.Keeps d d (holdDone s) := by
  have ended : s.Keeps d d { s with relayHold := none } := .fields
  exact ended.trans (.trans (disconnect_laws d _ _) (.trans (disconnect_laws d _ _)
    (.trans (warmupCheck_laws d _ _) (warmupCheck_laws d _ _))))

/-! ## Timers of jobs -/

theorem foldGiven_laws {d : Debt} {o : JobOutcome} (ho : o ≠ .ok ∧ o ≠ .underwet) (l : List SlotIx) (s : State) :
    s.Keeps d d (l.foldl (giveOutcome o) s) :=
  .folds (giveOutcome_laws ho) l s

/-- A job that a test finds in a state in which it holds no power may end. -/
theorem endJob_laws_of_jobIs {d : Debt} {k : SlotIx} {r : Release} {p : Job → Bool} {s : State}
    (h : s.jobIs k p = true) (idle : ∀ j, p j = true → j.state = .pending ∨ j.state = .ready ∨ j.state = .cooling) :
    s.Keeps d d (endJob k r s) := by
  obtain ⟨j, hj, hp⟩ := jobIs_iff.1 h
  refine endJob_laws_of_idle fun i hi => ?_
  rw [← Option.some.inj (hj.symm.trans hi)]
  exact idle j hp

theorem waitExpire_laws {d : Debt} (c : Cand) (s : State) : s.Keeps d d (waitExpire c s) := by
  refine .trans (foldGiven_laws (by decide) c.members s) (.folds (fun u k => ?_) c.members _)
  split
  · next ready => exact endJob_laws_of_jobIs ready fun j hj => .inr (.inl (beq_iff_eq.1 hj))
  · exact .refl d u

theorem coolExpiry_laws {d : Debt} (k : SlotIx) (r : Release) (timer : Job → Option Nat) (s : State) :
    s.Keeps d d (if s.jobIs k (fun j => j.state == .cooling && s.due (timer j)) then endJob k r s else s) := by
  split
  · next cooling =>
    exact endJob_laws_of_jobIs cooling fun j hj => .inr (.inr (beq_iff_eq.1 (Bool.and_eq_true_iff.1 hj).1))
  · exact .refl d s

/-! ## Line mode, emergency stop, leases, interlocks -/

theorem raise_laws (d : Debt) (s : State) : s.Keeps d d s.raise := .fields

theorem postAll_laws (d : Debt) (b : NoticeBody) (s : State) : s.Keeps d d (s.postAll b) :=
  .folds (fun _ p => .post p b) allPorts s

theorem setStandby_laws (d : Debt) (s : State) : s.Keeps d d (standby s) := standby_laws d s s.estop

/-- The mode and the emergency stop change as the law of the outputs allows (R191 to R194). -/
theorem withLine_laws {d : Debt} {m : Mode} {e : Bool} {s : State}
    (output : s.OutputLaw → ({ s with mode := m, estop := e } : State).OutputLaw) :
    s.Keeps d d { s with mode := m, estop := e } where
  output := output
  power law := law.congr rfl fun _ => rfl
  uses law := ⟨law.profiles, law.segments⟩
  quota law := ⟨law.counted, law.jobs, law.places⟩
  scan law := ⟨law.heads, law.scan⟩
  ports law := ⟨law.notices, law.holding, law.reply, law.taken⟩
  cands := id
  outcome := id
  link := id

/-- The mode leaves STANDBY only with the emergency stop released (R191, R193). -/
theorem withMode_laws {d : Debt} {m : Mode} {s : State} (stop : s.estop = false) (hm : m ≠ .standby) :
    s.Keeps d d { s with mode := m } := by
  refine withLine_laws (e := s.estop) fun law => outputLaw_iff.2 ⟨fun _ => stop, fun c => ?_⟩
  obtain ok := (outputLaw_iff.1 law).2 c
  exact ⟨ok.output, fun _ => hm, fun x => ⟨(ok.served x).1, hm⟩, ok.engine⟩

theorem withoutStop_laws (d : Debt) (s : State) : s.Keeps d d { s with estop := false } :=
  withLine_laws (m := s.mode) fun law => outputLaw_iff.2 ⟨fun _ => rfl, (outputLaw_iff.1 law).2⟩

theorem changeMode_laws {q : Option Port} {m : Mode} {s : State} (stop : m ≠ .standby → s.estop = false) :
    s.Keeps (.only q) (.only q) (changeMode m s) := by
  have serve (hm : m ≠ .standby) : s.Keeps (.only q) (.only q)
      (if m = .run then State.raise <| (if s.mode = .standby then bankStart { s with mode := m }
          else { s with mode := m }).postAll (.modeChanged m .setMode)
        else (if s.mode = .standby then bankStart { s with mode := m } else { s with mode := m }).postAll
          (.modeChanged m .setMode)) := by
    have started : s.Keeps (.only q) (.only q)
        (if s.mode = .standby then bankStart { s with mode := m } else { s with mode := m }) := by
      split
      · exact .trans (withMode_laws (stop hm) hm) (bankStart_laws _ _)
      · exact withMode_laws (stop hm) hm
    split
    · exact started.trans (.trans (postAll_laws _ _ _) (raise_laws _ _))
    · exact started.trans (postAll_laws _ _ _)
  cases m with
  | standby =>
    have reached (u : State) : u.Keeps (.only q) (.only q) (reach .lineAbort Job.isRunning u) :=
      reach_laws (by decide) _ u
    have told := (setStandby_laws (.only q) s).trans (postAll_laws _ (.modeChanged .standby .setMode) _)
    unfold changeMode
    exact told.trans (reached _)
  | run => exact serve (by decide)
  | hold => exact serve (by decide)

theorem estopAssert_laws {q : Option Port} (s : State) : s.Keeps (.only q) (.only q) (estopAssert s) := by
  have told (u : State) : u.Keeps (.only q) (.only q)
      (if s.mode = .standby then u else u.postAll (.modeChanged .standby .estop)) := by
    split
    · exact .refl _ u
    · exact postAll_laws _ _ u
  have reached (u : State) : u.Keeps (.only q) (.only q) (reach .estop (fun _ => true) u) :=
    reach_laws (by decide) _ u
  have posted := (standby_laws (.only q) s true).trans (.post .svp (.estop true s.mode))
  unfold estopAssert
  exact posted.trans ((told _).trans (reached _))

theorem estopRelease_laws {d : Debt} (s : State) : s.Keeps d d (estopRelease s) :=
  (withoutStop_laws d s).trans (.post _ _)

theorem modLease_laws {d : Debt} (n : Station) (f : Lease → Lease) (s : State) :
    s.Keeps d d (modLease n f s) := by
  have set : s.Keeps d d (s.modStation n fun t => { t with lease := f t.lease }) := .modStation
  unfold modLease
  dsimp only
  split
  · exact set.trans (raise_laws d _)
  · exact set

theorem leaseExpire_laws {q : Option Port} (n : Station) (s : State) :
    s.Keeps (.only q) (.only q) (leaseExpire n s) := by
  have lapsed : s.Keeps (.only q) (.only q) (s.modStation n fun t => { t with lease := (s.station n).lease.lapse }) :=
    .modStation
  have told (u : State) : u.Keeps (.only q) (.only q)
      ((u.post (.sp n) (.leaseExpired n (s.station n).lease.action)).post .svp
        (.leaseExpired n (s.station n).lease.action)) :=
    (Keeps.post _ _).trans (.post _ _)
  have acted (u : State) : u.Keeps (.only q) (.only q)
      (match (s.station n).lease.action with
        | .abort => reach .leaseLost (fun j => j.station == n) u
        | .hold => u) := by
    split
    · exact reach_laws (by decide) _ u
    · exact .refl _ u
  unfold leaseExpire
  exact lapsed.trans ((told _).trans (acted _))

theorem setStation_laws {d : Debt} {n : Station} {t : StationSt} {s : State}
    (h : t.results = (s.station n).results := by exact rfl) : s.Keeps d d (s.setStation n t) :=
  Keeps.modStation (f := fun _ => t) h

theorem interlock_laws {q : Option Port} (n : Station) (i : Interlock) (level : Bool) (s : State) :
    s.Keeps (.only q) (.only q) (interlock n i level s) := by
  have shown (u : State) : u.Keeps (.only q) (.only q)
      (if (s.station n).marks.get i then u
        else u.post (.sp n) (.inputChanged ((s.station n).live.put i level))) := by
    split
    · exact .refl _ u
    · exact .post _ _
  have acted (u : State) : u.Keeps (.only q) (.only q)
      (if level then (if ((s.station n).live.put i level).allHigh then u.raise else u)
        else reach .interlock (fun j => j.station == n && j.isRunning) u) := by
    split
    · split
      · exact raise_laws _ u
      · exact .refl _ u
    · exact reach_laws (by decide) _ u
  have put : s.Keeps (.only q) (.only q) (s.setStation n { s.station n with
      live := (s.station n).live.put i level, marks := (s.station n).marks.put i true }) := setStation_laws
  unfold interlock
  exact put.trans ((shown _).trans (acted _))

/-! ## The line clock and the resets -/

theorem tick_laws {d : Debt} (s : State) : s.Keeps d d (tick s) := by
  refine (Alike.of_fields : s.Alike (tick s)).keeps d (fun _ c ok => ?_) fun c _ b => ?_
  all_goals rw [conv_tick]
  · exact ⟨ok.output, ok.drives, ok.served, ok.engine⟩
  · exact ⟨rfl, b⟩

end Sys2Proof.Machine
end

section
/-! PROOFS. The resets and the requests keep the laws. -/

namespace Sys2Proof.Machine

open State

/-! ## A machine without jobs -/

/-- No job is admitted, and nothing is counted, waits or is kept of one. -/
structure State.Bare (s : State) : Prop where
  jobs : ∀ k, s.job k = none
  committed : s.committed = 0
  profUse : ∀ p : Fin 64, s.profUse[p] = 0
  segUse : ∀ i : Fin 256, s.segUse[i] = 0
  admitted : ∀ n : Station, s.admitted[n] = 0
  results : ∀ n, (s.station n).results = []
  cands : s.cands = []
  scanSet : s.scanSet = []

theorem State.Bare.total {s : State} (h : s.Bare) (w : Job → Nat) : s.total w = 0 := by
  unfold State.total
  exact Finset.sum_eq_zero fun k _ => by rw [h.jobs]; rfl

theorem State.Bare.powerDebt {s : State} (h : s.Bare) : s.PowerDebt 0 := by
  rw [PowerDebt, h.committed, h.total]
  rfl

theorem State.Bare.useLaw {s : State} (h : s.Bare) : s.UseLaw :=
  useLaw_iff.2 ⟨fun p => by rw [h.profUse, h.total], fun i => by rw [h.segUse, h.total]⟩

theorem State.Bare.quotaLaw {s : State} (h : s.Bare) : s.QuotaLaw :=
  quotaLaw_iff.2 fun n => by
    rw [h.admitted, h.total, resultsHeld, h.results]
    decide

theorem State.Bare.no_job {s : State} (h : s.Bare) {k : SlotIx} {j : Job} : s.job k ≠ some j := by
  rw [h.jobs]
  nofun

theorem State.Bare.scanLaw {s : State} (h : s.Bare) : s.ScanLaw := by
  refine ⟨fun k m i j hi => (h.no_job hi).elim, fun x => ?_⟩
  rw [h.scanSet]
  refine ⟨(nomatch ·), ?_⟩
  rintro ⟨_, k, j, hj, _⟩
  exact (h.no_job hj).elim

theorem State.Bare.candLaw {s : State} (h : s.Bare) : s.CandLaw := by
  rw [CandLaw, h.cands]
  exact .nil

theorem State.Bare.outcomeDebt {s : State} (h : s.Bare) : s.OutcomeDebt none := fun _ _ _ hj => (h.no_job hj).elim

theorem State.Bare.linkLaw {s : State} (h : s.Bare) : s.LinkLaw := fun _ _ _ hj => (h.no_job hj).elim

/-- A machine without jobs keeps every law that is about jobs. -/
theorem State.Bare.keeps {s t : State} {p q : Option Port} (h : t.Bare) (output : s.OutputLaw → t.OutputLaw)
    (ports : s.PortDebt p → t.PortDebt q) : s.Keeps (.only p) (.only q) t :=
  ⟨output, fun _ => h.powerDebt, fun _ => h.useLaw, fun _ => h.quotaLaw, fun _ => h.scanLaw, ports,
    fun _ => h.candLaw, fun _ => h.outcomeDebt, fun _ => h.linkLaw⟩

/-- A converter that is OFF is in order. -/
theorem Converter.ok_reset (m : Mode) (now : Nat) (pins : PowerPins) : (Converter.reset now pins).Ok m :=
  ⟨nofun, nofun, fun h => absurd rfl h, fun h => h.elim nofun fun x => absurd rfl x⟩

theorem portDebt_reset {s : State} (h : ∀ p, s.port p = .reset) : s.PortDebt none := by
  refine ⟨fun p => ?_, fun p => ?_, fun p _ => ?_, nofun⟩ <;> rw [h]
  · decide
  · decide
  · exact ⟨fun _ => rfl, fun _ => rfl⟩

theorem job_of_slot_reset {s : State} {k : SlotIx} (h : s.slot k = .reset) : s.job k = none := by
  rw [State.job, h]
  rfl

theorem port_of_replicate {s : State} (h : s.ports = Vector.replicate 5 .reset) (p : Port) : s.port p = .reset := by
  rw [State.port, h]
  exact Vector.getElem_replicate _

theorem bare_of_tables {s : State} (slots : s.slots = Vector.replicate 48 .reset)
    (profUse : s.profUse = Vector.replicate 64 0) (segUse : s.segUse = Vector.replicate 256 0)
    (admitted : s.admitted = Vector.replicate 4 0) (committed : s.committed = 0) (cands : s.cands = [])
    (scanSet : s.scanSet = []) (results : ∀ n, (s.station n).results = []) : s.Bare where
  jobs k := job_of_slot_reset (by rw [State.slot, slots]; exact Vector.getElem_replicate _)
  committed := committed
  profUse p := by rw [profUse]; exact Vector.getElem_replicate _
  segUse i := by rw [segUse]; exact Vector.getElem_replicate _
  admitted n := by rw [admitted]; exact Vector.getElem_replicate _
  results := results
  cands := cands
  scanSet := scanSet

/-! ## Power-on and the pin reset -/

@[simp] theorem powerOnState_conv (s : State) (c : Conv) :
    (powerOnState s).conv c = Converter.reset s.now (s.conv c).pins := by
  simp [powerOnState, State.conv]

@[simp] theorem powerOnState_station (s : State) (n : Station) :
    (powerOnState s).station n = StationSt.reset (s.station n).live := by
  simp [powerOnState, State.station]

theorem powerOnState_bare (s : State) : (powerOnState s).Bare :=
  bare_of_tables rfl rfl rfl rfl rfl rfl rfl fun n => by rw [powerOnState_station]; rfl

theorem powerOn_laws (s : State) : s.Keeps (.only none) (.only none) (powerOnState s) :=
  (powerOnState_bare s).keeps
    (fun _ => outputLaw_iff.2 ⟨fun h => absurd rfl h, fun c => by
      rw [powerOnState_conv]; exact Converter.ok_reset _ _ _⟩)
    fun _ => portDebt_reset (port_of_replicate rfl)

theorem pinReset_laws (s : State) : s.Keeps (.only none) (.only none) (pinResetState s) := by
  have relays : (powerOnState s).Keeps (.only none) (.only none) (pinResetState s) := .fields
  exact (powerOn_laws s).trans relays

/-! ## Changes of the ports in their order -/

/-- Changes of ports, one after the other, leave everything but the ports. -/
theorem modPorts_only (f : Port → PortSt → PortSt) (l : List Port) (s : State) :
    ∃ v, l.foldl (fun s p => s.modPort p (f p)) s = { s with ports := v } := by
  induction l generalizing s with
  | nil => exact ⟨_, rfl⟩
  | cons p l ih =>
    obtain ⟨v, e⟩ := ih (s.modPort p (f p))
    exact ⟨v, e⟩

theorem modPorts_port (f : Port → PortSt → PortSt) {l : List Port} (nodup : l.Nodup) (s : State) (q : Port) :
    (l.foldl (fun s p => s.modPort p (f p)) s).port q = if q ∈ l then f q (s.port q) else s.port q := by
  induction l generalizing s with
  | nil => rfl
  | cons p l ih =>
    obtain ⟨fresh, nodup⟩ := List.nodup_cons.1 nodup
    rw [List.foldl_cons, ih nodup, port_modPort]
    by_cases h : p = q
    · subst h
      rw [if_neg fresh, if_pos rfl, if_pos (List.mem_cons_self ..)]
    · rw [if_neg h]
      simp only [List.mem_cons, Ne.symm h, false_or]

theorem mem_allPorts (p : Port) : p ∈ allPorts := by
  cases p with
  | svp => decide
  | sp n => revert n; decide

theorem nodup_allPorts : allPorts.Nodup := by decide

theorem postAll_eq (b : NoticeBody) (s : State) :
    s.postAll b = allPorts.foldl (fun u p => u.modPort p (·.post ⟨s.lineClock, b⟩)) s := by
  have posts (l : List Port) (u : State) (clock : u.lineClock = s.lineClock) :
      l.foldl (fun u p => u.post p b) u = l.foldl (fun u p => u.modPort p (·.post ⟨s.lineClock, b⟩)) u := by
    induction l generalizing u with
    | nil => rfl
    | cons p l ih =>
      rw [List.foldl_cons, List.foldl_cons, State.post, clock]
      exact ih _ clock
  exact posts allPorts s rfl

theorem postAll_only (b : NoticeBody) (s : State) : ∃ v, s.postAll b = { s with ports := v } := by
  rw [postAll_eq]
  exact modPorts_only _ _ _

@[simp] theorem postAll_port (b : NoticeBody) (s : State) (p : Port) :
    (s.postAll b).port p = (s.port p).post ⟨s.lineClock, b⟩ := by
  rw [postAll_eq, modPorts_port (fun _ t => t.post ⟨s.lineClock, b⟩) nodup_allPorts, if_pos (mem_allPorts p)]

/-! ## LINE-RESET -/

/-- The part of a LINE-RESET that is about jobs (R198). -/
def State.withoutJobs (s : State) : State :=
  { s with
    slots := s.slots.map Slot.lineReset, segUse := Vector.replicate 256 0,
    profUse := Vector.replicate 64 0, admitted := Vector.replicate 4 0, cands := [], committed := 0,
    scanSet := [], passList := [], conversion := none }

/-- The part of a LINE-RESET that is about the stations and the reset record (R198). -/
def State.withFreshStations (s : State) : State :=
  { s with
    stations := s.stations.map (StationSt.lineReset · s.now), resetKind := .lineReset, resetTime := s.lineClock }

/-- LINE-RESET after its entry into STANDBY (R198). -/
def State.lineCleared (s : State) : State :=
  { (portsLineReset s.withoutJobs).withFreshStations.postAll (.modeChanged .standby .lineReset) with
    arbCause := false }

theorem lineResetState_eq (s : State) : lineResetState s = (standby s).lineCleared := rfl

theorem portsLineReset_only (s : State) : ∃ v, portsLineReset s = { s with ports := v } :=
  modPorts_only (fun p t => t.lineReset (p == .svp || t.reply.isSome)) _ _

theorem portsLineReset_port (s : State) (p : Port) :
    (portsLineReset s).port p = (s.port p).lineReset (p == .svp || (s.port p).reply.isSome) := by
  rw [portsLineReset, modPorts_port (fun p t => t.lineReset (p == .svp || t.reply.isSome)) nodup_allPorts,
    if_pos (mem_allPorts p)]

theorem lineCleared_only (s : State) : ∃ v, s.lineCleared =
    { s.withoutJobs.withFreshStations with arbCause := false, ports := v } := by
  obtain ⟨v, e⟩ := portsLineReset_only s.withoutJobs
  rw [lineCleared, e]
  obtain ⟨v', e'⟩ := postAll_only (.modeChanged .standby .lineReset)
    (State.withFreshStations { s.withoutJobs with ports := v })
  rw [e']
  exact ⟨v', rfl⟩

theorem port_withCause (s : State) (b : Bool) (p : Port) : ({ s with arbCause := b } : State).port p = s.port p := rfl

theorem lineCleared_port (s : State) (p : Port) :
    s.lineCleared.port p = ((s.port p).lineReset (p == .svp || (s.port p).reply.isSome)).post
      ⟨s.lineClock, .modeChanged .standby .lineReset⟩ := by
  have posted := postAll_port (.modeChanged .standby .lineReset) (portsLineReset s.withoutJobs).withFreshStations p
  have clock : (portsLineReset s.withoutJobs).withFreshStations.lineClock = s.lineClock := by
    obtain ⟨v, e⟩ := portsLineReset_only s.withoutJobs
    rw [e]
    rfl
  have ports : (portsLineReset s.withoutJobs).withFreshStations.port p =
      (s.port p).lineReset (p == .svp || (s.port p).reply.isSome) :=
    portsLineReset_port _ p
  exact (port_withCause _ false p).trans <| posted.trans
    (congrArg₂ (fun t clock => PortSt.post t ⟨clock, .modeChanged .standby .lineReset⟩) ports clock)

@[simp] theorem lineCleared_slot (s : State) (k : SlotIx) : s.lineCleared.slot k = (s.slot k).lineReset := by
  obtain ⟨v, e⟩ := lineCleared_only s
  have slots : s.lineCleared.slots = s.slots.map Slot.lineReset := congrArg State.slots e
  simp [State.slot, slots]

@[simp] theorem lineCleared_station (s : State) (n : Station) :
    s.lineCleared.station n = (s.station n).lineReset s.now := by
  obtain ⟨v, e⟩ := lineCleared_only s
  have stations : s.lineCleared.stations = s.stations.map (StationSt.lineReset · s.now) := congrArg State.stations e
  simp [State.station, stations]

theorem lineCleared_job (s : State) (k : SlotIx) : s.lineCleared.job k = none := by
  rw [State.job, lineCleared_slot, Slot.lineReset]
  split
  · rfl
  · next h => simpa using h

theorem lineCleared_bare (s : State) : s.lineCleared.Bare := by
  obtain ⟨v, e⟩ := lineCleared_only s
  have profUse : s.lineCleared.profUse = Vector.replicate 64 0 := congrArg State.profUse e
  have segUse : s.lineCleared.segUse = Vector.replicate 256 0 := congrArg State.segUse e
  have admitted : s.lineCleared.admitted = Vector.replicate 4 0 := congrArg State.admitted e
  exact {
    jobs := lineCleared_job s
    committed := congrArg State.committed e
    profUse := fun _ => by rw [profUse]; exact Vector.getElem_replicate _
    segUse := fun _ => by rw [segUse]; exact Vector.getElem_replicate _
    admitted := fun _ => by rw [admitted]; exact Vector.getElem_replicate _
    results := fun n => by rw [lineCleared_station]; rfl
    cands := congrArg State.cands e
    scanSet := congrArg State.scanSet e }

/-- The request that a port answers keeps its place at a LINE-RESET, and no other keeps one (R188). -/
theorem PortSt.lineReset_links (t : PortSt) (answering : Bool) (n : Notice) :
    ((t.lineReset answering).post n).holding = (if answering then t.holding.take 1 else []) ∧
      ((t.lineReset answering).post n).reply = t.reply ∧ ((t.lineReset answering).post n).notices = [n] :=
  ⟨rfl, rfl, rfl⟩

theorem lineCleared_ports {s : State} (same : s.PortDebt (some .svp)) : s.lineCleared.PortDebt (some .svp) := by
  refine ⟨fun p => ?_, fun p => ?_, fun p hp => ?_, fun p hp => ?_⟩ <;>
    rw [lineCleared_port] <;>
    obtain ⟨holding, reply, notices⟩ := PortSt.lineReset_links (s.port p)
      (p == .svp || (s.port p).reply.isSome) ⟨s.lineClock, .modeChanged .standby .lineReset⟩
  · rw [notices, List.length_singleton]
    decide
  · rw [holding]
    split
    · rw [List.length_take]
      exact Nat.le_trans (Nat.min_le_left _ _) (by decide)
    · decide
  · have other : (p == .svp) = false := beq_eq_false_iff_ne.2 fun e => hp (e ▸ rfl)
    rw [holding, reply, other, Bool.false_or]
    cases e : (s.port p).reply with
    | none => exact ⟨fun _ => rfl, fun _ => rfl⟩
    | some r =>
      refine ⟨nofun, fun h => ?_⟩
      rw [Option.isSome_some, if_pos rfl, List.take_eq_nil_iff] at h
      rw [← (same.reply p hp).2 (h.resolve_left nofun), e]
  · obtain rfl := Option.some.inj hp
    rw [holding, beq_self_eq_true, Bool.true_or, if_pos rfl, Ne, List.take_eq_nil_iff]
    exact fun h => h.elim nofun (same.taken _ rfl)

theorem lineReset_laws (s : State) : s.Keeps (.only (some .svp)) (.only (some .svp)) (lineResetState s) := by
  rw [lineResetState_eq]
  refine (setStandby_laws _ s).trans ((lineCleared_bare _).keeps (fun law => ?_) lineCleared_ports)
  generalize standby s = u at law ⊢
  obtain ⟨v, e⟩ := lineCleared_only u
  rw [e]
  obtain ⟨stop, convs⟩ := outputLaw_iff.1 law
  exact outputLaw_iff.2 ⟨stop, convs⟩

end Sys2Proof.Machine
end

section
/-! PROOFS. The requests keep the laws, with the reply at their port still owed. -/

namespace Sys2Proof.Machine

open State

/-! ## The checks -/

theorem onStation_laws {d : Debt} {p : Port} {s : State} {f : Station → State × Answer}
    (h : ∀ n, s.Keeps d d (f n).1) : s.Keeps d d (onStation p s f).1 := by
  cases p with
  | sp n => exact h n
  | svp => exact .refl d s

theorem onSupervisor_laws {d : Debt} {p : Port} {s : State} {r : State × Answer}
    (h : p = .svp → s.Keeps d d r.1) : s.Keeps d d (onSupervisor p s r).1 := by
  cases p with
  | sp n => exact .refl d s
  | svp => exact h rfl

theorem withField_laws {α : Type} {d : Debt} {x : Option α} {s : State} {f : α → State × Answer}
    (h : ∀ a, s.Keeps d d (f a).1) : s.Keeps d d (withField x s f).1 := by
  cases x with
  | none => exact .refl d s
  | some a => exact h a

/-! ## The members of a gang -/

theorem mem_freeSlots {s : State} {k : SlotIx} : k ∈ s.freeSlots ↔ s.job k = none := by
  unfold freeSlots allSlots
  rw [List.mem_filter, Option.isNone_iff_eq_none]
  exact ⟨And.right, fun h => ⟨List.mem_finRange k, h⟩⟩

theorem nodup_freeSlots (s : State) : s.freeSlots.Nodup := (List.nodup_finRange 48).filter _

theorem newJob_admitAt (n m : Station) (x y : JobDesc) (g g' : Option GangTag) (k : SlotIx) (s : State) :
    (admitAt n x g k s).newJob m y g' = s.newJob m y g' := rfl

/-- The slots that a gang does not take stand. -/
theorem admitMembers_slot_of_notMem (n : Station) (id : Handle) {m : SlotIx} :
    ∀ (l : List (JobDesc × SlotIx)) (i : Nat) (s : State), m ∉ l.map Prod.snd →
      (admitMembers n id i l s).slot m = s.slot m
  | [], _, _, _ => rfl
  | (d, k) :: l, i, s, h => by
    obtain ⟨ne, rest⟩ := not_or.1 (List.mem_cons.not.1 h)
    rw [admitMembers, admitMembers_slot_of_notMem n id l _ _ rest]
    exact slot_setSlot_ne s (Ne.symm ne) _

/-- Member `i` of a gang takes its slot with its description (R66). -/
theorem admitMembers_slot (n : Station) (id : Handle) {d : JobDesc} {m : SlotIx} :
    ∀ (l : List (JobDesc × SlotIx)) (i p : Nat) (s : State), (l.map Prod.snd).Nodup → l[p]? = some (d, m) →
      (admitMembers n id i l s).slot m = ⟨(s.slot m).gen, some (s.newJob n d (some ⟨id, Fin.ofNat 4 (i + p)⟩))⟩
  | (e, k) :: l, i, 0, s, nodup, h => by
    obtain ⟨rfl, rfl⟩ := Prod.mk.inj (Option.some.inj h)
    rw [admitMembers, admitMembers_slot_of_notMem n id l _ _ (List.nodup_cons.1 nodup).1]
    exact slot_setSlot_self s k _
  | (e, k) :: l, i, p + 1, s, nodup, h => by
    obtain ⟨fresh, nodup⟩ := List.nodup_cons.1 nodup
    have ne : k ≠ m := by
      rintro rfl
      exact fresh (List.mem_map.2 ⟨(d, k), List.mem_of_getElem? h, rfl⟩)
    rw [admitMembers, admitMembers_slot n id l _ p _ nodup h, newJob_admitAt, admitAt_gen]
    rw [Nat.add_right_comm i 1 p, Nat.add_assoc i p 1]

theorem admitMembers_admitted (n : Station) (id : Handle) : ∀ (l : List (JobDesc × SlotIx)) (i : Nat) (s : State),
    (admitMembers n id i l s).admitted[n] = s.admitted[n] + l.length
  | [], _, _ => rfl
  | (d, k) :: l, i, s => by
    rw [admitMembers, admitMembers_admitted n id l, admitAt_admitted, if_pos rfl, List.length_cons]
    omega

/-- A gang joins a station that has room for all its members (R65, R66). -/
theorem admitMembers_laws (d : Debt) {n : Station} {id : Handle} :
    ∀ (l : List (JobDesc × SlotIx)) (i : Nat) (s : State), (l.map Prod.snd).Nodup → (∀ x ∈ l, s.job x.2 = none) →
      s.admitted[n] + l.length ≤ Config.stationJobLimit →
      s.admitted[n] + s.resultsHeld n + l.length ≤ Config.resultPlaces → s.Keeps d d (admitMembers n id i l s)
  | [], _, s, _, _, _, _ => .refl d s
  | (x, k) :: l, i, s, nodup, free, jobs, places => by
    obtain ⟨fresh, nodup⟩ := List.nodup_cons.1 nodup
    rw [List.length_cons] at jobs places
    have held : (admitAt n x (some ⟨id, Fin.ofNat 4 i⟩) k s).resultsHeld n = s.resultsHeld n := rfl
    have count : (admitAt n x (some ⟨id, Fin.ofNat 4 i⟩) k s).admitted[n] = s.admitted[n] + 1 := by
      rw [admitAt_admitted, if_pos rfl]
    have here : s.job k = none := free (x, k) (List.mem_cons_self ..)
    refine (admitAt_laws d here (by omega) (by omega)).trans
      (admitMembers_laws d l (i + 1) _ nodup (fun y hy => ?_) (by omega) (by omega))
    have ne : k ≠ y.2 := by
      rintro rfl
      exact fresh (List.mem_map.2 ⟨y, hy, rfl⟩)
    rw [admitAt_job, if_neg ne]
    exact free y (List.mem_cons_of_mem _ hy)

theorem hasQuota_iff {s : State} {n : Station} {m : Nat} : s.hasQuota n m = true ↔
    s.admitted[n] + m ≤ Config.stationJobLimit ∧ s.admitted[n] + s.resultsHeld n + m ≤ Config.resultPlaces := by
  rw [hasQuota, Bool.and_eq_true_iff, decide_eq_true_iff, decide_eq_true_iff]

/-- The members of a gang are in PENDING. -/
theorem admitMembers_pending {n : Station} {id : Handle} {l : List (JobDesc × SlotIx)} {s : State}
    (nodup : (l.map Prod.snd).Nodup) {m : SlotIx} (h : m ∈ l.map Prod.snd) :
    (admitMembers n id 0 l s).jobIs m (·.state == .pending) = true := by
  obtain ⟨⟨d, _⟩, hx, rfl⟩ := List.mem_map.1 h
  obtain ⟨p, hp⟩ := List.getElem?_of_mem hx
  have slot := admitMembers_slot n id l 0 p s nodup hp
  exact jobIs_iff.2 ⟨_, by rw [State.job, slot], rfl⟩

/-! ## The requests of a station -/

section
variable {q : Option Port}

theorem reqSubmit_laws {d : Debt} (p : Port) (b : List Byte) (s : State) : s.Keeps d d (reqSubmit p b s).1 := by
  refine onStation_laws fun n => withField_laws fun x => ?_
  split
  iterate 3
    · exact .refl d s
    split
  · exact .refl d s
  · next quota =>
    obtain ⟨jobs, places⟩ := hasQuota_iff.1 (by simpa using quota)
    split
    · exact .refl d s
    · next k l free =>
      have admits : s.Keeps d d (admitAt n x none k s) :=
        admitAt_laws d (mem_freeSlots.1 (by rw [free]; exact List.mem_cons_self ..)) jobs places
      dsimp only [accept]
      split
      · refine admits.trans (enterReady_laws d fun m hm => ?_).1
        obtain rfl := List.mem_singleton.1 hm
        exact jobIs_iff.2 ⟨_, by rw [admitAt_job, if_pos rfl], rfl⟩
      · exact admits

theorem reqSubmitGang_laws {d : Debt} (p : Port) (b : List Byte) (s : State) :
    s.Keeps d d (reqSubmitGang p b s).1 := by
  refine onStation_laws fun n => ?_
  split
  · exact .refl d s
  next ds _ =>
  split
  · exact .refl d s
  split
  · exact .refl d s
  split
  · exact .refl d s
  split
  · exact .refl d s
  next quota =>
  obtain ⟨jobs, places⟩ := hasQuota_iff.1 (by simpa using quota)
  split
  · exact .refl d s
  next k ks slots =>
  split
  · exact .refl d s
  next many =>
  have short : (k :: ks).length ≤ ds.length := by
    rw [← slots, List.length_take]
    exact Nat.min_le_left _ _
  have names : (ds.zip (k :: ks)).map Prod.snd = k :: ks := List.map_snd_zip short
  have size : (ds.zip (k :: ks)).length = ds.length := by
    rw [List.length_zip]
    rw [List.length_cons] at short ⊢
    omega
  have nodup : ((ds.zip (k :: ks)).map Prod.snd).Nodup := by
    rw [names, ← slots]
    exact (nodup_freeSlots s).sublist (List.take_sublist _ _)
  have admits : s.Keeps d d (admitMembers n (s.handleOf k) 0 (ds.zip (k :: ks)) s) := by
    refine admitMembers_laws d _ 0 s nodup (fun x hx => ?_) (size ▸ jobs) (size ▸ places)
    have mem : x.2 ∈ (ds.zip (k :: ks)).map Prod.snd := List.mem_map_of_mem hx
    rw [names, ← slots] at mem
    exact mem_freeSlots.1 (List.mem_of_mem_take mem)
  dsimp only [accept]
  split
  · refine admits.trans (enterReady_laws d fun m hm => admitMembers_pending nodup ?_).1
    rw [names]
    exact hm
  · exact admits

theorem reqGo_laws {d : Debt} (p : Port) (b : List Byte) (s : State) : s.Keeps d d (reqGo p b s).1 := by
  refine onStation_laws fun n => withField_laws fun tag => ?_
  dsimp only [accept]
  exact fireTrigger_laws d _ s

theorem cancelJobs_laws (k : SlotIx) (s : State) : s.Keeps (.only q) (.only q) (cancelJobs k s) := by
  refine (foldGiven_laws (by decide) _ s).trans (.folds (fun u m => ?_) _ _)
  split
  · next cooling => exact endJob_laws_of_jobIs cooling fun j hj => .inr (.inr (beq_iff_eq.1 hj))
  · exact abortPath_laws q m u

theorem reqCancel_laws (p : Port) (b : List Byte) (s : State) : s.Keeps (.only q) (.only q) (reqCancel p b s).1 := by
  refine onStation_laws fun n => withField_laws fun h => ?_
  split
  · exact .refl _ s
  · split
    · exact .refl _ s
    · exact cancelJobs_laws h.slot s

theorem reqReadJob_laws {d : Debt} (p : Port) (b : List Byte) (s : State) : s.Keeps d d (reqReadJob p b s).1 := by
  refine withField_laws fun h => ?_
  split
  · exact .refl d s
  · split <;> exact .refl d s

theorem reqTakeNotices_laws {d : Debt} (p : Port) (b : List Byte) (s : State) :
    s.Keeps d d (reqTakeNotices p b s).1 := by
  refine withField_laws fun n => ?_
  dsimp only [accept]
  refine .modPort ⟨rfl, rfl⟩ fun fit => ?_
  rw [List.length_drop]
  omega

/-- Results leave the queue of a station (R176). -/
theorem takeResults_laws {d : Debt} (n : Station) (m : Nat) (s : State) :
    s.Keeps d d (s.modStation n fun t => { t with results := (s.station n).results.drop m }) where
  output law := ⟨law.stop, law.output, law.drives, law.served, law.engine⟩
  power law := law.congr rfl fun _ => rfl
  uses law := ⟨law.profiles, law.segments⟩
  quota law := by
    refine ⟨law.counted, law.jobs, fun k => ?_⟩
    have fewer : (s.modStation n fun t => { t with results := (s.station n).results.drop m }).resultsHeld k ≤
        s.resultsHeld k := by
      rw [resultsHeld, resultsHeld, station_modStation]
      split
      · next same =>
        subst same
        rw [List.length_drop]
        omega
      · exact Nat.le_refl _
    exact Nat.le_trans (Nat.add_le_add_left fewer _) (law.places k)
  scan law := ⟨law.heads, law.scan⟩
  ports law := ⟨law.notices, law.holding, law.reply, law.taken⟩
  cands := id
  outcome := id
  link := id

theorem reqTakeResults_laws {d : Debt} (p : Port) (b : List Byte) (s : State) :
    s.Keeps d d (reqTakeResults p b s).1 :=
  onStation_laws fun n => withField_laws fun m => takeResults_laws n m s

theorem reqReadInputs_laws {d : Debt} (p : Port) (b : List Byte) (s : State) :
    s.Keeps d d (reqReadInputs p b s).1 := by
  refine onStation_laws fun n => withField_laws fun _ => ?_
  dsimp only [accept]
  exact .modStation

theorem reqRenew_laws {d : Debt} (p : Port) (b : List Byte) (s : State) : s.Keeps d d (reqRenew p b s).1 :=
  onStation_laws fun _ => withField_laws fun _ => .refl d s

theorem reqStationStatus_laws {d : Debt} (p : Port) (b : List Byte) (s : State) :
    s.Keeps d d (reqStationStatus p b s).1 :=
  onStation_laws fun _ => withField_laws fun _ => .modPort ⟨rfl, rfl⟩ id

/-! ## The requests of the supervisor -/

theorem reqSetMode_laws (p : Port) (b : List Byte) (s : State) :
    s.Keeps (.only q) (.only q) (reqSetMode p b s).1 := by
  refine onSupervisor_laws fun _ => withField_laws fun m => ?_
  split
  · exact .refl _ s
  · next stop =>
    dsimp only [accept]
    split
    · exact .refl _ s
    · exact changeMode_laws fun hm => Bool.eq_false_iff.2 fun e => stop ⟨hm, e⟩

theorem reqSetBudget_laws {d : Debt} (p : Port) (b : List Byte) (s : State) : s.Keeps d d (reqSetBudget p b s).1 :=
  onSupervisor_laws fun _ => withField_laws fun _ => .fields

theorem reqAbortStation_laws (p : Port) (b : List Byte) (s : State) :
    s.Keeps (.only q) (.only q) (reqAbortStation p b s).1 := by
  refine onSupervisor_laws fun _ => withField_laws fun n => ?_
  dsimp only [accept]
  exact reach_laws (by decide) _ s

theorem reqLineReset_laws (p : Port) (b : List Byte) (s : State) :
    s.Keeps (.only (some p)) (.only (some p)) (reqLineReset p b s).1 :=
  onSupervisor_laws fun svp => withField_laws fun _ => svp ▸ lineReset_laws s

theorem reqLineStatus_laws {d : Debt} (p : Port) (b : List Byte) (s : State) :
    s.Keeps d d (reqLineStatus p b s).1 :=
  onSupervisor_laws fun _ => withField_laws fun _ => .modPort ⟨rfl, rfl⟩ id

theorem writeSegments_laws {d : Debt} (first count : Nat) (recs : List (Option Segment)) (s : State) :
    s.Keeps d d (writeSegments first count recs s).1 := by
  unfold writeSegments
  split
  · exact .refl d s
  split
  · exact .refl d s
  split
  · exact .refl d s
  · exact .fields

theorem reqWriteSegments_laws {d : Debt} (p : Port) (b : List Byte) (s : State) :
    s.Keeps d d (reqWriteSegments p b s).1 := by
  refine onSupervisor_laws fun _ => ?_
  split
  · split
    · exact .refl d s
    split
    · exact .refl d s
    · exact writeSegments_laws _ _ _ s
  · exact .refl d s
  · exact .refl d s

/-- A profile that no admitted job names is written without a change of the uses (R10, R13). -/
theorem setProf_laws {d : Debt} {p : Fin 64} {r : Profile} {s : State} (unused : s.profUse[p] = 0) :
    s.Keeps d d (s.setProf p r) where
  output law := ⟨law.stop, law.output, law.drives, law.served, law.engine⟩
  power law := law.congr rfl fun _ => rfl
  uses law := by
    rw [useLaw_iff] at law ⊢
    refine ⟨fun x => (law.1 x).trans (total_congr (s := s) (t := s.setProf p r) fun _ => rfl).symm, fun i => (law.2 i).trans ?_⟩
    refine (total_congr fun k => ?_).symm
    rw [setProf_job]
    cases hj : s.job k with
    | none => rfl
    | some j =>
      have other : p ≠ j.profile := by
        rintro rfl
        have counted := le_total hj (Job.countFor fun i => i.profile == j.profile)
        rw [← law.1, unused, Job.countFor, beq_self_eq_true, if_pos rfl] at counted
        omega
      rw [Option.elim_some, Option.elim_some, usesBy, usesBy, prof_setProf, if_neg other]
  quota law := ⟨law.counted, law.jobs, law.places⟩
  scan law := ⟨law.heads, law.scan⟩
  ports law := ⟨law.notices, law.holding, law.reply, law.taken⟩
  cands := id
  outcome := id
  link := id

theorem reqWriteProfile_laws {d : Debt} (p : Port) (b : List Byte) (s : State) :
    s.Keeps d d (reqWriteProfile p b s).1 := by
  refine onSupervisor_laws fun _ => withField_laws fun x => ?_
  split
  · exact .refl d s
  · next unused =>
    split
    · exact .refl d s
    · exact setProf_laws (Nat.eq_zero_of_not_pos unused)

theorem reqClearProfile_laws {d : Debt} (p : Port) (b : List Byte) (s : State) :
    s.Keeps d d (reqClearProfile p b s).1 := by
  refine onSupervisor_laws fun _ => withField_laws fun x => ?_
  split
  · exact .refl d s
  · next unused => exact setProf_laws (Nat.eq_zero_of_not_pos unused)

/-- A head that no admitted job names may change: no job on it is scanned (R20, R132). -/
theorem setHead_laws {d : Debt} {h : Head} {r : HeadRec} {s : State} (unused : s.headAdmitted h = false) :
    s.Keeps d d (s.setHead h r) where
  output law := ⟨law.stop, law.output, law.drives, law.served, law.engine⟩
  power law := law.congr rfl fun _ => rfl
  uses law := ⟨law.profiles, law.segments⟩
  quota law := ⟨law.counted, law.jobs, law.places⟩
  scan law := by
    refine ⟨law.heads, fun x => (law.scan x).trans ?_⟩
    rw [head_setHead]
    split
    · next same =>
      subst same
      refine ⟨?_, ?_⟩ <;>
      · rintro ⟨-, k, j, hj, named, -⟩
        have found : s.jobIs k (·.head == h) = true := jobIs_iff.2 ⟨j, hj, beq_iff_eq.2 named⟩
        exact absurd (List.any_eq_true.2 ⟨k, List.mem_finRange k, found⟩) (Bool.eq_false_iff.1 unused)
    · exact Iff.rfl
  ports law := ⟨law.notices, law.holding, law.reply, law.taken⟩
  cands := id
  outcome := id
  link := id

theorem reqWriteHead_laws {d : Debt} (p : Port) (b : List Byte) (s : State) :
    s.Keeps d d (reqWriteHead p b s).1 := by
  refine onSupervisor_laws fun _ => withField_laws fun x => ?_
  split
  · exact .refl d s
  · next unused => exact setHead_laws (Bool.eq_false_iff.2 unused)

theorem reqForgetLearned_laws {d : Debt} (p : Port) (b : List Byte) (s : State) :
    s.Keeps d d (reqForgetLearned p b s).1 := by
  refine onSupervisor_laws fun _ => withField_laws fun h => .fields (heads := fun x => ?_)
  dsimp only [accept]
  rw [head_setHead]
  split
  · next same => rw [same]
  · rfl

theorem reqReadTable_laws {d : Debt} (p : Port) (b : List Byte) (s : State) : s.Keeps d d (reqReadTable p b s).1 :=
  onSupervisor_laws fun _ => withField_laws fun _ => .refl d s

theorem disableConv_laws {d : Debt} (c : Conv) (s : State) : s.Keeps d d (disableConv c s) := by
  unfold disableConv
  split
  iterate 2 next state => exact enterOff_laws (Converter.Rests.of_state (by simp [state]))
  iterate 6 exact pendOff_laws d c s
  iterate 2 exact .refl d s

theorem setEnabled_laws {d : Debt} (c : Conv) (on : Bool) (s : State) : s.Keeps d d (setEnabled c on s) := by
  have flagged : s.Keeps d d (s.modConv c fun v => { v with enabled := on }) := .modConv_plain
  unfold setEnabled
  refine flagged.trans ?_
  dsimp only
  split
  · split
    · next off =>
      obtain ⟨state, _⟩ := off
      exact enterWarmup_laws (Converter.Rests.of_state (by rw [state]; decide))
    · exact .refl d _
  · exact disableConv_laws c _

theorem reqConverterEnable_laws {d : Debt} (p : Port) (b : List Byte) (s : State) :
    s.Keeps d d (reqConverterEnable p b s).1 := by
  refine onSupervisor_laws fun _ => withField_laws fun x => ?_
  dsimp only [accept]
  split
  · exact .refl d s
  · exact setEnabled_laws _ _ s

theorem reqConverterHold_laws {d : Debt} (p : Port) (b : List Byte) (s : State) :
    s.Keeps d d (reqConverterHold p b s).1 := by
  refine onSupervisor_laws fun _ => withField_laws fun c => ?_
  split
  · exact .refl d s
  · dsimp only [accept]
    split
    · next idle => exact enterHeld_laws (Converter.Rests.of_state (by simp [idle]))
    · exact .modConv_plain

theorem reqConverterRelease_laws {d : Debt} (p : Port) (b : List Byte) (s : State) :
    s.Keeps d d (reqConverterRelease p b s).1 := by
  refine onSupervisor_laws fun _ => withField_laws fun c => ?_
  split
  · next held =>
    split
    · exact .refl d s
    · exact enterIdle_laws (Converter.Rests.of_state (by simp [held]))
  · split
    · dsimp only [accept]
      exact .modConv_plain
    · exact .refl d s

theorem reqConverterClear_laws {d : Debt} (p : Port) (b : List Byte) (s : State) :
    s.Keeps d d (reqConverterClear p b s).1 := by
  refine onSupervisor_laws fun _ => withField_laws fun c => ?_
  split
  · exact .refl d s
  · next faulted =>
    split
    · exact .refl d s
    · have cleared : s.Keeps d d (s.modConv c fun v => { v with cause := .none }) := .modConv_plain
      refine cleared.trans (enterOff_laws ?_)
      rw [conv_modConv_self]
      exact Converter.Rests.of_state (by simp [not_not.1 faulted])

theorem reqSetDischarge_laws {d : Debt} (p : Port) (b : List Byte) (s : State) :
    s.Keeps d d (reqSetDischarge p b s).1 := by
  refine onSupervisor_laws fun _ => withField_laws fun x => ?_
  have stored : s.Keeps d d (s.modConv x.1 fun v => { v with interval := x.2 }) := .modConv_plain
  refine stored.trans ?_
  dsimp only [accept]
  split
  · exact .refl d _
  · exact matrixTry_laws d _ _

theorem reqSetLease_laws {d : Debt} (p : Port) (b : List Byte) (s : State) : s.Keeps d d (reqSetLease p b s).1 := by
  refine onSupervisor_laws fun _ => withField_laws fun x => ?_
  dsimp only [accept]
  exact modLease_laws _ _ s

theorem reqSetGuardDwell_laws {d : Debt} (p : Port) (b : List Byte) (s : State) :
    s.Keeps d d (reqSetGuardDwell p b s).1 :=
  onSupervisor_laws fun _ => withField_laws fun _ => .fields

end

/-- Carrying out a request keeps the laws while its port owes the reply (R168). -/
theorem carryOut_laws (p : Port) (kind : Byte) (b : List Byte) (s : State) :
    s.Keeps (.only (some p)) (.only (some p)) (carryOut p kind b s).1 := by
  unfold carryOut
  split
  · exact .refl _ s
  · exact reqSubmit_laws p b s
  · exact reqSubmitGang_laws p b s
  · exact reqGo_laws p b s
  · exact reqCancel_laws p b s
  · exact reqReadJob_laws p b s
  · exact reqTakeNotices_laws p b s
  · exact reqTakeResults_laws p b s
  · exact reqReadInputs_laws p b s
  · exact reqRenew_laws p b s
  · exact reqStationStatus_laws p b s
  · exact reqSetMode_laws p b s
  · exact reqSetBudget_laws p b s
  · exact reqWriteSegments_laws p b s
  · exact reqWriteProfile_laws p b s
  · exact reqClearProfile_laws p b s
  · exact reqWriteHead_laws p b s
  · exact reqForgetLearned_laws p b s
  · exact reqReadTable_laws p b s
  · exact reqConverterEnable_laws p b s
  · exact reqConverterHold_laws p b s
  · exact reqConverterRelease_laws p b s
  · exact reqConverterClear_laws p b s
  · exact reqSetDischarge_laws p b s
  · exact reqSetLease_laws p b s
  · exact reqSetGuardDwell_laws p b s
  · exact reqAbortStation_laws p b s
  · exact reqLineReset_laws p b s
  · exact reqLineStatus_laws p b s

end Sys2Proof.Machine
end

section
/-! PROOFS. The ports and the events keep the laws, and so does every step (O54 to O60). -/

namespace Sys2Proof.Machine

open State

/-! ## Taking a request -/

theorem renewAt_laws {d : Debt} (p : Port) (s : State) : s.Keeps d d (renewAt p s) := by
  cases p with
  | sp n =>
    unfold renewAt renewLease
    exact modLease_laws n _ s
  | svp => exact .refl d s

/-- A change of the link of one port opens or closes the debt of its reply. -/
theorem modPort_laws {p : Port} {x y : Option Port} {f : PortSt → PortSt} {s : State}
    (ports : s.PortDebt x → (s.modPort p f).PortDebt y) : s.Keeps (.only x) (.only y) (s.modPort p f) where
  output law := ⟨law.stop, law.output, law.drives, law.served, law.engine⟩
  power law := law.congr rfl fun _ => rfl
  uses law := ⟨law.profiles, law.segments⟩
  quota law := ⟨law.counted, law.jobs, law.places⟩
  scan law := ⟨law.heads, law.scan⟩
  ports := ports
  cands := id
  outcome := id
  link := id

/-- The law of the ports where the debt is at one port, port by port. -/
structure PortSt.Linked (owes : Prop) (t : PortSt) : Prop where
  notices : t.notices.length ≤ Config.noticePlaces
  holding : t.holding.length ≤ Config.holdingPlaces
  reply : ¬ owes → (t.reply = none ↔ t.holding = [])
  taken : owes → t.holding ≠ []

theorem portDebt_iff {x : Option Port} {s : State} :
    s.PortDebt x ↔ ∀ p, (s.port p).Linked (x = some p) :=
  ⟨fun h p => ⟨h.notices p, h.holding p, h.reply p, h.taken p⟩,
    fun h => ⟨fun p => (h p).notices, fun p => (h p).holding, fun p => (h p).reply, fun p => (h p).taken⟩⟩

/-- A change at one port leaves the law of the others, and meets its own. -/
theorem modPort_portDebt {p : Port} {x y : Option Port} {f : PortSt → PortSt} {s : State}
    (others : ∀ q, q ≠ p → (x = some q ↔ y = some q))
    (own : (s.port p).Linked (x = some p) → (f (s.port p)).Linked (y = some p)) (law : s.PortDebt x) :
    (s.modPort p f).PortDebt y := by
  rw [portDebt_iff] at law ⊢
  intro q
  rw [port_modPort]
  split
  · next same => subst same; exact own (law p)
  · next ne => rw [← others q (Ne.symm ne)]; exact law q

theorem only_other {p q : Port} (h : q ≠ p) : (none : Option Port) = some q ↔ some p = some q :=
  ⟨nofun, fun e => absurd (Option.some.inj e).symm h⟩

/-- A request that enters an empty holding opens the debt of its reply. -/
theorem holdFirst_laws (p : Port) (r : Request) (s : State) :
    s.Keeps (.only none) (.only (some p)) (s.modPort p fun t => { t with holding := [r] }) :=
  modPort_laws (modPort_portDebt (fun _ h => only_other h) fun law =>
    ⟨law.notices, Nat.le_succ 1, fun h => (h rfl).elim, fun _ => nofun⟩)

/-- The reply to the request at the front closes the debt (R168). -/
theorem reply_laws (p : Port) (r : Reply) (s : State) :
    s.Keeps (.only (some p)) (.only none) (s.modPort p fun t => { t with reply := some r }) :=
  modPort_laws (modPort_portDebt (fun _ h => (only_other h).symm) fun law =>
    ⟨law.notices, law.holding, fun _ => ⟨nofun, fun h => (law.taken rfl h).elim⟩, nofun⟩)

theorem take_laws (p : Port) (r : Request) (s : State) : s.Keeps (.only (some p)) (.only none) (take p r s) := by
  have carried := carryOut_laws p r.kind r.payload s
  unfold take
  dsimp only
  split
  · exact carried.trans ((renewAt_laws p _).trans (reply_laws p _ _))
  · exact carried.trans (reply_laws p _ _)

theorem takeFront_laws {p : Port} {s : State} (h : (s.port p).holding ≠ []) :
    s.Keeps (.only (some p)) (.only none) (takeFront p s) := by
  unfold takeFront
  split
  · next empty => exact (h empty).elim
  · exact take_laws p _ s

theorem requestArrives_laws (p : Port) (kind : Byte) (b : List Byte) (s : State) :
    s.Keeps (.only none) (.only none) (requestArrives p kind b s) := by
  unfold requestArrives
  split
  · next free =>
    refine (holdFirst_laws p ⟨kind, b⟩ s).trans (takeFront_laws ?_)
    rw [port_modPort_self]
    nofun
  · next held =>
    split
    · next room =>
      refine modPort_laws (modPort_portDebt (fun _ _ => Iff.rfl) fun law => ⟨law.notices, ?_, fun x => ?_, nofun⟩)
      · rw [List.length_append, List.length_singleton]
        exact room
      · refine (law.reply x).trans ⟨fun h => (held h).elim, fun h => ?_⟩
        nomatch List.append_ne_nil_of_right_ne_nil _ (List.cons_ne_nil _ _) h
    · exact .modPort ⟨rfl, rfl⟩ id

theorem replyDone_laws (p : Port) (s : State) : s.Keeps (.only none) (.only none) (replyDone p s) := by
  unfold replyDone
  split
  · exact .refl _ s
  · have fits (x : Prop) (law : (s.port p).Linked x) :
        (s.port p).holding.tail.length ≤ Config.holdingPlaces := by
      rw [List.length_tail]
      exact Nat.le_trans (Nat.sub_le _ _) law.holding
    cases rest : (s.port p).holding.tail with
    | nil =>
      have empty : ((s.modPort p fun t => { t with reply := none, holding := t.holding.tail }).port p).holding = [] := by
        rw [port_modPort_self, rest]
      rw [takeFront, empty]
      exact modPort_laws (modPort_portDebt (fun _ _ => Iff.rfl) fun law =>
        ⟨law.notices, fits _ law, fun _ => ⟨fun _ => rest, fun _ => rfl⟩, nofun⟩)
    | cons r l =>
      have left : (s.port p).holding.tail ≠ [] := by
        rw [rest]
        nofun
      have freed : s.Keeps (.only none) (.only (some p))
          (s.modPort p fun t => { t with reply := none, holding := t.holding.tail }) :=
        modPort_laws (modPort_portDebt (fun _ h => only_other h) fun law =>
          ⟨law.notices, fits _ law, fun h => (h rfl).elim, fun _ => left⟩)
      refine freed.trans (takeFront_laws ?_)
      rw [port_modPort_self]
      exact left

/-! ## The receiver -/

theorem discard_laws {d : Debt} (p : Port) (s : State) : s.Keeps d d (discard p s) := .modPort ⟨rfl, rfl⟩ id

theorem frameComplete_laws (p : Port) (len : Nat) (bs : List Byte) (s : State) :
    s.Keeps (.only none) (.only none) (frameComplete p len bs s) := by
  have hunting : s.Keeps (.only none) (.only none) (s.modPort p fun t => { t with rx := .hunting }) :=
    .modPort ⟨rfl, rfl⟩ id
  unfold frameComplete
  split
  · exact discard_laws p s
  · dsimp only
    split
    · exact hunting.trans (requestArrives_laws p _ _ _)
    · exact discard_laws p s

theorem rxByte_laws (p : Port) (b : Byte) (s : State) : s.Keeps (.only none) (.only none) (rxByte p b s) := by
  have received (x : Receiver) : s.Keeps (.only none) (.only none)
      (s.modPort p fun t => { t with rx := x, lastByteAt := s.now }) := .modPort ⟨rfl, rfl⟩ id
  unfold rxByte
  split
  · split
    · exact received _
    · exact discard_laws p s
  · split
    · exact received _
    · exact discard_laws p s
  · split
    · exact received _
    · exact frameComplete_laws p _ _ s

/-! ## Every event -/

/-- An event keeps the laws when its work does: the completion of an event keeps them (R86). -/
theorem done_laws {s t : State} {i : Instr} {u : State} (e : exec i s = done u)
    (h : s.Keeps (.only none) (.only none) u) (next : exec i s = .next t) :
    s.Keeps (.only none) (.only none) t := by
  have same : t = finish u := Host.Outcome.next.inj (next.symm.trans e)
  exact same ▸ h.trans (finish_laws _ u)

theorem ite_laws {d : Debt} {c : Prop} [Decidable c] {s t : State} (h : c → s.Keeps d d t) :
    s.Keeps d d (if c then t else s) := by
  split
  · next holds => exact h holds
  · exact .refl d s

/-- A request command keeps the laws. -/
theorem request_laws {i : Instr} {p : Port} {kind : Byte} {b : List Byte} {s t : State}
    (e : exec i s = done (requestArrives p kind b s)) (next : exec i s = .next t) :
    s.Keeps (.only none) (.only none) t :=
  done_laws e (requestArrives_laws p kind b s) next

theorem exec_laws {i : Instr} {s t : State} (next : exec i s = .next t) : s.Keeps (.only none) (.only none) t := by
  cases i with
  | submit | submitGang | go | cancel | readJob | takeNotices | takeResults | readInputs | renew | stationStatus
  | setMode | setBudget | writeSegments | writeProfile | clearProfile | writeHead | forgetLearned | readTable
  | converterEnable | converterHold | converterRelease | converterClear | setDischarge | setLease | setGuardDwell
  | abortStation | lineReset | lineStatus | unknownRequestKind => exact request_laws rfl next
  | frameReceived p b => exact done_laws rfl (ite_laws fun _ => rxByte_laws p b s) next
  | receiveGapTimeout p => exact done_laws rfl (ite_laws fun _ => discard_laws p s) next
  | replyComplete p => exact done_laws rfl (replyDone_laws p s) next
  | byteArrival p b => exact done_laws rfl (rxByte_laws p b s) next
  | interlockChange n i level =>
    refine done_laws rfl ?_ next
    split
    · exact .refl _ s
    · exact interlock_laws n i level s
  | indexEdge => exact done_laws rfl (fireTrigger_laws _ _ s) next
  | estopAssertion =>
    refine done_laws rfl ?_ next
    split
    · exact .refl _ s
    · exact estopAssert_laws s
  | estopRelease => exact done_laws rfl (ite_laws fun _ => estopRelease_laws s) next
  | powerOn => exact done_laws rfl (powerOn_laws s) next
  | pinReset => exact done_laws rfl (pinReset_laws s) next
  | lineClockMillisecond => exact done_laws rfl (tick_laws s) next
  | relayHoldEnd => exact done_laws rfl (ite_laws fun _ => holdDone_laws s) next
  | converterFaultEvent c cond level =>
    refine done_laws rfl ?_ next
    split
    · exact .refl _ s
    · exact faultEvent_laws c cond level s
  | warmupEnd c =>
    have stopped : s.Keeps (.only none) (.only none) (s.modConv c fun v => { v with warmTimer := none }) :=
      .modConv_plain
    exact done_laws rfl (ite_laws fun _ => stopped.trans (warmupCheck_laws _ c _)) next
  | dischargeEnd c =>
    have stopped : s.Keeps (.only none) (.only none) (s.modConv c fun v => { v with dischTimer := none }) :=
      .modConv_plain
    refine done_laws rfl (ite_laws fun due => stopped.trans (resolveConv_laws ?_)) next
    rw [conv_modConv_self]
    exact Converter.Rests.of_state (by simp [due.1])
  | relayOpeningComplete p =>
    refine done_laws rfl ?_ next
    split
    · exact ite_laws fun _ => openingDone_laws p s
    · exact .refl _ s
    · exact .refl _ s
  | relayClosingComplete p =>
    refine done_laws rfl ?_ next
    split
    · exact ite_laws fun _ => closingDone_laws p _ s
    · exact .refl _ s
    · exact .refl _ s
  | relayConditionTimer p =>
    have stopped : s.Keeps (.only none) (.only none) (s.modRelay p fun r => { r with condTimer := none }) :=
      modRelay_laws
    exact done_laws rfl (ite_laws fun _ => stopped.trans (matrixTry_laws _ p _)) next
  | settleExpiry c report => exact done_laws rfl settleExpiry_laws next
  | pyrometerSample c reading flow => exact done_laws rfl pyroSample_laws next
  | segmentDurationExpiry c => exact done_laws rfl durationExpiry_laws next
  | segmentLimitExpiry c => exact done_laws rfl limitExpiry_laws next
  | guardConversionComplete reading => exact done_laws rfl guardComplete_laws next
  | waitLimitExpiry k =>
    refine done_laws rfl ?_ next
    split
    · exact .refl _ s
    · exact ite_laws fun _ => waitExpire_laws _ s
  | leaseExpiry n => exact done_laws rfl (ite_laws fun _ => leaseExpire_laws n s) next
  | coolDwellExpiry k => exact done_laws rfl (coolExpiry_laws k .timed _ s) next
  | coolingLimitExpiry k => exact done_laws rfl (coolExpiry_laws k .limit _ s) next

/-- Every step keeps every law. -/
theorem step_laws {s t : State} (next : step s = .next t) : s.Keeps (.only none) (.only none) t := by
  unfold step at next
  split at next
  · rw [← Host.Outcome.next.inj next]
    exact .refl _ s
  · next rest _ =>
    have queued : s.Keeps (.only none) (.only none) { s with pending := rest } := .fields
    exact queued.trans (exec_laws next)

/-! ## The obligations -/

/-- Settles O54: every operation keeps the law of the outputs, converter by converter. -/
theorem outputLawKept : Obligations.OutputLawKept := by
  unfold Obligations.OutputLawKept
  exact fun s t law next => (step_laws next).output law

/-- Settles O55: committed power moves with the reservations of the jobs that enter and leave their running
states. -/
theorem powerLawKept : Obligations.PowerLawKept := by
  unfold Obligations.PowerLawKept
  exact fun s t law next => powerLaw_iff.2 ((step_laws next).power (powerLaw_iff.1 law))

/-- Settles O56: the use counts move with the admissions and the ends of jobs. -/
theorem useLawKept : Obligations.UseLawKept := by
  unfold Obligations.UseLawKept
  exact fun s t law next => (step_laws next).uses law

/-- Settles O57: an admission checks the quota, and a job's end passes its place on to its result. -/
theorem quotaLawKept : Obligations.QuotaLawKept := by
  unfold Obligations.QuotaLawKept
  exact fun s t law next => (step_laws next).quota law

/-- Settles O58: a grant takes a free head, and the scan set follows the jobs that enter SEEKING and that end. -/
theorem scanLawKept : Obligations.ScanLawKept := by
  unfold Obligations.ScanLawKept
  exact fun s t law next => (step_laws next).scan law

/-- Settles O59: the three laws are kept side by side. -/
theorem portAndCandLawKept : Obligations.PortAndCandLawKept := by
  unfold Obligations.PortAndCandLawKept
  refine ⟨fun s t law next => ?_, fun s t law next => (step_laws next).cands law, fun s t law next => ?_⟩
  · exact portLaw_iff.2 ((step_laws next).ports (portLaw_iff.1 law))
  · obtain ⟨outcome, link⟩ := jobLaw_iff.1 law
    exact jobLaw_iff.2 ⟨(step_laws next).outcome outcome, (step_laws next).link link⟩

theorem reset_conv (c : Conv) : State.reset.conv c = .reset 0 .quiet := Vector.getElem_replicate _

theorem reset_station (n : Station) : State.reset.station n = .reset .low := Vector.getElem_replicate _

theorem reset_bare : State.reset.Bare :=
  bare_of_tables rfl rfl rfl rfl rfl rfl rfl fun n => by rw [reset_station]; rfl

/-- Settles O60: the machine after power-on has no job, and every converter is OFF. -/
theorem resetSatisfiesLaws : Obligations.ResetSatisfiesLaws := by
  unfold Obligations.ResetSatisfiesLaws
  have output : State.reset.OutputLaw := outputLaw_iff.2 ⟨fun h => absurd rfl h, fun c => by
    rw [reset_conv]
    exact Converter.ok_reset _ _ _⟩
  have ports : State.reset.PortDebt none := portDebt_reset (port_of_replicate rfl)
  have bare := reset_bare
  exact ⟨⟨rfl, fun _ => ⟨rfl, rfl⟩⟩, output, powerLaw_iff.2 bare.powerDebt, bare.useLaw, bare.quotaLaw, bare.scanLaw,
    portLaw_iff.2 ports, bare.candLaw, jobLaw_iff.2 ⟨bare.outcomeDebt, bare.linkLaw⟩⟩

end Sys2Proof.Machine
end

section
/-! PROOFS. The queue, the values after power-on, the clock, the ports and the receiver. -/

namespace Sys2Proof.Machine

open State

/-! ## The queue and the end of an event -/

/-- Settles O1: by the definition of a step. -/
theorem stepRunsFront : Obligations.StepRunsFront := by
  unfold Obligations.StepRunsFront
  refine ⟨fun c rest s => rfl, fun s empty => ?_⟩
  rw [step, empty]

/-- Every command is some work followed by the completion of the event (R86). -/
theorem exec_completes (c : Instr) (s : State) : ∃ u, exec c s = .next (finish u) := by
  cases c <;> exact ⟨_, rfl⟩

/-- Settles O2: every command ends with the completion of its event, which settles the machine. -/
theorem stepsSettle : Obligations.StepsSettle := by
  unfold Obligations.StepsSettle
  refine ⟨fun c s => ?_, fun s => finish_of_settled, fun s => ?_⟩
  · obtain ⟨u, e⟩ := exec_completes c s
    exact ⟨_, e, finish_settled u⟩
  · have slots := finish_slots s
    rw [finish_only] at slots ⊢
    exact ⟨rfl, rfl, rfl, rfl, rfl, rfl, rfl, rfl, rfl, rfl, rfl, rfl, rfl, rfl, rfl, rfl, rfl, slots⟩

/-! ## Values after power-on -/

theorem reset_relay (p : Pool) : State.reset.relay p = .reset := Vector.getElem_replicate _

theorem reset_port (p : Port) : State.reset.port p = .reset := port_of_replicate rfl p

/-- Settles O3: every table after power-on repeats one value. -/
theorem resetValues : Obligations.ResetValues := by
  unfold Obligations.ResetValues
  refine ⟨rfl, rfl, rfl, rfl, rfl, rfl, rfl, rfl, rfl, rfl, rfl, rfl, fun i => ?_, fun p => ?_, fun h => ?_, fun k => ?_,
    fun c => ?_, fun p => ?_, fun p => ?_, fun n => ?_⟩
  · exact ⟨Vector.getElem_replicate _, Vector.getElem_replicate _⟩
  · exact ⟨Vector.getElem_replicate _, Vector.getElem_replicate _⟩
  · exact Vector.getElem_replicate _
  · exact Vector.getElem_replicate _
  · rw [reset_conv]
    exact ⟨rfl, rfl, rfl, rfl, rfl, rfl, rfl, rfl, rfl, rfl, rfl, rfl, rfl⟩
  · rw [reset_relay]
    exact ⟨rfl, rfl, rfl⟩
  · rw [reset_port]
    exact ⟨rfl, rfl, rfl, rfl, rfl, rfl, rfl, rfl⟩
  · rw [reset_station]
    exact ⟨rfl, rfl, rfl, Vector.getElem_replicate _, rfl⟩

/-- Settles O39: a tick touches the two clocks and what the converters hold over a millisecond. -/
theorem clockCounts : Obligations.ClockCounts := by
  unfold Obligations.ClockCounts
  intro s settled
  have ticked : (tick s).Settled := ⟨settled.noCause, settled.scanner⟩
  have clock : s.lineClock + 1 = BitVec.ofNat 32 (s.lineClock.toNat + 1) := by
    apply BitVec.eq_of_toNat_eq
    simp
  refine ⟨tick s, congrArg _ (finish_of_settled ticked), ?_, conv_tick s⟩
  rw [← clock]
  exact tick_only s

/-! ## The holding -/

theorem State.Settled.setPort {s : State} (h : s.Settled) (p : Port) (v : PortSt) : (s.setPort p v).Settled :=
  ⟨h.noCause, h.scanner⟩

/-- A command whose work only writes a port leaves a settled machine settled. -/
theorem exec_of_port {c : Instr} {s u : State} {p : Port} {v : PortSt} (settled : s.Settled)
    (work : exec c s = .next (finish u)) (e : u = s.setPort p v) : exec c s = .next (s.setPort p v) := by
  rw [work, e, finish_of_settled (settled.setPort p v)]

theorem exec_replyComplete (p : Port) (s : State) : exec (.replyComplete p) s = .next (finish (replyDone p s)) := rfl

theorem requestArrives_of_held {s : State} {p : Port} {r : Request} (h : (s.port p).holding = [r]) (kind : Byte)
    (b : List Byte) : requestArrives p kind b s = s.setPort p { s.port p with holding := [r, ⟨kind, b⟩] } := by
  unfold requestArrives
  rw [h]
  exact if_pos (Nat.lt_succ_self 1)

theorem requestArrives_of_full {s : State} {p : Port} {q r : Request} {l : List Request}
    (h : (s.port p).holding = q :: r :: l) (kind : Byte) (b : List Byte) :
    requestArrives p kind b s = s.setPort p { s.port p with overrun := true } := by
  unfold requestArrives
  rw [h]
  exact if_neg (Nat.not_lt.2 (Nat.le_add_left 2 l.length))

theorem replyDone_of_some {s : State} {p : Port} {x : Reply} (h : (s.port p).reply = some x) :
    replyDone p s =
      takeFront p (s.setPort p { s.port p with reply := none, holding := (s.port p).holding.tail }) := by
  unfold replyDone
  rw [h]
  rfl

theorem takeFront_of_empty {s : State} {p : Port} (h : (s.port p).holding = []) : takeFront p s = s := by
  unfold takeFront
  rw [h]

theorem takeFront_of_cons {s : State} {p : Port} {r : Request} {l : List Request} (h : (s.port p).holding = r :: l) :
    takeFront p s = take p r s := by
  unfold takeFront
  rw [h]

/-- Settles O6: by the length of the holding. -/
theorem holdingServesInOrder : Obligations.HoldingServesInOrder := by
  unfold Obligations.HoldingServesInOrder
  refine ⟨fun s p kind b free => ?_, fun s p kind b settled => ⟨fun r h => ?_, fun q r l h => ?_⟩,
    fun s p => ⟨fun q x hx h settled => ?_, fun q r x hx h => ?_, fun hx settled => ?_⟩⟩
  · rw [exec_instrOfFrame, requestArrives_of_free free]
    rfl
  · exact exec_of_port settled (exec_instrOfFrame p kind b s) (requestArrives_of_held h kind b)
  · exact exec_of_port settled (exec_instrOfFrame p kind b s) (requestArrives_of_full h kind b)
  · refine exec_of_port settled (exec_replyComplete p s) ?_
    rw [replyDone_of_some hx, h, takeFront_of_empty (by rw [port_setPort_self]; rfl)]
    rfl
  · rw [exec_replyComplete, replyDone_of_some hx, h, takeFront_of_cons (r := r) (l := []) (by rw [port_setPort_self]; rfl)]
    rfl
  · have idle : replyDone p s = s := by
      unfold replyDone
      rw [hx]
    rw [exec_replyComplete, idle, finish_of_settled settled]

/-! ## Requests turned away -/

theorem ofByte_code (k : ReqKind) : ReqKind.ofByte k.code = some k := by
  cases k <;> rfl

theorem ofByte_eq_none {kind : Byte} (h : ∀ k : ReqKind, k.code ≠ kind) : ReqKind.ofByte kind = none :=
  List.find?_eq_none.2 fun k _ => by simpa using h k

/-- A request of a station is turned away on the supervisor port (R170). -/
theorem carryOut_station {k : ReqKind} (h : k ∈ stationRequests) (b : List Byte) (s : State) :
    carryOut .svp k.code b s = refuse .wrongPort 0 0 s := by
  unfold carryOut
  rw [ofByte_code]
  simp only [stationRequests, List.mem_cons, List.not_mem_nil, or_false] at h
  rcases h with rfl | rfl | rfl | rfl | rfl | rfl | rfl | rfl <;> rfl

/-- A request of the supervisor is turned away on a station port (R170). -/
theorem carryOut_supervisor {k : ReqKind} (h : k ∈ supervisorRequests) (n : Station) (b : List Byte) (s : State) :
    carryOut (.sp n) k.code b s = refuse .wrongPort 0 0 s := by
  unfold carryOut
  rw [ofByte_code]
  simp only [supervisorRequests, List.mem_cons, List.not_mem_nil, or_false] at h
  rcases h with rfl | rfl | rfl | rfl | rfl | rfl | rfl | rfl | rfl | rfl | rfl | rfl | rfl | rfl | rfl | rfl | rfl | rfl <;>
    rfl

theorem carryOut_unknown {kind : Byte} (h : ∀ k : ReqKind, k.code ≠ kind) (p : Port) (b : List Byte) (s : State) :
    carryOut p kind b s = refuse .badField 0 0 s := by
  unfold carryOut
  rw [ofByte_eq_none h]

/-- Settles O7: the port check and the field check of a request come before its effect. -/
theorem requestsTurnedAway : Obligations.RequestsTurnedAway := by
  unfold Obligations.RequestsTurnedAway
  refine ⟨fun s k b settled => ⟨fun hk free => ?_, fun n hk free => ?_⟩, fun s p kind b settled free unknown => ?_,
    fun s x b settled => ⟨fun n free => ⟨?_, ?_, ?_⟩, fun free => ⟨?_, ?_⟩⟩⟩
  · exact refuses_of (exec_instrOfFrame ..) settled free (by decide) (carryOut_station hk b _)
  · exact refuses_of (exec_instrOfFrame ..) settled free (by decide) (carryOut_supervisor hk n b _)
  · exact refuses_of rfl settled free (by decide) (carryOut_unknown unknown p b _)
  all_goals exact refuses_of rfl settled free (by decide) rfl

/-! ## The receiver -/

theorem exec_byteArrival (p : Port) (b : Byte) (s : State) : exec (.byteArrival p b) s = .next (finish (rxByte p b s)) :=
  rfl

/-- A hunting receiver takes the start byte (R165). -/
theorem rxByte_start {s : State} {p : Port} (h : (s.port p).rx = .hunting) :
    rxByte p 0xC3 s = s.setPort p { s.port p with rx := .synced, lastByteAt := s.now } := by
  unfold rxByte
  rw [h]
  rfl

theorem rxByte_hunting_other {s : State} {p : Port} {b : Byte} (h : (s.port p).rx = .hunting) (hb : b ≠ 0xC3) :
    rxByte p b s = s.setPort p { s.port p with framing := true } := by
  unfold rxByte
  rw [h]
  dsimp only
  rw [if_neg hb, discard, modPort, ← h]

/-- A synchronised receiver takes a length (R165). -/
theorem rxByte_length {s : State} {p : Port} {b : Byte} (h : (s.port p).rx = .synced) (lo : 1 ≤ b.toNat)
    (hi : b.toNat ≤ 251) :
    rxByte p b s = s.setPort p { s.port p with rx := .receiving b.toNat [], lastByteAt := s.now } := by
  unfold rxByte
  rw [h]
  exact if_pos (inRange_iff.2 ⟨lo, hi⟩)

theorem rxByte_badLength {s : State} {p : Port} {b : Byte} (h : (s.port p).rx = .synced)
    (hb : b.toNat = 0 ∨ 252 ≤ b.toNat) :
    rxByte p b s = s.setPort p { s.port p with rx := .hunting, framing := true } := by
  unfold rxByte
  rw [h]
  refine if_neg fun x => ?_
  obtain ⟨lo, hi⟩ := inRange_iff.1 x
  omega

/-- A byte inside a frame is kept (R165). -/
theorem rxByte_inside {s : State} {p : Port} {b : Byte} {n : Nat} {l : List Byte}
    (h : (s.port p).rx = .receiving n l) (more : l.length + 1 < n + 2) :
    rxByte p b s = s.setPort p { s.port p with rx := .receiving n (l ++ [b]), lastByteAt := s.now } := by
  unfold rxByte
  rw [h]
  exact if_pos more

theorem rxByte_last {s : State} {p : Port} {b : Byte} {n : Nat} {l : List Byte}
    (h : (s.port p).rx = .receiving n l) (last : l.length + 1 = n + 2) :
    rxByte p b s = frameComplete p n (l ++ [b]) s := by
  unfold rxByte
  rw [h]
  exact if_neg (by omega)

/-- Settles O8: by the state of the receiver. -/
theorem receiverDiscipline : Obligations.ReceiverDiscipline := by
  unfold Obligations.ReceiverDiscipline
  refine ⟨fun s p b settled => ⟨fun h hb => ?_, fun h hb => ?_, fun h lo hi => ?_, fun h hb => ?_⟩,
    fun s p settled => ⟨fun h gap => ?_, fun h => ?_⟩⟩
  · exact exec_of_port settled (exec_byteArrival p b s) (hb ▸ rxByte_start h)
  · exact exec_of_port settled (exec_byteArrival p b s) (rxByte_hunting_other h hb)
  · exact exec_of_port settled (exec_byteArrival p b s) (rxByte_length h lo hi)
  · exact exec_of_port settled (exec_byteArrival p b s) (rxByte_badLength h hb)
  · have passed : gapPassed p s = true := by
      unfold gapPassed
      split
      · next hunting => exact (h hunting).elim
      all_goals exact decide_eq_true gap
    exact exec_of_port settled rfl (if_pos passed)
  · have waits : gapPassed p s = false := by
      unfold gapPassed
      rw [h]
    have work : exec (.receiveGapTimeout p) s = .next (finish (if gapPassed p s then discard p s else s)) := rfl
    rw [work, waits, if_neg (by decide), finish_of_settled settled]

/-! ## Frames -/

/-- A complete frame whose CRC agrees is a request; any other is discarded (R165, R166). -/
theorem frameComplete_body (p : Port) (kind : Byte) (payload crc : List Byte) (s : State) :
    frameComplete p (payload.length + 1) (kind :: payload ++ crc) s =
      if crc = le2 (crc16 (frameBody kind payload)).toNat then
        requestArrives p kind payload (s.setPort p { s.port p with rx := .hunting })
      else s.setPort p { s.port p with rx := .hunting, framing := true } := by
  have front : (payload ++ crc).take (payload.length + 1 - 1) = payload := by
    rw [Nat.add_sub_cancel, List.take_left]
  have back : (payload ++ crc).drop (payload.length + 1 - 1) = crc := by
    rw [Nat.add_sub_cancel, List.drop_left]
  rw [List.cons_append, frameComplete, front, back]
  rfl

/-- Settles O9: the second CRC byte hands the body and the CRC to the check. -/
theorem frameCompletion : Obligations.FrameCompletion := by
  unfold Obligations.FrameCompletion
  intro s p kind lo hi payload _ h
  have size : (kind :: payload ++ [lo]).length + 1 = payload.length + 1 + 2 := by
    simp
  have work : exec (.frameReceived p hi) s =
      .next (finish (frameComplete p (payload.length + 1) (kind :: payload ++ [lo, hi]) s)) := by
    have last : awaitsLast p s = true := by
      unfold awaitsLast
      rw [h]
      exact beq_iff_eq.2 size
    have run : exec (.frameReceived p hi) s = .next (finish (if awaitsLast p s then rxByte p hi s else s)) := rfl
    rw [run, if_pos last, rxByte_last h size, List.append_assoc]
    rfl
  rw [frameComplete_body] at work
  refine ⟨fun good => ?_, fun bad settled => ?_⟩
  · rw [work, if_pos good]
  · rw [work, if_neg bad, finish_of_settled (settled.setPort p _)]

/-- The machine while the receiver of a port stands in a state, its last byte just in. -/
def State.receiving (s : State) (p : Port) (x : Receiver) : State :=
  s.setPort p { s.port p with rx := x, lastByteAt := s.now }

theorem rxByte_receiving {s : State} {p : Port} {n : Nat} {l : List Byte} {b : Byte} (more : l.length + 1 < n + 2) :
    rxByte p b (s.receiving p (.receiving n l)) = s.receiving p (.receiving n (l ++ [b])) := by
  have h : ((s.receiving p (.receiving n l)).port p).rx = .receiving n l := by
    rw [receiving, port_setPort_self]
  rw [rxByte_inside h more]
  simp only [receiving, port_setPort_self, setPort_setPort, setPort_now]

/-- The bytes inside a frame gather (R165). -/
theorem rxBytes_receiving {s : State} {p : Port} {n : Nat} (bs : List Byte) :
    ∀ l : List Byte, l.length + bs.length < n + 2 →
      bs.foldl (fun s b => rxByte p b s) (s.receiving p (.receiving n l)) = s.receiving p (.receiving n (l ++ bs)) := by
  induction bs with
  | nil =>
    intro l _
    rw [List.append_nil]
    rfl
  | cons b bs ih =>
    intro l room
    rw [List.length_cons] at room
    rw [List.foldl_cons, rxByte_receiving (by omega), ih _ (by rw [List.length_append, List.length_singleton]; omega),
      List.append_assoc]
    rfl

/-- Settles O10: start byte, length, the bytes inside, and the second CRC byte in turn. -/
theorem frameRoundTrip : Obligations.FrameRoundTrip := by
  unfold Obligations.FrameRoundTrip
  intro s p kind payload short hunting
  obtain ⟨lo, hi, crc⟩ : ∃ lo hi, le2 (crc16 (frameBody kind payload)).toNat = [lo, hi] := ⟨_, _, rfl⟩
  have len : (byteOf (payload.length + 1)).toNat = payload.length + 1 := toNat_byteOf (by omega)
  have bytes : frameBytes kind payload =
      0xC3 :: byteOf (payload.length + 1) :: ((kind :: payload ++ [lo]) ++ [hi]) := by
    rw [frameBytes, crc, frameBody]
    simp
  have start : rxByte p 0xC3 s = s.receiving p .synced := rxByte_start hunting
  have synced : ((s.receiving p .synced).port p).rx = .synced := by rw [receiving, port_setPort_self]
  have length : rxByte p (byteOf (payload.length + 1)) (s.receiving p .synced) =
      s.receiving p (.receiving (payload.length + 1) []) := by
    rw [rxByte_length synced (by omega) (by omega), len]
    simp only [receiving, port_setPort_self, setPort_setPort, setPort_now]
  have inside : ([] : List Byte).length + (kind :: payload ++ [lo]).length < payload.length + 1 + 2 := by
    simp
  have full : ((s.receiving p (.receiving (payload.length + 1) (kind :: payload ++ [lo]))).port p).rx =
      .receiving (payload.length + 1) (kind :: payload ++ [lo]) := by rw [receiving, port_setPort_self]
  rw [bytes, List.foldl_cons, start, List.foldl_cons, length, List.foldl_append, rxBytes_receiving _ _ inside,
    List.nil_append, List.foldl_cons, List.foldl_nil, rxByte_last full (by simp), List.append_assoc,
    List.singleton_append, frameComplete_body, if_pos crc.symm]
  simp only [receiving, port_setPort_self, setPort_setPort]

end Sys2Proof.Machine
end

section
/-! PROOFS. The requests SUBMIT and SUBMIT-GANG (R62 to R66). -/

namespace Sys2Proof.Machine

open State

/-! ## Admission -/

/-- Settles O12: by the fields of the new record and the counts that an admission moves. -/
theorem admissionRecord : Obligations.AdmissionRecord := by
  unfold Obligations.AdmissionRecord
  intro s n d g k
  have job : (admitAt n d g k s).job k = some (s.newJob n d g) := by rw [admitAt_job, if_pos rfl]
  refine ⟨⟨_, job, rfl, rfl, rfl, rfl, rfl, rfl, rfl, rfl, rfl, rfl, rfl, rfl, rfl, rfl, rfl, rfl, rfl, rfl, rfl, rfl,
    rfl, rfl, rfl, rfl, rfl, rfl, rfl⟩, admitAt_gen .., fun m hm => ?_, ?_, fun m hm => ?_, ?_, fun p hp => ?_,
    fun i => admitAt_segUse .., rfl, rfl, rfl, rfl⟩
  · exact slot_setSlot_ne s (Ne.symm hm) _
  · rw [admitAt_admitted, if_pos rfl]
  · rw [admitAt_admitted, if_neg (Ne.symm hm)]
  · rw [admitAt_profUse, if_pos rfl]
  · rw [admitAt_profUse, if_neg (Ne.symm hp)]

/-- The lowest free slot stands first (R56). -/
theorem freeSlots_of_lowest {s : State} {k : SlotIx} (free : s.job k = none)
    (lower : ∀ m, m < k → (s.job m).isSome = true) : ∃ l, s.freeSlots = k :: l := by
  have mem : k ∈ s.freeSlots := mem_freeSlots.2 free
  have sorted : s.freeSlots.Pairwise (· < ·) := (List.pairwise_lt_finRange 48).filter _
  cases e : s.freeSlots with
  | nil => rw [e] at mem; nomatch mem
  | cons x l =>
    rw [e] at mem sorted
    rcases List.mem_cons.1 mem with rfl | later
    · exact ⟨l, rfl⟩
    · have taken := lower x ((List.pairwise_cons.1 sorted).1 k later)
      have vacant : s.job x = none := mem_freeSlots.1 (e ▸ List.mem_cons_self ..)
      rw [vacant] at taken
      nomatch taken

theorem freeSlots_eq_nil {s : State} (full : ∀ k, (s.job k).isSome = true) : s.freeSlots = [] := by
  rw [List.eq_nil_iff_forall_not_mem]
  intro k hk
  have taken := full k
  rw [mem_freeSlots.1 hk] at taken
  nomatch taken

theorem profileOk_iff {s : State} {d : JobDesc} : s.profileOk d = true ↔
    (s.prof d.profile).valid = true ∧
      (∀ x ∈ (s.prof d.profile).runs, (s.segAt x.2).unfit (s.prof d.profile).ceiling = false) ∧
      max (s.peakPower (s.prof d.profile)) (s.head d.head).seekPower ≤ (s.head d.head).cap := by
  rw [profileOk, admissible, contentFail, Bool.and_eq_true_iff, Bool.and_eq_true_iff, Option.isNone_iff_eq_none,
    List.find?_eq_none, decide_eq_true_iff, and_assoc]
  simp only [Bool.not_eq_true]
  rfl

theorem hasQuota_eq_false {s : State} {n : Station} {m : Nat}
    (h : Config.stationJobLimit < s.admitted[n] + m ∨ Config.resultPlaces < s.admitted[n] + s.resultsHeld n + m) :
    s.hasQuota n m = false := by
  rw [Bool.eq_false_iff]
  intro quota
  obtain ⟨jobs, places⟩ := hasQuota_iff.1 quota
  omega

/-! ## SUBMIT -/

/-- The checks of SUBMIT in their order (R63). -/
theorem reqSubmit_of_some {b : List Byte} {d : JobDesc} (h : parseSubmit b = some d) (n : Station) (s : State) :
    reqSubmit (.sp n) b s =
      if (s.head d.head).owner ≠ some n then refuse .badHead 0 0 s
      else if !s.profileOk d then refuse .badProfile 0 0 s
      else if !s.predecessorOk n d.trigger then refuse .unknownJob 0 0 s
      else if !s.hasQuota n 1 then refuse .stationFull 0 0 s
      else
        match s.freeSlots with
        | [] => refuse .noSlot 0 0 s
        | k :: _ =>
          accept ((admitAt n d none k s).admitReply k)
            (if d.trigger = .immediate then enterReady [k] (admitAt n d none k s) else admitAt n d none k s) :=
  withField_of_some h s _

/-- SUBMIT with its first three checks passed (R63). -/
theorem reqSubmit_of_checked {b : List Byte} {d : JobDesc} {n : Station} {s : State} (h : parseSubmit b = some d)
    (owner : (s.head d.head).owner = some n) (profile : s.profileOk d = true)
    (pred : s.predecessorOk n d.trigger = true) :
    reqSubmit (.sp n) b s =
      if !s.hasQuota n 1 then refuse .stationFull 0 0 s
      else
        match s.freeSlots with
        | [] => refuse .noSlot 0 0 s
        | k :: _ =>
          accept ((admitAt n d none k s).admitReply k)
            (if d.trigger = .immediate then enterReady [k] (admitAt n d none k s) else admitAt n d none k s) := by
  rw [reqSubmit_of_some h, if_neg (not_not.2 owner), if_neg (by rw [profile]; decide), if_neg (by rw [pred]; decide)]

section
variable {b : List Byte} {d : JobDesc} {n : Station} {s : State} (parsed : parseSubmit b = some d)
  (owner : (s.head d.head).owner = some n)
include parsed owner

theorem reqSubmit_badProfile (bad : s.profileOk d = false) : reqSubmit (.sp n) b s = refuse .badProfile 0 0 s := by
  rw [reqSubmit_of_some parsed, if_neg (not_not.2 owner), if_pos (by rw [bad]; rfl)]

theorem reqSubmit_unknownJob (profile : s.profileOk d = true) (bad : s.predecessorOk n d.trigger = false) :
    reqSubmit (.sp n) b s = refuse .unknownJob 0 0 s := by
  rw [reqSubmit_of_some parsed, if_neg (not_not.2 owner), if_neg (by rw [profile]; decide), if_pos (by rw [bad]; rfl)]

variable (profile : s.profileOk d = true) (pred : s.predecessorOk n d.trigger = true)
include profile pred

theorem reqSubmit_stationFull (full : s.hasQuota n 1 = false) :
    reqSubmit (.sp n) b s = refuse .stationFull 0 0 s := by
  rw [reqSubmit_of_checked parsed owner profile pred, if_pos (by rw [full]; rfl)]

theorem reqSubmit_noSlot (quota : s.hasQuota n 1 = true) (full : s.freeSlots = []) :
    reqSubmit (.sp n) b s = refuse .noSlot 0 0 s := by
  rw [reqSubmit_of_checked parsed owner profile pred, if_neg (by rw [quota]; decide), full]

end

theorem admitReply_admitAt (n : Station) (d : JobDesc) (g : Option GangTag) (k : SlotIx) (s : State) :
    (admitAt n d g k s).admitReply k = [byteOf k.val, (s.slot k).gen] ++
      le2 (max (s.peakPower (s.prof d.profile)) (s.head d.head).seekPower) := by
  have job : (admitAt n d g k s).job k = some (s.newJob n d g) := by rw [admitAt_job, if_pos rfl]
  rw [admitReply, job, State.handleOf, admitAt_gen]
  rfl

/-- Settles O11: the checks pass in turn, and the lowest free slot is the first. -/
theorem submitAdmits : Obligations.SubmitAdmits := by
  unfold Obligations.SubmitAdmits
  intro s n b d k free parsed owner valid fit cap pred jobs places vacant lower
  have quota : (s.holdingIt (.sp n) 0x10 b).hasQuota n 1 = true := hasQuota_iff.2 ⟨jobs, places⟩
  obtain ⟨l, slots⟩ := freeSlots_of_lowest (s := s.holdingIt (.sp n) 0x10 b) vacant lower
  have effect : reqSubmit (.sp n) b (s.holdingIt (.sp n) 0x10 b) = _ :=
    reqSubmit_of_checked parsed owner (profileOk_iff.2 ⟨valid, fit, cap⟩) pred
  rw [if_neg (by rw [quota]; decide), slots] at effect
  dsimp only at effect
  rw [admitReply_admitAt] at effect
  exact accepts_of rfl free effect rfl

/-! ## SUBMIT-GANG -/

theorem badMember_iff {s : State} {n : Station} {ds : List JobDesc} {i : Nat} {d : JobDesc} (h : ds[i]? = some d) :
    s.BadMember n ds i ↔
      ((s.head d.head).owner != some n || (ds.take i).any fun e => e.head == d.head) = true := by
  have same : ((ds.take i).any fun e => e.head == d.head) = true ↔ ∃ m e, m < i ∧ ds[m]? = some e ∧ e.head = d.head := by
    rw [List.any_eq_true]
    constructor
    · rintro ⟨e, he, same⟩
      obtain ⟨m, hm, rfl⟩ := List.mem_take_iff_getElem.1 he
      exact ⟨m, _, by omega, List.getElem?_eq_getElem (by omega), beq_iff_eq.1 same⟩
    · rintro ⟨m, e, hm, he, same⟩
      obtain ⟨hlt, rfl⟩ := List.getElem?_eq_some_iff.1 he
      exact ⟨_, List.mem_take_iff_getElem.2 ⟨m, by omega, rfl⟩, beq_iff_eq.2 same⟩
  rw [Bool.or_eq_true, bne_iff_ne, same]
  constructor
  · rintro ⟨d', hd', bad⟩
    rw [Option.some.inj (h.symm.trans hd')]
    exact bad
  · exact fun bad => ⟨d, h, bad⟩

/-- The BAD_HEAD check of a gang finds its first bad member (R65). -/
theorem gangBadHead_eq_some {s : State} {n : Station} {ds : List JobDesc} {i : Nat} (bad : s.BadMember n ds i)
    (first : ∀ m, m < i → ¬ s.BadMember n ds m) : s.gangBadHead n ds = some i := by
  obtain ⟨d, hd, _⟩ := id bad
  obtain ⟨len, _⟩ := List.getElem?_eq_some_iff.1 hd
  refine List.find?_range_eq_some.2 ⟨?_, List.mem_range.2 len, fun m hm => ?_⟩
  · rw [hd]
    exact (badMember_iff hd).1 bad
  · have hm' : ds[m]? = some ds[m] := List.getElem?_eq_getElem (by omega)
    rw [hm']
    have good := (badMember_iff hm').not.1 (first m hm)
    simpa using good

theorem gangBadHead_eq_none {s : State} {n : Station} {ds : List JobDesc} (good : ∀ i, ¬ s.BadMember n ds i) :
    s.gangBadHead n ds = none := by
  refine List.find?_eq_none.2 fun i hi => ?_
  have len : i < ds.length := List.mem_range.1 hi
  have hd : ds[i]? = some ds[i] := List.getElem?_eq_getElem len
  rw [hd]
  exact (badMember_iff hd).not.1 (good i)

/-- The first description that fails its profile check (R65). -/
theorem findIdx?_profileOk {s : State} {ds : List JobDesc} {i : Nat} {d : JobDesc} (h : ds[i]? = some d)
    (bad : s.profileOk d = false) (first : ∀ m e, m < i → ds[m]? = some e → s.profileOk e = true) :
    ds.findIdx? (fun d => !s.profileOk d) = some i := by
  obtain ⟨len, rfl⟩ := List.getElem?_eq_some_iff.1 h
  refine List.findIdx?_eq_some_iff_getElem.2 ⟨len, by rw [bad]; rfl, fun m hm => ?_⟩
  rw [first m _ hm (List.getElem?_eq_getElem (by omega))]
  decide

theorem findIdx?_profileOk_none {s : State} {ds : List JobDesc} (good : ∀ d ∈ ds, s.profileOk d = true) :
    ds.findIdx? (fun d => !s.profileOk d) = none :=
  List.findIdx?_eq_none_iff.2 fun d hd => by rw [good d hd]; rfl

/-- The effect of SUBMIT-GANG once its members have passed their checks and found their slots (R66). -/
def gangEffect (n : Station) (ds : List JobDesc) (s : State) : State × Answer :=
  match s.freeSlots.take ds.length with
  | [] => refuse .noSlot 0 0 s
  | k :: ks =>
    if ks.length + 1 < ds.length then refuse .noSlot 0 0 s
    else
      accept (byteOf ds.length ::
          (k :: ks).flatMap (admitMembers n (s.handleOf k) 0 (ds.zip (k :: ks)) s).admitReply)
        (if ds.any (fun d => d.trigger == .immediate) then
          enterReady (k :: ks) (admitMembers n (s.handleOf k) 0 (ds.zip (k :: ks)) s)
        else admitMembers n (s.handleOf k) 0 (ds.zip (k :: ks)) s)

/-- The checks of SUBMIT-GANG that follow those of its heads, in their order (R65). -/
def gangChecked (n : Station) (ds : List JobDesc) (s : State) : State × Answer :=
  if !ds.all (fun d => s.predecessorOk n d.trigger) then refuse .unknownJob 0 0 s
  else if !s.hasQuota n ds.length then refuse .stationFull 0 0 s
  else gangEffect n ds s

theorem reqSubmitGang_of_error {b : List Byte} {i : Nat} (h : parseGang b = .error i) (n : Station) (s : State) :
    reqSubmitGang (.sp n) b s = refuse .badField (byteOf i) 0 s := by
  rw [reqSubmitGang, onStation]
  dsimp only
  rw [h]

section
variable {b : List Byte} {ds : List JobDesc} {n : Station} {s : State} (parsed : parseGang b = .ok ds)
include parsed

theorem reqSubmitGang_badHead {i : Nat} (bad : s.gangBadHead n ds = some i) :
    reqSubmitGang (.sp n) b s = refuse .badHead (byteOf i) 0 s := by
  rw [reqSubmitGang, onStation]
  dsimp only
  rw [parsed]
  dsimp only
  rw [bad]

theorem reqSubmitGang_badProfile {i : Nat} (heads : s.gangBadHead n ds = none)
    (bad : ds.findIdx? (fun d => !s.profileOk d) = some i) :
    reqSubmitGang (.sp n) b s = refuse .badProfile (byteOf i) 0 s := by
  rw [reqSubmitGang, onStation]
  dsimp only
  rw [parsed]
  dsimp only
  rw [heads]
  dsimp only
  rw [bad]

theorem reqSubmitGang_of_checked (heads : s.gangBadHead n ds = none)
    (profiles : ∀ d ∈ ds, s.profileOk d = true) : reqSubmitGang (.sp n) b s = gangChecked n ds s := by
  rw [reqSubmitGang, onStation]
  dsimp only
  rw [parsed]
  dsimp only
  rw [heads]
  dsimp only
  rw [findIdx?_profileOk_none profiles]
  rfl

end

/-- A gang whose members have passed the checks (R65). -/
theorem gangChecked_of_ok {n : Station} {ds : List JobDesc} {s : State}
    (preds : ∀ d ∈ ds, s.predecessorOk n d.trigger = true) (quota : s.hasQuota n ds.length = true) :
    gangChecked n ds s = gangEffect n ds s := by
  rw [gangChecked, if_neg, if_neg]
  · rw [quota]
    decide
  · rw [List.all_eq_true.2 preds]
    decide

theorem gangChecked_unknownJob {n : Station} {ds : List JobDesc} {s : State} {d : JobDesc} (hd : d ∈ ds)
    (bad : s.predecessorOk n d.trigger = false) : gangChecked n ds s = refuse .unknownJob 0 0 s := by
  have some_ : ds.all (fun d => s.predecessorOk n d.trigger) = false :=
    List.all_eq_false.2 ⟨d, hd, by rw [bad]; decide⟩
  rw [gangChecked, if_pos (by rw [some_]; rfl)]

theorem gangChecked_stationFull {n : Station} {ds : List JobDesc} {s : State}
    (preds : ∀ d ∈ ds, s.predecessorOk n d.trigger = true) (full : s.hasQuota n ds.length = false) :
    gangChecked n ds s = refuse .stationFull 0 0 s := by
  rw [gangChecked, if_neg (by rw [List.all_eq_true.2 preds]; decide), if_pos (by rw [full]; rfl)]

theorem gangEffect_noSlot {n : Station} {ds : List JobDesc} {s : State} (few : s.freeSlots.length < ds.length) :
    gangEffect n ds s = refuse .noSlot 0 0 s := by
  unfold gangEffect
  rw [List.take_of_length_le (Nat.le_of_lt few)]
  split
  · rfl
  · next slots =>
    rw [slots, List.length_cons] at few
    exact if_pos few

/-- The reply to a gang names the members' slots and reservations in member order (R66). -/
theorem flatMap_admitReply {n : Station} {id : Handle} {l : List (JobDesc × SlotIx)} {s : State}
    (nodup : (l.map Prod.snd).Nodup) :
    (l.map Prod.snd).flatMap (admitMembers n id 0 l s).admitReply =
      l.flatMap fun x => [byteOf x.2.val, (s.slot x.2).gen] ++
        le2 (max (s.peakPower (s.prof x.1.profile)) (s.head x.1.head).seekPower) := by
  rw [List.flatMap_map]
  refine List.flatMap_congr fun x hx => ?_
  obtain ⟨p, hp⟩ := List.getElem?_of_mem hx
  have slot := admitMembers_slot n id l 0 p s nodup hp
  rw [admitReply, State.handleOf, State.job, slot]
  rfl

/-- Settles O14: member by member, the `i`-th free slot takes the `i`-th description. -/
theorem gangAdmits : Obligations.GangAdmits := by
  unfold Obligations.GangAdmits
  intro s n b ds k ks free parsed heads good quota slots many
  have names : (ds.zip (k :: ks)).map Prod.snd = k :: ks :=
    List.map_snd_zip (by rw [List.length_cons, many])
  have size : (ds.zip (k :: ks)).length = ds.length := by
    rw [List.length_zip, List.length_cons, many, Nat.min_self]
  have nodup : ((ds.zip (k :: ks)).map Prod.snd).Nodup := by
    rw [names, ← slots]
    exact (nodup_freeSlots s).sublist (List.take_sublist _ _)
  refine ⟨?_, ?_, fun m hm => ?_, fun i d m hd hm => ?_⟩
  · have effect : reqSubmitGang (.sp n) b (s.holdingIt (.sp n) 0x11 b) = gangEffect n ds (s.holdingIt (.sp n) 0x11 b) :=
      (reqSubmitGang_of_checked (s := s.holdingIt (.sp n) 0x11 b) parsed heads fun d hd => (good d hd).1).trans
        (gangChecked_of_ok (fun d hd => (good d hd).2) quota)
    have slots' : (s.holdingIt (.sp n) 0x11 b).freeSlots.take ds.length = k :: ks := slots
    rw [gangEffect, slots'] at effect
    dsimp only at effect
    rw [if_neg (by omega)] at effect
    have reply := flatMap_admitReply (n := n) (id := (s.holdingIt (.sp n) 0x11 b).handleOf k)
      (s := s.holdingIt (.sp n) 0x11 b) nodup
    rw [names] at reply
    rw [reply] at effect
    exact accepts_of rfl free effect rfl
  · rw [admitMembers_admitted, size]
  · exact admitMembers_slot_of_notMem n _ _ 0 s (by rw [names]; exact hm)
  · have entry : (ds.zip (k :: ks))[i]? = some (d, m) := List.getElem?_zip_eq_some.2 ⟨hd, hm⟩
    have slot := admitMembers_slot n (s.handleOf k) _ 0 i s nodup entry
    rw [Nat.zero_add] at slot
    exact ⟨_, slot, rfl, rfl, rfl, rfl, rfl, rfl, rfl⟩

/-! ## Refusals -/

theorem parseGang_short {b : List Byte} (h : b.length < 10) : parseGang b = .error 0 := by
  unfold parseGang
  split
  · simp only [List.length_cons] at h
    omega
  · rfl

section
variable {c tk ta ps pg u w0 w1 w2 w3 : Byte} {rest : List Byte}

theorem parseGang_shared
    (bad : c.toNat < 2 ∨ 4 < c.toNat ∨ rest.length ≠ 4 * c.toNat ∨ parseTrigger tk ta ps pg = none ∨ 3 < u.toNat ∨
      waitLimitOk (rd4 w0 w1 w2 w3) = false) :
    parseGang (c :: tk :: ta :: ps :: pg :: u :: w0 :: w1 :: w2 :: w3 :: rest) = .error 0 := by
  rw [parseGang]
  split
  · next size =>
    split
    · next t v trigger urgency wait =>
      have small : ¬ 3 < u.toNat := fun large => by
        have none_ : rdFin 4 u = none := dif_neg (by omega)
        rw [none_] at urgency
        nomatch urgency
      rw [trigger, wait] at bad
      obtain ⟨lo, hi, len⟩ := size
      rcases bad with h | h | h | h | h | h
      · omega
      · omega
      · exact (h len).elim
      · nomatch h
      · exact (small h).elim
      · nomatch h
    · rfl
  · rfl

theorem parseGang_member {i : Nat} (lo : 2 ≤ c.toNat) (hi : c.toNat ≤ 4) (len : rest.length = 4 * c.toNat)
    (trigger : (parseTrigger tk ta ps pg).isSome = true) (urgency : u.toNat ≤ 3)
    (wait : waitLimitOk (rd4 w0 w1 w2 w3) = true) (bad : (parseMembers rest)[i]? = some none)
    (first : ∀ m, m < i → (parseMembers rest)[m]? ≠ some none) :
    parseGang (c :: tk :: ta :: ps :: pg :: u :: w0 :: w1 :: w2 :: w3 :: rest) = .error i := by
  obtain ⟨t, ht⟩ := Option.isSome_iff_exists.1 trigger
  have hu : rdFin 4 u = some ⟨u.toNat, by omega⟩ := dif_pos (by omega)
  obtain ⟨short, none_⟩ := List.getElem?_eq_some_iff.1 bad
  have found : (parseMembers rest).findIdx? (·.isNone) = some i := by
    refine List.findIdx?_eq_some_iff_getElem.2 ⟨short, by rw [none_]; rfl, fun m hm => ?_⟩
    rw [Bool.not_eq_true, Option.isNone_eq_false_iff, Option.isSome_iff_ne_none]
    intro e
    exact first m hm (by rw [List.getElem?_eq_getElem (by omega), e])
  rw [parseGang, if_pos ⟨lo, hi, len⟩, ht, hu, wait]
  dsimp only
  rw [found]

end

/-- Settles O13: every check stands behind those before it. -/
theorem submitRefusals : Obligations.SubmitRefusals := by
  unfold Obligations.SubmitRefusals
  refine ⟨fun s n b settled free => ⟨fun bad => ?_, fun d parsed => ⟨fun bad => ?_, fun owner bad => ?_,
    fun owner profile bad => ?_, fun owner profile pred full => ?_, fun owner profile pred jobs places full => ?_⟩⟩,
    fun s n b settled free => ⟨fun i bad => ?_, fun ds parsed => ⟨fun i bad first => ?_, fun heads =>
      ⟨fun i d hd bad first => ?_, fun profiles => ⟨fun d hd bad => ?_, fun preds => ⟨fun full => ?_,
        fun jobs places few => ?_⟩⟩⟩⟩⟩,
    fun b => parseGang_short, fun c tk ta ps pg u w0 w1 w2 w3 rest => ⟨parseGang_shared, fun i => parseGang_member⟩⟩
  all_goals refine refuses_of rfl settled free (by decide) ?_
  · exact withField_of_none bad _ _
  · exact (reqSubmit_of_some parsed n _).trans (if_pos bad)
  · exact reqSubmit_badProfile parsed owner bad
  · exact reqSubmit_unknownJob parsed owner profile bad
  · exact reqSubmit_stationFull parsed owner profile pred
      (hasQuota_eq_false (full.imp Nat.lt_succ_of_le Nat.lt_succ_of_le))
  · exact reqSubmit_noSlot parsed owner profile pred (hasQuota_iff.2 ⟨jobs, places⟩) (freeSlots_eq_nil full)
  · exact reqSubmitGang_of_error bad n _
  · exact reqSubmitGang_badHead parsed (gangBadHead_eq_some bad first)
  · exact reqSubmitGang_badProfile parsed (gangBadHead_eq_none heads) (findIdx?_profileOk hd bad first)
  · exact (reqSubmitGang_of_checked (s := s.holdingIt (.sp n) 0x11 b) parsed (gangBadHead_eq_none heads) profiles).trans
      (gangChecked_unknownJob hd bad)
  · exact (reqSubmitGang_of_checked (s := s.holdingIt (.sp n) 0x11 b) parsed (gangBadHead_eq_none heads) profiles).trans
      (gangChecked_stationFull preds (hasQuota_eq_false full))
  · exact (reqSubmitGang_of_checked (s := s.holdingIt (.sp n) 0x11 b) parsed (gangBadHead_eq_none heads) profiles).trans
      ((gangChecked_of_ok (s := s.holdingIt (.sp n) 0x11 b) preds (hasQuota_iff.2 ⟨jobs, places⟩)).trans
        (gangEffect_noSlot few))

end Sys2Proof.Machine
end

section
/-! PROOFS. READ-JOB and CANCEL (R74 to R77). -/

namespace Sys2Proof.Machine

open State

/-! ## Handles -/

theorem rdFin_byteOf {n : Nat} (h : n ≤ 256) (i : Fin n) : rdFin n (byteOf i.val) = some i :=
  parseIndex_byteOf h i

/-- A handle is read back from its two bytes (R57). -/
theorem parseHandle_byteOf (k : SlotIx) (g : Byte) : parseHandle [byteOf k.val, g] = some ⟨k, g⟩ := by
  rw [parseHandle, rdFin_byteOf (by decide)]
  rfl

theorem parseHandle_eq_none {b : List Byte} (h : ∀ x g, b = [x, g] → 47 < x.toNat) : parseHandle b = none := by
  unfold parseHandle
  split
  · next x g =>
    have out : rdFin 48 x = none := dif_neg (Nat.not_lt.2 (h x g rfl))
    rw [out]
    rfl
  · rfl

theorem current_handleOf {s : State} {k : SlotIx} {j : Job} (h : s.job k = some j) :
    s.current ⟨k, (s.slot k).gen⟩ = some j := by
  rw [State.current, if_pos rfl, h]

/-- A handle of another generation, or of a free slot, names no job (R57). -/
theorem current_eq_none {s : State} {k : SlotIx} {g : Byte} (h : (s.slot k).gen ≠ g ∨ s.job k = none) :
    s.current ⟨k, g⟩ = none := by
  rw [State.current]
  split
  · next same => exact h.resolve_left (absurd same)
  · rfl

theorem current_eq_some {s : State} {k : SlotIx} {g : Byte} {j : Job} (h : s.current ⟨k, g⟩ = some j) :
    s.job k = some j := by
  rw [State.current] at h
  split at h
  · exact h
  · nomatch h

/-! ## READ-JOB -/

theorem length_optHandleBytes (h : Option Handle) : (optHandleBytes h).length = 2 := by
  cases h <;> rfl

theorem length_optTimeBytes (t : Option Time) : (optTimeBytes t).length = 4 := by
  cases t <;> rfl

theorem length_le4 (n : Nat) : (le4 n).length = 4 := rfl

/-- The job record has 66 bytes (R205). -/
theorem length_job_bytes (j : Job) (h : Handle) : (j.bytes h).length = 66 := by
  unfold Job.bytes Handle.bytes
  simp only [List.length_append, List.length_cons, List.length_nil, length_le2, length_le4,
    length_optHandleBytes, length_optTimeBytes, length_timeBytes]

theorem reqReadJob_of_some {b : List Byte} {h : Handle} (parsed : parseHandle b = some h) (p : Port) (s : State) :
    reqReadJob p b s =
      match s.current h with
      | none => refuse .unknownJob 0 0 s
      | some j => if mayRead p j then accept (j.bytes h) s else refuse .unknownJob 0 0 s :=
  withField_of_some parsed s _

/-- Settles O17: by what the handle names. -/
theorem readJobReports : Obligations.ReadJobReports := by
  unfold Obligations.ReadJobReports
  refine ⟨fun s p k j free job may => ⟨accepts_of (exec_instrOfFrame p 0x14 _ s) free ?_ rfl, length_job_bytes _ _⟩,
    fun s p b settled free => ⟨fun bad => ?_, fun k g hb bad => ?_⟩⟩
  · refine (reqReadJob_of_some (parseHandle_byteOf k (s.slot k).gen) p _).trans ?_
    have named : (s.holdingIt p 0x14 [byteOf k.val, (s.slot k).gen]).current ⟨k, (s.slot k).gen⟩ = some j :=
      current_handleOf job
    rw [named]
    exact if_pos may
  · exact refuses_of (exec_instrOfFrame p 0x14 _ s) settled free (by decide)
      (withField_of_none (parseHandle_eq_none bad) _ _)
  · subst hb
    refine refuses_of (exec_instrOfFrame p 0x14 _ s) settled free (by decide)
      ((reqReadJob_of_some (parseHandle_byteOf k g) p _).trans ?_)
    split
    · rfl
    · next j named =>
      have job : s.job k = some j := current_eq_some named
      refine if_neg fun may => ?_
      rcases bad with other | vacant | ⟨i, hi, no⟩
      · have gone : (s.holdingIt p 0x14 [byteOf k.val, g]).current ⟨k, g⟩ = none := current_eq_none (.inl other)
        rw [gone] at named
        nomatch named
      · rw [vacant] at job
        nomatch job
      · rw [← Option.some.inj (job.symm.trans hi), may] at no
        nomatch no

/-! ## CANCEL -/

/-- One step of the last pass of CANCEL (R75, R76, R144). -/
def cancelStep (s : State) (m : SlotIx) : State :=
  if s.jobIs m (·.state == .cooling) then endJob m .cut s else abortPath m s

theorem cancelJobs_eq (k : SlotIx) (s : State) : cancelJobs k s =
    (s.cancelled k).foldl cancelStep ((s.cancelled k).foldl (giveOutcome .cancelled) s) := rfl

theorem cancelStep_of_cooling {s : State} {m : SlotIx} {j : Job} (h : s.job m = some j) (cooling : j.state = .cooling) :
    cancelStep s m = endJob m .cut s :=
  if_pos (jobIs_iff.2 ⟨j, h, by rw [cooling]; rfl⟩)

theorem cancelStep_of_before {s : State} {m : SlotIx} (h : ∀ j, s.job m = some j → j.state ≠ .cooling) :
    cancelStep s m = abortPath m s := by
  refine if_neg fun cooling => ?_
  obtain ⟨j, hj, state⟩ := jobIs_iff.1 cooling
  exact h j hj (beq_iff_eq.1 state)

theorem cancelStep_accounted (s : State) (m : SlotIx) : s.Accounted (cancelStep s m) := by
  unfold cancelStep
  split
  · next cooling =>
    obtain ⟨j, hj, state⟩ := jobIs_iff.1 cooling
    refine endJob_accounted (.refl s) fun i hi ends => ?_
    rw [← Option.some.inj (hj.symm.trans hi), beq_iff_eq.1 state] at ends
    nomatch ends
  · exact abortPath_accounted (.refl s)

theorem cancelStep_onward (s : State) (m : SlotIx) : s.Onward (cancelStep s m) := by
  unfold cancelStep
  split
  · exact endJob_onward (.refl s)
  · exact abortPath_onward (.refl s)

theorem cancelStep_cold (s : State) (m : SlotIx) : (cancelStep s m).Cold m := by
  unfold cancelStep
  split
  · intro j hj
    rw [endJob_none] at hj
    nomatch hj
  · exact abortPath_cold m s

theorem reachable_of_cooling {s : State} {k : SlotIx} {j : Job} (h : s.job k = some j) (cooling : j.state = .cooling) :
    s.reachable k = false := by
  rw [Bool.eq_false_iff]
  intro reach
  obtain ⟨i, hi, _, before⟩ := reachable_iff.1 reach
  exact before (by rw [← Option.some.inj (h.symm.trans hi), cooling])

/-- The slots that CANCEL acts on (R75, R76). -/
theorem mem_cancelled {s : State} {k m : SlotIx} : m ∈ s.cancelled k ↔
    m ∈ s.membersOf k ∧ (s.reachable m = true ∨ m = k ∧ ∃ j, s.job k = some j ∧ j.state = .cooling) := by
  unfold cancelled
  rw [List.mem_filter, Bool.or_eq_true, Bool.and_eq_true_iff, beq_iff_eq, jobIs_iff]
  simp only [beq_iff_eq]
  refine and_congr_right fun _ => or_congr_right (and_congr_right fun same => ?_)
  rw [same]

theorem membersOf_single {s : State} {k : SlotIx} {j : Job} (h : s.job k = some j) (single : j.gang = none) :
    s.membersOf k = [k] := by
  unfold membersOf
  rw [h, Option.bind_some, single]

/-- CANCEL of a single job acts on it alone (R75). -/
theorem cancelled_single {s : State} {k : SlotIx} {j : Job} (h : s.job k = some j) (single : j.gang = none)
    (hit : j.outcome = none ∧ j.state ≠ .cooling ∨ j.state = .cooling) : s.cancelled k = [k] := by
  unfold cancelled
  rw [membersOf_single h single]
  refine List.filter_eq_self.2 fun m hm => ?_
  obtain rfl := List.mem_singleton.1 hm
  rcases hit with ⟨fresh, before⟩ | cooling
  · rw [reachable_iff.2 ⟨j, h, fresh, before⟩]
    rfl
  · rw [Bool.or_eq_true]
    exact .inr (by rw [beq_self_eq_true, Bool.true_and]; exact jobIs_iff.2 ⟨j, h, beq_iff_eq.2 cooling⟩)

theorem cancelJobs_before {s : State} {k : SlotIx} {j : Job} (h : s.job k = some j) (single : j.gang = none)
    (fresh : j.outcome = none) (before : j.state ≠ .cooling) :
    cancelJobs k s = abortPath k (s.setOutcome k .cancelled) := by
  have given : giveOutcome .cancelled s k = s.setOutcome k .cancelled :=
    if_pos (reachable_iff.2 ⟨j, h, fresh, before⟩)
  have step := cancelStep_of_before (s := s.setOutcome k .cancelled) (m := k) fun i hi => by
    rw [setOutcome_eq, job_modJob_self, h] at hi
    have same : (j.withOutcome .cancelled).state = j.state := by rw [withOutcome_only]
    obtain rfl : j.withOutcome .cancelled = i := Option.some.inj hi
    rw [same]
    exact before
  rw [cancelJobs_eq, cancelled_single h single (.inl ⟨fresh, before⟩)]
  simp only [List.foldl_cons, List.foldl_nil, given, step]

theorem cancelJobs_cooling {s : State} {k : SlotIx} {j : Job} (h : s.job k = some j) (single : j.gang = none)
    (cooling : j.state = .cooling) : cancelJobs k s = endJob k .cut s := by
  have given : giveOutcome .cancelled s k = s := if_neg (by rw [reachable_of_cooling h cooling]; decide)
  rw [cancelJobs_eq, cancelled_single h single (.inr cooling)]
  simp only [List.foldl_cons, List.foldl_nil, given, cancelStep_of_cooling h cooling]

/-- CANCEL with a handle that names a job of the station (R74). -/
theorem reqCancel_of_named {s : State} {n : Station} {k : SlotIx} {j : Job} (h : s.job k = some j)
    (station : j.station = n) : reqCancel (.sp n) [byteOf k.val, (s.slot k).gen] s =
      accept [j.state.code, byteOf (s.cancelled k).length] (cancelJobs k s) := by
  refine (withField_of_some (parseHandle_byteOf k (s.slot k).gen) s _).trans ?_
  rw [current_handleOf h]
  exact if_neg (not_not.2 station)

/-- CANCEL with a handle that names no job of the station (R74). -/
theorem reqCancel_unknown {s : State} {n : Station} {k : SlotIx} {g : Byte}
    (bad : (s.slot k).gen ≠ g ∨ s.job k = none ∨ ∃ j, s.job k = some j ∧ j.station ≠ n) :
    reqCancel (.sp n) [byteOf k.val, g] s = refuse .unknownJob 0 0 s := by
  refine (withField_of_some (parseHandle_byteOf k g) s _).trans ?_
  split
  · rfl
  · next j named =>
    have job : s.job k = some j := current_eq_some named
    refine if_pos fun station => ?_
    rcases bad with other | vacant | ⟨i, hi, no⟩
    · rw [current_eq_none (.inl other)] at named
      nomatch named
    · rw [vacant] at job
      nomatch job
    · exact no (by rw [← Option.some.inj (job.symm.trans hi), station])

theorem nodup_membersOf (s : State) (k : SlotIx) : (s.membersOf k).Nodup := by
  unfold membersOf
  split
  · exact List.nodup_singleton k
  · exact (List.nodup_finRange 48).filter _

/-- A list without repetition that holds `k`, filtered by a test that `k` fails or by being `k`, counts one more. -/
theorem length_filter_or_eq {l : List SlotIx} {k : SlotIx} {r : SlotIx → Bool} {b : Bool} (nodup : l.Nodup)
    (mem : k ∈ l) (apart : b = true → r k = false) :
    (l.filter fun m => r m || (m == k && b)).length = (l.filter r).length + if b = true then 1 else 0 := by
  cases b with
  | false => simp
  | true =>
    have single : (l.filter fun m => m == k).length = 1 := by
      rw [← List.countP_eq_length_filter]
      exact List.count_eq_one_of_mem nodup mem
    have split := List.length_eq_length_filter_add (l := l.filter fun m => r m || (m == k && true)) r
    rw [List.filter_filter, List.filter_filter] at split
    have first : (l.filter fun m => r m && (r m || (m == k && true))) = l.filter r :=
      List.filter_congr fun m _ => by cases r m <;> rfl
    have second : (l.filter fun m => !r m && (r m || (m == k && true))) = l.filter fun m => m == k :=
      List.filter_congr fun m _ => by
        by_cases same : m = k
        · rw [same, apart rfl, beq_self_eq_true]
          rfl
        · rw [beq_eq_false_iff_ne.2 same]
          cases r m <;> rfl
    rw [first, second, single] at split
    exact split

/-- The number that CANCEL answers (R74). -/
theorem length_cancelled {s : State} {k : SlotIx} {j : Job} (h : s.job k = some j) : (s.cancelled k).length =
    ((s.membersOf k).filter fun m => s.jobIs m fun i => i.outcome.isNone && i.state != .cooling).length +
      if j.state = .cooling then 1 else 0 := by
  have reaches : (s.membersOf k).filter s.reachable =
      (s.membersOf k).filter fun m => s.jobIs m fun i => i.outcome.isNone && i.state != .cooling :=
    List.filter_congr fun m _ => by
      unfold reachable
      congr 1
      funext i
      cases i.state <;> rfl
  have cools : s.cancelled k =
      (s.membersOf k).filter fun m => s.reachable m || (m == k && decide (j.state = .cooling)) := by
    refine List.filter_congr fun m _ => congrArg _ ?_
    by_cases same : m = k
    · subst same
      rw [jobIs, h]
      rfl
    · rw [beq_eq_false_iff_ne.2 same]
      rfl
  rw [cools, length_filter_or_eq (nodup_membersOf s k) (self_mem_membersOf s k) fun cooling =>
    reachable_of_cooling h (of_decide_eq_true cooling), reaches]
  simp only [decide_eq_true_eq]

/-- The outcomes that CANCEL gives (R75, R76). -/
theorem cancel_given {s : State} {k m : SlotIx} {i : Job} (mem : m ∈ s.membersOf k) (h : s.job m = some i)
    (fresh : i.outcome = none) (before : i.state ≠ .cooling) : s.Stopped (cancelJobs k s) m i .cancelled := by
  have reach := reachable_iff.2 ⟨i, h, fresh, before⟩
  have hit : m ∈ s.cancelled k := mem_cancelled.2 ⟨mem, .inl reach⟩
  rw [cancelJobs_eq]
  refine stopped_of_given h (by rw [giveAll_slot, if_pos ⟨hit, reach⟩])
    ((Accounted.refl _).folds fun u x hu => hu.trans (cancelStep_accounted u x))
    (foldl_cold (fun u x => cancelStep_onward u x) (fun u => cancelStep_cold u m) hit _)

/-- A job in COOLING stands through the steps of CANCEL at other slots, but for its converter. -/
theorem cancelStep_coolsAt {s : State} {m x : SlotIx} {i : Job} (ne : m ≠ x) (h : s.job m = some i)
    (cooling : i.state = .cooling) : ∃ c, (cancelStep s x).job m = some { i with converter := c } := by
  unfold cancelStep
  split
  · exact ⟨i.converter, endJob_keeps (l := [x]) (.refl s) (.inl (List.mem_singleton_self x)) m i
      (fun e => ne (List.mem_singleton.1 e)) h (by rw [cooling]; nofun)⟩
  · exact abortPath_coolsOn x s m i h cooling

theorem cancelSteps_coolsAt {m : SlotIx} (l : List SlotIx) :
    ∀ {s : State} {i : Job}, m ∉ l → s.job m = some i → i.state = .cooling →
      ∃ c, (l.foldl cancelStep s).job m = some { i with converter := c } := by
  induction l with
  | nil => exact fun {s i} _ h _ => ⟨i.converter, h⟩
  | cons x l ih =>
    intro s i fresh h cooling
    obtain ⟨ne, fresh⟩ := not_or.1 (List.mem_cons.not.1 fresh)
    obtain ⟨c, hc⟩ := cancelStep_coolsAt ne h cooling
    obtain ⟨c', hc'⟩ := ih fresh hc cooling
    exact ⟨c', hc'⟩

theorem giveAll_cooling {o : JobOutcome} {l : List SlotIx} {s : State} {k : SlotIx} {j : Job} (h : s.job k = some j)
    (cooling : j.state = .cooling) : (l.foldl (giveOutcome o) s).slot k = s.slot k := by
  rw [giveAll_slot, if_neg]
  rw [reachable_of_cooling h cooling]
  exact fun x => Bool.false_ne_true x.2

/-- Another member in COOLING is left (R76). -/
theorem cancel_cooling_other {s : State} {k m : SlotIx} {i : Job} (ne : m ≠ k) (h : s.job m = some i)
    (cooling : i.state = .cooling) : ∃ c, (cancelJobs k s).job m = some { i with converter := c } := by
  have out : m ∉ s.cancelled k := fun hit => by
    rcases (mem_cancelled.1 hit).2 with reach | ⟨same, _⟩
    · rw [reachable_of_cooling h cooling] at reach
      nomatch reach
    · exact ne same
  rw [cancelJobs_eq]
  exact cancelSteps_coolsAt _ out (by rw [State.job, giveAll_cooling h cooling]; exact h) cooling

/-- The result of a job that ends joins the queue of its station (R78). -/
theorem endJob_result {s : State} {k : SlotIx} {j : Job} (r : Release) (h : s.job k = some j) :
    s.resultOf k j r ∈ ((endJob k r s).station j.station).results := by
  refine ((endJob_grown r h).results j.station).subset ?_
  rw [endSteps_station, if_pos rfl]
  exact List.mem_append_right _ (List.mem_singleton_self _)

/-- The named member in COOLING is cut, its outcome kept (R75, R144). -/
theorem cancel_cooling_named {s : State} {k : SlotIx} {j : Job} (h : s.job k = some j) (cooling : j.state = .cooling) :
    (cancelJobs k s).job k = none ∧ ∃ r ∈ ((cancelJobs k s).station j.station).results,
      r.handle = s.handleOf k ∧ r.outcome = j.outcome ∧ r.release = .cut := by
  have hit : k ∈ s.cancelled k := mem_cancelled.2 ⟨self_mem_membersOf s k, .inr ⟨rfl, j, h, cooling⟩⟩
  obtain ⟨pre, post, e, fresh⟩ := List.eq_append_cons_of_mem hit
  rw [cancelJobs_eq]
  generalize given : (s.cancelled k).foldl (giveOutcome .cancelled) s = u
  have slot : u.slot k = s.slot k := by rw [← given]; exact giveAll_cooling h cooling
  have job : u.job k = some j := by rw [State.job, slot]; exact h
  obtain ⟨c, hc⟩ := cancelSteps_coolsAt pre fresh job cooling
  have before : u.Accounted (pre.foldl cancelStep u) :=
    (Accounted.refl u).folds fun v x hv => hv.trans (cancelStep_accounted v x)
  have gen : ((pre.foldl cancelStep u).slot k).gen = (s.slot k).gen := by
    rcases before.jobs k j job with ⟨i, alive, _⟩ | ⟨gone, _⟩
    · rw [alive, slot]
    · rw [gone] at hc
      nomatch hc
  rw [e, List.foldl_append, List.foldl_cons, cancelStep_of_cooling hc cooling]
  generalize pre.foldl cancelStep u = v at hc gen
  have after (w : State) : w.Accounted (post.foldl cancelStep w) :=
    (Accounted.refl w).folds fun v x hv => hv.trans (cancelStep_accounted v x)
  have result := endJob_result .cut hc
  have handle : (v.resultOf k { j with converter := c } .cut).handle = s.handleOf k := by
    rw [State.handleOf, ← gen]
    rfl
  exact ⟨(after _).free k (endJob_none k .cut v), _, ((after _).results _).subset result, handle, rfl, rfl⟩

/-! ## What the end of a request leaves -/

theorem renewLease_slots (n : Station) (s : State) : (renewLease n s).slots = s.slots := by
  rw [renewLease, modLease_eq]
  rfl

theorem renewLease_results (n m : Station) (s : State) :
    ((renewLease n s).station m).results = (s.station m).results := by
  rw [renewLease, modLease_eq]
  refine (congrArg StationSt.results (station_setStation s n m _)).trans ?_
  split
  · next same => rw [same]
  · rfl

theorem renewAt_slots (p : Port) (s : State) : (renewAt p s).slots = s.slots := by
  cases p with
  | sp n => exact renewLease_slots n s
  | svp => rfl

theorem renewAt_results (p : Port) (m : Station) (s : State) :
    ((renewAt p s).station m).results = (s.station m).results := by
  cases p with
  | sp n => exact renewLease_results n m s
  | svp => rfl

theorem finish_port (s : State) (p : Port) : (finish s).port p = s.port p := by
  rw [finish_only]
  rfl

theorem finish_station (s : State) (n : Station) : (finish s).station n = s.station n := by
  rw [finish_only]
  rfl

/-- The end of an accepted request at a port: the lease renewed, the reply built, the event completed (R86, R168,
R180). -/
def State.accepted (s : State) (p : Port) (kind : Byte) (data : List Byte) : State :=
  finish ((renewAt p s).replying p kind .accepted data)

theorem exec_of_accepted {c : Instr} {p : Port} {kind : Byte} {b data : List Byte} {s u : State}
    (work : exec c s = .next (finish (requestArrives p kind b s))) (free : s.free p)
    (h : carryOut p kind b (s.holdingIt p kind b) = accept data u) : exec c s = .next (u.accepted p kind data) := by
  rw [work, requestArrives_of_free free, take_of_accept h]
  rfl

theorem accepted_reply (s : State) (p : Port) (kind : Byte) (data : List Byte) :
    ((s.accepted p kind data).port p).reply = some ⟨kind, .accepted, data⟩ := by
  rw [accepted, finish_port, replying, port_setPort_self]

theorem accepted_results (s : State) (p : Port) (kind : Byte) (data : List Byte) (n : Station) :
    ((s.accepted p kind data).station n).results = (s.station n).results := by
  rw [accepted, finish_station]
  exact renewAt_results p n s

/-- A request's end changes a job in READY alone. -/
theorem accepted_job {s : State} {k : SlotIx} (h : ∀ j, s.job k = some j → j.state ≠ .ready) (p : Port) (kind : Byte)
    (data : List Byte) : (s.accepted p kind data).job k = s.job k := by
  have same : ((renewAt p s).replying p kind .accepted data).job k = s.job k := by
    have slots : ((renewAt p s).replying p kind .accepted data).slots = s.slots := renewAt_slots p s
    rw [State.job, State.slot, slots]
    rfl
  cases e : s.job k with
  | none =>
    rw [e] at same
    rw [accepted, State.job, finish_free same, ← State.job, same]
  | some j =>
    rw [e] at same
    exact finish_job_keep same (h j e)

theorem State.Stopped.accepted {s t : State} {k : SlotIx} {j : Job} {o : JobOutcome} (h : s.Stopped t k j o) (p : Port)
    (kind : Byte) (data : List Byte) : s.Stopped (t.accepted p kind data) k j o := by
  rcases h with ⟨gone, result⟩ | ⟨hot, i, hi, cool, given⟩
  · refine .inl ⟨?_, ?_⟩
    · exact (accepted_job (fun i hi => by rw [gone] at hi; nomatch hi) ..).trans gone
    · rw [accepted_results]
      exact result
  · refine .inr ⟨hot, i, ?_, cool, given⟩
    rw [accepted_job fun x hx => ?_, hi]
    rw [← Option.some.inj (hi.symm.trans hx), cool]
    nofun

/-- Settles O16: CANCEL gives the outcomes, then takes its steps in member order. -/
theorem cancelSingle : Obligations.CancelSingle := by
  unfold Obligations.CancelSingle
  refine ⟨fun s n k j free job station single => ⟨fun fresh before => ?_, fun cooling => ?_⟩,
    fun s n k j g free job station gang => ?_, fun s settled => ⟨?_, fun n b free => ⟨fun bad => ?_, fun k g hb bad => ?_⟩⟩⟩
  · have effect := reqCancel_of_named (s := s.holdingIt (.sp n) 0x13 [byteOf k.val, (s.slot k).gen]) job station
    rw [cancelled_single (s := s.holdingIt ..) job single (.inl ⟨fresh, before⟩),
      cancelJobs_before (s := s.holdingIt ..) job single fresh before] at effect
    exact accepts_of (exec_instrOfFrame _ 0x13 _ s) free effect rfl
  · have effect := reqCancel_of_named (s := s.holdingIt (.sp n) 0x13 [byteOf k.val, (s.slot k).gen]) job station
    rw [cancelled_single (s := s.holdingIt ..) job single (.inr cooling),
      cancelJobs_cooling (s := s.holdingIt ..) job single cooling, cooling] at effect
    exact accepts_of (exec_instrOfFrame _ 0x13 _ s) free effect rfl
  · have effect := reqCancel_of_named (s := s.holdingIt (.sp n) 0x13 [byteOf k.val, (s.slot k).gen]) job station
    rw [length_cancelled (s := s.holdingIt ..) job] at effect
    refine ⟨_, exec_of_accepted (exec_instrOfFrame _ 0x13 _ s) free effect, accepted_reply .., fun m i hm hi fresh before => ?_,
      fun cooling => ?_, fun m i ne hi cooling => ?_⟩
    · exact (cancel_given (s := s.holdingIt ..) hm hi fresh before).accepted ..
    · obtain ⟨gone, result⟩ := cancel_cooling_named (s := s.holdingIt (.sp n) 0x13 [byteOf k.val, (s.slot k).gen]) job cooling
      refine ⟨?_, ?_⟩
      · exact (accepted_job (fun i hi => by rw [gone] at hi; nomatch hi) ..).trans gone
      · subst station
        rw [accepted_results]
        exact result
    · obtain ⟨c, hc⟩ := cancel_cooling_other (s := s.holdingIt (.sp n) 0x13 [byteOf k.val, (s.slot k).gen]) ne hi cooling
      refine ⟨c, ?_⟩
      rw [accepted_job fun x hx => ?_, hc]
      rw [← Option.some.inj (hc.symm.trans hx)]
      exact fun ready => by rw [cooling] at ready; nomatch ready
  · exact wrongOnSvp_of (fun p b => exec_instrOfFrame p 0x13 b s) settled fun b u => rfl
  · exact refuses_of (exec_instrOfFrame _ 0x13 _ s) settled free (by decide)
      (withField_of_none (parseHandle_eq_none bad) _ _)
  · subst hb
    exact refuses_of (exec_instrOfFrame _ 0x13 _ s) settled free (by decide)
      (reqCancel_unknown (s := s.holdingIt ..) bad)

end Sys2Proof.Machine
end

section
/-! PROOFS. Requests of the supervisor: WRITE-HEAD, READ-TABLE and the converter requests (R15, R20, R31 to R34). -/

namespace Sys2Proof.Machine

open State

/-! ## Fields -/

theorem rdFin_eq_some {n : Nat} {b : Byte} {i : Fin n} : rdFin n b = some i ↔ i.val = b.toNat := by
  unfold rdFin
  split
  · exact ⟨fun e => by rw [← Option.some.inj e], fun e => congrArg some (Fin.ext e.symm)⟩
  · next out => exact ⟨nofun, fun e => (out (e ▸ i.isLt)).elim⟩

theorem rdFin_eq_none {n : Nat} {b : Byte} (h : n ≤ b.toNat) : rdFin n b = none := dif_neg (Nat.not_lt.2 h)

/-! ## WRITE-HEAD -/

theorem ownerOfByte_eq_some {o : Byte} {x : Option Station} : ownerOfByte o = some x ↔
    o = 0xFF ∧ x = none ∨ ∃ st : Station, st.val = o.toNat ∧ x = some st := by
  unfold ownerOfByte
  split
  · next none_ =>
    subst none_
    refine ⟨fun e => .inl ⟨rfl, (Option.some.inj e).symm⟩, ?_⟩
    rintro (⟨_, rfl⟩ | ⟨st, hst, _⟩)
    · rfl
    · have big : (0xFF : Byte).toNat = 255 := rfl
      omega
  · next other =>
    rw [Option.map_eq_some_iff]
    refine ⟨?_, ?_⟩
    · rintro ⟨st, hst, rfl⟩
      exact .inr ⟨st, rdFin_eq_some.1 hst, rfl⟩
    · rintro (⟨none_, _⟩ | ⟨st, hst, rfl⟩)
      · exact (other none_).elim
      · exact ⟨st, rdFin_eq_some.2 hst, rfl⟩

/-- The ranges and checks of a head record (R18, R20). -/
theorem headFieldsOk_iff {r : HeadRec} : headFieldsOk r = true ↔
    r.cap ≤ 300 ∧ 10000 ≤ r.fmin ∧ r.fmin < r.nominal ∧ r.nominal < r.fmax ∧ r.fmax ≤ 400000 ∧
      10 ≤ r.step ∧ r.step ≤ 5000 ∧ 1 ≤ r.settle ∧ r.settle ≤ 50 ∧ 1 ≤ r.seekPower ∧ r.seekPower ≤ 50 ∧
      (r.cap = 0 ∨ r.seekPower ≤ r.cap) := by
  simp only [headFieldsOk, Bool.and_eq_true, Bool.or_eq_true, decide_eq_true_eq, inRange_iff, beq_iff_eq]
  omega

/-- What the fixed payload of WRITE-HEAD reads as (R20). -/
theorem parseWriteHead_eq_some {n o c0 c1 n0 n1 n2 n3 i0 i1 i2 i3 a0 a1 a2 a3 s0 s1 t p0 p1 fl : Byte} {h : Head}
    {r : HeadRec} :
    parseWriteHead [n, o, c0, c1, n0, n1, n2, n3, i0, i1, i2, i3, a0, a1, a2, a3, s0, s1, t, p0, p1, fl] =
        some (h, r) ↔
      h.val = n.toNat ∧ ownerOfByte o = some r.owner ∧ headFieldsOk r = true ∧ fl.toNat < 4 ∧
        r = ⟨r.owner, rd2 c0 c1, rd4 n0 n1 n2 n3, rd4 i0 i1 i2 i3, rd4 a0 a1 a2 a3, rd2 s0 s1, t.toNat, rd2 p0 p1,
          fl.getLsbD 0, fl.getLsbD 1, none⟩ := by
  rw [parseWriteHead]
  constructor
  · intro e
    split at e
    · next head owner hn ho =>
      dsimp only at e
      split at e
      · next fits =>
        obtain ⟨rfl, rfl⟩ := Prod.mk.inj (Option.some.inj e)
        obtain ⟨fields, flags⟩ := Bool.and_eq_true_iff.1 fits
        exact ⟨rdFin_eq_some.1 hn, ho, fields, of_decide_eq_true flags, rfl⟩
      · nomatch e
    · nomatch e
  · rintro ⟨head, owner, fields, flags, same⟩
    rw [rdFin_eq_some.2 head, owner]
    dsimp only
    rw [← same, fields, decide_eq_true flags]
    rfl

theorem parseWriteHead_length {b : List Byte} (h : b.length ≠ 22) : parseWriteHead b = none := by
  unfold parseWriteHead
  split
  · exact (h rfl).elim
  · rfl

theorem headAdmitted_eq_false {s : State} {h : Head} (unused : ∀ k j, s.job k = some j → j.head ≠ h) :
    s.headAdmitted h = false := by
  unfold headAdmitted
  rw [List.any_eq_false]
  intro k _ named
  obtain ⟨j, hj, same⟩ := jobIs_iff.1 named
  exact unused k j hj (beq_iff_eq.1 same)

theorem headAdmitted_of_job {s : State} {h : Head} {k : SlotIx} {j : Job} (hj : s.job k = some j) (named : j.head = h) :
    s.headAdmitted h = true :=
  List.any_eq_true.2 ⟨k, List.mem_finRange k, jobIs_iff.2 ⟨j, hj, beq_iff_eq.2 named⟩⟩

theorem keepLearned_eq_some {old : Option Nat} {r : HeadRec} {f : Nat} :
    keepLearned old r = some f ↔ old = some f ∧ r.fmin ≤ f ∧ f ≤ r.fmax := by
  rw [keepLearned, Option.filter_eq_some_iff, Bool.and_eq_true_iff, decide_eq_true_iff, decide_eq_true_iff]

theorem exec_writeHead (p : Port) (b : List Byte) (s : State) :
    exec (.writeHead p b) s = .next (finish (requestArrives p 0x45 b s)) :=
  exec_instrOfFrame p 0x45 b s

theorem reqWriteHead_of_some {b : List Byte} {h : Head} {r : HeadRec} (parsed : parseWriteHead b = some (h, r))
    (s : State) : reqWriteHead .svp b s =
      if s.headAdmitted h then refuse .inUse 0 0 s
      else accept [] (s.setHead h { r with learned := keepLearned (s.head h).learned r }) :=
  withField_of_some parsed s _

/-- Settles O29: the record is stored as read, but for the learned frequency, unless a job names the head. -/
theorem writeHeadStores : Obligations.WriteHeadStores := by
  unfold Obligations.WriteHeadStores
  refine ⟨fun s b h r settled free parsed => ⟨fun unused => ?_, fun k j hj named => ?_⟩,
    fun s b settled free bad => ?_, fun b => parseWriteHead_length, ?_⟩
  · refine ⟨keepLearned (s.head h).learned r, exec_of_accept (exec_writeHead ..) free (settled.setHead h _) ?_,
      fun f => keepLearned_eq_some⟩
    exact (reqWriteHead_of_some parsed _).trans
      (if_neg (by rw [headAdmitted_eq_false (s := s.holdingIt ..) unused]; decide))
  · exact refuses_of (exec_writeHead ..) settled free (by decide)
      ((reqWriteHead_of_some parsed _).trans (if_pos (headAdmitted_of_job (s := s.holdingIt ..) hj named)))
  · exact refuses_of (exec_writeHead ..) settled free (by decide) (withField_of_none bad _ _)
  · intro n o c0 c1 n0 n1 n2 n3 i0 i1 i2 i3 a0 a1 a2 a3 s0 s1 t p0 p1 fl h r
    rw [parseWriteHead_eq_some, ownerOfByte_eq_some, headFieldsOk_iff]
    obtain ⟨owner, cap, nominal, fmin, fmax, step, settle, seekPower, learning, guardEnable, learned⟩ := r
    simp only [HeadRec.mk.injEq, true_and]
    tauto

/-! ## READ-TABLE -/

theorem tableSel_find (sel : TableSel) :
    [TableSel.segments, .profiles, .heads].find? (fun x => x.code == sel.code) = some sel := by
  cases sel <;> rfl

theorem parseReadTable_code {sel : TableSel} {f c : Byte} : parseReadTable [sel.code, f, c] =
    if inRange 1 c.toNat sel.limits.2 && decide (f.toNat + c.toNat ≤ sel.limits.1) then some (sel, f.toNat, c.toNat)
    else none := by
  rw [parseReadTable, tableSel_find]

theorem parseReadTable_eq_none {b : List Byte} (h : ∀ x f c, b = [x, f, c] → 2 < x.toNat) :
    parseReadTable b = none := by
  unfold parseReadTable
  split
  · next x f c =>
    have large := h x f c rfl
    have unknown : [TableSel.segments, .profiles, .heads].find? (fun y => y.code == x) = none := by
      rw [List.find?_eq_none]
      intro sel _ same
      rw [← beq_iff_eq.1 same] at large
      cases sel <;> exact absurd large (by decide)
    rw [unknown]
  · rfl

theorem exec_readTable (p : Port) (b : List Byte) (s : State) :
    exec (.readTable p b) s = .next (finish (requestArrives p 0x47 b s)) :=
  exec_instrOfFrame p 0x47 b s

/-- Settles O31: a read in range is answered with the entries of the table, and any other is no read. -/
theorem readTableReads : Obligations.ReadTableReads := by
  unfold Obligations.ReadTableReads
  refine ⟨fun s sel f c settled free => ⟨fun lo hi fits => ?_, fun bad => ?_⟩, fun s b settled free bad => ?_⟩
  · have parsed : parseReadTable [sel.code, f, c] = some (sel, f.toNat, c.toNat) := by
      rw [parseReadTable_code, if_pos]
      rw [Bool.and_eq_true_iff, inRange_iff, decide_eq_true_iff]
      exact ⟨⟨lo, hi⟩, fits⟩
    refine exec_of_accept (exec_readTable ..) free settled ((withField_of_some parsed _ _).trans ?_)
    rw [byteOf_toNat, byteOf_toNat]
    rfl
  · have parsed : parseReadTable [sel.code, f, c] = none := by
      rw [parseReadTable_code, if_neg]
      rw [Bool.and_eq_true_iff, inRange_iff, decide_eq_true_iff]
      omega
    exact refuses_of (exec_readTable ..) settled free (by decide) (withField_of_none parsed _ _)
  · exact refuses_of (exec_readTable ..) settled free (by decide) (withField_of_none (parseReadTable_eq_none bad) _ _)

/-! ## Writing a converter -/

@[simp] theorem setConv_setConv (s : State) (c : Conv) (v w : Converter) : (s.setConv c v).setConv c w = s.setConv c w := by
  simp only [setConv, Vector.set_set]

theorem modConv_setConv (s : State) (c : Conv) (v : Converter) (f : Converter → Converter) :
    (s.setConv c v).modConv c f = s.setConv c (f v) := by
  rw [modConv, conv_setConv_self, setConv_setConv]

theorem State.Settled.setConv {s : State} (h : s.Settled) (c : Conv) (v : Converter) : (s.setConv c v).Settled :=
  ⟨h.noCause, h.scanner⟩

/-- What a disconnect has made of a relay is a matter of that relay alone. -/
theorem State.Disconnects.of_relay {s t u : State} {p : Pool} (h : s.Disconnects t p) (e : u.relay p = t.relay p) :
    s.Disconnects u p := by
  constructor <;> rw [e]
  · exact h.opened
  · exact h.opening
  · exact h.closing
  · exact h.moves
  · exact h.waits
  · exact h.stays

/-- A disconnect from a converter that has only changed its state. -/
theorem disconnect_setConv_spec {c : Conv} {p : Pool} (h : poolOf c = some p) {v : Converter} {s : State}
    (same : v.outputOn = (s.conv c).outputOn ∧ v.lastOffAt = (s.conv c).lastOffAt ∧ v.interval = (s.conv c).interval) :
    s.Disconnects (disconnect c (s.setConv c v)) p := by
  refine (disconnect_spec h (s.setConv c v)).congr rfl rfl rfl ?_
  rw [poolConv_of_poolOf h, conv_setConv_self]
  exact same

/-- The end of a request leaves a converter that is not in IDLE, and the relay of one, as they are. -/
theorem accepted_conv {s : State} {c : Conv} (h : (s.conv c).state ≠ .idle) (kind : Byte) (data : List Byte) :
    (s.accepted .svp kind data).conv c = s.conv c :=
  finish_conv_busy h

theorem accepted_relay {s : State} {p : Pool} (h : (s.conv (poolConv p)).state ≠ .idle) (kind : Byte)
    (data : List Byte) : (s.accepted .svp kind data).relay p = s.relay p :=
  finish_relay_busy h

/-! ## CONVERTER-ENABLE -/

theorem onOffOfByte_boolByte (on : Bool) : onOffOfByte (boolByte on) = some on := by
  cases on <;> rfl

theorem parseEnable_byteOf (c : Conv) (on : Bool) : parseEnable [byteOf c.val, boolByte on] = some (c, on) := by
  rw [parseEnable, rdFin_byteOf (by decide), onOffOfByte_boolByte]

theorem parseEnable_eq_none {b : List Byte} (h : ∀ x v, b = [x, v] → 5 < x.toNat ∨ 1 < v.toNat) :
    parseEnable b = none := by
  unfold parseEnable
  split
  · next x v =>
    rcases h x v rfl with conv | value
    · rw [rdFin_eq_none conv]
    · have unknown : onOffOfByte v = none := by
        unfold onOffOfByte
        rw [if_neg (by rintro rfl; exact absurd value (by decide)),
          if_neg (by rintro rfl; exact absurd value (by decide))]
      rw [unknown]
      cases rdFin 6 x <;> rfl
  · rfl

theorem exec_converterEnable (p : Port) (b : List Byte) (s : State) :
    exec (.converterEnable p b) s = .next (finish (requestArrives p 0x48 b s)) :=
  exec_instrOfFrame p 0x48 b s

theorem reqConverterEnable_byteOf (c : Conv) (on : Bool) (s : State) :
    reqConverterEnable .svp [byteOf c.val, boolByte on] s =
      accept [] (if (s.conv c).enabled = on then s else setEnabled c on s) :=
  withField_of_some (parseEnable_byteOf c on) s _

section
variable {s : State} {c : Conv}

theorem wantsService_setConv_disabled {v : Converter} (h : v.enabled = false) : wantsService c (s.setConv c v) = false := by
  rw [wantsService, conv_setConv_self, h, Bool.false_and]

/-- An entry into OFF that no WARMUP follows (R23). -/
theorem enterOff_of_unwanted (h : wantsService c s = false) :
    enterOff c s = disconnect c (s.modConv c fun v => { v with state := .off, pend := .none, warmTimer := none }) := by
  have still : wantsService c (s.modConv c fun v => { v with state := .off, pend := .none, warmTimer := none }) = false := by
    rw [← h, wantsService, conv_modConv_self]
    rfl
  unfold enterOff
  dsimp only
  rw [wantsService_disconnect, still]
  exact if_neg (by decide)

theorem setEnabled_warms (off : (s.conv c).state = .off) (serves : s.mode ≠ .standby) :
    setEnabled c true s =
      s.setConv c { s.conv c with enabled := true, state := .warmup, warmTimer := some (s.now + 200) } := by
  have first : s.modConv c (fun v => { v with enabled := true }) = s.setConv c { s.conv c with enabled := true } := rfl
  have wants : wantsService c (s.setConv c { s.conv c with enabled := true }) = true := by
    rw [wantsService, conv_setConv_self, setConv_mode, Bool.true_and]
    exact bne_iff_ne.2 serves
  unfold setEnabled
  rw [first, if_pos rfl, if_pos ⟨by rw [conv_setConv_self]; exact off, wants⟩, enterWarmup, modConv_setConv]
  rfl

theorem setEnabled_only (h : (s.conv c).state ≠ .off ∨ s.mode = .standby) :
    setEnabled c true s = s.setConv c { s.conv c with enabled := true } := by
  have first : s.modConv c (fun v => { v with enabled := true }) = s.setConv c { s.conv c with enabled := true } := rfl
  unfold setEnabled
  rw [first, if_pos rfl, if_neg]
  rw [conv_setConv_self, wantsService, conv_setConv_self, setConv_mode]
  rintro ⟨off, wants⟩
  rcases h with on | mode
  · exact on off
  · rw [mode] at wants
    nomatch wants

theorem setEnabled_false : setEnabled c false s = disableConv c (s.setConv c { s.conv c with enabled := false }) := rfl

theorem setEnabled_rests (h : (s.conv c).state = .off ∨ (s.conv c).state = .faulted) :
    setEnabled c false s = s.setConv c { s.conv c with enabled := false } := by
  rw [setEnabled_false, disableConv, conv_setConv_self]
  rcases h with state | state <;> rw [state]

theorem setEnabled_stops (h : (s.conv c).state = .idle ∨ (s.conv c).state = .held) :
    setEnabled c false s = disconnect c (s.setConv c { s.conv c with
      enabled := false, state := .off, pend := .none, warmTimer := none }) := by
  have off : enterOff c (s.setConv c { s.conv c with enabled := false }) = _ :=
    enterOff_of_unwanted (wantsService_setConv_disabled rfl)
  rw [modConv_setConv] at off
  rw [setEnabled_false, disableConv, conv_setConv_self]
  rcases h with state | state <;> rw [state] <;> exact off

theorem pendOff_setConv (v : Converter) :
    pendOff c (s.setConv c v) = s.setConv c { v with pend := if v.pend = .faulted then .faulted else .off } := by
  rw [pendOff, modConv_setConv]
  split
  · next faulted => rw [← faulted]
  · rfl

theorem setEnabled_pends (h : (s.conv c).state ∉ [.off, .faulted, .idle, .held]) :
    setEnabled c false s = s.setConv c { s.conv c with
      enabled := false, pend := if (s.conv c).pend = .faulted then .faulted else .off } := by
  rw [setEnabled_false, disableConv, conv_setConv_self]
  cases e : (s.conv c).state
  case off | faulted | idle | held =>
    rw [e] at h
    exact absurd h (by decide)
  all_goals exact pendOff_setConv _

end

/-- Settles O32: by the state of the converter. -/
theorem converterEnableActs : Obligations.ConverterEnableActs := by
  unfold Obligations.ConverterEnableActs
  intro s c free
  have acts (on : Bool) (u : State) (differs : (s.conv c).enabled ≠ on) (e : setEnabled c on (s.holdingIt .svp 0x48
      [byteOf c.val, boolByte on]) = u) : carryOut .svp 0x48 [byteOf c.val, boolByte on]
        (s.holdingIt .svp 0x48 [byteOf c.val, boolByte on]) = accept [] u :=
    (reqConverterEnable_byteOf c on _).trans (congrArg (accept []) ((if_neg differs).trans e))
  refine ⟨fun on same settled => ?_, fun dis off serves => ?_, fun dis other => ?_, fun en rest => ?_, fun en rest => ?_,
    fun en busy => ?_, fun en rest p hp => ?_, fun settled => ⟨?_, fun b bad => ?_⟩⟩
  · exact exec_of_accept (exec_converterEnable ..) free settled
      ((reqConverterEnable_byteOf c on _).trans (congrArg (accept []) (if_pos same)))
  · exact accepts_of (exec_converterEnable ..) free
      (acts true _ (by rw [dis]; decide) (setEnabled_warms (s := s.holdingIt ..) off serves)) rfl
  · exact accepts_of (exec_converterEnable ..) free
      (acts true _ (by rw [dis]; decide) (setEnabled_only (s := s.holdingIt ..) other)) rfl
  · exact accepts_of (exec_converterEnable ..) free
      (acts false _ (by rw [en]; decide) (setEnabled_rests (s := s.holdingIt ..) rest)) rfl
  · exact accepts_of (exec_converterEnable ..) free
      (acts false _ (by rw [en]; decide) (setEnabled_stops (s := s.holdingIt ..) rest)) rfl
  · exact accepts_of (exec_converterEnable ..) free
      (acts false _ (by rw [en]; decide) (setEnabled_pends (s := s.holdingIt ..) busy)) rfl
  · have effect := acts false _ (by rw [en]; decide) (setEnabled_stops (s := s.holdingIt ..) rest)
    have off (v : Converter) (hv : v.state = .off) (u : State) : ((disconnect c (u.setConv c v)).conv c).state ≠ .idle := by
      rw [disconnect_conv, conv_setConv_self, hv]
      nofun
    refine ⟨_, exec_of_accepted (exec_converterEnable ..) free effect, ?_, ?_⟩
    · rw [accepted_conv (off _ rfl _), disconnect_conv, conv_setConv_self]
    · refine State.Disconnects.of_relay ?_ (accepted_relay (by rw [poolConv_of_poolOf hp]; exact off _ rfl _) _ _)
      exact (disconnect_setConv_spec hp (by exact ⟨rfl, rfl, rfl⟩)).congr rfl rfl rfl ⟨rfl, rfl, rfl⟩
  · exact wrongOnStations_of (fun p b => exec_converterEnable p b s) settled fun _ _ _ => rfl
  · exact refuses_of (exec_converterEnable ..) settled free (by decide) (withField_of_none (parseEnable_eq_none bad) _ _)

end Sys2Proof.Machine
end

section
/-! PROOFS. CONVERTER-HOLD, CONVERTER-RELEASE and CONVERTER-CLEAR (R32 to R34), and outside causes (R146, R151). -/

namespace Sys2Proof.Machine

open State

/-! ## CONVERTER-HOLD -/

theorem exec_converterHold (p : Port) (b : List Byte) (s : State) :
    exec (.converterHold p b) s = .next (finish (requestArrives p 0x49 b s)) :=
  exec_instrOfFrame p 0x49 b s

theorem reqConverterHold_byteOf (c : Conv) (s : State) : reqConverterHold .svp [byteOf c.val] s =
    if (s.conv c).cannotHold then refuse .wrongState 0 0 s
    else accept [] (if (s.conv c).state = .idle then enterHeld c s else s.modConv c fun v => { v with pend := .held }) :=
  withField_of_some (parseIndex_byteOf (by decide) c) s _

theorem Converter.cannotHold_iff {v : Converter} :
    v.cannotHold = true ↔ v.state ∈ [.off, .faulted, .held] ∨ v.pend ∈ [.off, .faulted] := by
  simp only [Converter.cannotHold, Bool.or_eq_true, beq_iff_eq, List.mem_cons, List.not_mem_nil, or_false]
  tauto

theorem Converter.cannotHold_eq_false {v : Converter} (state : v.state ∉ [.off, .faulted, .held])
    (pend : v.pend = .none ∨ v.pend = .held) : ¬ v.cannotHold = true := by
  rw [Converter.cannotHold_iff]
  rintro (h | h)
  · exact state h
  · rcases pend with e | e <;> exact absurd (e ▸ h) (by decide)

section
variable {s : State} {c : Conv}

theorem carryOut_hold_idle (idle : (s.conv c).state = .idle) (pend : (s.conv c).pend = .none ∨ (s.conv c).pend = .held)
    {b : List Byte} : carryOut .svp 0x49 [byteOf c.val] (s.holdingIt .svp 0x49 b) =
      accept [] (enterHeld c (s.holdingIt .svp 0x49 b)) :=
  (reqConverterHold_byteOf c _).trans ((if_neg (Converter.cannotHold_eq_false (v := s.conv c)
    (by rw [idle]; decide) pend)).trans (congrArg (accept []) (if_pos idle)))

theorem carryOut_hold_busy (busy : (s.conv c).state ∉ [.off, .faulted, .held, .idle])
    (pend : (s.conv c).pend = .none ∨ (s.conv c).pend = .held) {b : List Byte} :
    carryOut .svp 0x49 [byteOf c.val] (s.holdingIt .svp 0x49 b) =
      accept [] ((s.holdingIt .svp 0x49 b).modConv c fun v => { v with pend := .held }) := by
  have held : (s.conv c).state ∉ [.off, .faulted, .held] := fun h => busy (by revert h; simp; tauto)
  have idle : (s.conv c).state ≠ .idle := fun e => busy (by rw [e]; decide)
  exact (reqConverterHold_byteOf c _).trans ((if_neg (Converter.cannotHold_eq_false (v := s.conv c) held pend)).trans
    (congrArg (accept []) (if_neg idle)))

end

/-! ## CONVERTER-RELEASE -/

theorem exec_converterRelease (p : Port) (b : List Byte) (s : State) :
    exec (.converterRelease p b) s = .next (finish (requestArrives p 0x4A b s)) :=
  exec_instrOfFrame p 0x4A b s

theorem reqConverterRelease_byteOf (c : Conv) (s : State) : reqConverterRelease .svp [byteOf c.val] s =
    if (s.conv c).state = .held then
      if s.openingDue c then refuse .wrongState 0 0 s else accept [] (enterIdle c s)
    else if (s.conv c).pend = .held then accept [] (s.modConv c fun v => { v with pend := .none })
    else refuse .wrongState 0 0 s :=
  withField_of_some (parseIndex_byteOf (by decide) c) s _

/-- Entry into IDLE from WARMUP or HELD posts CONVERTER_STATE (R30). -/
theorem enterIdle_posts {c : Conv} {s : State} (h : (s.conv c).state = .warmup ∨ (s.conv c).state = .held) :
    enterIdle c s = ((s.setConv c { s.conv c with state := .idle, pend := .none }).post .svp
      (.converterState c .idle (s.conv c).cause)).raise := by
  have first : s.modConv c (fun v => { v with state := .idle, pend := .none }) =
    s.setConv c { s.conv c with state := .idle, pend := .none } := rfl
  unfold enterIdle
  dsimp only
  rw [if_pos h, first, postConverterState, conv_setConv_self]

theorem disconnect_fixed {c : Conv} (h : poolOf c = none) (s : State) : disconnect c s = s := by
  rw [disconnect, h]

theorem matrixTry_only (p : Pool) (s : State) : matrixTry p s = { s with relays := (matrixTry p s).relays } := by
  rw [matrixTry]
  split
  · rfl
  · dsimp only
    split <;> rfl

theorem disconnect_only (c : Conv) (s : State) : disconnect c s = { s with relays := (disconnect c s).relays } := by
  unfold disconnect
  split
  · rfl
  · exact matrixTry_only ..

/-- Settles O33: by the state of the converter and its pending target. -/
theorem converterHoldAndRelease : Obligations.ConverterHoldAndRelease := by
  unfold Obligations.ConverterHoldAndRelease
  refine ⟨fun s c free => ⟨fun idle pend => ?_, fun busy pend => ?_, fun cannot settled => ?_⟩,
    fun s c free => ⟨fun held still => ?_, fun held due settled => ?_, fun other held => ?_, fun other none_ settled => ?_⟩,
    fun s c => ⟨fun fixed => disconnect_fixed fixed s, fun p hp => ⟨disconnect_spec hp s, disconnect_only c s,
      fun q ne => disconnect_relay_ne (by rw [hp]; exact fun e => ne (Option.some.inj e).symm) s,
      fun free idle pend => ?_⟩⟩,
    fun s settled => ⟨?_, ?_, fun b free bad => ?_⟩⟩
  · exact accepts_of (exec_converterHold ..) free (carryOut_hold_idle idle pend) rfl
  · exact accepts_of (exec_converterHold ..) free (carryOut_hold_busy busy pend) rfl
  · exact refuses_of (exec_converterHold ..) settled free (by decide)
      ((reqConverterHold_byteOf c _).trans (if_pos (Converter.cannotHold_iff.2 cannot)))
  · refine accepts_of (exec_converterRelease ..) free
      ((reqConverterRelease_byteOf c _).trans ((if_pos held).trans (if_neg (Bool.eq_false_iff.1 still)))) ?_
    exact enterIdle_posts (s := s.holdingIt ..) (.inr held)
  · exact refuses_of (exec_converterRelease ..) settled free (by decide)
      ((reqConverterRelease_byteOf c _).trans ((if_pos held).trans (if_pos due)))
  · exact accepts_of (exec_converterRelease ..) free
      ((reqConverterRelease_byteOf c _).trans ((if_neg other).trans (if_pos held))) rfl
  · exact refuses_of (exec_converterRelease ..) settled free (by decide)
      ((reqConverterRelease_byteOf c _).trans ((if_neg other).trans (if_neg none_)))
  · have held : (enterHeld c (s.holdingIt .svp 0x49 [byteOf c.val])).conv c =
        { s.conv c with state := .held, pend := .none } := enterHeld_conv ..
    have busy : ((enterHeld c (s.holdingIt .svp 0x49 [byteOf c.val])).conv c).state ≠ .idle := by
      rw [held]
      nofun
    refine ⟨_, exec_of_accepted (exec_converterHold ..) free (carryOut_hold_idle idle pend), ?_, ?_⟩
    · rw [accepted_conv busy, held]
    · refine State.Disconnects.of_relay ?_ (accepted_relay (by rw [poolConv_of_poolOf hp]; exact busy) _ _)
      exact (disconnect_setConv_spec hp (by exact ⟨rfl, rfl, rfl⟩)).congr rfl rfl rfl ⟨rfl, rfl, rfl⟩
  · exact wrongOnStations_of (fun p b => exec_converterHold p b s) settled fun _ _ _ => rfl
  · exact wrongOnStations_of (fun p b => exec_converterRelease p b s) settled fun _ _ _ => rfl
  · have unread : parseIndex 6 b = none := parseIndex_eq_none bad
    exact ⟨refuses_of (exec_converterHold ..) settled free (by decide) (withField_of_none unread _ _),
      refuses_of (exec_converterRelease ..) settled free (by decide) (withField_of_none unread _ _)⟩

/-! ## CONVERTER-CLEAR -/

theorem exec_converterClear (p : Port) (b : List Byte) (s : State) :
    exec (.converterClear p b) s = .next (finish (requestArrives p 0x4B b s)) :=
  exec_instrOfFrame p 0x4B b s

theorem reqConverterClear_byteOf (c : Conv) (s : State) : reqConverterClear .svp [byteOf c.val] s =
    if (s.conv c).state ≠ .faulted then refuse .wrongState 0 0 s
    else if (s.conv c).pins.overcurrent || (s.conv c).pins.coolantLow then refuse .causePresent 0 0 s
    else accept [] (enterOff c (s.modConv c fun v => { v with cause := .none })) :=
  withField_of_some (parseIndex_byteOf (by decide) c) s _

theorem enterOff_state_ne_idle (c : Conv) (s : State) : ((enterOff c s).conv c).state ≠ .idle := by
  rw [enterOff_conv]
  split <;> nofun

/-- Settles O34: by what still stands at the converter. -/
theorem converterClearActs : Obligations.ConverterClearActs := by
  unfold Obligations.ConverterClearActs
  intro s c free
  refine ⟨fun faulted current low => ?_, fun other settled => ?_, fun faulted still settled => ?_, fun settled => ⟨?_,
    fun b bad => ?_⟩⟩
  · have cleared : carryOut .svp 0x4B [byteOf c.val] (s.holdingIt .svp 0x4B [byteOf c.val]) = accept []
        (enterOff c ((s.holdingIt .svp 0x4B [byteOf c.val]).modConv c fun v => { v with cause := .none })) :=
      (reqConverterClear_byteOf c _).trans ((if_neg (not_not_intro faulted)).trans
        (if_neg (show ¬ ((s.conv c).pins.overcurrent || (s.conv c).pins.coolantLow) = true by rw [current, low]; decide)))
    refine ⟨_, exec_of_accepted (exec_converterClear ..) free cleared, accepted_reply .., ?_⟩
    rw [accepted_conv (enterOff_state_ne_idle _ _), enterOff_conv, conv_modConv_self]
    have wants : wantsService c ((s.holdingIt .svp 0x4B [byteOf c.val]).modConv c fun v => { v with cause := .none }) =
        ((s.conv c).enabled && s.mode != .standby) := by
      rw [wantsService, conv_modConv_self]
      rfl
    rw [wants]
    refine ⟨by split <;> rfl, by split <;> rfl, fun enabled serves => ?_, fun h => ?_⟩
    · rw [if_pos (by rw [enabled, Bool.true_and]; exact bne_iff_ne.2 serves)]
      exact ⟨rfl, rfl⟩
    · rw [if_neg]
      rintro both
      obtain ⟨enabled, serves⟩ := Bool.and_eq_true_iff.1 both
      rcases h with off | standby
      · rw [off] at enabled
        nomatch enabled
      · exact bne_iff_ne.1 serves standby
  · exact refuses_of (exec_converterClear ..) settled free (by decide)
      ((reqConverterClear_byteOf c _).trans (if_pos other))
  · refine refuses_of (exec_converterClear ..) settled free (by decide)
      ((reqConverterClear_byteOf c _).trans ((if_neg (not_not_intro faulted)).trans (if_pos ?_)))
    exact Bool.or_eq_true_iff.2 still
  · exact wrongOnStations_of (fun p b => exec_converterClear p b s) settled fun _ _ _ => rfl
  · exact refuses_of (exec_converterClear ..) settled free (by decide) (withField_of_none (parseIndex_eq_none bad) _ _)

/-! ## Outside causes -/

/-- A job that has its outcome keeps one while further outcomes are given. -/
theorem giveAll_settled {o : JobOutcome} {l : List SlotIx} {s : State} {k : SlotIx}
    (h : ∀ j, s.job k = some j → j.state = .cooling ∨ j.outcome.isSome = true) :
    ∀ j, (l.foldl (giveOutcome o) s).job k = some j → j.state = .cooling ∨ j.outcome.isSome = true := by
  intro j hj
  unfold State.job at hj
  rw [giveAll_slot] at hj
  split at hj
  · obtain ⟨i, _, rfl⟩ := Option.map_eq_some_iff.1 hj
    exact .inr rfl
  · exact h j hj

/-- After the outcomes are given, every job that is hit has one or is in COOLING. -/
theorem giveAll_reached {o : JobOutcome} {p : Job → Bool} {s : State} {k : SlotIx} (hit : s.jobIs k p = true) :
    ∀ j, ((s.reached p).foldl (giveOutcome o) s).job k = some j → j.state = .cooling ∨ j.outcome.isSome = true := by
  intro j hj
  unfold State.job at hj
  rw [giveAll_slot] at hj
  split at hj
  · obtain ⟨i, _, rfl⟩ := Option.map_eq_some_iff.1 hj
    exact .inr rfl
  · next out =>
    by_contra live
    rw [not_or, Bool.not_eq_true, Option.isSome_eq_false_iff, Option.isNone_iff_eq_none] at live
    obtain ⟨warm, open_⟩ := live
    have reach : s.reachable k = true := reachable_iff.2 ⟨j, hj, open_, warm⟩
    exact out ⟨List.mem_filter.2 ⟨List.mem_finRange k, Bool.and_eq_true_iff.2 ⟨reach, hit⟩⟩, reach⟩

/-- An outside cause leaves no job that it is for before COOLING (R151). -/
theorem reach_cold {o : JobOutcome} {p : Job → Bool} {s : State} {k : SlotIx} (hit : s.jobIs k p = true) :
    (reach o p s).Cold k := by
  have passes : reach o p s = allSlots.foldl abortGiven (((s.reached p).flatMap s.membersOf).foldl
      (giveOutcome .gangAbort) ((s.reached p).foldl (giveOutcome o) s)) := by
    rw [← gangPass .gangAbort _ fun k => giveAll_members o _ s k]
    rfl
  rw [passes]
  exact abortGiven_foldl_cold (List.mem_finRange k) _ (giveAll_settled (giveAll_reached hit))

theorem JobState.beforeCooling_eq (x : JobState) : x.beforeCooling = (x != .cooling) := by
  cases x <;> rfl

theorem reached_eq (s : State) (p : Job → Bool) : s.reached p =
    allSlots.filter fun k => s.jobIs k fun j => j.outcome.isNone && j.state != .cooling && p j := by
  refine List.filter_congr fun k _ => ?_
  unfold State.reachable State.jobIs
  cases s.job k with
  | none => rfl
  | some j =>
    simp only [Option.any_some, JobState.beforeCooling_eq]

/-- The end of a request of the supervisor undoes nothing of a cause. -/
theorem State.ReachedBy.accepted {s t : State} {o : JobOutcome} {hit : SlotIx → Prop} (h : s.ReachedBy t o hit)
    (kind : Byte) (data : List Byte) : s.ReachedBy (t.accepted .svp kind data) o hit :=
  (h.after (u := t.replying .svp kind .accepted data)).finish

theorem exec_abortStation (p : Port) (b : List Byte) (s : State) :
    exec (.abortStation p b) s = .next (finish (requestArrives p 0x4F b s)) :=
  exec_instrOfFrame p 0x4F b s

theorem reqAbortStation_byteOf (n : Station) (s : State) : reqAbortStation .svp [byteOf n.val] s =
    accept [byteOf (s.reached fun j => j.station == n).length] (reach .lineAbort (fun j => j.station == n) s) :=
  withField_of_some (parseIndex_byteOf (by decide) n) s _

/-- Settles O35: by the three passes of an outside cause (R151). -/
theorem causeLeavesNone : Obligations.CauseLeavesNone := by
  unfold Obligations.CauseLeavesNone
  refine ⟨⟨fun s o p k j hj hit => reach_cold hit j hj, fun s n free => ?_⟩, fun s o p => reach_reached o p s,
    fun s free => ⟨fun n => ?_, fun b settled bad => ?_⟩⟩
  · rw [← reached_eq]
    exact accepts_of (exec_abortStation ..) free (reqAbortStation_byteOf ..) rfl
  · refine ⟨_, exec_of_accepted (exec_abortStation ..) free (reqAbortStation_byteOf ..), ?_⟩
    have reached : s.ReachedBy (reach .lineAbort (fun j => j.station == n) (s.holdingIt .svp 0x4F [byteOf n.val]))
        .lineAbort fun k => s.jobIs k (fun j => j.station == n) = true :=
      (reach_reached .lineAbort _ (s.holdingIt .svp 0x4F [byteOf n.val])).of_slots
    exact reached.accepted _ _
  · exact refuses_of (exec_abortStation ..) settled free (by decide) (withField_of_none (parseIndex_eq_none bad) _ _)

end Sys2Proof.Machine
end

section
/-! PROOFS. The events of heating: settle expiries and segments (R45 to R50, R116 to R121), and what every event of
the work leaves as it is. -/

namespace Sys2Proof.Machine

open State

/-! ## What the events of the work leave as it is -/

theorem exec_work {i : Instr} {s : State} (work : isWorkEvent i = true) :
    ∃ u, exec i s = .next (finish u) ∧ s.SameSettings u := by
  cases i with
  | indexEdge => exact ⟨_, rfl, fireTrigger_settings (.refl s)⟩
  | warmupEnd c =>
    refine ⟨_, rfl, ?_⟩
    split
    · exact warmupCheck_settings (SameSettings.refl s).modConv
    · exact .refl s
  | dischargeEnd c =>
    refine ⟨_, rfl, ?_⟩
    split
    · exact resolveConv_settings (SameSettings.refl s).modConv
    · exact .refl s
  | relayOpeningComplete p =>
    refine ⟨_, rfl, ?_⟩
    split
    · split
      · exact openingDone_settings (.refl s)
      · exact .refl s
    · exact .refl s
    · exact .refl s
  | relayClosingComplete p =>
    refine ⟨_, rfl, ?_⟩
    split
    · split
      · exact closingDone_settings (.refl s)
      · exact .refl s
    · exact .refl s
    · exact .refl s
  | relayConditionTimer p =>
    refine ⟨_, rfl, ?_⟩
    split
    · exact matrixTry_settings (SameSettings.refl s).modRelay
    · exact .refl s
  | settleExpiry c report => exact ⟨_, rfl, settleExpiry_settings (.refl s)⟩
  | pyrometerSample c reading flow => exact ⟨_, rfl, pyroSample_settings (.refl s)⟩
  | segmentDurationExpiry c => exact ⟨_, rfl, durationExpiry_settings (.refl s)⟩
  | segmentLimitExpiry c => exact ⟨_, rfl, limitExpiry_settings (.refl s)⟩
  | guardConversionComplete reading => exact ⟨_, rfl, guardComplete_settings (.refl s)⟩
  | waitLimitExpiry k =>
    refine ⟨_, rfl, ?_⟩
    split
    · exact .refl s
    · split
      · exact waitExpire_settings (.refl s)
      · exact .refl s
  | coolDwellExpiry k =>
    refine ⟨_, rfl, ?_⟩
    split
    · exact endJob_settings (.refl s)
    · exact .refl s
  | coolingLimitExpiry k =>
    refine ⟨_, rfl, ?_⟩
    split
    · exact endJob_settings (.refl s)
    · exact .refl s
  | _ => nomatch work

/-- Settles O43: by the command. -/
theorem workFrame : Obligations.WorkFrame := by
  unfold Obligations.WorkFrame
  intro i s work
  obtain ⟨u, run, same⟩ := exec_work (s := s) work
  exact ⟨finish u, run, finish_settings same⟩

/-! ## Segments -/

theorem level_temp (g : Segment) (temp : Nat) : g.level (.temp temp) =
    some (if temp + g.band < g.target then g.p else if temp ≤ g.target + g.band then g.q else 0) := rfl

/-- Settles O47: by the kind of the segment. -/
theorem segmentRules : Obligations.SegmentRules := by
  unfold Obligations.SegmentRules
  intro g temp flow
  refine ⟨fun below => ?_, fun lo hi => ?_, fun above => ?_, rfl, rfl, fun base r => ⟨?_, ?_⟩, fun rise => ?_,
    fun r flows => ?_, fun r => ?_⟩
  · rw [level_temp, if_pos below]
  · rw [level_temp, if_neg (Nat.not_lt.2 lo), if_pos hi]
  · rw [level_temp, if_neg (by omega), if_neg (Nat.not_le.2 above)]
  · rintro (kind | kind) <;> rw [Segment.baseAt, kind]
  · rintro (kind | kind | kind) <;> rw [Segment.baseAt, kind]
  · unfold Segment.endsAt
    rw [rise]
    exact decide_eq_true_iff
  · unfold Segment.endsAt
    rw [flows]
  · unfold Segment.endsAt
    rintro (kind | kind | kind) <;> rw [kind]

/-! ## Settle expiries -/

section
variable {s : State} {c : Conv} {k : SlotIx} {j : Job} {e : Nat}

theorem due_of_le {t : Option Nat} (timer : t = some e) (time : e ≤ s.now) : s.due t = true := by
  rw [timer]
  exact decide_eq_true time

theorem exec_settleExpiry (c : Conv) (report : PhaseReport) (s : State) :
    exec (.settleExpiry c report) s = .next (finish (settleExpiry c report s)) := rfl

theorem settleExpiry_seeks (served : (s.conv c).served = some (s.handleOf k)) (hj : s.job k = some j)
    (seeks : j.state = .seeking) (state : (s.conv c).state = .seeking) (phase : (s.conv c).tun.phase = .seek)
    (timer : (s.conv c).tun.settleTimer = some e) (time : e ≤ s.now) (report : PhaseReport) :
    settleExpiry c report s = settleSeek c k (s.head j.head) report s := by
  unfold settleExpiry
  rw [if_pos (due_of_le timer time), servedSlot_of served hj]
  dsimp only
  rw [hj]
  exact if_pos ⟨phase, state, seeks⟩

theorem settleExpiry_tracks (served : (s.conv c).served = some (s.handleOf k)) (hj : s.job k = some j)
    (phase : (s.conv c).tun.phase = .track) (timer : (s.conv c).tun.settleTimer = some e) (time : e ≤ s.now)
    (report : PhaseReport) : settleExpiry c report s = settleTrack c k (s.head j.head) report s := by
  unfold settleExpiry
  rw [if_pos (due_of_le timer time), servedSlot_of served hj]
  dsimp only
  rw [hj]
  dsimp only
  rw [if_neg (by rw [phase]; exact fun h => nomatch h.1), if_pos phase]

/-- A report off centre: one step is taken, or the seek fails (R47). -/
theorem settleSeek_off {r : HeadRec} {report : PhaseReport} (off : report ≠ .centered) :
    settleSeek c k r report s =
      if (s.conv c).tun.stepCount < 64 ∧ r.fmin ≤ stepFreq report (s.conv c).drive r.step ∧
          stepFreq report (s.conv c).drive r.step ≤ r.fmax then
        s.setConv c { s.conv c with
          drive := stepFreq report (s.conv c).drive r.step,
          tun := ⟨(s.conv c).tun.phase, (s.conv c).tun.stepCount + 1, 0, some (s.now + r.settle)⟩ }
      else failJob .tuneFail k (s.setConv c { s.conv c with tun := { (s.conv c).tun with settleTimer := none } }) := by
  cases report with
  | centered => exact (off rfl).elim
  | below => rfl
  | above => rfl

theorem settleSeek_counts {r : HeadRec} (few : (s.conv c).tun.centred + 1 < 3) :
    settleSeek c k r .centered s = s.setConv c { s.conv c with
      tun := ⟨(s.conv c).tun.phase, (s.conv c).tun.stepCount, (s.conv c).tun.centred + 1,
        some (s.now + r.settle)⟩ } :=
  if_pos few

/-- The third centred report in a row locks the job (R48). -/
theorem settleSeek_locks {r : HeadRec} (two : (s.conv c).tun.centred = 2) :
    settleSeek c k r .centered s = lock c k (s.setConv c { s.conv c with
      tun := ⟨.track, (s.conv c).tun.stepCount, 3, some (s.now + r.settle)⟩ }) := by
  have three : ¬ (s.conv c).tun.centred + 1 < 3 := by omega
  have locks : settleSeek c k r .centered s = lock c k (s.setConv c { s.conv c with
      tun := ⟨.track, (s.conv c).tun.stepCount, (s.conv c).tun.centred + 1, some (s.now + r.settle)⟩ }) := if_neg three
  rw [locks, two]

/-- A tracking unit takes a step inside the window (R50). -/
theorem settleTrack_steps {r : HeadRec} {report : PhaseReport}
    (inside : report = .centered ∨ report = .below ∧ (s.conv c).drive + r.step ≤ r.fmax ∨
      report = .above ∧ r.fmin + r.step ≤ (s.conv c).drive) :
    settleTrack c k r report s = s.setConv c { s.conv c with
      drive := stepFreq report (s.conv c).drive r.step,
      tun := { (s.conv c).tun with settleTimer := some (s.now + r.settle) } } := by
  rcases inside with rfl | ⟨rfl, fits⟩ | ⟨rfl, fits⟩
  · rfl
  · exact if_pos (decide_eq_true fits)
  · exact if_pos (decide_eq_true fits)

theorem settleTrack_loses {r : HeadRec} {report : PhaseReport}
    (outside : report = .below ∧ r.fmax < (s.conv c).drive + r.step ∨
      report = .above ∧ (s.conv c).drive < r.fmin + r.step) :
    settleTrack c k r report s = failJob .tuneLost k
      (s.setConv c { s.conv c with tun := { (s.conv c).tun with settleTimer := none } }) := by
  rcases outside with ⟨rfl, out⟩ | ⟨rfl, out⟩
  · exact if_neg (by rw [decide_eq_true_iff]; omega)
  · exact if_neg (by rw [decide_eq_true_iff]; omega)

end

/-- Settles O44: by the phase of the tuning unit and the report. -/
theorem settleExpirySteps : Obligations.SettleExpirySteps := by
  unfold Obligations.SettleExpirySteps
  refine ⟨fun s c k j e served hj seeks state phase timer time => ?_, fun s c k j e served hj phase timer time => ?_⟩
  · have run (report : PhaseReport) : exec (.settleExpiry c report) s =
        .next (finish (settleSeek c k (s.head j.head) report s)) := by
      rw [exec_settleExpiry, settleExpiry_seeks served hj seeks state phase timer time]
    have step (report : PhaseReport) (off : report ≠ .centered) (few : (s.conv c).tun.stepCount < 64)
        (lo : (s.head j.head).fmin ≤ stepFreq report (s.conv c).drive (s.head j.head).step)
        (hi : stepFreq report (s.conv c).drive (s.head j.head).step ≤ (s.head j.head).fmax) :
        exec (.settleExpiry c report) s = .next (finish (s.setConv c { s.conv c with
          drive := stepFreq report (s.conv c).drive (s.head j.head).step,
          tun := ⟨.seek, (s.conv c).tun.stepCount + 1, 0, some (s.now + (s.head j.head).settle)⟩ })) := by
      rw [run, settleSeek_off off, if_pos ⟨few, lo, hi⟩, phase]
    have fail (report : PhaseReport) (off : report ≠ .centered)
        (bad : ¬ ((s.conv c).tun.stepCount < 64 ∧
          (s.head j.head).fmin ≤ stepFreq report (s.conv c).drive (s.head j.head).step ∧
          stepFreq report (s.conv c).drive (s.head j.head).step ≤ (s.head j.head).fmax)) :
        exec (.settleExpiry c report) s = .next (finish (failJob .tuneFail k (s.setConv c
          { s.conv c with tun := { (s.conv c).tun with settleTimer := none } }))) := by
      rw [run, settleSeek_off off, if_neg bad]
    refine ⟨fun few hi lo => step .below nofun few lo hi, fun few lo hi => step .above nofun few lo hi, fun few => ?_,
      fun bad => fail .below nofun ?_, fun bad pos => fail .above nofun ?_⟩
    · rw [run, settleSeek_counts few, phase]
    · rw [stepFreq]
      omega
    · rw [stepFreq]
      omega
  · have run (report : PhaseReport) : exec (.settleExpiry c report) s =
        .next (finish (settleTrack c k (s.head j.head) report s)) := by
      rw [exec_settleExpiry, settleExpiry_tracks served hj phase timer time]
    refine ⟨?_, fun fits => ?_, fun fits => ?_, fun out => ?_, fun out => ?_⟩
    · rw [run, settleTrack_steps (.inl rfl)]
      rfl
    · rw [run, settleTrack_steps (.inr (.inl ⟨rfl, fits⟩))]
      rfl
    · rw [run, settleTrack_steps (.inr (.inr ⟨rfl, fits⟩))]
      rfl
    · rw [run, settleTrack_loses (.inl ⟨rfl, out⟩)]
    · rw [run, settleTrack_loses (.inr ⟨rfl, out⟩)]

end Sys2Proof.Machine
end

section
/-! PROOFS. Segment entries, the lock and HEATING entry (R49, R103 to R106, R116). -/

namespace Sys2Proof.Machine

open State

/-! ## Writing a job -/

theorem modJob_of_job {s : State} {k : SlotIx} {j : Job} (h : s.job k = some j) (f : Job → Job) :
    s.modJob k f = s.setSlot k { s.slot k with job := some (f j) } := by
  rw [modJob, h]
  rfl

@[simp] theorem setSlot_setSlot (s : State) (k : SlotIx) (v w : Slot) : (s.setSlot k v).setSlot k w = s.setSlot k w := by
  simp only [setSlot, Vector.set_set]

theorem setSlot_setConv (s : State) (c : Conv) (v : Converter) (k : SlotIx) (w : Slot) :
    (s.setConv c v).setSlot k w = (s.setSlot k w).setConv c v := rfl

/-- A change of the record alone leaves the handles of all jobs. -/
theorem handleOf_setSlot_job (s : State) (k : SlotIx) (j : Option Job) (m : SlotIx) :
    (s.setSlot k { s.slot k with job := j }).handleOf m = s.handleOf m := by
  rw [handleOf, handleOf, slot_setSlot]
  split
  · next same => rw [same]
  · rfl

theorem State.Settled.setSlot {s : State} (h : s.Settled) (k : SlotIx) (v : Slot) : (s.setSlot k v).Settled :=
  ⟨h.noCause, h.scanner⟩

theorem State.Settled.post {s : State} (h : s.Settled) (p : Port) (b : NoticeBody) : (s.post p b).Settled :=
  ⟨h.noCause, h.scanner⟩

theorem post_notices {s : State} {p : Port} (room : (s.port p).notices.length < 16) (b : NoticeBody) :
    ((s.post p b).port p).notices = (s.port p).notices ++ [⟨s.lineClock, b⟩] := by
  rw [State.post, port_modPort_self, PortSt.post, if_pos (show _ < Config.noticePlaces from room)]

/-! ## Segment entry -/

theorem enterSegment_eq {s : State} {k : SlotIx} {j : Job} (h : s.job k = some j) (c : Conv) (run : Run) (i : Nat) :
    enterSegment c k run i s =
      (s.setSlot k { s.slot k with job := some { j with run := run, index := i, segEntry := some s.lineClock } }).setConv
        c ((s.conv c).enterSegment (((s.prof j.profile).window run).1 + i)
          (s.segAt (((s.prof j.profile).window run).1 + i)) (s.head j.head).settle s.lineClock s.now) := by
  rw [enterSegment, h]
  dsimp only
  rw [modJob_of_job h]
  rfl

section
variable {v : Converter} {x : Nat} {g : Segment} {settle : Nat} {clock : Time} {now : Nat}

theorem Converter.switchOff_outputOn (v : Converter) (clock : Time) (now : Nat) :
    (v.switchOff clock now).outputOn = false := by
  unfold Converter.switchOff
  split
  · rfl
  · next off => exact Bool.eq_false_iff.2 off

/-- A COAST segment switches the output off and suspends the tuning unit (R51, R121). -/
theorem Converter.enterSegment_coast (coast : g.kind = .coast) : v.enterSegment x g settle clock now =
    { v.switchOff clock now with
      command := 0,
      eng := { v.eng with phase := .run, seg := some ⟨x, g⟩, timer := g.timer now, base := g.initial },
      tun := if (v.switchOff clock now).tun.phase = .track then
          { (v.switchOff clock now).tun with phase := .suspended, settleTimer := none }
        else (v.switchOff clock now).tun } := if_pos coast

theorem Converter.enterSegment_powered (powered : g.kind ≠ .coast) : v.enterSegment x g settle clock now =
    { v with
      outputOn := true,
      eng := { v.eng with phase := .run, seg := some ⟨x, g⟩, timer := g.timer now, base := g.initial },
      command := if v.eng.zeroHold then 0 else g.initial,
      tun := if v.tun.phase = .suspended then { v.tun with phase := .track, settleTimer := some (now + settle) }
        else v.tun } := if_neg powered

theorem Converter.switchOff_tun (v : Converter) (clock : Time) (now : Nat) : (v.switchOff clock now).tun = v.tun := by
  unfold Converter.switchOff
  split <;> rfl

/-- Every segment entry leaves the converter's state and drive frequency, and sets the engine to the segment. -/
theorem Converter.enterSegment_runs : (v.enterSegment x g settle clock now).state = v.state ∧
    (v.enterSegment x g settle clock now).drive = v.drive ∧
    (v.enterSegment x g settle clock now).eng.phase = .run ∧
    (v.enterSegment x g settle clock now).eng.seg = some ⟨x, g⟩ := by
  by_cases coast : g.kind = .coast
  · rw [Converter.enterSegment_coast coast]
    unfold Converter.switchOff
    split <;> exact ⟨rfl, rfl, rfl, rfl⟩
  · rw [Converter.enterSegment_powered coast]
    exact ⟨rfl, rfl, rfl, rfl⟩

end

/-! ## HEATING entry -/

/-- The record of a job that enters HEATING (R103). -/
def Job.heats (j : Job) (clock : Time) : Job :=
  { j with state := .heating, heatingAt := some clock, run := .head, index := 0, segEntry := some clock }

/-- The converter of a job that enters HEATING (R103, R116). -/
def State.heatsOn (s : State) (j : Job) (v : Converter) : Converter :=
  { v with state := .heating : Converter }.enterSegment (s.prof j.profile).headStart
    (s.segAt (s.prof j.profile).headStart) (s.head j.head).settle s.lineClock s.now

theorem heatsOn_runs (s : State) (j : Job) (v : Converter) :
    (s.heatsOn j v).state = .heating ∧ (s.heatsOn j v).drive = v.drive ∧ (s.heatsOn j v).eng.phase = .run ∧
      (s.heatsOn j v).eng.seg = some ⟨(s.prof j.profile).headStart, s.segAt (s.prof j.profile).headStart⟩ :=
  Converter.enterSegment_runs

/-- The notice of a HEATING entry (R103). -/
def State.heatNotice (s : State) (m : SlotIx) : Option Notice :=
  (s.job m).bind fun i => i.converter.map fun d => ⟨s.lineClock, .jobHeating (s.handleOf m) i.ref i.head d⟩

section
variable {s : State} {k : SlotIx} {j : Job} {c : Conv}

theorem enterHeating_eq (hj : s.job k = some j) (hc : j.converter = some c) : enterHeating s k =
    ((s.setSlot k { s.slot k with job := some (j.heats s.lineClock) }).setConv c (s.heatsOn j (s.conv c))).post
      (.sp j.station) (.jobHeating (s.handleOf k) j.ref j.head c) := by
  have heated : ((s.setSlot k { s.slot k with
      job := some { j with state := .heating, heatingAt := some s.lineClock } }).modConv c
        fun v => { v with state := .heating }).job k =
      some { j with state := .heating, heatingAt := some s.lineClock } := by
    rw [modConv_job, job_setSlot, if_pos rfl]
  rw [enterHeating, hj]
  dsimp only
  rw [hc]
  dsimp only
  rw [modJob_of_job hj, enterSegment_eq heated, conv_modConv_self, modConv_handleOf, handleOf_setSlot_job,
    modConv_slot, slot_setSlot_self, modConv, setSlot_setConv, setSlot_setSlot, setConv_setConv]
  rfl

theorem enterHeating_job (hj : s.job k = some j) (hc : j.converter = some c) (m : SlotIx) :
    (enterHeating s k).job m = if k = m then some (j.heats s.lineClock) else s.job m := by
  rw [enterHeating_eq hj hc, post_job, setConv_job, job_setSlot]

theorem enterHeating_conv (hj : s.job k = some j) (hc : j.converter = some c) (d : Conv) :
    (enterHeating s k).conv d = if c = d then s.heatsOn j (s.conv c) else s.conv d := by
  rw [enterHeating_eq hj hc, post_conv, conv_setConv]
  rfl

theorem enterHeating_handleOf (hj : s.job k = some j) (hc : j.converter = some c) (m : SlotIx) :
    (enterHeating s k).handleOf m = s.handleOf m := by
  rw [enterHeating_eq hj hc, post_handleOf, setConv_handleOf, handleOf_setSlot_job]

theorem enterHeating_lineClock (hj : s.job k = some j) (hc : j.converter = some c) :
    (enterHeating s k).lineClock = s.lineClock := by
  rw [enterHeating_eq hj hc]
  rfl

theorem enterHeating_settled (settled : s.Settled) : (enterHeating s k).Settled := by
  rw [enterHeating]
  split
  · exact settled
  · split
    · exact settled
    · next j h c _ =>
      dsimp only
      refine State.Settled.post ?_ _ _
      rw [enterSegment]
      split
      · exact ⟨settled.noCause, settled.scanner⟩
      · exact ⟨settled.noCause, settled.scanner⟩

theorem enterHeating_notices (hj : s.job k = some j) (hc : j.converter = some c)
    (room : (s.port (.sp j.station)).notices.length < 16) :
    ((enterHeating s k).port (.sp j.station)).notices =
      (s.port (.sp j.station)).notices ++ [⟨s.lineClock, .jobHeating (s.handleOf k) j.ref j.head c⟩] := by
  rw [enterHeating_eq hj hc]
  exact post_notices room _

theorem heatNotice_of (hj : s.job k = some j) (hc : j.converter = some c) :
    s.heatNotice k = some ⟨s.lineClock, .jobHeating (s.handleOf k) j.ref j.head c⟩ := by
  rw [heatNotice, hj, Option.bind_some, hc, Option.map_some]

end

/-! ## HEATING entry of a gang -/

theorem foldl_settled {l : List SlotIx} {s : State} (settled : s.Settled) : (l.foldl enterHeating s).Settled := by
  induction l generalizing s with
  | nil => exact settled
  | cons m l ih => exact ih (enterHeating_settled settled)

/-- Every job of the list has a converter. -/
def State.Served (s : State) (l : List SlotIx) (n : Station) : Prop :=
  ∀ m ∈ l, ∃ i d, s.job m = some i ∧ i.converter = some d ∧ i.station = n

/-- HEATING entry of one job of a gang leaves the others of it as they are. -/
theorem State.Served.tail {s : State} {m : SlotIx} {l : List SlotIx} {n : Station} (h : s.Served (m :: l) n)
    (fresh : m ∉ l) : (enterHeating s m).Served l n ∧ ∀ x ∈ l, (enterHeating s m).job x = s.job x := by
  obtain ⟨j, c, hj, hc, _⟩ := h m (List.mem_cons_self ..)
  have other : ∀ x ∈ l, (enterHeating s m).job x = s.job x := fun x hx => by
    rw [enterHeating_job hj hc, if_neg (by rintro rfl; exact fresh hx)]
  refine ⟨fun x hx => ?_, other⟩
  obtain ⟨i, d, hi, hd⟩ := h x (List.mem_cons_of_mem _ hx)
  exact ⟨i, d, (other x hx).trans hi, hd⟩

theorem heatings_others {l : List SlotIx} {n : Station} {s : State} (served : s.Served l n) (nodup : l.Nodup)
    {m : SlotIx} (out : m ∉ l) : (l.foldl enterHeating s).job m = s.job m := by
  induction l generalizing s with
  | nil => rfl
  | cons x l ih =>
    obtain ⟨fresh, distinct⟩ := List.nodup_cons.1 nodup
    obtain ⟨j, c, hj, hc, _⟩ := served x (List.mem_cons_self ..)
    rw [List.foldl_cons, ih (served.tail fresh).1 distinct fun h => out (List.mem_cons_of_mem _ h),
      enterHeating_job hj hc, if_neg (by rintro rfl; exact out (List.mem_cons_self ..))]

theorem heatings_job {l : List SlotIx} {n : Station} {s : State} (served : s.Served l n) (nodup : l.Nodup)
    {m : SlotIx} {i : Job} (hm : m ∈ l) (hi : s.job m = some i) :
    (l.foldl enterHeating s).job m = some (i.heats s.lineClock) := by
  induction l generalizing s with
  | nil => nomatch hm
  | cons x l ih =>
    obtain ⟨fresh, distinct⟩ := List.nodup_cons.1 nodup
    obtain ⟨j, c, hj, hc, _⟩ := served x (List.mem_cons_self ..)
    obtain ⟨rest, same⟩ := served.tail fresh
    rw [List.foldl_cons]
    rcases List.mem_cons.1 hm with rfl | later
    · rw [heatings_others rest distinct fresh, enterHeating_job hj hc, if_pos rfl, Option.some.inj (hj.symm.trans hi)]
    · rw [ih rest distinct later ((same m later).trans hi), enterHeating_lineClock hj hc]

/-- A converter that runs in HEATING runs on through the HEATING entries of others. -/
theorem heatings_runs_on {l : List SlotIx} {n : Station} {s : State} (served : s.Served l n) (nodup : l.Nodup)
    {d : Conv} (run : (s.conv d).state = .heating ∧ (s.conv d).eng.phase = .run) :
    ((l.foldl enterHeating s).conv d).state = .heating ∧ ((l.foldl enterHeating s).conv d).eng.phase = .run := by
  induction l generalizing s with
  | nil => exact run
  | cons x l ih =>
    obtain ⟨fresh, distinct⟩ := List.nodup_cons.1 nodup
    obtain ⟨j, c, hj, hc, _⟩ := served x (List.mem_cons_self ..)
    refine ih (served.tail fresh).1 distinct ?_
    rw [enterHeating_conv hj hc]
    split
    · exact ⟨(heatsOn_runs ..).1, (heatsOn_runs ..).2.2.1⟩
    · exact run

theorem heatings_conv {l : List SlotIx} {n : Station} {s : State} (served : s.Served l n) (nodup : l.Nodup)
    {m : SlotIx} {i : Job} {d : Conv} (hm : m ∈ l) (hi : s.job m = some i) (hd : i.converter = some d) :
    ((l.foldl enterHeating s).conv d).state = .heating ∧ ((l.foldl enterHeating s).conv d).eng.phase = .run := by
  induction l generalizing s with
  | nil => nomatch hm
  | cons x l ih =>
    obtain ⟨fresh, distinct⟩ := List.nodup_cons.1 nodup
    obtain ⟨rest, same⟩ := served.tail fresh
    rw [List.foldl_cons]
    rcases List.mem_cons.1 hm with rfl | later
    · refine heatings_runs_on rest distinct ?_
      rw [enterHeating_conv hi hd, if_pos rfl]
      exact ⟨(heatsOn_runs ..).1, (heatsOn_runs ..).2.2.1⟩
    · exact ih rest distinct later ((same m later).trans hi)

theorem heatings_notices {l : List SlotIx} {n : Station} {s : State} (served : s.Served l n) (nodup : l.Nodup)
    (room : (s.port (.sp n)).notices.length + l.length ≤ 16) :
    ((l.foldl enterHeating s).port (.sp n)).notices = (s.port (.sp n)).notices ++ l.filterMap s.heatNotice := by
  induction l generalizing s with
  | nil => exact (List.append_nil _).symm
  | cons x l ih =>
    obtain ⟨fresh, distinct⟩ := List.nodup_cons.1 nodup
    obtain ⟨j, c, hj, hc, rfl⟩ := served x (List.mem_cons_self ..)
    obtain ⟨rest, same⟩ := served.tail fresh
    rw [List.length_cons] at room
    have posted := enterHeating_notices hj hc (by omega)
    have kept : l.filterMap (enterHeating s x).heatNotice = l.filterMap s.heatNotice :=
      List.filterMap_congr fun m hm => by
        rw [heatNotice, heatNotice, same m hm, enterHeating_handleOf hj hc, enterHeating_lineClock hj hc]
    rw [List.foldl_cons, ih rest distinct (by rw [posted, List.length_append, List.length_singleton]; omega), posted, kept,
      List.filterMap_cons, heatNotice_of hj hc, List.append_assoc]
    rfl

/-! ## The lock -/

section
variable {s : State} {c : Conv} {k : SlotIx} {j : Job}

/-- The state after the locked frequency is written (R49). -/
def State.locking (s : State) (k : SlotIx) (j : Job) (f : Nat) : State :=
  s.setSlot k { s.slot k with job := some { j with locked := f } }

theorem locking_job (s : State) (k : SlotIx) (j : Job) (f : Nat) (m : SlotIx) :
    (s.locking k j f).job m = if k = m then some { j with locked := f } else s.job m := job_setSlot ..

theorem locking_membersOf (hj : s.job k = some j) (f : Nat) (m : SlotIx) :
    (s.locking k j f).membersOf m = s.membersOf m :=
  membersOf_congr (fun x => by
    rw [locking_job]
    split
    · next same => rw [← same, hj]; rfl
    · rfl) m

/-- The members other than the one that locks all wait in ALIGNING. -/
def State.othersAlign (s : State) (k : SlotIx) : Bool :=
  (s.membersOf k).all fun m => m == k || s.jobIs m (·.state == .aligning)

theorem othersAlign_locking (hj : s.job k = some j) (f : Nat) : (s.locking k j f).othersAlign k = s.othersAlign k := by
  rw [othersAlign, othersAlign, locking_membersOf hj]
  refine congrArg (fun p => (s.membersOf k).all p) (funext fun m => ?_)
  by_cases e : m = k
  · rw [beq_iff_eq.2 e, Bool.true_or, Bool.true_or]
  · rw [jobIs, locking_job, if_neg fun x => e x.symm]
    rfl

theorem othersAlign_of (h : ∀ m ∈ s.membersOf k, ∃ i d, s.job m = some i ∧ i.converter = some d ∧
    i.station = j.station ∧ (m ≠ k → i.state = .aligning)) : s.othersAlign k = true := by
  rw [othersAlign, List.all_eq_true]
  intro m hm
  obtain ⟨i, _, hi, _, _, aligning⟩ := h m hm
  by_cases e : m = k
  · rw [beq_iff_eq.2 e, Bool.true_or]
  · rw [Bool.or_eq_true_iff]
    exact .inr (jobIs_iff.2 ⟨i, hi, beq_iff_eq.2 (aligning e)⟩)

theorem lock_heats (hj : s.job k = some j) (all : s.othersAlign k = true) :
    lock c k s = (s.membersOf k).foldl enterHeating (s.locking k j (s.conv c).drive) := by
  have ready := (othersAlign_locking hj (s.conv c).drive).trans all
  unfold lock
  rw [modJob_of_job hj]
  refine (if_pos ready).trans ?_
  rw [← locking_membersOf hj (s.conv c).drive]
  rfl

theorem lock_aligns (hj : s.job k = some j) (wait : s.othersAlign k = false) : lock c k s =
    (s.setSlot k { s.slot k with job := some { j with state := .aligning, locked := (s.conv c).drive } }).setConv c
      { s.conv c with state := .aligned } := by
  have waits : ¬ (s.locking k j (s.conv c).drive).othersAlign k = true := by
    rw [othersAlign_locking hj, wait]
    decide
  have locked : (s.locking k j (s.conv c).drive).job k = some { j with locked := (s.conv c).drive } := by
    rw [locking_job, if_pos rfl]
  unfold lock
  rw [modJob_of_job hj]
  refine (if_neg waits).trans ?_
  change State.modConv ((s.locking k j (s.conv c).drive).modJob k _) c _ = _
  rw [modJob_of_job locked, locking, slot_setSlot_self, setSlot_setSlot]
  rfl

end

/-- The converter whose tuning unit has locked (R48). -/
def Converter.lockedOn (v : Converter) (settle now : Nat) : Converter :=
  { v with tun := ⟨.track, v.tun.stepCount, 3, some (now + settle)⟩ }

/-- What the entry of the first segment makes of a converter whose tuning unit tracks (R51). -/
theorem heatsOn_tracking {s : State} {j : Job} {v : Converter} (track : v.tun.phase = .track) :
    ((s.segAt (s.prof j.profile).headStart).kind = .coast →
      (s.heatsOn j v).outputOn = false ∧ (s.heatsOn j v).tun.phase = .suspended) ∧
    ((s.segAt (s.prof j.profile).headStart).kind ≠ .coast →
      (s.heatsOn j v).outputOn = true ∧ (s.heatsOn j v).tun = v.tun) := by
  refine ⟨fun coast => ?_, fun powered => ?_⟩
  · rw [heatsOn, Converter.enterSegment_coast coast]
    refine ⟨Converter.switchOff_outputOn .., ?_⟩
    rw [if_pos (by rw [Converter.switchOff_tun]; exact track)]
  · rw [heatsOn, Converter.enterSegment_powered powered]
    refine ⟨rfl, if_neg ?_⟩
    rw [track]
    nofun

section
variable {s : State} {c : Conv} {k : SlotIx} {j : Job} {e : Nat} {v : Converter}

/-- The third centred report in a row is the lock of the job (R48, R49). -/
theorem exec_lock (served : (s.conv c).served = some (s.handleOf k)) (hj : s.job k = some j) (seeks : j.state = .seeking)
    (state : (s.conv c).state = .seeking) (phase : (s.conv c).tun.phase = .seek)
    (timer : (s.conv c).tun.settleTimer = some e) (time : e ≤ s.now) (two : (s.conv c).tun.centred = 2) :
    exec (.settleExpiry c .centered) s =
      .next (finish (lock c k (s.setConv c ((s.conv c).lockedOn (s.head j.head).settle s.now)))) := by
  rw [exec_settleExpiry, settleExpiry_seeks served hj seeks state phase timer time, settleSeek_locks two]
  rfl

/-- The job's record with the locked frequency, and its converter. -/
def State.locked (s : State) (c : Conv) (v : Converter) (k : SlotIx) (j : Job) : State :=
  (s.setConv c v).locking k j v.drive

theorem locked_job (m : SlotIx) : (s.locked c v k j).job m = if k = m then some { j with locked := v.drive } else s.job m :=
  locking_job ..

theorem finish_lock_heats (settled : s.Settled) (hj : s.job k = some j) (all : s.othersAlign k = true) :
    finish (lock c k (s.setConv c v)) = (s.membersOf k).foldl enterHeating (s.locked c v k j) := by
  rw [lock_heats (s := s.setConv c v) hj all, conv_setConv_self]
  exact finish_of_settled (foldl_settled ((settled.setConv c v).setSlot k _))

theorem finish_lock_aligns (settled : s.Settled) (hj : s.job k = some j) (wait : s.othersAlign k = false) :
    finish (lock c k (s.setConv c v)) =
      (s.setSlot k { s.slot k with job := some { j with state := .aligning, locked := v.drive } }).setConv c
        { v with state := .aligned } := by
  rw [lock_aligns (s := s.setConv c v) hj wait, conv_setConv_self, setSlot_setConv, setConv_setConv]
  exact finish_of_settled ((settled.setSlot k _).setConv c _)

theorem othersAlign_single (hj : s.job k = some j) (single : j.gang = none) : s.othersAlign k = true := by
  rw [othersAlign, membersOf_single hj single, List.all_eq_true]
  intro m hm
  rw [List.mem_singleton.1 hm, BEq.rfl, Bool.true_or]

theorem othersAlign_eq_false {m : SlotIx} (hm : m ∈ s.membersOf k) (ne : m ≠ k)
    (wait : s.jobIs m (fun i => i.state == .aligning) = false) : s.othersAlign k = false := by
  rw [othersAlign, List.all_eq_false]
  refine ⟨m, hm, ?_⟩
  rw [wait, Bool.or_false]
  exact fun same => ne (beq_iff_eq.1 same)

/-- The notices of a gang's HEATING entries do not turn on the locked frequency. -/
theorem locked_heatNotice (hj : s.job k = some j) : (s.locked c v k j).heatNotice = s.heatNotice := by
  funext m
  have handle : (s.locked c v k j).handleOf m = s.handleOf m := handleOf_setSlot_job ..
  rw [heatNotice, heatNotice, locked_job, handle]
  split
  · next same =>
    rw [← same, hj]
    rfl
  · rfl

end

/-- Settles O45: by whether the job waits for others of its gang. -/
theorem lockStartsHeating : Obligations.LockStartsHeating := by
  unfold Obligations.LockStartsHeating
  refine ⟨fun s c k j e settled served hj seeks single conv state phase timer time two => ?_,
    fun s c k j g e settled served hj seeks gang conv state phase timer time two => ⟨fun m hm ne wait => ?_, fun all => ?_⟩⟩
  · have run := exec_lock served hj seeks state phase timer time two
    rw [finish_lock_heats settled hj (othersAlign_single hj single), membersOf_single hj single] at run
    have own : (s.locked c ((s.conv c).lockedOn (s.head j.head).settle s.now) k j).job k =
        some { j with locked := (s.conv c).drive } := by rw [locked_job, if_pos rfl]; rfl
    have heats : (enterHeating (s.locked c ((s.conv c).lockedOn (s.head j.head).settle s.now) k j) k).conv c =
        s.heatsOn j ((s.conv c).lockedOn (s.head j.head).settle s.now) := by
      have conv' : (s.locked c ((s.conv c).lockedOn (s.head j.head).settle s.now) k j).conv c =
        (s.conv c).lockedOn (s.head j.head).settle s.now := conv_setConv_self s c _
      rw [enterHeating_conv own conv, if_pos rfl, conv']
      rfl
    obtain ⟨heating, drive, running, seg⟩ := heatsOn_runs s j ((s.conv c).lockedOn (s.head j.head).settle s.now)
    obtain ⟨coasts, powered⟩ := heatsOn_tracking (s := s) (j := j)
      (v := (s.conv c).lockedOn (s.head j.head).settle s.now) rfl
    refine ⟨_, run, ?_⟩
    rw [List.foldl_cons, List.foldl_nil, heats]
    refine ⟨?_, heating, drive, running, seg, coasts, fun power => ?_, fun room => ?_⟩
    · rw [enterHeating_job own conv, if_pos rfl]
      rfl
    · obtain ⟨on, tun⟩ := powered power
      rw [tun]
      exact ⟨on, rfl, rfl⟩
    · exact (enterHeating_notices own conv room).trans
        (congrArg (fun h => (s.port (.sp j.station)).notices ++ [⟨s.lineClock, .jobHeating h j.ref j.head c⟩])
          (handleOf_setSlot_job (s.setConv c _) k _ k))
  · rw [exec_lock served hj seeks state phase timer time two, finish_lock_aligns settled hj (othersAlign_eq_false hm ne wait)]
    rfl
  · have run := exec_lock served hj seeks state phase timer time two
    rw [finish_lock_heats settled hj (othersAlign_of all)] at run
    have gang' : (s.locked c ((s.conv c).lockedOn (s.head j.head).settle s.now) k j).Served (s.membersOf k) j.station := by
      intro m hm
      obtain ⟨i, d, hi, hd, station, _⟩ := all m hm
      rw [locked_job]
      split
      · next same =>
        subst same
        exact ⟨_, d, rfl, by rw [← hd, Option.some.inj (hj.symm.trans hi)], rfl⟩
      · exact ⟨i, d, hi, hd, station⟩
    have distinct := nodup_membersOf s k
    refine ⟨_, run, fun m i d hm hi hd => ?_, fun room => ?_⟩
    · by_cases same : m = k
      · subst same
        have own : (s.locked c ((s.conv c).lockedOn (s.head j.head).settle s.now) m j).job m =
          some { j with locked := (s.conv c).drive } := by rw [locked_job, if_pos rfl]; rfl
        obtain rfl := Option.some.inj (hj.symm.trans hi)
        refine ⟨?_, heatings_conv gang' distinct hm own hd⟩
        rw [heatings_job gang' distinct hm own, if_pos rfl]
        rfl
      · have other : (s.locked c ((s.conv c).lockedOn (s.head j.head).settle s.now) k j).job m = some i := by
          rw [locked_job, if_neg fun e => same e.symm, hi]
        refine ⟨?_, heatings_conv gang' distinct hm other hd⟩
        rw [heatings_job gang' distinct hm other, if_neg same]
        rfl
    · rw [heatings_notices gang' distinct room, locked_heatNotice hj]
      rfl

end Sys2Proof.Machine
end

section
/-! PROOFS. The end of heating, the abort of a running job, and the timers of segments (R118 to R126, R147 to R150). -/

namespace Sys2Proof.Machine

open State

/-! ## COOLING entry from a driving state -/

section
variable {s : State} {c : Conv} {k : SlotIx} {j : Job}

/-- DISCHARGE entry changes no settings, heads, profiles or committed power. -/
theorem enterDischarge_kept (c : Conv) (s : State) : (enterDischarge c s).committed = s.committed ∧
    (enterDischarge c s).heads = s.heads ∧ (enterDischarge c s).profs = s.profs ∧
    (enterDischarge c s).lineClock = s.lineClock ∧ (enterDischarge c s).now = s.now := by
  have bank := enterDischarge_bank (.refl (c := c) s)
  exact ⟨by rw [bank.only], by rw [bank.only], by rw [bank.only], bank.lineClock, bank.now⟩

/-- The record of a job after its converter has entered DISCHARGE: at most the converter's name is gone. -/
theorem enterDischarge_job (hj : s.job k = some j) (c : Conv) :
    ∃ i, (enterDischarge c s).job k = some { j with converter := i } := by
  rcases (enterDischarge_bank (.refl (c := c) s)).job hj with e | e
  · exact ⟨j.converter, e⟩
  · exact ⟨none, e⟩

theorem endHeating_eq (hj : s.job k = some j) : endHeating c k s = enterCooling k
    (learn j (j.heatOutcome (s.prof j.profile))
      (enterDischarge c ((s.setOutcome k (j.heatOutcome (s.prof j.profile))).releasePower j.reservation))) := by
  rw [endHeating, hj]

theorem setOutcome_open (hj : s.job k = some j) (fresh : j.outcome = none) (o : JobOutcome) :
    (s.setOutcome k o).job k = some { j with outcome := some o } := by
  rw [setOutcome_job, if_pos rfl, hj, Option.map_some, Job.withOutcome, fresh]
  rfl

theorem learn_head (j : Job) (o : JobOutcome) (s : State) : (learn j o s).head j.head =
    if o = .ok ∧ (s.head j.head).learning = true then { s.head j.head with learned := some j.locked }
    else s.head j.head := by
  rw [learn]
  split
  · rw [head_setHead, if_pos rfl]
  · rfl

theorem learn_guardEnable (j : Job) (o : JobOutcome) (s : State) :
    ((learn j o s).head j.head).guardEnable = (s.head j.head).guardEnable := by
  rw [learn_head]
  split <;> rfl

end

/-- Settles O49: along the end of heating, and by the position of the last segment. -/
theorem heatingEnds : Obligations.HeatingEnds := by
  unfold Obligations.HeatingEnds
  refine ⟨fun s c k j hj fresh cools => ?_, fun s c k j hj heating last tail => ?_⟩
  · have outcome : j.heatOutcome (s.prof j.profile) =
        if (s.prof j.profile).minAbove ≤ j.above then .ok else .underwet := rfl
    rw [endHeating_eq hj]
    generalize j.heatOutcome (s.prof j.profile) = o at outcome
    have given : ((s.setOutcome k o).releasePower j.reservation).job k = some { j with outcome := some o } :=
      setOutcome_open hj fresh o
    obtain ⟨committed, heads, profs, clock, _⟩ :=
      enterDischarge_kept c ((s.setOutcome k o).releasePower j.reservation)
    have cause := (enterDischarge_bank (.refl (c := c) ((s.setOutcome k o).releasePower j.reservation))).cause rfl
    have conv := enterDischarge_conv c ((s.setOutcome k o).releasePower j.reservation)
    obtain ⟨w, hw⟩ := enterDischarge_job given c
    generalize enterDischarge c ((s.setOutcome k o).releasePower j.reservation) = u at committed heads profs clock cause conv hw
    obtain ⟨convs, committed', cause', slots, profs', clock', _, _⟩ := learn_frame j o u
    obtain ⟨convs'', committed'', cause'', heads'', _⟩ := enterCooling_frame k (learn j o u)
    have head : u.head j.head = s.head j.head := by rw [State.head, heads]; rfl
    have conv' : (enterCooling k (learn j o u)).conv c = u.conv c := by rw [State.conv, convs'', convs]; rfl
    obtain ⟨state, off, command, _⟩ := discharge_fields (s.conv c) s.lineClock s.now
    have job : (learn j o u).job k = some { j with outcome := some o, converter := w } := by
      rw [State.job, State.slot, slots]
      exact hw
    have guard : ((learn j o u).head j.head).guardEnable = (s.head j.head).guardEnable := by
      rw [learn_guardEnable, head]
    have prof : (learn j o u).prof j.profile = s.prof j.profile := by rw [State.prof, profs', profs]; rfl
    have cooling := enterCooling_job job (by rw [← guard, ← prof] at cools; exact cools)
    refine ⟨committed''.trans (committed'.trans committed), cause'' (cause'.trans cause), ?_, ?_, ?_, ?_,
      ⟨_, cooling, rfl, ?_, ?_⟩, ?_⟩
    · rw [conv', conv]
      exact off
    · rw [conv', conv]
      exact command
    · rw [conv', conv]
      exact state
    · rw [conv', conv]
    · exact congrArg some (clock'.trans clock)
    · exact congrArg some outcome
    · rw [State.head, heads'']
      refine (learn_head j o u).trans ?_
      have ok : o = .ok ↔ (s.prof j.profile).minAbove ≤ j.above := by
        rw [outcome]
        split
        · next above => exact ⟨fun _ => above, fun _ => rfl⟩
        · next below => exact ⟨nofun, fun above => (below above).elim⟩
      rw [head]
      exact if_congr (and_congr_left' ok) rfl rfl
  · have ends : advance c k s = endHeating c k s := by
      rw [advance, hj]
      dsimp only
      rw [if_neg (not_not_intro heating), if_neg (by omega), if_neg]
      rintro ⟨head, more⟩
      rcases tail with tail | none_
      · rw [tail] at head
        nomatch head
      · exact more none_
    refine ⟨ends, fun e served timer time => ?_⟩
    have expires : durationExpiry c s = advance c k s := by
      rw [durationExpiry, timer, servedSlot_of served hj]
      exact if_pos time
    rw [← ends, ← expires]
    rfl

/-! ## The abort of a running job -/

section
variable {s : State} {c : Conv} {k : SlotIx} {j : Job}

theorem JobState.hot_of_running {x : JobState} (running : x.running = true) (connected : x ≠ .connecting) :
    x.hot = true := by
  cases x with
  | connecting => exact (connected rfl).elim
  | pending | ready | cooling => nomatch running
  | seeking | aligning | heating => rfl

/-- The abort path of a job whose head is energised (R148, R150). -/
theorem abortPath_hot (hj : s.job k = some j) (hc : j.converter = some c) (hot : j.state.hot = true) :
    abortPath k s = enterCooling k (enterDischarge c (s.releasePower j.reservation)) := by
  rw [abortPath, hj]
  dsimp only
  rw [hc]
  cases state : j.state with
  | seeking | aligning | heating => rfl
  | pending | ready | connecting | cooling =>
    rw [state] at hot
    nomatch hot

/-- What the abort path leaves of a job whose head is energised, and that does not end at once. -/
theorem abortPath_cools (hj : s.job k = some j) (hc : j.converter = some c) (hot : j.state.hot = true)
    (cools : (s.head j.head).guardEnable = true ∨ (s.prof j.profile).coolDwell ≠ 0) :
    ∃ w, (abortPath k s).job k = some ({ j with converter := w : Job }.cooling (s.prof j.profile)
      (s.head j.head).guardEnable s.lineClock s.now) := by
  obtain ⟨committed, heads, profs, clock, now⟩ := enterDischarge_kept c (s.releasePower j.reservation)
  obtain ⟨w, hw⟩ := enterDischarge_job (s := s.releasePower j.reservation) hj c
  rw [abortPath_hot hj hc hot]
  generalize enterDischarge c (s.releasePower j.reservation) = u at heads profs clock now hw
  have head : u.head j.head = s.head j.head := by rw [State.head, heads]; rfl
  have prof : u.prof j.profile = s.prof j.profile := by rw [State.prof, profs]; rfl
  have cooling := enterCooling_job hw (by rw [← head, ← prof] at cools; exact cools)
  refine ⟨w, cooling.trans ?_⟩
  dsimp only
  rw [prof, head, clock, now]
  rfl

end

/-- Settles O37: along the abort path of a job whose head is energised (R148). -/
theorem abortOfRunningJob : Obligations.AbortOfRunningJob := by
  unfold Obligations.AbortOfRunningJob
  refine ⟨fun s k j c hj hc running connected => ?_, fun s o k => failJob_reached o k s⟩
  have hot := JobState.hot_of_running running connected
  obtain ⟨committed, heads, profs, _, _⟩ := enterDischarge_kept c (s.releasePower j.reservation)
  have cause := (enterDischarge_bank (.refl (c := c) (s.releasePower j.reservation))).cause rfl
  have conv := enterDischarge_conv c (s.releasePower j.reservation)
  obtain ⟨convs', committed', cause', _, _⟩ := enterCooling_frame k (enterDischarge c (s.releasePower j.reservation))
  obtain ⟨state, off, command, pend, _⟩ := discharge_fields (s.conv c) s.lineClock s.now
  have conv' : (abortPath k s).conv c = { (s.conv c).discharge s.lineClock s.now with served := none } := by
    rw [abortPath_hot hj hc hot, State.conv, convs']
    exact conv
  have path := abortPath_hot hj hc hot
  refine ⟨?_, ?_, ?_, ?_, ?_, ?_, ?_, fun cools => ?_, fun bare dwell => ?_⟩
  · rw [path]
    exact committed'.trans committed
  · rw [path]
    exact cause' cause
  · rw [conv', state]
  · rw [conv', off]
  · rw [conv', command]
  · rw [conv']
  · rw [conv', pend]
  · obtain ⟨w, cooling⟩ := abortPath_cools hj hc hot cools
    exact ⟨_, cooling, rfl, rfl, rfl, rfl, rfl, rfl, rfl, rfl⟩
  · obtain ⟨w, hw⟩ := enterDischarge_job (s := s.releasePower j.reservation) hj c
    rw [path]
    refine enterCooling_none hw ?_ ?_
    · rw [State.head, heads]
      exact bare
    · rw [State.prof, profs]
      exact dwell

/-! ## Segment timers -/

section
variable {s : State} {c : Conv} {k : SlotIx} {j : Job}

theorem exec_segmentDurationExpiry (c : Conv) (s : State) :
    exec (.segmentDurationExpiry c) s = .next (finish (durationExpiry c s)) := rfl

theorem durationExpiry_advances {e : Nat} (served : (s.conv c).served = some (s.handleOf k)) (hj : s.job k = some j)
    (timer : (s.conv c).eng.timer = .duration e) (time : e ≤ s.now) : durationExpiry c s = advance c k s := by
  rw [durationExpiry, timer, servedSlot_of served hj]
  exact if_pos time

theorem advance_next (hj : s.job k = some j) (heating : j.state = .heating)
    (more : j.index + 1 < ((s.prof j.profile).window j.run).2) :
    advance c k s = enterSegment c k j.run (j.index + 1) s := by
  rw [advance, hj]
  dsimp only
  rw [if_neg (not_not_intro heating), if_pos more]

theorem advance_tail (hj : s.job k = some j) (heating : j.state = .heating) (head : j.run = .head)
    (last : (s.prof j.profile).headCount ≤ j.index + 1) (tail : (s.prof j.profile).tailCount ≠ 0) :
    advance c k s = enterSegment c k .tail 0 s := by
  have past : ¬ j.index + 1 < ((s.prof j.profile).window j.run).2 := by
    rw [head]
    exact Nat.not_lt.2 last
  rw [advance, hj]
  dsimp only
  rw [if_neg (not_not_intro heating), if_neg past, if_pos ⟨head, tail⟩]

theorem Segment.initial_of_powered {g : Segment} (h : g.kind ∈ [SegKind.rise, .soak, .flow, .power]) :
    g.kind ≠ .coast ∧ g.initial = g.p := by
  rw [Segment.initial]
  cases kind : g.kind with
  | rise | soak | flow | power => exact ⟨nofun, rfl⟩
  | coast | empty =>
    rw [kind] at h
    exact absurd h (by decide)

theorem limitExpiry_fails {e : Nat} {g : SegInEffect} (served : (s.conv c).served = some (s.handleOf k))
    (hj : s.job k = some j) (timer : (s.conv c).eng.timer = .limit e) (seg : (s.conv c).eng.seg = some g)
    (time : e ≤ s.now) : exec (.segmentLimitExpiry c) s = .next (finish (engineFail c k g.seg.timeout s)) := by
  have fails : limitExpiry c s = engineFail c k g.seg.timeout s := by
    rw [limitExpiry, timer, servedSlot_of served hj, seg]
    exact if_pos time
  rw [← fails]
  rfl

/-- A failure that the engine of a job reports reaches that job and its gang (R115, R159). -/
theorem engineFail_reached (c : Conv) (k : SlotIx) (o : JobOutcome) (s : State) :
    s.ReachedBy (engineFail c k o s) o fun m => m = k :=
  (failJob_reached o k _).of_slots

/-- The failure of a single job (R158). -/
theorem failJob_single (hj : s.job k = some j) (fresh : j.outcome = none) (warm : j.state ≠ .cooling)
    (single : j.gang = none) (o : JobOutcome) : failJob o k s = abortPath k (s.setOutcome k o) := by
  have alone : ((s.membersOf k).filter fun m => m != k && s.reachable m) = [] := by
    rw [membersOf_single hj single, List.filter_cons_of_neg (by rw [bne_self_eq_false, Bool.false_and]; decide)]
    rfl
  rw [failJob, if_pos (reachable_iff.2 ⟨j, hj, fresh, warm⟩), alone]
  rfl

end

/-- Settles O48: by the timer, and the place of the next segment. -/
theorem segmentTimersExpire : Obligations.SegmentTimersExpire := by
  unfold Obligations.SegmentTimersExpire
  refine ⟨⟨fun s c k j e r i settled served hj heating timer time place => ?_,
    fun s c k j e g served hj fresh heating hc single timer seg time cools => ?_⟩,
    fun s c k j e g served hj fresh warm timer seg time => ?_⟩
  · have enters : advance c k s = enterSegment c k r i s := by
      rcases place with ⟨rfl, rfl, more⟩ | ⟨rfl, rfl, head, last, tail⟩
      · exact advance_next hj heating more
      · exact advance_tail hj heating head last tail
    have run : exec (.segmentDurationExpiry c) s = .next (enterSegment c k r i s) := by
      rw [exec_segmentDurationExpiry, durationExpiry_advances served hj timer time, enters, enterSegment_eq hj]
      exact congrArg _ (finish_of_settled ((settled.setSlot k _).setConv c _))
    refine ⟨_, run, ?_⟩
    rw [enterSegment_eq hj, setConv_job, job_setSlot, if_pos rfl, conv_setConv_self]
    obtain ⟨_, _, _, entered⟩ := Converter.enterSegment_runs (v := s.conv c)
      (x := ((s.prof j.profile).window r).1 + i) (g := s.segAt (((s.prof j.profile).window r).1 + i))
      (settle := (s.head j.head).settle) (clock := s.lineClock) (now := s.now)
    refine ⟨rfl, entered, fun coast => ?_, fun powered => ?_, rfl, rfl⟩
    · rw [Converter.enterSegment_coast coast]
      exact ⟨Converter.switchOff_outputOn .., rfl⟩
    · obtain ⟨kind, initial⟩ := Segment.initial_of_powered powered
      rw [Converter.enterSegment_powered kind, initial]
      exact ⟨rfl, rfl⟩
  · have failed := failJob_single (s := s.modConv c fun v =>
      { v with command := 0, eng := { v.eng with phase := .halted, timer := .stopped } }) hj fresh
      (by rw [heating]; nofun) single g.seg.timeout
    have given : ((s.modConv c fun v =>
        { v with command := 0, eng := { v.eng with phase := .halted, timer := .stopped } }).setOutcome k
          g.seg.timeout).job k = some { j with outcome := some g.seg.timeout } := setOutcome_open hj fresh _
    obtain ⟨w, cooling⟩ := abortPath_cools given hc (by rw [heating]; rfl) cools
    rw [← failed] at cooling
    exact ⟨_, limitExpiry_fails served hj timer seg time, _, finish_job_keep cooling nofun, rfl, rfl⟩
  · exact ⟨_, limitExpiry_fails served hj timer seg time, (engineFail_reached c k _ s).finish⟩

end Sys2Proof.Machine
end

section
/-! PROOFS. Pyrometer samples (R108 to R118). -/

namespace Sys2Proof.Machine

open State

/-- A sample that neither fails the job nor is discarded adds to the record and counts the run of NO_SIGNAL. -/
theorem Job.measure_sampled (j : Job) (command flow : Nat) (reading : PyroReading) :
    { j.measure command flow reading with
      noSig := if (reading == .noSignal) = true then (j.measure command flow reading).noSig + 1 else 0 } =
      j.sampled command flow reading := by
  cases reading <;> rfl

theorem Job.measure_keeps (j : Job) (command flow : Nat) (reading : PyroReading) :
    (j.measure command flow reading).station = j.station ∧ (j.measure command flow reading).outcome = j.outcome ∧
      (j.measure command flow reading).state = j.state ∧ (j.measure command flow reading).gang = j.gang := by
  cases reading <;> exact ⟨rfl, rfl, rfl, rfl⟩

/-- The converter after an accepted sample (R114). -/
def Converter.sampled (v : Converter) (reading : PyroReading) (seekPower now : Nat) : Converter :=
  { v with
    nextSample := some (now + 1)
    eng := { v.eng with zeroHold := reading == .noSignal }
    command := if reading = .noSignal then 0 else if v.eng.phase = .run then v.eng.base else seekPower }

section
variable {s : State} {c : Conv} {k : SlotIx} {j : Job} {reading : PyroReading} {flow : Bool}

/-- The state after an accepted sample, before the work of the segment in effect (R110 to R114). -/
def State.sampledAt (s : State) (c : Conv) (k : SlotIx) (j : Job) (reading : PyroReading) : State :=
  (s.setSlot k { s.slot k with
    job := some (j.sampled (s.conv c).msCommand (s.prof j.profile).flowTemp reading) }).setConv c
      ((s.conv c).sampled reading (s.head j.head).seekPower s.now)

theorem exec_pyrometerSample (c : Conv) (reading : PyroReading) (flow : Bool) (s : State) :
    exec (.pyrometerSample c reading flow) s = .next (finish (pyroSample c reading flow s)) := rfl

/-- The state once the next sample time is set (R108). -/
def State.sampling (s : State) (c : Conv) : State := s.setConv c { s.conv c with nextSample := some (s.now + 1) }

theorem sampleDiscarded_eq_false (late : ∀ p t, poolOf c = some p → (s.relay p).lastClose = some t → t + 20 ≤ s.now) :
    sampleDiscarded c (s.sampling c) = false := by
  unfold sampleDiscarded
  split
  · rfl
  · next p hp =>
    split
    · rfl
    · next t ht => exact decide_eq_false (Nat.not_lt.2 (late p t hp ht))

theorem sampleDiscarded_of_recent {p : Pool} {t : Nat} (closed : (s.relay p).lastClose = some t)
    (recent : s.now < t + 20) : sampleDiscarded (poolConv p) (s.sampling (poolConv p)) = true := by
  have closed' : ((s.sampling (poolConv p)).relay p).lastClose = some t := closed
  rw [sampleDiscarded, poolOf_poolConv]
  dsimp only
  rw [closed']
  exact decide_eq_true recent

/-- A due sample that is not discarded is worked for the job that the converter serves (R108 to R110). -/
theorem pyroSample_works {e : Nat} (served : (s.conv c).served = some (s.handleOf k)) (hj : s.job k = some j)
    (next : (s.conv c).nextSample = some e) (time : e ≤ s.now)
    (phase : (s.conv c).eng.phase = .watch ∨ (s.conv c).eng.phase = .run)
    (late : ∀ p t, poolOf c = some p → (s.relay p).lastClose = some t → t + 20 ≤ s.now) (reading : PyroReading)
    (flow : Bool) : pyroSample c reading flow s = sampleWork c k j reading flow (s.sampling c) := by
  have kept := sampleDiscarded_eq_false late
  have same : s.modConv c (fun v => { v with nextSample := some (s.now + 1) }) = s.sampling c := rfl
  have conv : (s.sampling c).conv c = { s.conv c with nextSample := some (s.now + 1) } := conv_setConv_self ..
  have serves : (s.sampling c).servedSlot c = some k := servedSlot_of (by rw [conv]; exact served) hj
  have job : (s.sampling c).job k = some j := hj
  unfold pyroSample
  rw [if_pos (due_of_le next time), same]
  dsimp only
  rw [if_neg (Bool.eq_false_iff.1 kept), serves]
  dsimp only
  rw [job]
  dsimp only
  rw [conv]
  rcases phase with phase | phase <;> rw [phase]

theorem pyroSample_discards {p : Pool} {e t : Nat} (next : (s.conv (poolConv p)).nextSample = some e) (time : e ≤ s.now)
    (closed : (s.relay p).lastClose = some t) (recent : s.now < t + 20) (reading : PyroReading) (flow : Bool) :
    pyroSample (poolConv p) reading flow s = s.sampling (poolConv p) := by
  unfold pyroSample
  rw [if_pos (due_of_le next time)]
  exact if_pos (sampleDiscarded_of_recent closed recent)

/-- The record and the converter after a sample that fails nothing (R110 to R114). -/
theorem signalCheck_measured (hj : s.job k = some j) : signalCheck c k (reading == .noSignal) (s.head j.head).seekPower
    ((s.sampling c).modJob k (·.measure (s.conv c).msCommand (s.prof j.profile).flowTemp reading)) =
      s.sampledAt c k j reading := by
  have job : (s.sampling c).job k = some j := hj
  have own : ((s.sampling c).setSlot k { (s.sampling c).slot k with
      job := some (j.measure (s.conv c).msCommand (s.prof j.profile).flowTemp reading) }).job k =
        some (j.measure (s.conv c).msCommand (s.prof j.profile).flowTemp reading) := by rw [job_setSlot, if_pos rfl]
  rw [modJob_of_job job, signalCheck, modJob_of_job own, slot_setSlot_self, setSlot_setSlot, Job.measure_sampled, sampling,
    setSlot_setConv, modConv_setConv, sampledAt]
  refine congrArg _ ?_
  rw [Converter.sampled]
  cases reading <;> rfl

/-- A sample that fails nothing goes on with the segment in effect (R110). -/
theorem sampleWork_goes_on (hj : s.job k = some j) (fits : pyroExceeds (s.prof j.profile).ceiling reading = false)
    (heard : reading = .noSignal → j.noSig + 1 < 10) : sampleWork c k j reading flow (s.sampling c) =
      if (s.conv c).eng.phase = .run then segmentWork c k reading flow (s.sampledAt c k j reading)
      else s.sampledAt c k j reading := by
  have conv : ((s.sampling c).conv c).msCommand = (s.conv c).msCommand := by rw [sampling, conv_setConv_self]
  have phase : ((s.sampledAt c k j reading).conv c).eng.phase = (s.conv c).eng.phase := by
    rw [sampledAt, conv_setConv_self]
    rfl
  have signal : ¬ (reading = .noSignal ∧ Config.noSignalLimit ≤ j.noSig + 1) :=
    fun lost => Nat.not_le.2 (heard lost.1) lost.2
  have checked := signalCheck_measured (c := c) (reading := reading) hj
  unfold sampleWork
  dsimp only
  rw [conv]
  refine (if_neg (Bool.eq_false_iff.1 fits)).trans ((if_neg signal).trans ?_)
  rw [← phase, ← checked]
  rfl

/-! ## Samples that fail the job -/

theorem pyroExceeds_eq_false {ceiling : Nat} (cool : ∀ t, reading = .temp t → t ≤ ceiling) (inside : reading ≠ .over) :
    pyroExceeds ceiling reading = false :=
  match reading, cool, inside with
  | .temp t, cool, _ => decide_eq_false (Nat.not_lt.2 (cool t rfl))
  | .over, _, inside => (inside rfl).elim
  | .under, _, _ | .noSignal, _, _ => rfl

theorem pyroExceeds_of {ceiling : Nat} (hot : reading = .over ∨ ∃ t, reading = .temp t ∧ ceiling < t) :
    pyroExceeds ceiling reading = true := by
  rcases hot with rfl | ⟨t, rfl, above⟩
  · rfl
  · exact decide_eq_true above

/-- A failure after the measurement of a sample reaches the job and its gang. -/
theorem measured_reached {f : Job → Job} {o : JobOutcome} (hj : s.job k = some j) (warm : j.state ≠ .cooling)
    (hf : (f j).station = j.station ∧ (f j).outcome = j.outcome ∧ (f j).state = j.state ∧ (f j).gang = j.gang) :
    s.ReachedBy (finish (engineFail c k o ((s.sampling c).modJob k f))) o fun m => m = k := by
  have reached : (s.sampling c).ReachedBy (finish (engineFail c k o ((s.sampling c).modJob k f))) o fun m => m = k := by
    refine (engineFail_reached c k o _).finish.of_measure fun i hi => ?_
    obtain rfl := Option.some.inj (hj.symm.trans hi)
    obtain ⟨station, outcome, state, gang⟩ := hf
    exact ⟨station, outcome, state, gang, warm⟩
  exact reached.of_slots

theorem sampleWork_overheats (hot : pyroExceeds (s.prof j.profile).ceiling reading = true) :
    sampleWork c k j reading flow (s.sampling c) = engineFail c k .overheat ((s.sampling c).modJob k
      (·.measure ((s.sampling c).conv c).msCommand (s.prof j.profile).flowTemp reading)) := by
  unfold sampleWork
  exact if_pos hot

theorem modJob_modJob (s : State) (k : SlotIx) (f g : Job → Job) : (s.modJob k f).modJob k g = s.modJob k (g ∘ f) := by
  rw [modJob, modJob, slot_setSlot_self, setSlot_setSlot, modJob, job_setSlot, if_pos rfl, Option.map_map]

theorem sampleWork_loses (lost : Config.noSignalLimit ≤ j.noSig + 1) :
    sampleWork c k j .noSignal flow (s.sampling c) = engineFail c k .sensorLost ((s.sampling c).modJob k
      fun i => { i.measure ((s.sampling c).conv c).msCommand (s.prof j.profile).flowTemp .noSignal with
        noSig := (i.measure ((s.sampling c).conv c).msCommand (s.prof j.profile).flowTemp .noSignal).noSig + 1 }) := by
  unfold sampleWork
  refine ((if_neg Bool.false_ne_true).trans (if_pos ⟨rfl, lost⟩)).trans ?_
  rw [modJob_modJob]
  rfl

/-! ## The segment in effect at a sample -/

theorem sampledAt_conv : (s.sampledAt c k j reading).conv c =
    (s.conv c).sampled reading (s.head j.head).seekPower s.now := conv_setConv_self ..

theorem segmentWork_ends {g : SegInEffect} (seg : (s.conv c).eng.seg = some g)
    (ends : g.seg.endsAt reading flow = true) :
    segmentWork c k reading flow (s.sampledAt c k j reading) = advance c k (s.sampledAt c k j reading) := by
  have seg' : ((s.sampledAt c k j reading).conv c).eng.seg = some g := by rw [sampledAt_conv]; exact seg
  rw [segmentWork, seg']
  exact if_pos ends

theorem segmentWork_goes_on {g : SegInEffect} (run : (s.conv c).eng.phase = .run) (seg : (s.conv c).eng.seg = some g)
    (lasts : g.seg.endsAt reading flow = false) : segmentWork c k reading flow (s.sampledAt c k j reading) =
      (s.sampledAt c k j reading).setConv c { (s.sampledAt c k j reading).conv c with
        eng := { ((s.sampledAt c k j reading).conv c).eng with base := g.seg.baseAt (s.conv c).eng.base reading }
        command := if reading = .noSignal then 0 else g.seg.baseAt (s.conv c).eng.base reading } := by
  have seg' : ((s.sampledAt c k j reading).conv c).eng.seg = some g := by rw [sampledAt_conv]; exact seg
  rw [segmentWork, seg']
  refine (if_neg (Bool.eq_false_iff.1 lasts)).trans ?_
  rw [modConv, sampledAt_conv]
  refine congrArg _ ?_
  have inForce : ∀ v : Converter, v.eng.phase = .run → v.inForce 0 = if v.eng.zeroHold then 0 else v.eng.base :=
    fun v runs => by rw [Converter.inForce, if_pos runs]
  dsimp only
  rw [inForce]
  · cases reading <;> rfl
  · exact run

end

/-- Settles O46: by whether the sample is discarded, fails the job or goes on with the segment in effect. -/
theorem samplesMeasure : Obligations.SamplesMeasure := by
  unfold Obligations.SamplesMeasure
  refine ⟨⟨fun s c k j e temp flow settled served hj next time watch late cool => ?_,
    fun s p e t reading flow settled next time closed recent => ?_⟩,
    fun s c k j e reading flow served hj next time phase late => ⟨fun cool inside heard => ?_, fun hot fresh warm => ?_,
      fun lost many fresh warm => ?_⟩⟩
  · have run : exec (.pyrometerSample c (.temp temp) flow) s = .next (s.sampledAt c k j (.temp temp)) := by
      rw [exec_pyrometerSample, pyroSample_works served hj next time (.inl watch) late,
        sampleWork_goes_on hj (reading := .temp temp) (decide_eq_false (Nat.not_lt.2 cool)) (nomatch ·), if_neg (by rw [watch]; nofun)]
      exact congrArg _ (finish_of_settled ((settled.setSlot k _).setConv c _))
    refine ⟨_, run, ?_⟩
    rw [sampledAt_conv]
    refine ⟨?_, ?_, rfl, rfl, rfl, fun m ne => slot_setSlot_ne _ (Ne.symm ne) _, fun d ne => conv_setConv_ne _ (Ne.symm ne) _,
      rfl, rfl, rfl⟩
    · rw [sampledAt, setConv_job, job_setSlot, if_pos rfl, Job.sampled]
      by_cases above : (s.prof j.profile).flowTemp ≤ temp
      · simp only [if_pos above]
        rfl
      · simp only [if_neg above]
        rfl
    · rw [Converter.sampled]
      dsimp only
      rw [if_neg (by nofun), if_neg (by rw [watch]; nofun)]
  · rw [exec_pyrometerSample, pyroSample_discards next time closed recent]
    exact congrArg _ (finish_of_settled (settled.setConv _ _))
  · have work := (pyroSample_works served hj next time phase late reading flow).trans
      (sampleWork_goes_on hj (pyroExceeds_eq_false cool inside) heard)
    refine ⟨s.sampledAt c k j reading, rfl, slot_setSlot_self .., fun m ne => slot_setSlot_ne _ (Ne.symm ne) _,
      fun d ne => conv_setConv_ne _ (Ne.symm ne) _, sampledAt_conv, fun watch => ?_, fun g run seg => ⟨fun ends => ?_,
        fun lasts => ?_⟩⟩
    · rw [exec_pyrometerSample, work, if_neg (by rw [watch]; nofun)]
    · rw [exec_pyrometerSample, work, if_pos run, segmentWork_ends seg ends]
    · rw [exec_pyrometerSample, work, if_pos run, segmentWork_goes_on run seg lasts]
  · refine ⟨_, rfl, ?_⟩
    rw [pyroSample_works served hj next time phase late, sampleWork_overheats (pyroExceeds_of hot)]
    exact measured_reached hj warm (j.measure_keeps _ _ _)
  · subst lost
    refine ⟨_, rfl, ?_⟩
    rw [pyroSample_works served hj next time phase late, sampleWork_loses many]
    exact measured_reached hj warm
      (j.measure_keeps ((s.sampling c).conv c).msCommand (s.prof j.profile).flowTemp .noSignal)

end Sys2Proof.Machine
end

section
/-! PROOFS. The guard scanner: conversions, passes and the heads that leave it (R131 to R141). -/

namespace Sys2Proof.Machine

open State

/-! ## The scanner through the end of a job -/

/-- The scan set, the pass and the conversion are as they were. -/
def State.SameScan (s t : State) : Prop :=
  t.scanSet = s.scanSet ∧ t.passList = s.passList ∧ t.conversion = s.conversion

theorem State.SameScan.refl (s : State) : s.SameScan s := ⟨rfl, rfl, rfl⟩

theorem State.SameScan.trans {s t u : State} (h : s.SameScan t) (g : t.SameScan u) : s.SameScan u := by
  obtain ⟨scan, pass, conv⟩ := h
  obtain ⟨scan', pass', conv'⟩ := g
  exact ⟨scan'.trans scan, pass'.trans pass, conv'.trans conv⟩

/-- The scanner stands, and waiting jobs wait on. -/
def State.Quiet (s t : State) : Prop := s.SameScan t ∧ s.Tends t

theorem State.Quiet.refl (s : State) : s.Quiet s := ⟨.refl s, .refl s⟩

theorem State.Quiet.trans {s t u : State} (h : s.Quiet t) (g : t.Quiet u) : s.Quiet u :=
  ⟨h.1.trans g.1, h.2.trans g.2⟩

theorem quiet_folds {f : State → SlotIx → State} (hf : ∀ (u : State) m, u.Waits m → u.Quiet (f u m)) :
    ∀ (l : List SlotIx) (s : State), (∀ m ∈ l, s.Waits m) → s.Quiet (l.foldl f s)
  | [], s, _ => .refl s
  | m :: l, s, h => by
    have step := hf s m (h m (List.mem_cons_self ..))
    exact step.trans (quiet_folds hf l (f s m) fun n hn => step.2 n (h n (List.mem_cons_of_mem _ hn)))

theorem readyRecords_scan (u : List SlotIx) (s : State) : s.SameScan (s.readyRecords u) := by
  unfold readyRecords
  induction u generalizing s with
  | nil => exact .refl s
  | cons m u ih => exact State.SameScan.trans (t := s.modJob m (·.ready s.lineClock)) ⟨rfl, rfl, rfl⟩ (ih _)

theorem enterReady_quiet {u : List SlotIx} {s : State} (hu : ∀ m ∈ u, s.jobIs m (·.state == .pending) = true) :
    s.Quiet (enterReady u s) := by
  refine ⟨?_, (enterReady_laws (.only none) hu).2⟩
  by_cases empty : u = []
  · subst empty
    exact .refl s
  · obtain ⟨c, -, e⟩ := enterReady_of_pending empty hu
    rw [e]
    exact (readyRecords_scan u s).trans ⟨rfl, rfl, rfl⟩

theorem freeSlot_scan_of_waits {k : SlotIx} {j : Job} {s : State} (waits : j.state = .pending ∨ j.state = .ready) :
    s.SameScan (freeSlot k j s) := by
  rcases waits with state | state <;> rw [freeSlot, state] <;> exact ⟨rfl, rfl, rfl⟩

theorem endSteps_scan_of_waits {k : SlotIx} {j : Job} {r : Release} {s : State}
    (waits : j.state = .pending ∨ j.state = .ready) : s.SameScan (endSteps k j r s) :=
  State.SameScan.trans (t := (writeResult k j r s).modUse j.profile (· - 1)) ⟨rfl, rfl, rfl⟩
    ((freeSlot_scan_of_waits waits).trans ⟨rfl, rfl, rfl⟩)

/-- The resolution of successors leaves the scanner, if the ends of waiting jobs at the next depth do. -/
theorem succeed_quiet {n : Nat}
    (ih : ∀ {k : SlotIx} {r : Release} {s : State}, s.Waits k → s.Quiet (endJobFuel n k r s))
    (h : Handle) (o : Option JobOutcome) (u : State) (m : SlotIx) : u.Quiet (succeed n h o u m) := by
  have waits : ∀ x ∈ u.pendingUnit m, u.Waits x := fun x hx => waits_of_pending (pendingUnit_pending u m x hx)
  unfold succeed
  split
  · split
    · exact enterReady_quiet (pendingUnit_pending u m)
    · have given := quiet_folds (f := fun s u => s.setOutcome u .chainBroken)
        (fun v x _ => ⟨⟨rfl, rfl, rfl⟩, setOutcome_tends⟩) _ u waits
      exact given.trans (quiet_folds (fun _ _ w => ih w) _ _ fun x hx => given.2 x (waits x hx))
  · exact .refl u

theorem foldl_succeed_quiet {n : Nat}
    (ih : ∀ {k : SlotIx} {r : Release} {s : State}, s.Waits k → s.Quiet (endJobFuel n k r s))
    (h : Handle) (o : Option JobOutcome) (l : List SlotIx) (s : State) : s.Quiet (l.foldl (succeed n h o) s) := by
  induction l generalizing s with
  | nil => exact .refl s
  | cons m l rest => exact (succeed_quiet ih h o s m).trans (rest _)

theorem endJobFuel_quiet {n : Nat} {k : SlotIx} {r : Release} {s : State} (waits : s.Waits k) :
    s.Quiet (endJobFuel n k r s) := by
  induction n generalizing k r s with
  | zero => exact .refl s
  | succ n ih =>
    cases hj : s.job k with
    | none =>
      rw [endJobFuel_of_free hj]
      exact .refl s
    | some j =>
      have steps : s.Quiet (endSteps k j r s) := ⟨endSteps_scan_of_waits (waits j hj), endSteps_tends⟩
      rw [endJobFuel_succ hj]
      exact steps.trans (foldl_succeed_quiet (fun w => ih w) _ _ _ _)

/-- What a head's leaving makes of the scanner is all that the end of a cooling job makes of it (R60, R135). -/
theorem endJob_scan {k : SlotIx} {j : Job} {s : State} (hj : s.job k = some j) (cooling : j.state = .cooling)
    (r : Release) : (scanLeave j.head s).SameScan (endJob k r s) := by
  have leaves : ∀ u v : State, u.SameScan v → u.now = v.now → u.guardDwell = v.guardDwell →
      (scanLeave j.head u).SameScan (scanLeave j.head v) := by
    rintro u v ⟨scan, pass, conv⟩ now dwell
    unfold scanLeave scanNext startPass startConversion
    rw [scan, pass, conv]
    dsimp only
    split
    · exact ⟨rfl, rfl, rfl⟩
    · split
      · split
        · split <;> exact ⟨rfl, rfl, by rw [now, dwell]⟩
        · split
          · exact ⟨rfl, rfl, rfl⟩
          · exact ⟨rfl, rfl, by rw [now, dwell]⟩
      · exact ⟨rfl, rfl, rfl⟩
  have steps : (scanLeave j.head s).SameScan (endSteps k j r s) := by
    have freed : freeSlot k j ((writeResult k j r s).modUse j.profile (· - 1)) = (scanLeave j.head
        (((writeResult k j r s).modUse j.profile (· - 1)).setSlot k
          { gen := (((writeResult k j r s).modUse j.profile (· - 1)).slot k).gen + 1, job := none })).raise := by
      rw [freeSlot, cooling]
    have left := leaves s (((writeResult k j r s).modUse j.profile (· - 1)).setSlot k
      { gen := (((writeResult k j r s).modUse j.profile (· - 1)).slot k).gen + 1, job := none }) ⟨rfl, rfl, rfl⟩ rfl rfl
    rw [endSteps, freed]
    exact left.trans ⟨rfl, rfl, rfl⟩
  rw [endJob, endJobFuel_succ hj]
  exact steps.trans (foldl_succeed_quiet (fun w => endJobFuel_quiet w) _ _ _ _).1

/-! ## The next conversion -/

section
variable {s : State} {g : Head} {rest : List Head}

theorem scanNext_of_pass (pass : s.passList = g :: rest) :
    scanNext s = { s with passList := rest, conversion := some (g, s.now + s.guardDwell) } := by
  unfold scanNext startConversion
  rw [pass]
  rfl

theorem scanNext_of_set (pass : s.passList = []) (set : s.scanSet = g :: rest) :
    scanNext s = { s with passList := rest, conversion := some (g, s.now + s.guardDwell) } := by
  unfold scanNext startPass startConversion
  rw [pass, set]
  rfl

theorem scanNext_idle (pass : s.passList = []) (set : s.scanSet = []) : scanNext s = { s with passList := [] } := by
  unfold scanNext startPass startConversion
  rw [pass, set]
  rfl

/-- What follows a conversion that is over: the next head of the pass, the first of a new pass, or none (R133). -/
theorem scanNext_follows (over_ : s.conversion = none) :
    (∀ g rest, s.passList = g :: rest →
      (scanNext s).conversion = some (g, s.now + s.guardDwell) ∧ (scanNext s).passList = rest) ∧
    (s.passList = [] → (∀ g rest, s.scanSet = g :: rest →
        (scanNext s).conversion = some (g, s.now + s.guardDwell) ∧ (scanNext s).passList = rest) ∧
      (s.scanSet = [] → (scanNext s).conversion = none ∧ (scanNext s).passList = [])) := by
  refine ⟨fun g rest pass => ?_, fun pass => ⟨fun g rest set => ?_, fun set => ?_⟩⟩
  · rw [scanNext_of_pass pass]
    exact ⟨rfl, rfl⟩
  · rw [scanNext_of_set pass set]
    exact ⟨rfl, rfl⟩
  · rw [scanNext_idle pass set]
    exact ⟨over_, rfl⟩

theorem scanLeave_other (other : ∀ e, s.conversion ≠ some (g, e)) :
    scanLeave g s = { s with scanSet := s.scanSet.filter (· != g), passList := s.passList.filter (· != g) } := by
  unfold scanLeave
  dsimp only
  split
  · rfl
  · next x e conv => exact if_neg fun same => other e (by rw [conv, same])

theorem scanLeave_converting {e : Nat} (conv : s.conversion = some (g, e)) : scanLeave g s = scanNext { s with
    scanSet := s.scanSet.filter (· != g), passList := s.passList.filter (· != g), conversion := none } := by
  unfold scanLeave
  dsimp only
  rw [conv]
  exact if_pos rfl

theorem finish_of_noCause (quiet : s.arbCause = false) : finish s = scanSettle s := by
  rw [finish, quiet]
  rfl

theorem finish_starts_pass (quiet : s.arbCause = false) (idle : s.conversion = none) (pass : s.passList = [])
    (set : s.scanSet = g :: rest) :
    (finish s).conversion = some (g, s.now + s.guardDwell) ∧ (finish s).passList = rest := by
  rw [finish_of_noCause quiet, scanSettle, idle]
  exact ((scanNext_follows idle).2 pass).1 g rest set

/-! ## The end of a conversion -/

end

section
variable {s : State} {h : Head} {e : Nat} {k : SlotIx} {j : Job} {reading : GuardReading}

theorem exec_guardConversionComplete (reading : GuardReading) (s : State) :
    exec (.guardConversionComplete reading) s = .next (finish (guardComplete reading s)) := rfl

theorem guardComplete_early (conv : s.conversion = some (h, e)) (early : s.now < e) : guardComplete reading s = s := by
  rw [guardComplete, conv]
  exact if_pos early

/-- The state in which the reading of a completed conversion is worked. -/
def State.converted (s : State) : State := { s with conversion := none }

theorem guardComplete_cools (conv : s.conversion = some (h, e)) (time : e ≤ s.now) (occ : s.occupant h = some k)
    (hj : s.job k = some j) (cooling : j.state = .cooling) (reading : GuardReading) :
    guardComplete reading s = scanNext (guardCool k (s.prof j.profile) reading s.converted) := by
  have occ' : s.converted.occupant h = some k := occ
  have hj' : s.converted.job k = some j := hj
  have off : s.converted = { s with conversion := none } := rfl
  rw [guardComplete, conv]
  refine (if_neg (Nat.not_lt.2 time)).trans ?_
  rw [← off]
  dsimp only
  rw [occ']
  dsimp only
  rw [hj']
  dsimp only
  rw [cooling]
  rfl

theorem guardComplete_hot (conv : s.conversion = some (h, e)) (time : e ≤ s.now) (occ : s.occupant h = some k)
    (hj : s.job k = some j) (hot : j.state = .seeking ∨ j.state = .aligning ∨ j.state = .heating)
    (reading : GuardReading) :
    guardComplete reading s = scanNext (guardHot k j (s.prof j.profile) reading s.converted) := by
  have occ' : s.converted.occupant h = some k := occ
  have hj' : s.converted.job k = some j := hj
  have off : s.converted = { s with conversion := none } := rfl
  rw [guardComplete, conv]
  refine (if_neg (Nat.not_lt.2 time)).trans ?_
  rw [← off]
  dsimp only
  rw [occ']
  dsimp only
  rw [hj']
  dsimp only
  rcases hot with hot | hot | hot <;> rw [hot] <;> rfl

theorem scanNext_slots (s : State) : (scanNext s).slots = s.slots := by rw [scanNext_only]

theorem scanNext_stations (s : State) : (scanNext s).stations = s.stations := by rw [scanNext_only]

theorem scanNext_job (s : State) (k : SlotIx) : (scanNext s).job k = s.job k := by
  rw [State.job, State.slot, scanNext_slots]
  rfl

/-- A job that is not in READY at the end of the work stands through the end of the event. -/
theorem finish_scanNext_job {i : Job} (hi : s.job k = some i) (other : i.state ≠ .ready) :
    (finish (scanNext s)).job k = some i :=
  finish_job_keep ((scanNext_job s k).trans hi) other

/-- The record of a job after a reading of its guard (R137). -/
def Job.guardRead (j : Job) (reading : GuardReading) : Job :=
  { j.guardSeen reading with guardNoSig := if reading == .noSignal then j.guardNoSig + 1 else 0 }

theorem Job.guardSeen_keeps (j : Job) (reading : GuardReading) : (j.guardSeen reading).station = j.station ∧
    (j.guardSeen reading).outcome = j.outcome ∧ (j.guardSeen reading).state = j.state ∧
      (j.guardSeen reading).gang = j.gang := by
  cases reading <;> exact ⟨rfl, rfl, rfl, rfl⟩

/-- A reading of a hot head that fails nothing (R137). -/
theorem guardHot_passes {p : Profile} (heard : ¬ (reading = .noSignal ∧ 2 ≤ j.guardNoSig + 1))
    (fits : guardExceeds p.guardLimit reading = false) :
    guardHot k j p reading s = s.modJob k (·.guardRead reading) := by
  unfold guardHot
  refine (if_neg fun lost => heard ⟨beq_iff_eq.1 lost.1, lost.2⟩).trans ?_
  exact if_neg (Bool.eq_false_iff.1 fits)

theorem guardHot_temp {p : Profile} {temp : Nat} (fits : temp ≤ p.guardLimit) :
    guardHot k j p (.temp temp) s = s.modJob k (·.guardRead (.temp temp)) :=
  guardHot_passes (reading := .temp temp) (by rintro ⟨lost, -⟩; nomatch lost) (decide_eq_false (Nat.not_lt.2 fits))

theorem guardHot_loses {p : Profile} (lost : 2 ≤ j.guardNoSig + 1) :
    guardHot k j p .noSignal s = failJob .sensorLost k (s.modJob k (·.guardRead .noSignal)) :=
  if_pos ⟨rfl, lost⟩

theorem guardHot_exceeds {p : Profile} (over_ : guardExceeds p.guardLimit reading = true) :
    guardHot k j p reading s = failJob .guardOver k (s.modJob k (·.guardRead reading)) := by
  unfold guardHot
  refine (if_neg ?_).trans (if_pos over_)
  rintro ⟨lost, -⟩
  rw [beq_iff_eq.1 lost] at over_
  nomatch over_

/-- A failure that a guard reading reports reaches the job and its gang (R137, R158). -/
theorem guardFails_reached {o : JobOutcome} (hj : s.job k = some j) (warm : j.state ≠ .cooling) :
    s.ReachedBy (finish (scanNext (failJob o k (s.converted.modJob k (·.guardRead reading))))) o fun m => m = k := by
  have failed := (failJob_reached o k (s.converted.modJob k (·.guardRead reading))).after
    (scanNext_slots _) (scanNext_stations _)
  have reached : s.converted.ReachedBy
      (finish (scanNext (failJob o k (s.converted.modJob k (·.guardRead reading))))) o fun m => m = k := by
    refine failed.finish.of_measure fun i hi => ?_
    obtain rfl := Option.some.inj (hj.symm.trans hi)
    obtain ⟨station, outcome, state, gang⟩ := j.guardSeen_keeps reading
    exact ⟨station, outcome, state, gang, warm⟩
  exact reached.of_slots

end

theorem guardCool_releases {s : State} {k : SlotIx} {p : Profile} {temp : Nat} (low : temp ≤ p.releaseTemp) :
    guardCool k p (.temp temp) s = endJob k .guard (s.modJob k (·.guardSeen (.temp temp))) :=
  if_pos (decide_eq_true low)

theorem guardCool_stays {s : State} {k : SlotIx} {p : Profile} {reading : GuardReading}
    (high : guardReleases p.releaseTemp reading = false) :
    guardCool k p reading s = s.modJob k (·.guardSeen reading) :=
  if_neg (Bool.eq_false_iff.1 high)

theorem finish_scanNext_gen (s : State) (k : SlotIx) : ((finish (scanNext s)).slot k).gen = (s.slot k).gen := by
  rw [(finish_slots _ k).1, State.slot, scanNext_slots]
  rfl

theorem finish_scanNext_free {s : State} {k : SlotIx} (free : s.job k = none) : (finish (scanNext s)).job k = none := by
  rw [← Option.isNone_iff_eq_none, ← Option.not_isSome, (finish_slots _ k).2, scanNext_job, free]
  rfl

theorem finish_scanNext_station (s : State) (n : Station) : (finish (scanNext s)).station n = s.station n := by
  rw [finish_station, State.station, scanNext_stations]
  rfl

/-- The completion of an event that raises no cause leaves the scan set. -/
theorem finish_scanNext_scanSet {s : State} (quiet : s.arbCause = false) :
    (finish (scanNext s)).scanSet = s.scanSet := by
  have cause : (scanNext s).arbCause = false := by
    rw [scanNext_only]
    exact quiet
  rw [finish_of_noCause cause, scanSettle_only, scanNext_only]

/-- What follows a conversion stands at the end of its event. -/
theorem finish_scanNext_follows {s : State} (quiet : s.arbCause = false) (over_ : s.conversion = none) :
    (∀ g rest, s.passList = g :: rest → (finish (scanNext s)).conversion = some (g, s.now + s.guardDwell) ∧
      (finish (scanNext s)).passList = rest) ∧
    (∀ g rest, s.passList = [] → s.scanSet = g :: rest →
      (finish (scanNext s)).conversion = some (g, s.now + s.guardDwell) ∧ (finish (scanNext s)).passList = rest) ∧
    (s.passList = [] → s.scanSet = [] →
      (finish (scanNext s)).conversion = none ∧ (finish (scanNext s)).passList = []) := by
  obtain ⟨next, renew⟩ := scanNext_follows over_
  have stands : ∀ g rest, (scanNext s).conversion = some (g, s.now + s.guardDwell) ∧ (scanNext s).passList = rest →
      (finish (scanNext s)).conversion = some (g, s.now + s.guardDwell) ∧ (finish (scanNext s)).passList = rest := by
    rintro g rest ⟨conv, pass⟩
    obtain ⟨conv', pass'⟩ := finish_scan conv
    exact ⟨conv'.trans conv, pass'.trans pass⟩
  refine ⟨fun g rest pass => stands g rest (next g rest pass),
    fun g rest pass set => stands g rest ((renew pass).1 g rest set), fun pass set => ?_⟩
  obtain ⟨conv', pass'⟩ := (renew pass).2 set
  have settled : (scanNext s).Settled := by
    refine ⟨?_, fun _ => ⟨?_, pass'⟩⟩
    · rw [scanNext_only]
      exact quiet
    · rw [scanNext_only]
      exact set
  rw [finish_of_settled settled]
  exact ⟨conv', pass'⟩

/-- Settles O50: by the state of the job on the head, the reading, and what is left of the pass. -/
theorem guard_releases : Obligations.GuardReleases := by
  unfold Obligations.GuardReleases
  refine ⟨fun s h e temp k j conv time occ hj cooling => ⟨fun low => ?_, fun high _ => ?_⟩,
    fun s h e k j conv time occ hj => ⟨fun cooling reading blind => ?_, fun hot => ⟨fun temp fits => ?_, fun first => ?_,
      fun second _ => ?_, fun reading out _ => ?_⟩⟩,
    fun s h e temp k j settled conv time occ hj hot fits => ?_, fun s h e reading settled conv early => ?_,
    fun s k j r hj cooling => ?_, fun s => ⟨fun x conv => ?_, fun g rest quiet idle pass set =>
      finish_starts_pass quiet idle pass set⟩⟩
  · have own : (s.converted.modJob k (·.guardSeen (.temp temp))).job k = some (j.guardSeen (.temp temp)) := by
      rw [job_modJob_self, show s.converted.job k = some j from hj]
      rfl
    have run : exec (.guardConversionComplete (.temp temp)) s =
        .next (finish (scanNext (endJob k .guard (s.converted.modJob k (·.guardSeen (.temp temp)))))) := by
      rw [exec_guardConversionComplete, guardComplete_cools conv time occ hj cooling, guardCool_releases low]
    have slot := endJob_slot .guard own
    refine ⟨_, run, ?_, finish_scanNext_free (endJob_none ..),
      (s.converted.modJob k (·.guardSeen (.temp temp))).resultOf k (j.guardSeen (.temp temp)) .guard, ?_,
      handleOf_modJob .., rfl, rfl, rfl⟩
    · rw [finish_scanNext_gen, slot, slot_modJob, if_pos rfl]
      rfl
    · rw [finish_scanNext_station]
      exact endJob_result .guard own
  · have warm : guardReleases (s.prof j.profile).releaseTemp (.temp temp) = false :=
      decide_eq_false (Nat.not_le.2 high)
    refine ⟨_, rfl, ?_⟩
    rw [guardComplete_cools conv time occ hj cooling, guardCool_stays warm]
    refine finish_scanNext_job (i := j.guardSeen (.temp temp)) ?_ (by rw [(j.guardSeen_keeps _).2.2.1, cooling]; nofun)
    rw [job_modJob_self, show s.converted.job k = some j from hj]
    rfl
  · have keeps : guardReleases (s.prof j.profile).releaseTemp reading = false ∧ j.guardSeen reading = j := by
      rcases blind with rfl | rfl <;> exact ⟨rfl, rfl⟩
    refine ⟨_, rfl, ?_⟩
    rw [guardComplete_cools conv time occ hj cooling, guardCool_stays keeps.1]
    refine finish_scanNext_job (i := j) ?_ (by rw [cooling]; nofun)
    rw [job_modJob_self, show s.converted.job k = some j from hj, Option.map_some, keeps.2]
  · refine ⟨_, rfl, ?_⟩
    rw [guardComplete_hot conv time occ hj hot, guardHot_temp fits]
    refine finish_scanNext_job (i := j.guardRead (.temp temp)) ?_ ?_
    · rw [job_modJob_self, show s.converted.job k = some j from hj]
      rfl
    · rcases hot with hot | hot | hot <;> exact fun ready => nomatch hot.symm.trans ready
  · refine ⟨_, rfl, ?_⟩
    rw [guardComplete_hot conv time occ hj hot, guardHot_passes (fun lost => Nat.not_le.2 first lost.2) rfl]
    refine finish_scanNext_job (i := j.guardRead .noSignal) ?_ ?_
    · rw [job_modJob_self, show s.converted.job k = some j from hj]
      rfl
    · rcases hot with hot | hot | hot <;> exact fun ready => nomatch hot.symm.trans ready
  · refine ⟨_, rfl, ?_⟩
    rw [guardComplete_hot conv time occ hj hot, guardHot_loses second]
    exact guardFails_reached hj (by rcases hot with hot | hot | hot <;> rw [hot] <;> nofun)
  · refine ⟨_, rfl, ?_⟩
    have exceeds : guardExceeds (s.prof j.profile).guardLimit reading = true := by
      rcases out with rfl | ⟨temp, rfl, high⟩
      · rfl
      · exact decide_eq_true high
    rw [guardComplete_hot conv time occ hj hot, guardHot_exceeds exceeds]
    exact guardFails_reached hj (by rcases hot with hot | hot | hot <;> rw [hot] <;> nofun)
  · have run : exec (.guardConversionComplete (.temp temp)) s =
        .next (finish (scanNext (s.converted.modJob k (·.guardRead (.temp temp))))) := by
      rw [exec_guardConversionComplete, guardComplete_hot conv time occ hj hot,
        guardHot_temp fits]
    exact ⟨_, run, finish_scanNext_scanSet settled.noCause,
      finish_scanNext_follows (s := s.converted.modJob k (·.guardRead (.temp temp))) settled.noCause rfl⟩
  · rw [exec_guardConversionComplete, guardComplete_early conv early, finish_of_settled settled]
  · obtain ⟨scan, pass, converts⟩ := endJob_scan hj cooling r
    rw [scan, pass, converts]
    refine ⟨scanLeave_scanSet .., fun other => ?_, fun e conv => ?_⟩
    · rw [scanLeave_other other]
      exact ⟨rfl, rfl⟩
    · rw [scanLeave_converting conv]
      exact scanNext_follows (s := { s with
        scanSet := s.scanSet.filter (· != j.head), passList := s.passList.filter (· != j.head), conversion := none }) rfl
  · obtain ⟨conv', pass⟩ := finish_scan conv
    exact ⟨conv'.trans conv, pass⟩

end Sys2Proof.Machine
end

section
/-! PROOFS. The timers of jobs (R96, R142, R143). -/

namespace Sys2Proof.Machine

open State

/-! ## The wait limit -/

/-- One member of a candidate that ends by its wait limit (R96). -/
def expireMember (s : State) (k : SlotIx) : State := if s.jobIs k (·.state == .ready) then endJob k .none s else s

theorem expireMember_accounted (s : State) (k : SlotIx) : s.Accounted (expireMember s k) := by
  unfold expireMember
  split
  · exact endJob_accounted (.refl s) fun _ _ _ => rfl
  · exact .refl s

theorem expireMember_keeps {s : State} {k m : SlotIx} {j : Job} (other : m ≠ k) (hj : s.job m = some j)
    (ready : j.state = .ready) : (expireMember s k).job m = some j := by
  unfold expireMember
  split
  · exact endJob_keeps (l := [k]) (.refl s) (.inl (List.mem_singleton_self k)) m j
      (fun h => other (List.mem_singleton.1 h)) hj (by rw [ready]; nofun)
  · exact hj

theorem expireMember_ends {s : State} {k : SlotIx} (ready : ∀ j, s.job k = some j → j.state = .ready) :
    (expireMember s k).job k = none := by
  unfold expireMember
  split
  · exact endJob_none ..
  · next idle =>
    cases hj : s.job k with
    | none => rfl
    | some j => exact (idle (jobIs_iff.2 ⟨j, hj, beq_iff_eq.2 (ready j hj)⟩)).elim

theorem expireMembers_accounted (l : List SlotIx) (s : State) : s.Accounted (l.foldl expireMember s) :=
  (State.Accounted.refl s).folds fun u k hu => hu.trans (expireMember_accounted u k)

/-- Every READY member ends (R96). -/
theorem expireMembers_end {l : List SlotIx} {s : State} {k : SlotIx} (hk : k ∈ l)
    (ready : ∀ j, s.job k = some j → j.state = .ready) : (l.foldl expireMember s).job k = none := by
  induction l generalizing s with
  | nil => nomatch hk
  | cons x l ih =>
    rw [List.foldl_cons]
    by_cases same : k = x
    · subst same
      exact (expireMembers_accounted l _).free k (expireMember_ends ready)
    · refine ih ((List.mem_cons.1 hk).resolve_left same) fun j hj => ?_
      cases before : s.job k with
      | none => exact nomatch hj.symm.trans ((expireMember_accounted s x).free k before)
      | some i =>
        have kept := expireMember_keeps same before (ready i before)
        rw [← Option.some.inj (kept.symm.trans hj)]
        exact ready i before

/-- The wait limit of a candidate stops every member in READY (R96). -/
theorem waitExpire_stopped {c : Cand} {s : State} {m : SlotIx} {j : Job} (hm : m ∈ c.members) (hj : s.job m = some j)
    (ready : j.state = .ready) (fresh : j.outcome = none) : s.Stopped (waitExpire c s) m j .waitExpired := by
  have reach : s.reachable m = true := reachable_iff.2 ⟨j, hj, fresh, by rw [ready]; nofun⟩
  have given : (c.members.foldl (giveOutcome .waitExpired) s).slot m =
      { s.slot m with job := (s.job m).map (·.given .waitExpired) } := by
    rw [giveAll_slot, if_pos ⟨hm, reach⟩]
  have gone : (waitExpire c s).job m = none := by
    refine expireMembers_end hm fun i hi => ?_
    rw [State.job, given, hj] at hi
    rw [← Option.some.inj hi]
    exact ready
  exact stopped_of_given hj given (expireMembers_accounted _ _) fun i hi => nomatch gone.symm.trans hi

theorem exec_waitLimitExpiry {s : State} {k : SlotIx} {c : Cand} {e : Nat}
    (found : s.cands.find? (fun x => x.members.contains k) = some c) (timer : c.waitTimer = some e) (time : e ≤ s.now) :
    exec (.waitLimitExpiry k) s = .next (finish (waitExpire c s)) := by
  have due : s.due c.waitTimer = true := due_of_le timer time
  change execWaitLimitExpiry k s = _
  rw [execWaitLimitExpiry, found]
  exact congrArg done (if_pos due)

/-! ## The cool dwell and the cooling limit -/

section
variable {s : State} {k : SlotIx} {j : Job} {e : Nat}

theorem exec_coolDwellExpiry (hj : s.job k = some j) (cooling : j.state = .cooling) (timer : j.coolDwellTimer = some e)
    (time : e ≤ s.now) : exec (.coolDwellExpiry k) s = .next (finish (endJob k .timed s)) :=
  congrArg done (if_pos (jobIs_iff.2 ⟨j, hj,
    Bool.and_eq_true_iff.2 ⟨beq_iff_eq.2 cooling, due_of_le timer time⟩⟩))

theorem exec_coolingLimitExpiry (hj : s.job k = some j) (cooling : j.state = .cooling)
    (timer : j.coolLimitTimer = some e) (time : e ≤ s.now) :
    exec (.coolingLimitExpiry k) s = .next (finish (endJob k .limit s)) :=
  congrArg done (if_pos (jobIs_iff.2 ⟨j, hj,
    Bool.and_eq_true_iff.2 ⟨beq_iff_eq.2 cooling, due_of_le timer time⟩⟩))

theorem finish_job_none (free : s.job k = none) : (finish s).job k = none := by
  rw [State.job, finish_free free]
  exact free

/-- A job that has ended at the end of the event, and its result (R145). -/
theorem finish_endJob (hj : s.job k = some j) (r : Release) : (finish (endJob k r s)).job k = none ∧
    s.resultOf k j r ∈ ((finish (endJob k r s)).station j.station).results := by
  rw [finish_station]
  exact ⟨finish_job_none (endJob_none ..), endJob_result r hj⟩

end

/-- Settles O51: by the timer that expires. -/
theorem timersEndJobs : Obligations.TimersEndJobs := by
  unfold Obligations.TimersEndJobs
  have waits : ∀ (s : State) (k : SlotIx) (c : Cand) (e : Nat),
      s.cands.find? (fun x => x.members.contains k) = some c → c.waitTimer = some e → e ≤ s.now →
      ∃ t, exec (.waitLimitExpiry k) s = .next t ∧
        ∀ m j, m ∈ c.members → s.job m = some j → j.state = .ready → j.outcome = none →
          s.Stopped t m j .waitExpired :=
    fun s k c e found timer time => ⟨_, exec_waitLimitExpiry found timer time,
      fun m j hm hj ready fresh => (waitExpire_stopped hm hj ready fresh).finish⟩
  refine ⟨⟨fun s k j c e found alone timer time hj ready fresh => ?_, fun s k j e hj cooling timer time => ?_,
    fun s k j e hj cooling timer time => ?_⟩, waits⟩
  · obtain ⟨t, run, stops⟩ := waits s k c e found timer time
    refine ⟨t, run, ?_⟩
    rcases stops k j (alone ▸ List.mem_singleton_self k) hj ready fresh with ⟨gone, r, hr, handle, outcome, release⟩ | hot
    · exact ⟨gone, r, hr, handle, release (by rw [ready]; rfl), outcome⟩
    · rw [ready] at hot
      nomatch hot.1
  · obtain ⟨gone, result⟩ := finish_endJob hj .timed
    exact ⟨_, exec_coolDwellExpiry hj cooling timer time, gone, _, result, rfl, rfl, rfl⟩
  · obtain ⟨gone, result⟩ := finish_endJob hj .limit
    exact ⟨_, exec_coolingLimitExpiry hj cooling timer time, gone, _, result, rfl, rfl, rfl⟩

end Sys2Proof.Machine
end

section
/-! PROOFS. The end of a job and the resolution of its successors (R72, R73, R78, R145). -/

namespace Sys2Proof.Machine

open State

/-! ## Gangs -/

/-- Two slots hold jobs of one gang. -/
def State.Mates (s : State) (m n : SlotIx) : Prop :=
  ∃ g g', (s.job m).bind (·.gang) = some g ∧ (s.job n).bind (·.gang) = some g' ∧ g'.id = g.id

theorem mem_membersOf {s : State} {m n : SlotIx} : n ∈ s.membersOf m ↔ n = m ∨ s.Mates m n := by
  unfold membersOf
  split
  · next single =>
    rw [List.mem_singleton]
    refine (or_iff_left ?_).symm
    rintro ⟨g, g', hg, -⟩
    exact nomatch single.symm.trans hg
  · next g hg =>
    rw [List.mem_filter, allSlots]
    constructor
    · rintro ⟨-, same⟩
      split at same
      · next g' hg' => exact .inr ⟨g, g', hg, hg', beq_iff_eq.1 same⟩
      · nomatch same
    · rintro (rfl | ⟨g₁, g', hg₁, hg', same⟩)
      · rw [hg]
        exact ⟨List.mem_finRange _, BEq.rfl⟩
      · obtain rfl := Option.some.inj (hg.symm.trans hg₁)
        rw [hg']
        exact ⟨List.mem_finRange n, beq_iff_eq.2 same⟩

theorem membersOf_trans {s : State} {l m n : SlotIx} (h : m ∈ s.membersOf l) (h' : n ∈ s.membersOf m) :
    n ∈ s.membersOf l := by
  rw [mem_membersOf] at h h' ⊢
  rcases h with rfl | ⟨g, g', hg, hg', same⟩
  · exact h'
  rcases h' with rfl | ⟨g₁, g₁', hg₁, hg₁', same'⟩
  · exact .inr ⟨g, g', hg, hg', same⟩
  · obtain rfl := Option.some.inj (hg'.symm.trans hg₁)
    exact .inr ⟨g, g₁', hg, hg₁', same'.trans same⟩

/-- The gang of a slot is read from the gang tags of the two jobs alone. -/
theorem membersOf_of_gangs {s t : State} {m n : SlotIx} (hm : (t.job m).bind (·.gang) = (s.job m).bind (·.gang))
    (hn : (t.job n).bind (·.gang) = (s.job n).bind (·.gang)) (h : n ∈ s.membersOf m) : n ∈ t.membersOf m := by
  rw [mem_membersOf] at h ⊢
  refine h.imp_right fun ⟨g, g', hg, hg', same⟩ => ⟨g, g', hm.trans hg, hn.trans hg', same⟩

/-! ## A trigger event moves gangs whole -/

/-- During the walk of a trigger event no gang is moved in part. -/
def State.MovesWhole (s t : State) : Prop :=
  ∀ a b, s.jobIs a (·.state == .pending) = true → s.jobIs b (·.state == .pending) = true → b ∈ s.membersOf a →
    t.jobIs a (·.state == .pending) = false → s.Readied t b

theorem movesWhole_fireAt {p : Job → Bool} {s t : State} (firing : s.Firing p t) (whole : s.MovesWhole t) (x : SlotIx) :
    s.MovesWhole (fireAt p t x) := by
  intro a b pa pb gang moved
  rw [fireAt] at moved ⊢
  split at moved
  · next fires =>
    have pending := pendingUnit_pending t x
    rw [if_pos fires]
    by_cases still : t.jobIs a (·.state == .pending) = true
    · have ha : a ∈ t.pendingUnit x := by
        by_contra out
        rw [State.jobIs, job_enterReady pending, if_neg out] at moved
        exact Bool.false_ne_true (moved.symm.trans still)
      have hb : b ∈ t.membersOf x := by
        rw [firing.membersOf]
        exact membersOf_trans (firing.membersOf x ▸ (List.mem_filter.1 ha).1) gang
      by_cases stays : t.jobIs b (·.state == .pending) = true
      · exact (Readied.of_enterReady pending (List.mem_filter.2 ⟨hb, stays⟩)).rebase (firing.job_of_pending stays)
          firing.clock
      · rcases firing.jobs b with same | ⟨readied, -⟩
        · rw [State.jobIs, same] at stays
          exact (stays pb).elim
        · exact readied.after_enterReady pending
    · exact (whole a b pa pb gang (Bool.eq_false_iff.2 still)).after_enterReady pending
  · next rests =>
    rw [if_neg rests]
    exact whole a b pa pb gang moved

theorem fireTrigger_movesWhole (p : Job → Bool) (s : State) : s.MovesWhole (fireTrigger p s) := by
  rw [fireTrigger_eq_foldl]
  have both : s.Firing p (allSlots.foldl (fireAt p) s) ∧ s.MovesWhole (allSlots.foldl (fireAt p) s) :=
    List.foldlRecOn (motive := fun t : State => s.Firing p t ∧ s.MovesWhole t) _ _
      ⟨.refl p s, fun a b pa _ _ moved => absurd (moved.symm.trans pa) Bool.false_ne_true⟩
      fun t ⟨firing, whole⟩ x _ => ⟨firing.after_fireAt x, movesWhole_fireAt firing whole x⟩
  exact both.2

/-- A trigger event moves every PENDING member of the gang of a job that it is for (R67). -/
theorem fireTrigger_readied_gang {p : Job → Bool} {s : State} {m n : SlotIx} (fires : s.fires p m = true)
    (gang : n ∈ s.membersOf m) (pending : s.jobIs n (·.state == .pending) = true) : s.Readied (fireTrigger p s) n :=
  fireTrigger_movesWhole p s m n (pending_of_fires fires) pending gang (fireTrigger_readied fires).not_pending

/-! ## What the ends of broken chains make of the job table -/

theorem Job.withOutcome_idem (o : JobOutcome) (w : Job) : (w.withOutcome o).withOutcome o = w.withOutcome o := by
  unfold Job.withOutcome
  split
  · rfl
  · rfl

theorem Job.withOutcome_outcome (o : JobOutcome) (w : Job) : (w.withOutcome o).outcome = some (w.outcome.getD o) := by
  unfold Job.withOutcome
  cases given : w.outcome with
  | none => rfl
  | some o' => exact given

/-- Of a waiting job of a broken chain: it stands as it was, it has got its outcome, or it has ended with it (R73). -/
def State.Broken (s t : State) (n : SlotIx) (w : Job) : Prop :=
  t.slot n = s.slot n ∨ w.state = .pending ∧
    (t.slot n = { s.slot n with job := some (w.withOutcome .chainBroken) } ∨
      t.job n = none ∧ ∃ x ∈ (t.station w.station).results, x.handle = s.handleOf n ∧ x.release = .none ∧
        x.outcome = some (w.outcome.getD .chainBroken))

/-- No job in PENDING has the outcome OK. -/
def State.NoOk (s : State) : Prop := ∀ n w, s.job n = some w → w.state = .pending → w.outcome ≠ some .ok

/-- What the ends of broken chains make of the job table: gangs end whole, but for the jobs in `E`. -/
structure State.Breaks (s t : State) (E : SlotIx → Prop) : Prop where
  results : ∀ n, (s.station n).results <+: (t.station n).results
  free : ∀ n, s.job n = none → t.job n = none
  jobs : ∀ n w, s.job n = some w → s.Broken t n w
  whole : ∀ m n i w, ¬ E m → ¬ E n → s.job m = some i → s.job n = some w → i.state = .pending → w.state = .pending →
    n ∈ s.membersOf m → t.job m = none → t.job n = none

theorem State.Breaks.refl (s : State) (E : SlotIx → Prop) : s.Breaks s E :=
  ⟨fun _ => List.prefix_rfl, fun _ => id, fun _ _ _ => .inl rfl,
    fun _ _ _ _ _ _ hm _ _ _ _ gone => nomatch hm.symm.trans gone⟩

theorem State.Breaks.weaken {s t : State} {E F : SlotIx → Prop} (h : s.Breaks t E) (sub : ∀ m, E m → F m) : s.Breaks t F :=
  ⟨h.results, h.free, h.jobs, fun m n i w hm hn => h.whole m n i w (mt (sub m) hm) (mt (sub n) hn)⟩

/-- A job that is still there is as it was, or has its outcome. -/
theorem State.Broken.survivor {s t : State} {n : SlotIx} {w v : Job} (h : s.Broken t n w) (hw : s.job n = some w)
    (hv : t.job n = some v) : v = w ∨ w.state = .pending ∧ v = w.withOutcome .chainBroken := by
  rcases h with same | ⟨pending, given | ⟨gone, -⟩⟩
  · rw [State.job, same] at hv
    exact .inl (Option.some.inj (hv.symm.trans hw))
  · rw [State.job, given] at hv
    exact .inr ⟨pending, (Option.some.inj hv).symm⟩
  · exact nomatch hv.symm.trans gone

theorem State.Broken.survivor_keeps {s t : State} {n : SlotIx} {w v : Job} (h : s.Broken t n w) (hw : s.job n = some w)
    (hv : t.job n = some v) : v.state = w.state ∧ v.gang = w.gang ∧ v.station = w.station ∧ v.trigger = w.trigger := by
  rcases h.survivor hw hv with rfl | ⟨-, rfl⟩
  · exact ⟨rfl, rfl, rfl, rfl⟩
  · rw [withOutcome_only]
    exact ⟨rfl, rfl, rfl, rfl⟩

theorem State.Broken.handleOf {s t : State} {n : SlotIx} {w v : Job} (h : s.Broken t n w) (hv : t.job n = some v) :
    t.handleOf n = s.handleOf n := by
  rcases h with same | ⟨-, given | ⟨gone, -⟩⟩
  · rw [State.handleOf, same, State.handleOf]
  · rw [State.handleOf, given, State.handleOf]
  · exact nomatch hv.symm.trans gone

theorem State.Breaks.noOk {s t : State} {E : SlotIx → Prop} (h : s.Breaks t E) (noOk : s.NoOk) : t.NoOk := by
  intro n v hv pending
  cases hw : s.job n with
  | none => exact nomatch hv.symm.trans (h.free n hw)
  | some w =>
    rcases (h.jobs n w hw).survivor hw hv with rfl | ⟨waits, rfl⟩
    · exact noOk n v hw pending
    · rw [Job.withOutcome_outcome]
      have notOk := noOk n w hw waits
      cases given : w.outcome with
      | none => exact nofun
      | some o =>
        rw [given] at notOk
        exact notOk

theorem State.Broken.trans {s t u : State} {n : SlotIx} {w : Job} (hw : s.job n = some w) (h : s.Broken t n w)
    (free : t.job n = none → u.job n = none) (results : (t.station w.station).results <+: (u.station w.station).results)
    (g : ∀ v, t.job n = some v → t.Broken u n v) : s.Broken u n w := by
  rcases h with same | ⟨pending, given | ⟨gone, x, hx, rest⟩⟩
  · have tw : t.job n = some w := by rw [State.job, same]; exact hw
    have handle : t.handleOf n = s.handleOf n := by rw [State.handleOf, same, State.handleOf]
    rcases g w tw with same' | ⟨pending, given | ended⟩
    · exact .inl (same'.trans same)
    · exact .inr ⟨pending, .inl (by rw [given, same])⟩
    · exact .inr ⟨pending, .inr (by rw [← handle]; exact ended)⟩
  · have tw : t.job n = some (w.withOutcome .chainBroken) := by rw [State.job, given]
    have handle : t.handleOf n = s.handleOf n := by rw [State.handleOf, given, State.handleOf]
    have station : (w.withOutcome .chainBroken).station = w.station := by rw [withOutcome_only]
    refine .inr ⟨pending, ?_⟩
    rcases g _ tw with same' | ⟨-, given' | ⟨gone, x, hx, hh, hr, ho⟩⟩
    · exact .inl (same'.trans given)
    · exact .inl (by rw [given', given, Job.withOutcome_idem])
    · refine .inr ⟨gone, x, station ▸ hx, hh.trans handle, hr, ho.trans ?_⟩
      rw [Job.withOutcome_outcome]
      rfl
  · exact .inr ⟨pending, .inr ⟨free gone, x, results.subset hx, rest⟩⟩

theorem State.Breaks.trans {s t u : State} {E : SlotIx → Prop} (h : s.Breaks t E) (g : t.Breaks u E) : s.Breaks u E where
  results n := (h.results n).trans (g.results n)
  free n e := g.free n (h.free n e)
  jobs n w hw := (h.jobs n w hw).trans hw (g.free n) (g.results w.station) fun v => g.jobs n v
  whole m n i w em en hm hn pm pn gang gone := by
    cases tm : t.job m with
    | none => exact g.free n (h.whole m n i w em en hm hn pm pn gang tm)
    | some i' =>
      cases tn : t.job n with
      | none => exact g.free n tn
      | some w' =>
        obtain ⟨state, tag, -⟩ := (h.jobs m i hm).survivor_keeps hm tm
        obtain ⟨state', tag', -⟩ := (h.jobs n w hn).survivor_keeps hn tn
        refine g.whole m n i' w' em en tm tn (state.trans pm) (state'.trans pn) (membersOf_of_gangs ?_ ?_ gang) gone
        · rw [tm, hm]
          exact tag
        · rw [tn, hn]
          exact tag'

/-! ## Giving a unit its outcome -/

theorem foldl_setOutcome_slot (l : List SlotIx) (s : State) (n : SlotIx) :
    (l.foldl (fun s u => s.setOutcome u .chainBroken) s).slot n =
      if n ∈ l then { s.slot n with job := (s.job n).map (·.withOutcome .chainBroken) } else s.slot n := by
  induction l generalizing s with
  | nil => rfl
  | cons x l ih =>
    have twice : (Job.withOutcome .chainBroken ∘ Job.withOutcome .chainBroken) = Job.withOutcome .chainBroken :=
      funext (Job.withOutcome_idem .chainBroken)
    rw [List.foldl_cons, ih, setOutcome_eq, slot_modJob, job_modJob]
    by_cases same : x = n
    · subst same
      by_cases later : x ∈ l
      · simp only [later, List.mem_cons, or_true, if_true, Option.map_map, twice]
      · simp only [later, List.mem_cons, or_false, if_true, if_false]
    · simp only [same, Ne.symm same, List.mem_cons, false_or, if_false]

theorem setOutcomes_breaks {l : List SlotIx} {s : State} (pending : ∀ x ∈ l, s.jobIs x (·.state == .pending) = true)
    (E : SlotIx → Prop) : s.Breaks (l.foldl (fun s u => s.setOutcome u .chainBroken) s) E where
  results n := ((State.Grown.refl s).folds fun _ _ hv => hv.fields).results n
  free n e := by
    rw [State.job, foldl_setOutcome_slot]
    split
    · rw [e]
      rfl
    · exact e
  jobs n w hw := by
    rw [State.Broken, foldl_setOutcome_slot]
    split
    · next hn =>
      obtain ⟨j, hj, waits⟩ := jobIs_pending_iff.1 (pending n hn)
      obtain rfl := Option.some.inj (hj.symm.trans hw)
      exact .inr ⟨waits, .inl (by rw [hj]; rfl)⟩
    · exact .inl rfl
  whole m n i w _ _ hm hn _ _ _ gone := by
    rw [State.job, foldl_setOutcome_slot] at gone
    split at gone
    · rw [hm] at gone
      nomatch gone
    · exact nomatch hm.symm.trans gone

/-! ## The ends of broken chains -/

/-- The job of a slot, if there is one, waits in PENDING with its outcome given. -/
def State.Given (s : State) (x : SlotIx) : Prop := ∀ w, s.job x = some w → w.state = .pending ∧ w.outcome.isSome = true

theorem State.Breaks.given {s t : State} {E : SlotIx → Prop} (h : s.Breaks t E) {x : SlotIx} (g : s.Given x) :
    t.Given x := by
  intro v hv
  cases hw : s.job x with
  | none => exact nomatch hv.symm.trans (h.free x hw)
  | some w =>
    obtain ⟨pending, given⟩ := g w hw
    rcases (h.jobs x w hw).survivor hw hv with rfl | ⟨-, rfl⟩
    · exact ⟨pending, given⟩
    · rw [Job.withOutcome_outcome, withOutcome_only]
      exact ⟨pending, rfl⟩

theorem endSteps_breaks {s : State} {x : SlotIx} {j : Job} {o : JobOutcome} (hj : s.job x = some j)
    (pending : j.state = .pending) (outcome : j.outcome = some o) : s.Breaks (endSteps x j .none s) (· = x) where
  results := (endSteps_grown (.refl s)).results
  free n e := by
    rw [endSteps_job]
    split
    · rfl
    · exact e
  jobs n w hw := by
    by_cases same : n = x
    · subst same
      obtain rfl := Option.some.inj (hj.symm.trans hw)
      refine .inr ⟨pending, .inr ⟨by rw [endSteps_job, if_pos rfl], s.resultOf n j .none, ?_, rfl, rfl, ?_⟩⟩
      · rw [endSteps_station, if_pos rfl]
        exact List.mem_append_right _ (List.mem_singleton_self _)
      · rw [outcome]
        exact outcome
    · exact .inl (endSteps_slot_ne same j _ s)
  whole m n i w em _ hm _ _ _ _ gone := by
    rw [endSteps_job, if_neg em] at gone
    exact nomatch hm.symm.trans gone

theorem endJobFuel_none (n : Nat) (k : SlotIx) (r : Release) (s : State) : (endJobFuel (n + 1) k r s).job k = none := by
  cases hj : s.job k with
  | none =>
    rw [endJobFuel_of_free hj]
    exact hj
  | some j =>
    have free : (endSteps k j r s).job k = none := by rw [endSteps_job, if_pos rfl]
    have kept := (State.SameSettings.folds (l := allSlots) (f := succeed n (s.handleOf k) j.outcome)
      (.refl (endSteps k j r s)) fun u m hu => by
        unfold succeed
        split
        · split
          · exact enterReady_settings hu
          · exact (hu.folds fun _ _ hv => setOutcome_settings hv).folds fun _ _ hv => endJobFuel_settings hv
        · exact hu).free k free
    rw [endJobFuel_succ hj, State.job, kept]
    exact free

/-- A fold of ends over jobs that have their outcome. -/
theorem foldl_end_breaks {f : Nat}
    (ih : ∀ {x : SlotIx} {s : State}, s.NoOk → s.Given x → s.Breaks (endJobFuel f x .none s) (· = x))
    {E : SlotIx → Prop} : ∀ (l : List SlotIx) (s : State), s.NoOk → (∀ x ∈ l, s.Given x) → (∀ x ∈ l, E x) →
      s.Breaks (l.foldl (fun s u => endJobFuel f u .none s) s) E
  | [], s, _, _, _ => .refl s E
  | x :: l, s, noOk, given, sub => by
    have first := ih noOk (given x (List.mem_cons_self ..))
    have rest := foldl_end_breaks ih (E := E) l (endJobFuel f x .none s) (first.noOk noOk)
      (fun y hy => first.given (given y (List.mem_cons_of_mem _ hy))) fun y hy => sub y (List.mem_cons_of_mem _ hy)
    exact (first.weaken fun m e => e ▸ sub x (List.mem_cons_self ..)).trans rest

theorem foldl_end_none {f : Nat}
    (ih : ∀ {x : SlotIx} {s : State}, s.NoOk → s.Given x → s.Breaks (endJobFuel (f + 1) x .none s) (· = x)) :
    ∀ (l : List SlotIx) (s : State), s.NoOk → (∀ x ∈ l, s.Given x) → ∀ x ∈ l,
      (l.foldl (fun s u => endJobFuel (f + 1) u .none s) s).job x = none
  | [], _, _, _, _, hx => nomatch hx
  | y :: l, s, noOk, given, x, hx => by
    have first := ih noOk (given y (List.mem_cons_self ..))
    have noOk' := first.noOk noOk
    have given' : ∀ z ∈ l, (endJobFuel (f + 1) y .none s).Given z :=
      fun z hz => first.given (given z (List.mem_cons_of_mem _ hz))
    rw [List.foldl_cons]
    by_cases later : x ∈ l
    · exact foldl_end_none ih l _ noOk' given' x later
    · obtain rfl := (List.mem_cons.1 hx).resolve_right later
      exact (foldl_end_breaks ih (E := fun _ => True) l _ noOk' given' fun _ _ => trivial).free x (endJobFuel_none ..)

/-- The state in which a unit of a broken chain has its outcome. -/
def State.breakUnit (u : State) (m : SlotIx) : State := (u.pendingUnit m).foldl (fun s x => s.setOutcome x .chainBroken) u

theorem breakUnit_given (u : State) (m : SlotIx) : ∀ x ∈ u.pendingUnit m, (u.breakUnit m).Given x := by
  intro x hx w hw
  obtain ⟨j, hj, pending⟩ := jobIs_pending_iff.1 (pendingUnit_pending u m x hx)
  rw [State.job, State.breakUnit, foldl_setOutcome_slot, if_pos hx, hj] at hw
  obtain rfl : j.withOutcome .chainBroken = w := Option.some.inj hw
  rw [Job.withOutcome_outcome, withOutcome_only]
  exact ⟨pending, rfl⟩

theorem succeed_of_broken {f : Nat} {h : Handle} {o : Option JobOutcome} {u : State} {m : SlotIx}
    (bad : o ≠ some .ok) (awaits : u.awaits h m = true) : succeed f h o u m =
      (u.pendingUnit m).foldl (fun s x => endJobFuel f x .none s) (u.breakUnit m) := by
  rw [succeed, if_pos awaits, if_neg bad]
  rfl

/-- A unit of a broken chain ends whole, or is left with its outcome at the bound of the depth. -/
theorem succeed_breaks {f : Nat}
    (ih : ∀ {x : SlotIx} {s : State}, s.NoOk → s.Given x → s.Breaks (endJobFuel f x .none s) (· = x))
    {h : Handle} {o : Option JobOutcome} {u : State} (bad : o ≠ some .ok) (noOk : u.NoOk) (m : SlotIx) :
    u.Breaks (succeed f h o u m) fun _ => False := by
  by_cases awaits : u.awaits h m = true
  · have given := breakUnit_given u m
    have outcomes (E : SlotIx → Prop) : u.Breaks (u.breakUnit m) E := setOutcomes_breaks (pendingUnit_pending u m) E
    have noOk' := (outcomes (· ∈ u.pendingUnit m)).noOk noOk
    have both := (outcomes (· ∈ u.pendingUnit m)).trans (foldl_end_breaks ih _ _ noOk' given fun _ => id)
    rw [succeed_of_broken bad awaits]
    cases f with
    | zero =>
      have idle : (u.pendingUnit m).foldl (fun s x => endJobFuel 0 x .none s) (u.breakUnit m) = u.breakUnit m :=
        List.foldlRecOn (motive := fun t : State => t = u.breakUnit m) _ _ rfl fun _ same _ _ => same
      rw [idle]
      exact outcomes _
    | succ f =>
      refine { both with whole := fun a b i w _ _ ha hb pa pb gang gone => ?_ }
      by_cases inside : b ∈ u.pendingUnit m
      · exact foldl_end_none ih _ _ noOk' given b inside
      · have out : a ∉ u.pendingUnit m := fun ha' => inside (List.mem_filter.2
          ⟨membersOf_trans (List.mem_filter.1 ha').1 gang, jobIs_pending_iff.2 ⟨w, hb, pb⟩⟩)
        exact both.whole a b i w out inside ha hb pa pb gang gone
  · rw [succeed, if_neg awaits]
    exact .refl u _

theorem foldl_succeed_breaks {f : Nat}
    (ih : ∀ {x : SlotIx} {s : State}, s.NoOk → s.Given x → s.Breaks (endJobFuel f x .none s) (· = x))
    {h : Handle} {o : Option JobOutcome} (bad : o ≠ some .ok) : ∀ (l : List SlotIx) (u : State), u.NoOk →
      u.Breaks (l.foldl (succeed f h o) u) fun _ => False
  | [], u, _ => .refl u _
  | m :: l, u, noOk => by
    have first := succeed_breaks ih (h := h) bad noOk m
    exact first.trans (foldl_succeed_breaks ih bad l _ (first.noOk noOk))

/-- The end of a job of a broken chain, with its successors (R73). -/
theorem endJobFuel_breaks {f : Nat} {x : SlotIx} {s : State} (noOk : s.NoOk) (given : s.Given x) :
    s.Breaks (endJobFuel f x .none s) (· = x) := by
  induction f generalizing x s with
  | zero => exact .refl s _
  | succ f ih =>
    cases hj : s.job x with
    | none =>
      rw [endJobFuel_of_free hj]
      exact .refl s _
    | some j =>
      obtain ⟨pending, outcome⟩ := given j hj
      obtain ⟨o, ho⟩ := Option.isSome_iff_exists.1 outcome
      have steps := endSteps_breaks hj pending ho
      rw [endJobFuel_succ hj]
      exact steps.trans ((foldl_succeed_breaks (fun n g => ih n g) (noOk x j hj pending) _ _ (steps.noOk noOk)).weaken
        fun _ => False.elim)

/-! ## The end of a job -/

section
variable {s : State} {k : SlotIx} {j : Job}

theorem awaits_iff {h : Handle} {m : SlotIx} :
    s.awaits h m = true ↔ ∃ i, s.job m = some i ∧ i.state = .pending ∧ i.trigger = .after h := by
  unfold awaits
  simp only [jobIs_iff, Bool.and_eq_true, beq_iff_eq]

/-- After OK the successors enter READY as at a trigger event (R73). -/
theorem endJob_ok (hj : s.job k = some j) (ok : j.outcome = some .ok) (r : Release) :
    endJob k r s = fireTrigger (fun i => i.trigger == .after (s.handleOf k)) (endSteps k j r s) := by
  have step : succeed 47 (s.handleOf k) j.outcome = fireAt fun i => i.trigger == .after (s.handleOf k) := by
    funext u m
    rw [succeed, fireAt, if_pos ok]
    rfl
  rw [endJob, endJobFuel_succ hj, step, fireTrigger_eq_foldl]

theorem endSteps_job_ne {m : SlotIx} (other : m ≠ k) (j : Job) (r : Release) (s : State) :
    (endSteps k j r s).job m = s.job m := by
  rw [endSteps_job, if_neg other]

theorem endSteps_membersOf {m n : SlotIx} (hm : m ≠ k) (hn : n ≠ k) (r : Release) (gang : n ∈ s.membersOf m) :
    n ∈ (endSteps k j r s).membersOf m :=
  membersOf_of_gangs (by rw [endSteps_job_ne hm]) (by rw [endSteps_job_ne hn]) gang

theorem endSteps_lineClock (k : SlotIx) (j : Job) (r : Release) (s : State) :
    (endSteps k j r s).lineClock = s.lineClock := by
  rw [(endSteps_table (k := k) (j := j) (r := r) (.refl s)).only]

/-- The successors of a job that ended without OK, and every PENDING member of their gangs, end (R73). -/
theorem endJob_breaks {m n : SlotIx} {i w : Job} (hj : s.job k = some j) (bad : j.outcome ≠ some .ok) (noOk : s.NoOk)
    (r : Release) (mk : m ≠ k) (hm : s.job m = some i) (pm : i.state = .pending)
    (after : i.trigger = .after (s.handleOf k)) (gang : n ∈ s.membersOf m) (nk : n ≠ k) (hn : s.job n = some w)
    (pn : w.state = .pending) : (endJob k r s).job n = none ∧
      ∃ x ∈ ((endJob k r s).station w.station).results, x.handle = s.handleOf n ∧ x.release = .none ∧
        x.outcome = some (w.outcome.getD .chainBroken) := by
  have noOk' : (endSteps k j r s).NoOk := fun x v hv => noOk x v (endSteps_job_of hv).2
  have hm' : (endSteps k j r s).job m = some i := (endSteps_job_ne mk j r s).trans hm
  have hn' : (endSteps k j r s).job n = some w := (endSteps_job_ne nk j r s).trans hn
  have handle : (endSteps k j r s).handleOf n = s.handleOf n := by
    rw [State.handleOf, endSteps_slot_ne nk, State.handleOf]
  have breaks (l : List SlotIx) (u : State) (h : u.NoOk) :=
    foldl_succeed_breaks (f := 47) (h := s.handleOf k) (fun a b => endJobFuel_breaks a b) bad l u h
  obtain ⟨before, later, split⟩ := List.append_of_mem (show m ∈ allSlots from List.mem_finRange m)
  have came := breaks before _ noOk'
  have gone : (endJob k r s).job m = none := by
    rw [endJob, endJobFuel_succ hj, split, List.foldl_append, List.foldl_cons]
    refine (breaks later _ ((succeed_breaks (fun a b => endJobFuel_breaks a b) bad (came.noOk noOk') m).noOk
      (came.noOk noOk'))).free m ?_
    cases there : (before.foldl (succeed 47 (s.handleOf k) j.outcome) (endSteps k j r s)).job m with
    | none => exact (succeed_breaks (fun a b => endJobFuel_breaks a b) bad (came.noOk noOk') m).free m there
    | some v =>
      obtain ⟨state, -, -, trigger⟩ := (came.jobs m i hm').survivor_keeps hm' there
      have awaits := awaits_iff.2 ⟨v, there, state.trans pm, trigger.trans after⟩
      rw [succeed_of_broken bad awaits]
      exact foldl_end_none (fun a b => endJobFuel_breaks a b) _ _
        ((setOutcomes_breaks (pendingUnit_pending _ m) fun _ => False).noOk (came.noOk noOk')) (breakUnit_given _ m) m
        (self_mem_pendingUnit (jobIs_pending_iff.2 ⟨v, there, state.trans pm⟩))
  have all := breaks allSlots _ noOk'
  have same : endJob k r s = allSlots.foldl (succeed 47 (s.handleOf k) j.outcome) (endSteps k j r s) := by
    rw [endJob, endJobFuel_succ hj]
  rw [← same] at all
  have ended := all.whole m n i w id id hm' hn' pm pn (endSteps_membersOf mk nk r gang) gone
  rcases all.jobs n w hn' with stays | ⟨-, given | ⟨-, x, hx, hh, rest⟩⟩
  · rw [State.job, stays] at ended
    exact nomatch ended.symm.trans hn'
  · rw [State.job, given] at ended
    nomatch ended
  · exact ⟨ended, x, hx, hh.trans handle, rest⟩

theorem State.JobLaw.noOk (law : s.JobLaw) : s.NoOk := fun n w hn pending ok =>
  nomatch pending.symm.trans (law.outcome n w hn (.inl ok))

theorem post_full {q : PortSt} (full : 16 ≤ q.notices.length) (n : Notice) : q.post n = { q with dropped := true } :=
  if_neg (Nat.not_lt.2 full)

theorem post_room {q : PortSt} (room : q.notices.length < 16) (n : Notice) :
    q.post n = { q with notices := q.notices ++ [n] } :=
  if_pos room

end

/-- Settles O36: along the steps of R78, and by the outcome at the successors. -/
theorem endedReports : Obligations.EndedReports := by
  unfold Obligations.EndedReports
  refine ⟨fun s k j r hj => ?_, fun s k j r m n i w hj mk hm pm after gang nk hn pn => ⟨fun ok => ?_, fun law bad => ?_⟩,
    fun s k j e hj cooling time => ⟨fun timer => exec_coolDwellExpiry hj cooling timer time,
      fun timer => exec_coolingLimitExpiry hj cooling timer time⟩⟩
  · have grown := endJob_grown r hj
    have port := endSteps_port k j r s (.sp j.station)
    rw [if_pos rfl] at port
    have admitted (n : Station) : (endSteps k j r s).admitted[n] =
        if j.station = n then s.admitted[n] - 1 else s.admitted[n] := by
      rw [endSteps_admitted, State.modAdmitted]
      simp only [Fin.getElem_fin, Vector.getElem_set, Fin.ext_iff]
      split
      · next same => rw [Fin.ext same]
      · rfl
    have only := (endJob_table (k := k) (r := r) (.refl s)).only
    refine ⟨endJob_slot r hj, ?_, fun room => ?_, fun full => ?_, ?_, fun n => ?_, by rw [only], by rw [only],
      by rw [only], by rw [only], by rw [only], by rw [only], by rw [only], fun m i mk hm _ other => ?_⟩
    · have results := grown.results j.station
      rw [endSteps_station, if_pos rfl] at results
      exact results
    · have notices := grown.notices (.sp j.station)
      rw [port, post_room room] at notices
      exact notices
    · obtain ⟨notices, dropped⟩ := grown.full (.sp j.station) (by rw [port, post_full full]; exact full)
      rw [port, post_full full] at notices dropped
      exact ⟨notices, dropped rfl⟩
    · have fewer := grown.admitted j.station
      rw [admitted, if_pos rfl] at fewer
      exact fewer
    · refine (grown.admitted n).trans ?_
      rw [admitted]
      split
      · exact Nat.sub_le ..
      · exact le_rfl
    · exact endJob_keeps (l := [k]) (.refl s) (.inl (List.mem_singleton_self k)) m i
        (fun h => mk (List.mem_singleton.1 h)) hm other
  · have fires : (endSteps k j r s).fires (fun i => i.trigger == .after (s.handleOf k)) m = true :=
      awaits_iff.2 ⟨i, (endSteps_job_ne mk j r s).trans hm, pm, after⟩
    have pending : (endSteps k j r s).jobIs n (·.state == .pending) = true :=
      jobIs_pending_iff.2 ⟨w, (endSteps_job_ne nk j r s).trans hn, pn⟩
    have moved := fireTrigger_readied_gang fires (endSteps_membersOf mk nk r gang) pending
    obtain ⟨v, hv, -, ready⟩ := moved.job
    obtain rfl := Option.some.inj (((endSteps_job_ne nk j r s).trans hn).symm.trans hv)
    rw [endJob_ok hj ok]
    refine ⟨ready.trans ?_, moved.cause, moved.joined⟩
    rw [endSteps_lineClock]
    rfl
  · exact endJob_breaks hj bad law.noOk r mk hm pm after gang nk hn pn

end Sys2Proof.Machine
end

section
/-! PROOFS. The inputs and the leases of stations (R177 to R183). -/

namespace Sys2Proof.Machine

open State

/-! ## What an outside cause leaves -/

theorem abortPath_heads (k : SlotIx) (s : State) : (abortPath k s).heads = s.heads := by
  have ends (r : Release) (u : State) : (endJob k r u).heads = u.heads := (endJob_frame k r u).2.2.2.1
  have cools (u : State) : (enterCooling k u).heads = u.heads := (enterCooling_frame k u).2.2.2.1
  unfold abortPath
  split
  · rfl
  · next j _ =>
    split
    · exact ends ..
    · exact ends ..
    · refine (ends ..).trans ?_
      split
      · next c _ => rw [(withdrawConnection_bank (.refl (c := c) (s.releasePower j.reservation))).only]; rfl
      · rfl
    iterate 3
      refine (cools _).trans ?_
      split
      · next c _ => rw [(enterDischarge_bank (.refl (c := c) (s.releasePower j.reservation))).only]; rfl
      · rfl
    · rfl

theorem giveOutcome_heads (o : JobOutcome) (s : State) (k : SlotIx) : (giveOutcome o s k).heads = s.heads := by
  unfold giveOutcome
  split <;> rfl

theorem foldl_heads {f : State → SlotIx → State} (hf : ∀ (u : State) k, (f u k).heads = u.heads) (l : List SlotIx)
    (s : State) : (l.foldl f s).heads = s.heads :=
  List.foldlRecOn (motive := fun t : State => t.heads = s.heads) l f rfl fun u same k _ => (hf u k).trans same

theorem reach_heads (o : JobOutcome) (p : Job → Bool) (s : State) : (reach o p s).heads = s.heads := by
  unfold reach
  dsimp only
  refine (foldl_heads (fun u k => ?_) _ _).trans ((foldl_heads (fun u k => ?_) _ _).trans
    (foldl_heads (giveOutcome_heads o) _ _))
  · split
    · exact abortPath_heads k u
    · rfl
  · exact foldl_heads (giveOutcome_heads .gangAbort) _ _

theorem finish_heads (s : State) : (finish s).heads = s.heads := by
  rw [finish_only]

theorem finish_mode (s : State) : (finish s).mode = s.mode := by
  rw [finish_only]

/-- An outside cause leaves the inputs, the marks and the lease of every station. -/
theorem reach_station (o : JobOutcome) (p : Job → Bool) (s : State) (n : Station) :
    ((reach o p s).station n).live = (s.station n).live ∧ ((reach o p s).station n).reported = (s.station n).reported ∧
      ((reach o p s).station n).marks = (s.station n).marks ∧ ((reach o p s).station n).lease = (s.station n).lease :=
  (reach_settings (.refl s)).stations n

/-- An outside cause keeps a notice queue's notices, and a full queue as it is (R171). -/
theorem reach_port (o : JobOutcome) (p : Job → Bool) (s : State) (q : Port) :
    (s.port q).notices <+: ((reach o p s).port q).notices ∧ (16 ≤ (s.port q).notices.length →
      ((reach o p s).port q).notices = (s.port q).notices ∧
        ((s.port q).dropped = true → ((reach o p s).port q).dropped = true)) :=
  ⟨(reach_grown (.refl s)).notices q, (reach_grown (.refl s)).full q⟩

/-! ## Notices -/

theorem port_post_self (s : State) (p : Port) (b : NoticeBody) : (s.post p b).port p = (s.port p).post ⟨s.lineClock, b⟩ :=
  port_modPort_self ..

theorem port_post_ne (s : State) {p q : Port} (h : p ≠ q) (b : NoticeBody) : (s.post p b).port q = s.port q :=
  port_modPort_ne _ h _

/-! ## Changes of an input -/

section
variable {s : State} {n : Station} {i : Interlock} {level : Bool}

/-- The station's own work at a change of an input: the level, the mark and the notice (R177). -/
def State.inputSeen (s : State) (n : Station) (i : Interlock) (level : Bool) : State :=
  if (s.station n).marks.get i then
    s.setStation n { s.station n with
      live := (s.station n).live.put i level, marks := (s.station n).marks.put i true }
  else
    (s.setStation n { s.station n with
      live := (s.station n).live.put i level, marks := (s.station n).marks.put i true }).post (.sp n)
        (.inputChanged ((s.station n).live.put i level))

theorem inputSeen_kept (s : State) (n : Station) (i : Interlock) (level : Bool) :
    (s.inputSeen n i level).slots = s.slots ∧ (s.inputSeen n i level).mode = s.mode ∧
      (s.inputSeen n i level).heads = s.heads ∧ (s.inputSeen n i level).convs = s.convs ∧
      (s.inputSeen n i level).cands = s.cands ∧ (s.inputSeen n i level).arbSeq = s.arbSeq := by
  unfold inputSeen
  split <;> exact ⟨rfl, rfl, rfl, rfl, rfl, rfl⟩

theorem inputSeen_station (s : State) (n : Station) (i : Interlock) (level : Bool) (m : Station) :
    (s.inputSeen n i level).station m = if n = m then { s.station n with
      live := (s.station n).live.put i level, marks := (s.station n).marks.put i true } else s.station m := by
  unfold inputSeen
  split
  · exact station_setStation ..
  · rw [post_station]
    exact station_setStation ..

theorem inputSeen_settled (settled : s.Settled) : (s.inputSeen n i level).Settled := by
  unfold inputSeen
  split <;> exact ⟨settled.noCause, settled.scanner⟩

theorem inputSeen_port_marked (marked : (s.station n).marks.get i = true) (q : Port) :
    (s.inputSeen n i level).port q = s.port q := by
  rw [inputSeen, if_pos marked]
  rfl

theorem inputSeen_port_fresh (fresh : (s.station n).marks.get i = false) : (s.inputSeen n i level).port (.sp n) =
    (s.port (.sp n)).post ⟨s.lineClock, .inputChanged ((s.station n).live.put i level)⟩ := by
  rw [inputSeen, if_neg (Bool.eq_false_iff.1 fresh)]
  exact port_post_self ..

/-- A fall aborts the running jobs of the station, and a rise causes an arbitration when all inputs are high (R178). -/
theorem interlock_falls (s : State) (n : Station) (i : Interlock) : interlock n i false s =
    reach .interlock (fun j => j.station == n && j.state.running) (s.inputSeen n i false) := by
  rw [interlock, inputSeen]
  exact if_neg Bool.false_ne_true

theorem interlock_rises (s : State) (n : Station) (i : Interlock) : interlock n i true s =
    if ((s.station n).live.put i true).allHigh then (s.inputSeen n i true).raise else s.inputSeen n i true := by
  rw [interlock, inputSeen]
  exact if_pos rfl

/-- A rise leaves what the station's own work leaves, but for a cause of arbitration. -/
theorem interlock_rises_kept (s : State) (n : Station) (i : Interlock) :
    (interlock n i true s).slots = s.slots ∧ (interlock n i true s).convs = s.convs ∧
      (interlock n i true s).stations = (s.inputSeen n i true).stations ∧
      (interlock n i true s).ports = (s.inputSeen n i true).ports ∧ (interlock n i true s).mode = s.mode ∧
      (interlock n i true s).heads = s.heads := by
  obtain ⟨slots, mode, heads, convs, -, -⟩ := inputSeen_kept s n i true
  rw [interlock_rises]
  split <;> exact ⟨slots, convs, rfl, rfl, mode, heads⟩

theorem exec_interlockChange_same (h : (s.station n).live.get i = level) :
    exec (.interlockChange n i level) s = .next (finish s) :=
  congrArg done (if_pos h)

theorem exec_interlockChange (h : (s.station n).live.get i ≠ level) :
    exec (.interlockChange n i level) s = .next (finish (interlock n i level s)) :=
  congrArg done (if_neg h)

/-- After a change the station shows the new level with its mark, whatever follows. -/
theorem interlock_station (s : State) (n : Station) (i : Interlock) (level : Bool) :
    ((interlock n i level s).station n).live = (s.station n).live.put i level ∧
      ((interlock n i level s).station n).marks = (s.station n).marks.put i true ∧
      ((interlock n i level s).station n).reported = (s.station n).reported ∧
      ((interlock n i level s).station n).lease = (s.station n).lease := by
  have seen := inputSeen_station s n i level n
  rw [if_pos rfl] at seen
  cases level with
  | false =>
    obtain ⟨live, reported, marks, lease⟩ :=
      reach_station .interlock (fun j => j.station == n && j.state.running) (s.inputSeen n i false) n
    rw [interlock_falls, live, reported, marks, lease, seen]
    exact ⟨rfl, rfl, rfl, rfl⟩
  | true =>
    obtain ⟨-, -, stations, -⟩ := interlock_rises_kept s n i
    rw [State.station, stations, ← State.station, seen]
    exact ⟨rfl, rfl, rfl, rfl⟩

theorem interlock_mode (s : State) (n : Station) (i : Interlock) (level : Bool) :
    (interlock n i level s).mode = s.mode ∧ (interlock n i level s).heads = s.heads := by
  obtain ⟨-, mode, heads, -, -, -⟩ := inputSeen_kept s n i level
  cases level with
  | false =>
    rw [interlock_falls, reach_heads]
    exact ⟨(reach_settings (.refl _)).line.1.trans mode, heads⟩
  | true =>
    obtain ⟨-, -, -, -, mode, heads⟩ := interlock_rises_kept s n i
    exact ⟨mode, heads⟩

theorem interlock_rises_port (s : State) (n : Station) (i : Interlock) (q : Port) :
    (interlock n i true s).port q = (s.inputSeen n i true).port q := by
  obtain ⟨-, -, -, ports, -⟩ := interlock_rises_kept s n i
  rw [State.port, ports, State.port]

/-- What a change makes of a full queue (R171). -/
theorem interlock_full (fresh : (s.station n).marks.get i = false) (full : 16 ≤ (s.port (.sp n)).notices.length) :
    ((interlock n i level s).port (.sp n)).notices = (s.port (.sp n)).notices ∧
      ((interlock n i level s).port (.sp n)).dropped = true := by
  have posted := inputSeen_port_fresh (level := level) fresh
  rw [post_full full] at posted
  cases level with
  | false =>
    obtain ⟨notices, dropped⟩ := (reach_port .interlock (fun j => j.station == n && j.state.running)
      (s.inputSeen n i false) (.sp n)).2 (by rw [posted]; exact full)
    rw [interlock_falls]
    rw [posted] at notices dropped
    exact ⟨notices, dropped rfl⟩
  | true =>
    rw [interlock_rises_port, posted]
    exact ⟨rfl, rfl⟩

theorem finish_arbSeq_of_cause (cause : s.arbCause = true) : (finish s).arbSeq = s.arbSeq + 1 := by
  rw [finish, if_pos cause, scanSettle_only, (arbitrate_granted s).only]

theorem exec_readInputs (p : Port) (b : List Byte) (s : State) :
    exec (.readInputs p b) s = .next (finish (requestArrives p 0x17 b s)) :=
  exec_instrOfFrame p 0x17 b s

end

/-- Settles O19: by the level and the mark of the input. -/
theorem inputsReported : Obligations.InputsReported := by
  unfold Obligations.InputsReported
  refine ⟨fun s n i level => ⟨fun same settled => ?_, fun change => ⟨_, exec_interlockChange change, ?_⟩⟩,
    fun s n free => accepts_of (exec_readInputs ..) free rfl rfl,
    fun s settled => ⟨wrongOnSvp_of (fun p b => exec_readInputs p b s) settled fun _ _ => rfl,
      fun n x b free => refuses_of (exec_readInputs ..) settled free (by decide) rfl⟩⟩
  · rw [exec_interlockChange_same same, finish_of_settled settled]
  · obtain ⟨live, marks, reported, lease⟩ := interlock_station s n i level
    obtain ⟨mode, heads⟩ := interlock_mode s n i level
    simp only [finish_station, finish_port, finish_mode, finish_heads]
    refine ⟨live, marks, reported, lease, mode, heads, ?_, ?_, ?_, ?_, fun fresh full => interlock_full fresh full, ?_⟩
    · rintro rfl
      rw [interlock_falls]
      exact ((reach_reached _ _ _).of_slots (inputSeen_kept s n i false).1).finish.congr fun k j hj => by
        rw [State.jobIs, State.job, State.slot, (inputSeen_kept s n i false).1]
        rfl
    · rintro rfl fresh room
      have grown := (reach_port .interlock (fun j => j.station == n && j.state.running)
        (s.inputSeen n i false) (.sp n)).1
      rw [inputSeen_port_fresh fresh, post_room room] at grown
      rw [interlock_falls]
      exact grown
    · rintro rfl fresh room
      rw [interlock_rises_port, inputSeen_port_fresh fresh, post_room room]
    · rintro rfl marked
      rw [interlock_rises_port, inputSeen_port_marked marked]
    · rintro rfl
      obtain ⟨slots, convs, stations, -⟩ := interlock_rises_kept s n i
      have job (k : SlotIx) : (interlock n i true s).job k = s.job k := by
        rw [State.job, State.slot, slots]
        rfl
      refine ⟨fun k j hj => finish_granted_job ((job k).trans hj), fun k free => ?_, fun m => ?_, fun c busy => ?_,
        fun settled high => ?_, fun settled low => ?_⟩
      · rw [finish_free ((job k).trans free), State.slot, slots]
        rfl
      · rw [State.station, stations, ← State.station, inputSeen_station]
        split
        · next same => rw [← same]
        · rfl
      · have conv : (interlock n i true s).conv c = s.conv c := by
          rw [State.conv, convs]
          rfl
        rw [finish_conv_busy (by rw [conv]; exact busy), conv]
      · rw [interlock_rises, if_pos high, finish_arbSeq_of_cause rfl]
        exact congrArg (· + 1) (inputSeen_kept s n i true).2.2.2.2.2
      · obtain ⟨-, -, -, -, cands, -⟩ := inputSeen_kept s n i true
        have rests : interlock n i true s = s.inputSeen n i true := by
          rw [interlock_rises, if_neg (Bool.eq_false_iff.1 low)]
        rw [rests] at slots convs
        rw [rests, finish_of_settled (inputSeen_settled settled)]
        exact ⟨slots, convs, cands⟩

/-! ## The expiry of a lease -/

section
variable {s : State} {n : Station} {e : Nat}

/-- The station's own work and the notices at the expiry of a lease (R181). -/
def State.leaseLapsed (s : State) (n : Station) : State :=
  ((s.modStation n fun t => { t with lease := (s.station n).lease.lapse }).post (.sp n)
    (.leaseExpired n (s.station n).lease.action)).post .svp (.leaseExpired n (s.station n).lease.action)

theorem leaseExpire_aborts (action : (s.station n).lease.action = .abort) :
    leaseExpire n s = reach .leaseLost (fun j => j.station == n) (s.leaseLapsed n) := by
  rw [leaseExpire, leaseLapsed, action]

theorem leaseExpire_holds (action : (s.station n).lease.action = .hold) : leaseExpire n s = s.leaseLapsed n := by
  rw [leaseExpire, leaseLapsed, action]

theorem leaseLapsed_port {p : Port} (told : p = .sp n ∨ p = .svp) : (s.leaseLapsed n).port p =
    (s.port p).post ⟨s.lineClock, .leaseExpired n (s.station n).lease.action⟩ := by
  rw [leaseLapsed]
  rcases told with rfl | rfl
  · rw [port_post_ne _ (by nofun), port_post_self]
    rfl
  · rw [port_post_self, port_post_ne _ (by nofun)]
    rfl

theorem leaseLapsed_lease : ((s.leaseLapsed n).station n).lease = (s.station n).lease.lapse := by
  rw [leaseLapsed, post_station, post_station, station_modStation_self]

/-- Whatever the action, the lease lapses and both queues are told. -/
theorem leaseExpire_reports : ((leaseExpire n s).station n).lease = (s.station n).lease.lapse ∧
    ∀ p, p = .sp n ∨ p = .svp →
      ((s.port p).notices.length < 16 →
        (s.port p).notices ++ [⟨s.lineClock, .leaseExpired n (s.station n).lease.action⟩] <+:
          ((leaseExpire n s).port p).notices) ∧
      (16 ≤ (s.port p).notices.length → ((leaseExpire n s).port p).notices = (s.port p).notices ∧
        ((leaseExpire n s).port p).dropped = true) := by
  cases action : (s.station n).lease.action with
  | abort =>
    rw [leaseExpire_aborts action]
    refine ⟨(reach_station _ _ _ n).2.2.2.trans leaseLapsed_lease, fun p told => ⟨fun room => ?_, fun full => ?_⟩⟩
    · have grown := (reach_port .leaseLost (fun j => j.station == n) (s.leaseLapsed n) p).1
      rw [leaseLapsed_port told, post_room room, action] at grown
      exact grown
    · have kept := (reach_port .leaseLost (fun j => j.station == n) (s.leaseLapsed n) p).2
      rw [leaseLapsed_port told, post_full full] at kept
      obtain ⟨notices, dropped⟩ := kept full
      exact ⟨notices, dropped rfl⟩
  | hold =>
    rw [leaseExpire_holds action]
    refine ⟨leaseLapsed_lease, fun p told => ⟨fun room => ?_, fun full => ?_⟩⟩
    · rw [leaseLapsed_port told, post_room room, action]
    · rw [leaseLapsed_port told, post_full full]
      exact ⟨rfl, rfl⟩

end

/-- Settles O21: by the action of the lease. -/
theorem leaseExpires : Obligations.LeaseExpires := by
  unfold Obligations.LeaseExpires
  refine fun s n e timer => ⟨fun early settled => ?_, fun time => ⟨finish (leaseExpire n s), ?_, ?_⟩⟩
  · have idle : ¬ s.due (s.station n).lease.timer = true := by
      rw [timer]
      exact fun due => Nat.not_le.2 early (of_decide_eq_true due)
    exact (congrArg done (if_neg idle)).trans (congrArg _ (finish_of_settled settled))
  · exact congrArg done (if_pos (due_of_le timer time))
  · obtain ⟨lease, told⟩ := leaseExpire_reports (s := s) (n := n)
    simp only [finish_station, finish_port, lease]
    refine ⟨rfl, rfl, beq_iff_eq, (told _ (.inl rfl)).1, (told _ (.inr rfl)).1, fun p hp => (told p hp).2,
      fun action => ?_, fun action settled => ?_⟩
    · rw [leaseExpire_aborts action]
      exact ((reach_reached _ _ _).of_slots (s := s)).finish
    · rw [leaseExpire_holds action]
      have settled' : (s.leaseLapsed n).Settled := ⟨settled.noCause, settled.scanner⟩
      rw [finish_of_settled settled']
      exact ⟨rfl, rfl, rfl⟩

end Sys2Proof.Machine
end

section
/-! PROOFS. The arbiter: what a candidate is assigned, what the walk leaves alone, and what a grant does to committed
power; the conditions that grants keep. -/

namespace Sys2Proof.Machine

open State

/-! ## The members of a candidate in ascending head order -/

theorem insertByHead_perm (x : Head × SlotIx) (l : List (Head × SlotIx)) : (insertByHead x l).Perm (x :: l) := by
  induction l with
  | nil => exact .refl _
  | cons y l ih =>
    unfold insertByHead
    split
    · exact .refl _
    · exact (ih.cons y).trans (.swap x y l)

/-- A member of a candidate with the head of its job. -/
def State.withHead (s : State) (k : SlotIx) : Option (Head × SlotIx) := (s.job k).map fun j => (j.head, k)

/-- The order of the heads neither adds a member nor loses one. -/
theorem byHead_perm (s : State) (c : Cand) : (s.byHead c).Perm (c.members.filterMap s.withHead) := by
  have folded : ∀ (ms : List SlotIx) (l : List (Head × SlotIx)), (ms.foldl (fun l k => match s.job k with
      | some j => insertByHead (j.head, k) l
      | none => l) l).Perm (l ++ ms.filterMap s.withHead) := by
    intro ms
    induction ms with
    | nil => exact fun l => by simp
    | cons k ms ih =>
      intro l
      rw [List.foldl_cons]
      refine (ih _).trans ?_
      cases e : s.job k with
      | none => rw [List.filterMap_cons_none (by rw [withHead, e]; rfl)]
      | some j =>
        rw [List.filterMap_cons_some (b := (j.head, k)) (by rw [withHead, e]; rfl)]
        exact ((insertByHead_perm _ l).append_right _).trans List.perm_middle.symm
  exact folded c.members []

theorem byHead_single {s : State} {c : Cand} {k : SlotIx} {j : Job} (h : c.members = [k]) (job : s.job k = some j) :
    s.byHead c = [(j.head, k)] := by
  refine List.perm_singleton.1 ((byHead_perm s c).trans ?_)
  rw [h, List.filterMap_cons_some (b := (j.head, k)) (by rw [withHead, job]; rfl)]
  exact .refl _

/-! ## The converters that the members are assigned -/

/-- The converter that one member is assigned, when `taken` are given and `later` are still to come (R88, R92). -/
def State.choice (s : State) (h : Head) (taken : List Conv) (later : List Head) : Option Conv :=
  match fixedConv h with
  | some c => if s.convFree c && !taken.contains c then some c else none
  | none => (s.choosePool h taken later).map poolConv

theorem choice_fixed {s : State} {h : Head} {c : Conv} (e : fixedConv h = some c) (taken : List Conv)
    (later : List Head) :
    s.choice h taken later = if s.convFree c && !taken.contains c then some c else none := by
  unfold State.choice
  rw [e]

theorem choice_pooled {s : State} {h : Head} (e : fixedConv h = none) (taken : List Conv) (later : List Head) :
    s.choice h taken later = (s.choosePool h taken later).map poolConv := by
  unfold State.choice
  rw [e]

theorem assign_cons (s : State) (h : Head) (k : SlotIx) (rest : List (Head × SlotIx)) (taken : List Conv) :
    s.assign ((h, k) :: rest) taken = (s.choice h taken (rest.map (·.1))).bind fun c =>
      (s.assign rest (c :: taken)).map ((k, c) :: ·) := by
  change (match s.choice h taken (rest.map (·.1)) with
    | none => none
    | some c => (s.assign rest (c :: taken)).map ((k, c) :: ·)) = _
  cases s.choice h taken (rest.map (·.1)) <;> rfl

theorem earliestOff_ok {s : State} {ok : Pool → Bool} {p : Pool} (h : s.earliestOff ok = some p) : ok p = true := by
  unfold State.earliestOff at h
  split at h
  · next first =>
    obtain rfl := Option.some.inj h
    rw [Bool.and_eq_true] at first
    exact first.1
  · split at h
    · next second =>
      obtain rfl := Option.some.inj h
      exact second
    · nomatch h

theorem orElse_cases {α : Type} {o : Option α} {f : Unit → Option α} {x : α} (h : o.orElse f = some x) :
    o = some x ∨ f () = some x := by
  cases o with
  | none => exact .inr h
  | some y => exact .inl h

/-- The pool converter that is chosen is available (R89, R92). -/
theorem choosePool_available {s : State} {h : Head} {taken : List Conv} {later : List Head} {p : Pool}
    (e : s.choosePool h taken later = some p) : s.poolAvailable h taken p = true := by
  unfold State.choosePool at e
  dsimp only at e
  rcases orElse_cases e with e | e
  · have := List.find?_some e
    rw [Bool.and_eq_true] at this
    exact this.1
  rcases orElse_cases e with e | e
  · have := List.find?_some e
    simp only [Bool.and_eq_true] at this
    exact this.1.1
  · have := earliestOff_ok e
    rw [Bool.and_eq_true] at this
    exact this.1

/-- The converter that is assigned is free and not given before (R88, R89). -/
theorem choice_free {s : State} {h : Head} {taken : List Conv} {later : List Head} {c : Conv}
    (e : s.choice h taken later = some c) : s.convFree c = true ∧ c ∉ taken := by
  unfold State.choice at e
  split at e
  · split at e
    · next both =>
      obtain rfl := Option.some.inj e
      simpa using both
    · nomatch e
  · obtain ⟨p, hp, rfl⟩ := Option.map_eq_some_iff.1 e
    have available := choosePool_available hp
    simp only [poolAvailable, Bool.and_eq_true] at available
    simpa using available.1

/-- What is assigned: every member has one converter, free, and no two members the same. -/
theorem assign_spec {s : State} {l : List (Head × SlotIx)} {taken : List Conv} {given : List (SlotIx × Conv)}
    (h : s.assign l taken = some given) : given.map (·.1) = l.map (·.2) ∧
      (∀ x ∈ given, s.convFree x.2 = true ∧ x.2 ∉ taken) ∧ (given.map (·.2)).Nodup := by
  induction l generalizing taken given with
  | nil =>
    obtain rfl := Option.some.inj h
    exact ⟨rfl, nofun, .nil⟩
  | cons y l ih =>
    obtain ⟨head, k⟩ := y
    rw [assign_cons] at h
    obtain ⟨c, hc, h⟩ := Option.bind_eq_some_iff.1 h
    obtain ⟨rest, hr, rfl⟩ := Option.map_eq_some_iff.1 h
    obtain ⟨slots, free, distinct⟩ := ih hr
    refine ⟨by rw [List.map_cons, List.map_cons, slots], fun x hx => ?_, ?_⟩
    · rcases List.mem_cons.1 hx with rfl | hx
      · exact choice_free hc
      · exact ⟨(free x hx).1, fun mem => (free x hx).2 (List.mem_cons_of_mem _ mem)⟩
    · refine List.nodup_cons.2 ⟨fun mem => ?_, distinct⟩
      obtain ⟨x, hx, same⟩ := List.mem_map.1 mem
      exact (free x hx).2 (same ▸ List.mem_cons_self ..)

/-! ## Eligibility -/

/-- The conditions that every member of a candidate has to meet (R87, R88). -/
def State.memberMay (s : State) (k : SlotIx) : Bool :=
  s.jobIs k fun j => j.state == .ready && s.stationServes j.station && (s.occupant j.head).isNone

theorem memberMay_iff {s : State} {k : SlotIx} : s.memberMay k = true ↔
    ∃ j, s.job k = some j ∧ j.state = .ready ∧ s.stationServes j.station = true ∧ s.occupant j.head = none := by
  simp [memberMay, jobIs_iff, and_assoc]

theorem eligible_eq_some {s : State} {c : Cand} {given : List (SlotIx × Conv)} : s.eligible c = some given ↔
    (∀ k ∈ c.members, s.memberMay k = true) ∧ s.assign (s.byHead c) [] = some given := by
  change (if c.members.all s.memberMay then s.assign (s.byHead c) [] else none) = some given ↔ _
  rw [← List.all_eq_true]
  split
  · next all => exact (and_iff_right all).symm
  · next fails => exact ⟨nofun, fun h => absurd h.1 fails⟩

/-- The slots that a candidate's grant goes through are those of its members. -/
theorem given_slots {s : State} {c : Cand} {given : List (SlotIx × Conv)} (h : s.eligible c = some given) :
    (given.map (·.1)).Perm c.members := by
  obtain ⟨may, assigned⟩ := eligible_eq_some.1 h
  rw [(assign_spec assigned).1]
  have all : ∀ ms : List SlotIx, (∀ k ∈ ms, s.memberMay k = true) → (ms.filterMap s.withHead).map (·.2) = ms := by
    intro ms
    induction ms with
    | nil => exact fun _ => rfl
    | cons k ms ih =>
      intro may
      obtain ⟨j, hj, -⟩ := memberMay_iff.1 (may k (List.mem_cons_self ..))
      rw [List.filterMap_cons_some (b := (j.head, k)) (by rw [withHead, hj]; rfl), List.map_cons,
        ih fun m hm => may m (List.mem_cons_of_mem _ hm)]
  exact ((byHead_perm s c).map _).trans (.of_eq (all _ may))

/-! ## Committed power -/

/-- The reservation of the job in a slot. -/
def State.slotReservation (s : State) (k : SlotIx) : Nat := (s.job k).elim 0 Job.reservation

theorem slotReservation_of {s : State} {k : SlotIx} {j : Job} (h : s.job k = some j) :
    s.slotReservation k = j.reservation := by rw [slotReservation, h]; rfl

theorem candReservation_eq (s : State) (c : Cand) : s.candReservation c = (c.members.map s.slotReservation).sum := by
  unfold candReservation
  refine congrArg _ (List.map_congr_left fun k _ => ?_)
  unfold slotReservation
  cases s.job k <;> rfl

theorem candReservation_single {s : State} {c : Cand} {k : SlotIx} {j : Job} (h : c.members = [k])
    (job : s.job k = some j) : s.candReservation c = j.reservation := by
  rw [candReservation_eq, h, List.map_singleton, List.sum_singleton, slotReservation_of job]

/-- What a candidate reserves is what the members of its grant reserve. -/
theorem given_reservation {s : State} {c : Cand} {given : List (SlotIx × Conv)} (h : s.eligible c = some given) :
    (given.map fun x => s.slotReservation x.1).sum = s.candReservation c := by
  rw [candReservation_eq, ← ((given_slots h).map s.slotReservation).sum_eq, List.map_map]
  rfl

theorem matrixTry_committed (p : Pool) (s : State) : (matrixTry p s).committed = s.committed := by
  rw [matrixTry_only]

theorem grantMember_committed {s : State} {k : SlotIx} {c : Conv} {j : Job} (h : s.job k = some j)
    (ready : j.state = .ready) (free : s.convFree c = true) (head : s.occupant j.head = none) :
    (grantMember s (k, c)).committed = s.committed + j.reservation := by
  have seeks : (enterSeeking c k (s.granting k c j)).committed = s.committed + j.reservation := by
    rw [enterSeeking_frame (granting_change h).after]
    rfl
  rw [grantMember_of h ready free head]
  split
  · exact seeks
  · next p hp =>
    rw [connect_eq, poolConv_of_poolOf hp]
    split
    · exact seeks
    · exact matrixTry_committed p _

theorem grantMember_committed_le (s : State) (x : SlotIx × Conv) :
    (grantMember s x).committed ≤ s.committed + s.slotReservation x.1 := by
  rcases grantMember_cases s x with same | ⟨j, h, ready, free, head⟩
  · rw [same]
    exact Nat.le_add_right ..
  · rw [slotReservation_of h]
    exact (grantMember_committed h ready free head).le

/-- A grant leaves the reservation of every job as it is. -/
theorem grantMember_slotReservation (s : State) (x : SlotIx × Conv) (k : SlotIx) :
    (grantMember s x).slotReservation k = s.slotReservation k := by
  cases e : s.job k with
  | none =>
    have same : (grantMember s x).slot k = s.slot k := (grantMember_settings (.refl s)).free k e
    rw [slotReservation, slotReservation, State.job, same]
    rfl
  | some j =>
    obtain ⟨i, hi, granted⟩ := grantMember_granted_job e x
    rw [slotReservation_of e, slotReservation_of hi]
    rcases granted with rfl | ⟨-, c, rfl | rfl⟩ <;> rfl

theorem grants_committed_le (s : State) (l : List (SlotIx × Conv)) :
    (l.foldl grantMember s).committed ≤ s.committed + (l.map fun x => s.slotReservation x.1).sum := by
  induction l generalizing s with
  | nil => exact Nat.le_add_right ..
  | cons x l ih =>
    have first := grantMember_committed_le s x
    have rest := ih (grantMember s x)
    simp only [grantMember_slotReservation] at rest
    rw [List.foldl_cons, List.map_cons, List.sum_cons]
    omega

theorem grant_committed_le {s : State} {c : Cand} {given : List (SlotIx × Conv)} (h : s.eligible c = some given) :
    (grant c given s).committed ≤ s.committed + s.candReservation c := by
  rw [← given_reservation h]
  exact grants_committed_le (s.dropCand c.slot) given

theorem grants_budget (s : State) (l : List (SlotIx × Conv)) : (l.foldl grantMember s).budget = s.budget := by
  induction l generalizing s with
  | nil => rfl
  | cons x l ih => exact (ih _).trans (grantMember_settings (x := x) (.refl s)).tables.2.2.1

/-- The walk never takes committed power above the budget (R90). -/
theorem walk_committed_le (l : List Cand) (s : State) : (walk l s).committed ≤ max s.committed s.budget := by
  induction l generalizing s with
  | nil => exact le_max_left ..
  | cons c l ih =>
    unfold walk
    split
    · exact ih s
    · next given eligible =>
      split
      · next fits =>
        have bound := grant_committed_le eligible
        have budget : (grant c given s).budget = s.budget := grants_budget (s.dropCand c.slot) given
        exact (ih _).trans (by omega)
      · exact le_max_left ..

/-! ## The end of an event as a walk -/

/-- The state in which the walk of an arbitration begins (R86). -/
def State.arbitrating (s : State) : State := { s with arbCause := false, arbSeq := s.arbSeq + 1 }

theorem finish_of_cause {s : State} (cause : s.arbCause = true) :
    finish s = scanSettle (walk s.cands s.arbitrating) := by
  unfold finish
  rw [if_pos cause]
  rfl

theorem assign_arbitrating (s : State) (l : List (Head × SlotIx)) (taken : List Conv) :
    s.arbitrating.assign l taken = s.assign l taken := by
  induction l generalizing taken with
  | nil => rfl
  | cons x l ih =>
    obtain ⟨h, k⟩ := x
    rw [assign_cons, assign_cons]
    simp only [ih]
    rfl

/-- What is eligible does not depend on the count of arbitrations. -/
theorem eligible_arbitrating (s : State) (c : Cand) : s.arbitrating.eligible c = s.eligible c := by
  unfold State.eligible
  rw [assign_arbitrating]
  rfl

/-- What grants change beside the candidates is the same in two states. -/
def State.SameGrants (s t : State) : Prop :=
  t.convs = s.convs ∧ t.slots = s.slots ∧ t.committed = s.committed ∧ t.relays = s.relays

theorem State.SameGrants.trans {s t u : State} (h : s.SameGrants t) (g : t.SameGrants u) : s.SameGrants u :=
  ⟨g.1.trans h.1, g.2.1.trans h.2.1, g.2.2.1.trans h.2.2.1, g.2.2.2.trans h.2.2.2⟩

theorem scanSettle_sameGrants (s : State) : s.SameGrants (scanSettle s) ∧ (scanSettle s).cands = s.cands := by
  rw [scanSettle_only]
  exact ⟨⟨rfl, rfl, rfl, rfl⟩, rfl⟩

/-- The end of an event grants what the walk grants, or nothing when no arbitration is caused. -/
theorem finish_sameGrants {s t : State} (walked : t.SameGrants (walk s.cands s.arbitrating))
    (idle : t.SameGrants s) : t.SameGrants (finish s) := by
  unfold finish
  refine State.SameGrants.trans ?_ (scanSettle_sameGrants _).1
  split
  · exact walked
  · exact idle

theorem finish_cands {s : State} {l : List Cand} (walked : (walk s.cands s.arbitrating).cands = l)
    (idle : s.cands = l) : (finish s).cands = l := by
  unfold finish
  rw [(scanSettle_sameGrants _).2]
  split
  · exact walked
  · exact idle

theorem finish_committed_le (s : State) : (finish s).committed ≤ max s.committed s.budget := by
  unfold finish
  rw [(scanSettle_sameGrants _).1.2.2.1]
  split
  · exact walk_committed_le s.cands s.arbitrating
  · exact le_max_left ..

/-- Where no station is served only entries without members are passed, and nothing is granted (R87). -/
theorem walk_unserved {l : List Cand} {s : State} (h : s.mode ≠ .run ∨ s.estop = true) : s.SameGrants (walk l s) := by
  induction l generalizing s with
  | nil => exact ⟨rfl, rfl, rfl, rfl⟩
  | cons c l ih =>
    unfold walk
    split
    · exact ih h
    · next given eligible =>
      split
      · have none_ : given = [] := by
          obtain ⟨may, assigned⟩ := eligible_eq_some.1 eligible
          cases e : c.members with
          | nil =>
            rw [byHead_nil e] at assigned
            exact (Option.some.inj assigned).symm
          | cons k ks =>
            obtain ⟨j, -, -, serves, -⟩ := memberMay_iff.1 (may k (e ▸ List.mem_cons_self ..))
            simp only [stationServes, Bool.and_eq_true, beq_iff_eq, Bool.not_eq_true'] at serves
            obtain ⟨⟨⟨run, calm⟩, -⟩, -⟩ := serves
            exact (h.elim (fun m => m run) fun e => absurd (e.symm.trans calm) nofun).elim
        subst none_
        exact ih (s := s.dropCand c.slot) h
      · exact ⟨rfl, rfl, rfl, rfl⟩

/-! ## Where the walk stops -/

theorem walk_none {l : List Cand} {s : State} (h : ∀ y ∈ l, s.eligible y = none) : walk l s = s := by
  have skipped := walk_skip h []
  rwa [List.append_nil] at skipped

/-- The first eligible candidate that does not fit in the budget stops the walk (R90). -/
theorem walk_stops {pre rest : List Cand} {x : Cand} {s : State} {given : List (SlotIx × Conv)}
    (pass : ∀ y ∈ pre, s.eligible y = none) (eligible : s.eligible x = some given)
    (big : s.budget < s.committed + s.candReservation x) : walk (pre ++ x :: rest) s = s := by
  rw [walk_skip pass, walk, eligible]
  exact if_neg (by omega)

/-- The first eligible candidate is granted when it fits in the budget, and the walk goes on (R90). -/
theorem walk_grants {pre rest : List Cand} {x : Cand} {s : State} {given : List (SlotIx × Conv)}
    (pass : ∀ y ∈ pre, s.eligible y = none) (eligible : s.eligible x = some given)
    (fits : s.committed + s.candReservation x ≤ s.budget) :
    walk (pre ++ x :: rest) s = walk rest (grant x given s) := by
  rw [walk_skip pass, walk, eligible]
  exact if_pos fits

/-- An arbitration whose walk changes nothing grants nothing and keeps the candidates. -/
theorem finish_of_walk_eq {s : State} (h : walk s.cands s.arbitrating = s.arbitrating) :
    (finish s).convs = s.convs ∧ (finish s).slots = s.slots ∧ (finish s).committed = s.committed ∧
      (finish s).relays = s.relays ∧ (finish s).cands = s.cands := by
  obtain ⟨convs, slots, committed, relays⟩ : s.SameGrants (finish s) :=
    finish_sameGrants (by rw [h]; exact ⟨rfl, rfl, rfl, rfl⟩) ⟨rfl, rfl, rfl, rfl⟩
  exact ⟨convs, slots, committed, relays, finish_cands (by rw [h]; rfl) rfl⟩

/-- Settles O52: the walk passes by what is not eligible, grants only within the budget and stops at the first eligible
candidate that does not fit; a candidate with members is eligible only in RUN without ESTOP. -/
theorem grantsKeepTheirConditions : Obligations.GrantsKeepTheirConditions := by
  unfold Obligations.GrantsKeepTheirConditions
  refine ⟨fun s unserved => ?_, finish_committed_le, fun s pass => ?_, fun s pre rest x given cands pass eligible big => ?_,
    fun s u pre mid rest x y given given' cause cands pass eligible fits granted pass' eligible' big => ?_⟩
  · exact finish_sameGrants (walk_unserved (s := s.arbitrating) unserved) ⟨rfl, rfl, rfl, rfl⟩
  · exact finish_of_walk_eq (walk_none fun y hy => (eligible_arbitrating s y).trans (pass y hy))
  · refine finish_of_walk_eq ?_
    rw [cands]
    exact walk_stops (fun y hy => (eligible_arbitrating s y).trans (pass y hy))
      ((eligible_arbitrating s x).trans eligible) big
  · have walked : walk s.cands s.arbitrating = u := by
      rw [cands, granted]
      refine (walk_grants (fun z hz => (eligible_arbitrating s z).trans (pass z hz))
        ((eligible_arbitrating s x).trans eligible) fits).trans ?_
      rw [granted] at pass' eligible' big
      exact walk_stops pass' eligible' big
    rw [finish_of_cause cause, walked]
    obtain ⟨⟨convs, slots, committed, relays⟩, kept⟩ := scanSettle_sameGrants u
    exact ⟨convs, slots, committed, relays, kept⟩

end Sys2Proof.Machine
end

section
/-! PROOFS. What a grant gives: job, converter and relay of one member, all members of a candidate, and the choice of a
pool converter. -/

namespace Sys2Proof.Machine

open State

/-! ## The grant of one member -/

/-- The conditions under which the grant of one member is made (R59, R88, R91). -/
structure State.Takes (s : State) (k : SlotIx) (c : Conv) (j : Job) : Prop where
  job : s.job k = some j
  ready : j.state = .ready
  free : s.convFree c = true
  head : s.occupant j.head = none

/-- The job and the converter of a grant wait in CONNECTING, with the plan of the relay set (R38). -/
def State.planned (s : State) (k : SlotIx) (p : Pool) (j : Job) : State :=
  ((s.granting k (poolConv p) j).connecting (poolConv p) k).modRelay p fun r => { r with plan := r.connectPlan j.head }

section
variable {s : State} {k : SlotIx} {c : Conv} {j : Job} {p : Pool}

/-- With no relay, or with the relay closed to the head, job and converter enter SEEKING at once (R24, R91). -/
theorem grantMember_seeks (h : s.Takes k c j) (at_ : ∀ p, poolOf c = some p → (s.relay p).pos = .closed j.head) :
    grantMember s (k, c) = enterSeeking c k (s.granting k c j) := by
  rw [grantMember_of h.job h.ready h.free h.head]
  split
  · rfl
  · next p hp => rw [connect_eq, if_pos (show ((s.granting k c j).relay p).pos = _ from at_ p hp), poolConv_of_poolOf hp]

/-- With the relay elsewhere job and converter wait for its motions (R24, R38). -/
theorem grantMember_connects (h : s.Takes k (poolConv p) j) (away : (s.relay p).pos ≠ .closed j.head) :
    grantMember s (k, poolConv p) = matrixTry p (s.planned k p j) := by
  rw [grantMember_of h.job h.ready h.free h.head, poolOf_poolConv]
  dsimp only
  rw [connect_eq, if_neg (show ¬ ((s.granting k (poolConv p) j).relay p).pos = _ from away)]
  rfl

/-- One of the two courses of a grant. -/
theorem grantMember_course (h : s.Takes k c j) : grantMember s (k, c) = enterSeeking c k (s.granting k c j) ∨
    ∃ p, c = poolConv p ∧ grantMember s (k, c) = matrixTry p (s.planned k p j) := by
  by_cases away : ∃ p, poolOf c = some p ∧ (s.relay p).pos ≠ .closed j.head
  · obtain ⟨p, hp, away⟩ := away
    obtain rfl := poolConv_of_poolOf hp
    exact .inr ⟨p, rfl, grantMember_connects h away⟩
  · push Not at away
    exact .inl (grantMember_seeks h away)

theorem enterSeeking_granting_job (h : s.job k = some j) : (enterSeeking c k (s.granting k c j)).job k =
    some { j with state := .seeking, converter := some c } := by
  rw [enterSeeking_job, (granting_change h).after]
  rfl

theorem planned_job (h : s.job k = some j) : (s.planned k p j).job k =
    some { j with state := .connecting, converter := some (poolConv p) } := by
  rw [State.planned, modRelay_job, State.connecting, modConv_job, job_modJob_self, (granting_change h).after]
  rfl

theorem enterSeeking_granting_conv (h : s.job k = some j) : (enterSeeking c k (s.granting k c j)).conv c =
    { s.conv c with served := some (s.handleOf k), drive := (s.head j.head).nominal }.seek (s.head j.head) s.now := by
  rw [enterSeeking_conv (granting_change h).after, if_pos rfl, granting_conv, if_pos rfl]
  rfl

theorem planned_conv : (s.planned k p j).conv (poolConv p) = { s.conv (poolConv p) with
    state := .connecting, served := some (s.handleOf k), drive := (s.head j.head).nominal } := by
  rw [State.planned, modRelay_conv, State.connecting, conv_modConv, if_pos rfl, modJob_conv, granting_conv, if_pos rfl]

theorem planned_relay : (s.planned k p j).relay p = { s.relay p with plan := (s.relay p).connectPlan j.head } := by
  rw [State.planned, relay_modRelay_self]
  rfl

/-- The job that is granted goes to SEEKING or CONNECTING with its converter, which serves it from then on (R91). -/
theorem grantMember_given (h : s.Takes k c j) :
    ((grantMember s (k, c)).job k = some { j with state := .seeking, converter := some c } ∨
      (grantMember s (k, c)).job k = some { j with state := .connecting, converter := some c }) ∧
    ((grantMember s (k, c)).conv c).served = some (s.handleOf k) ∧
    ((grantMember s (k, c)).conv c).state ≠ .idle := by
  rcases grantMember_course h with e | ⟨p, rfl, e⟩ <;> rw [e]
  · rw [enterSeeking_granting_conv h.job]
    exact ⟨.inl (enterSeeking_granting_job h.job), rfl, nofun⟩
  · rw [matrixTry_job, matrixTry_conv, planned_conv]
    exact ⟨.inr (planned_job h.job), rfl, nofun⟩

theorem enterSeeking_granting_cands (h : s.job k = some j) :
    (enterSeeking c k (s.granting k c j)).cands = s.cands := by
  have granting := granting_change (c := c) h
  exact (congrArg State.cands (enterSeeking_frame granting.after)).trans granting.counts.2.2.2

theorem matrixTry_cands (p : Pool) (s : State) : (matrixTry p s).cands = s.cands := by
  rw [matrixTry_only]

theorem planned_cands : (s.planned k p j).cands = s.cands := by
  rw [State.planned, modRelay_cands, State.connecting, modConv_cands, modJob_cands]
  exact modJob_cands ..

theorem grantMember_cands (s : State) (x : SlotIx × Conv) : (grantMember s x).cands = s.cands := by
  rcases grantMember_cases s x with same | ⟨j, h, ready, free, head⟩
  · rw [same]
  · rcases grantMember_course ⟨h, ready, free, head⟩ with e | ⟨p, -, e⟩ <;> rw [e]
    · exact enterSeeking_granting_cands h
    · exact (matrixTry_cands p _).trans planned_cands

theorem slot_modJob_ne {m : SlotIx} (other : k ≠ m) (f : Job → Job) (s : State) : (s.modJob k f).slot m = s.slot m := by
  rw [slot_modJob, if_neg other]

theorem grantMember_slot_ne (s : State) (x : SlotIx × Conv) {m : SlotIx} (other : m ≠ x.1) :
    (grantMember s x).slot m = s.slot m := by
  rcases grantMember_cases s x with same | ⟨j, h, ready, free, head⟩
  · rw [same]
  · have granting : (s.granting x.1 x.2 j).slot m = s.slot m := slot_modJob_ne other.symm _ _
    rcases grantMember_course ⟨h, ready, free, head⟩ with e | ⟨p, -, e⟩ <;> rw [e]
    · rw [enterSeeking_slot (granting_change h).after, slot_modJob_ne other.symm, granting]
    · rw [State.slot, matrixTry_slots]
      exact (slot_modJob_ne other.symm _ _).trans (slot_modJob_ne other.symm _ _)

/-- The grant of one member moves no slot to another job. -/
theorem grantMember_handleOf (s : State) (x : SlotIx × Conv) (m : SlotIx) :
    (grantMember s x).handleOf m = s.handleOf m := by
  by_cases same : m = x.1
  · subst same
    rcases grantMember_cases s x with same | ⟨j, h, ready, free, head⟩
    · rw [same]
    · have granted := (grantMember_given (s := s) ⟨h, ready, free, head⟩).1
      have gen : ((grantMember s x).slot x.1).gen = (s.slot x.1).gen := by
        rcases granted with after | after <;>
          exact ((grantMember_settings (x := x) (.refl s)).jobs x.1 j _ h after).1
      rw [State.handleOf, State.handleOf, gen]
  · rw [State.handleOf, State.handleOf, grantMember_slot_ne s x same]

end

/-! ## The grant of a candidate -/

/-- Members and converters that can all be granted in turn: no slot, converter or head twice (R88, R94). -/
structure State.Grantable (s : State) (l : List (SlotIx × Conv)) : Prop where
  slots : (l.map (·.1)).Nodup
  convs : (l.map (·.2)).Nodup
  takes : ∀ x ∈ l, ∃ j, s.Takes x.1 x.2 j
  heads : ∀ x ∈ l, ∀ y ∈ l, ∀ i j, s.job x.1 = some i → s.job y.1 = some j → i.head = j.head → x.1 = y.1

/-- The grant of the first member leaves the others grantable. -/
theorem State.Grantable.tail {s : State} {x : SlotIx × Conv} {l : List (SlotIx × Conv)} (h : s.Grantable (x :: l)) :
    (grantMember s x).Grantable l ∧ ∀ y ∈ l, y.1 ≠ x.1 ∧ y.2 ≠ x.2 := by
  obtain ⟨freshSlot, slots⟩ := List.nodup_cons.1 h.slots
  obtain ⟨freshConv, convs⟩ := List.nodup_cons.1 h.convs
  have other : ∀ y ∈ l, y.1 ≠ x.1 ∧ y.2 ≠ x.2 := fun y hy =>
    ⟨fun e => freshSlot (List.mem_map.2 ⟨y, hy, e⟩), fun e => freshConv (List.mem_map.2 ⟨y, hy, e⟩)⟩
  have job : ∀ y ∈ l, (grantMember s x).job y.1 = s.job y.1 := fun y hy =>
    grantMember_job_ne (other y hy).1.symm s
  refine ⟨⟨slots, convs, fun y hy => ?_, fun y hy z hz i j hi hj => ?_⟩, other⟩
  · obtain ⟨j, hj, ready, free, head⟩ := h.takes y (List.mem_cons_of_mem _ hy)
    have conv : (grantMember s x).conv y.2 = s.conv y.2 := grantMember_conv_ne (other y hy).2.symm s
    refine ⟨j, (job y hy).trans hj, ready, by rwa [convFree, conv], ?_⟩
    rw [occupant_eq_none] at head ⊢
    intro m i hi same
    by_cases hm : m = x.1
    · subst hm
      obtain ⟨jx, taken⟩ := h.takes x (List.mem_cons_self ..)
      have sameHead : jx.head = i.head := by
        have after := (grantMember_given taken).1
        rw [show grantMember s (x.1, x.2) = grantMember s x from rfl, hi] at after
        rcases after with e | e <;> exact (congrArg Job.head (Option.some.inj e)).symm
      exact absurd (h.heads y (List.mem_cons_of_mem _ hy) x (List.mem_cons_self ..) j jx hj taken.job
        (same.symm.trans sameHead.symm)) (other y hy).1
    · exact head m i ((grantMember_job_ne (Ne.symm hm) s).symm.trans hi) same
  · rw [job y hy] at hi
    rw [job z hz] at hj
    exact h.heads y (List.mem_cons_of_mem _ hy) z (List.mem_cons_of_mem _ hz) i j hi hj

/-- What a granted member has got in `t`: SEEKING or CONNECTING with its converter, which serves it. -/
def State.HasGrant (s t : State) (x : SlotIx × Conv) : Prop :=
  ∃ j, s.job x.1 = some j ∧
    (t.job x.1 = some { j with state := .seeking, converter := some x.2 } ∨
      t.job x.1 = some { j with state := .connecting, converter := some x.2 }) ∧
    (t.conv x.2).served = some (s.handleOf x.1) ∧ (t.conv x.2).state ≠ .idle

/-- A member that is granted keeps what it got while jobs outside READY and converters outside IDLE stay as they are. -/
theorem State.HasGrant.keep {s t u : State} {x : SlotIx × Conv} (h : s.HasGrant t x)
    (jobs : ∀ k j, t.job k = some j → j.state ≠ .ready → u.job k = some j)
    (convs : ∀ c, (t.conv c).state ≠ .idle → u.conv c = t.conv c) : s.HasGrant u x := by
  obtain ⟨j, hj, after, served, busy⟩ := h
  refine ⟨j, hj, after.imp (fun e => jobs _ _ e nofun) (fun e => jobs _ _ e nofun), ?_⟩
  rw [convs _ busy]
  exact ⟨served, busy⟩

/-- All members of a grantable list are granted, and power is committed for each of them (R91, R94). -/
theorem grants_given {s : State} {l : List (SlotIx × Conv)} (h : s.Grantable l) :
    (l.foldl grantMember s).committed = s.committed + (l.map fun x => s.slotReservation x.1).sum ∧
      ∀ x ∈ l, s.HasGrant (l.foldl grantMember s) x := by
  induction l generalizing s with
  | nil => exact ⟨rfl, nofun⟩
  | cons x l ih =>
    obtain ⟨tail, other⟩ := h.tail
    obtain ⟨committed, given⟩ := ih tail
    obtain ⟨jx, taken⟩ := h.takes x (List.mem_cons_self ..)
    rw [List.foldl_cons]
    constructor
    · have first : (grantMember s x).committed = s.committed + jx.reservation :=
        grantMember_committed taken.job taken.ready taken.free taken.head
      simp only [grantMember_slotReservation] at committed
      rw [List.map_cons, List.sum_cons, slotReservation_of taken.job, committed]
      omega
    · intro y hy
      rcases List.mem_cons.1 hy with rfl | hy
      · obtain ⟨after, served, busy⟩ := grantMember_given taken
        exact State.HasGrant.keep ⟨jx, taken.job, after, served, busy⟩
          (fun k j hj hr => grants_job_keep hj hr l) fun c hc => grants_conv_busy hc l
      · obtain ⟨j, hj, after, served, busy⟩ := given y hy
        rw [grantMember_job_ne (other y hy).1.symm] at hj
        rw [grantMember_handleOf] at served
        exact ⟨j, hj, after, served, busy⟩

/-- The members of an eligible candidate on different heads can all be granted with what they are assigned. -/
theorem grantable_of_eligible {s : State} {x : Cand} {given : List (SlotIx × Conv)} (nodup : x.members.Nodup)
    (heads : ∀ m n i j, m ∈ x.members → n ∈ x.members → s.job m = some i → s.job n = some j → i.head = j.head → m = n)
    (h : s.eligible x = some given) : s.Grantable given := by
  obtain ⟨may, assigned⟩ := eligible_eq_some.1 h
  obtain ⟨-, free, convs⟩ := assign_spec assigned
  have slots := given_slots h
  have member : ∀ y ∈ given, y.1 ∈ x.members := fun y hy => slots.mem_iff.1 (List.mem_map_of_mem hy)
  refine ⟨slots.nodup_iff.2 nodup, convs, fun y hy => ?_, fun y hy z hz i j => heads _ _ i j (member y hy) (member z hz)⟩
  obtain ⟨j, hj, ready, -, head⟩ := memberMay_iff.1 (may _ (member y hy))
  exact ⟨j, hj, ready, (free y hy).1, head⟩

/-- The grant of an eligible candidate: its reservation is committed and every member has what it was assigned. -/
theorem grant_given {s : State} {x : Cand} {given : List (SlotIx × Conv)} (nodup : x.members.Nodup)
    (heads : ∀ m n i j, m ∈ x.members → n ∈ x.members → s.job m = some i → s.job n = some j → i.head = j.head → m = n)
    (h : s.eligible x = some given) :
    (grant x given s).committed = s.committed + s.candReservation x ∧
      ∀ m ∈ x.members, ∃ c, (m, c) ∈ given ∧ s.HasGrant (grant x given s) (m, c) := by
  have grantable : (s.dropCand x.slot).Grantable given := by
    obtain ⟨slots, convs, takes, apart⟩ := grantable_of_eligible nodup heads h
    exact ⟨slots, convs, fun y hy => (takes y hy).imp fun _ t => ⟨t.job, t.ready, t.free, t.head⟩, apart⟩
  obtain ⟨committed, given_⟩ := grants_given grantable
  rw [← given_reservation h]
  refine ⟨committed, fun m hm => ?_⟩
  obtain ⟨y, hy, rfl⟩ := List.mem_map.1 ((given_slots h).mem_iff.2 hm)
  exact ⟨y.2, hy, given_ y hy⟩

theorem grants_cands (s : State) (l : List (SlotIx × Conv)) : (l.foldl grantMember s).cands = s.cands := by
  induction l generalizing s with
  | nil => rfl
  | cons x l ih => rw [List.foldl_cons, ih, grantMember_cands]

theorem grant_cands (s : State) (x : Cand) (given : List (SlotIx × Conv)) :
    (grant x given s).cands = s.cands.filter fun c => !c.members.contains x.slot :=
  grants_cands (s.dropCand x.slot) given

theorem walk_cands_subset (l : List Cand) (s : State) : (walk l s).cands ⊆ s.cands := by
  induction l generalizing s with
  | nil => exact List.Subset.refl _
  | cons c l ih =>
    unfold walk
    split
    · exact ih s
    · split
      · refine List.Subset.trans (ih _) ?_
        rw [grant_cands]
        exact List.filter_subset_self _
      · exact List.Subset.refl _

theorem grants_committed_ge (s : State) (l : List (SlotIx × Conv)) : s.committed ≤ (l.foldl grantMember s).committed := by
  induction l generalizing s with
  | nil => exact le_rfl
  | cons x l ih =>
    refine le_trans ?_ (ih (grantMember s x))
    rcases grantMember_cases s x with same | ⟨j, h, ready, free, head⟩
    · rw [same]
    · rw [grantMember_committed h ready free head]
      exact Nat.le_add_right ..

theorem walk_committed_ge (l : List Cand) (s : State) : s.committed ≤ (walk l s).committed := by
  induction l generalizing s with
  | nil => exact le_rfl
  | cons c l ih =>
    unfold walk
    split
    · exact ih s
    · next given _ =>
      split
      · exact (grants_committed_ge (s.dropCand c.slot) given).trans (ih _)
      · exact le_rfl

/-! ## Arbitrations with a candidate that fits -/

section
variable {s : State} {x : Cand} {given : List (SlotIx × Conv)}

/-- The only candidate is granted when it is eligible and fits in the budget. -/
theorem finish_grants_only (cause : s.arbCause = true) (cands : s.cands = [x]) (eligible : s.eligible x = some given)
    (fits : s.committed + s.candReservation x ≤ s.budget) :
    finish s = scanSettle (grant x given s.arbitrating) := by
  rw [finish_of_cause cause, cands]
  exact congrArg scanSettle (walk_grants (s := s.arbitrating) (pre := []) (rest := []) nofun
    ((eligible_arbitrating s x).trans eligible) fits)

theorem grant_only_cands (cands : s.cands = [x]) (member : x.slot ∈ x.members) :
    (grant x given s.arbitrating).cands = [] := by
  rw [grant_cands]
  change s.cands.filter _ = []
  simp [cands, member]

/-- The first eligible candidate is granted when it fits, whatever stands before it without being eligible. -/
theorem finish_grants_first {pre rest : List Cand} (cause : s.arbCause = true) (cands : s.cands = pre ++ x :: rest)
    (pass : ∀ y ∈ pre, s.eligible y = none) (eligible : s.eligible x = some given)
    (fits : s.committed + s.candReservation x ≤ s.budget) :
    finish s = scanSettle (walk rest (grant x given s.arbitrating)) := by
  rw [finish_of_cause cause, cands]
  exact congrArg scanSettle (walk_grants (s := s.arbitrating)
    (fun y hy => (eligible_arbitrating s y).trans (pass y hy)) ((eligible_arbitrating s x).trans eligible) fits)

end

/-- A candidate of one member is eligible with the converter of its choice. -/
theorem eligible_single {s : State} {x : Cand} {k : SlotIx} {j : Job} {c : Conv} (members : x.members = [k])
    (job : s.job k = some j) (ready : j.state = .ready) (serves : s.stationServes j.station = true)
    (head : s.occupant j.head = none) (choice : s.choice j.head [] [] = some c) : s.eligible x = some [(k, c)] := by
  refine eligible_eq_some.2 ⟨fun m hm => ?_, ?_⟩
  · rw [members, List.mem_singleton] at hm
    subst hm
    exact memberMay_iff.2 ⟨j, job, ready, serves, head⟩
  · rw [byHead_single members job, assign_cons, List.map_nil, choice]
    rfl

/-- The grant of the only candidate, of one member, is that of the member, and the rest of the machine stays. -/
theorem finish_grants_single {s : State} {x : Cand} {k : SlotIx} {j : Job} {c : Conv} (cause : s.arbCause = true)
    (cands : s.cands = [x]) (members : x.members = [k]) (slot : x.slot = k) (job : s.job k = some j)
    (ready : j.state = .ready) (serves : s.stationServes j.station = true) (head : s.occupant j.head = none)
    (choice : s.choice j.head [] [] = some c) (fits : s.committed + j.reservation ≤ s.budget) :
    ∃ u : State, u.Takes k c j ∧ finish s = scanSettle (grantMember u (k, c)) ∧
      u = { s with arbCause := false, arbSeq := s.arbSeq + 1, cands := [] } := by
  have eligible := eligible_single members job ready serves head choice
  have free : s.convFree c = true := (choice_free choice).1
  refine ⟨{ s with arbCause := false, arbSeq := s.arbSeq + 1, cands := [] }, ⟨job, ready, free, head⟩, ?_, rfl⟩
  rw [finish_grants_only cause cands eligible (by rwa [candReservation_single members job])]
  have emptied : s.arbitrating.dropCand x.slot =
      { s with arbCause := false, arbSeq := s.arbSeq + 1, cands := [] } := by
    unfold State.dropCand
    rw [show s.arbitrating.cands = [x] from cands, List.filter_singleton, members, slot]
    simp [State.arbitrating]
  unfold grant
  rw [emptied]
  rfl

/-! ## The choice of a pool converter -/

theorem find?_pools {f : Pool → Bool} {p : Pool} (holds : f p = true) (first : p = 0 ∨ f 0 = false) :
    ([0, 1] : List Pool).find? f = some p := by
  by_cases zero : p = 0
  · subst zero
    rw [List.find?_cons_of_pos holds]
  · have one : p = 1 := Fin.eq_one_of_ne_zero p zero
    subst one
    rw [List.find?_cons_of_neg (by simpa using first), List.find?_cons_of_pos holds]

theorem find?_pools_none {f : Pool → Bool} (fails : ∀ q, f q = false) : ([0, 1] : List Pool).find? f = none :=
  List.find?_eq_none.2 fun q _ => by simp [fails q]

theorem keptFor_nil (s : State) (p : Pool) : s.keptFor [] p = false := by
  unfold State.keptFor
  split <;> rfl

section
variable {s : State} {h : Head} {p : Pool} (available : s.poolAvailable h [] p = true)
include available

/-- A relay that is closed to the head is chosen first (R92). -/
theorem choosePool_closed (closed : (s.relay p).pos = .closed h) (other : (s.relay (otherPool p)).pos ≠ .closed h) :
    s.choosePool h [] [] = some p := by
  unfold State.choosePool
  dsimp only
  rw [find?_pools (p := p) (by simp [available, closed])]
  · rfl
  · by_cases zero : p = 0
    · exact .inl zero
    · rw [otherPool, if_neg zero] at other
      exact .inr (by simp [other])

/-- With no relay closed to the head an open one is chosen, C4 first (R92). -/
theorem choosePool_open (none_ : ∀ q, (s.relay q).pos ≠ .closed h) (open_ : (s.relay p).pos = .open)
    (first : p = 0 ∨ (s.relay 0).pos ≠ .open ∨ s.poolAvailable h [] 0 = false) : s.choosePool h [] [] = some p := by
  unfold State.choosePool
  dsimp only
  rw [find?_pools_none (fun q => by simp [none_ q]), find?_pools (p := p) (by simp [available, open_, keptFor_nil])]
  · rfl
  · refine first.imp_right fun other => ?_
    rcases other with away | taken
    · simp [away]
    · simp [taken]

/-- Otherwise the converter whose last output-off is earliest is chosen, C4 on a tie (R92). -/
theorem choosePool_earliest (none_ : ∀ q, (s.relay q).pos ≠ .closed h ∧ (s.relay q).pos ≠ .open)
    (earliest : s.poolAvailable h [] (otherPool p) = false ∨
      p = 0 ∧ (s.conv (poolConv p)).lastOffAt = (s.conv (poolConv (otherPool p))).lastOffAt ∨
      (s.conv (poolConv p)).lastOffAt < (s.conv (poolConv (otherPool p))).lastOffAt) :
    s.choosePool h [] [] = some p := by
  unfold State.choosePool
  dsimp only
  rw [find?_pools_none (fun q => by simp [(none_ q).1]), find?_pools_none (fun q => by simp [(none_ q).2])]
  change s.earliestOff (fun q => s.poolAvailable h [] q && !s.keptFor [] q) = some p
  unfold State.earliestOff
  simp only [keptFor_nil, Bool.not_false, Bool.and_true]
  by_cases zero : p = 0
  · subst zero
    have other : otherPool 0 = 1 := rfl
    rw [other] at earliest
    refine if_pos ?_
    rw [available, Bool.true_and, Bool.or_eq_true]
    rcases earliest with away | ⟨-, tie⟩ | sooner
    · exact .inl (by rw [away]; rfl)
    · exact .inr (decide_eq_true tie.le)
    · exact .inr (decide_eq_true sooner.le)
  · have one : p = 1 := Fin.eq_one_of_ne_zero p zero
    subst one
    have other : otherPool 1 = 0 := rfl
    rw [other] at earliest
    rw [if_neg, if_pos available]
    rcases earliest with away | ⟨zero', -⟩ | sooner
    · simp [away]
    · exact absurd zero' zero
    · simp [available, sooner]

end

end Sys2Proof.Machine
end

section
/-! PROOFS. An arbitration in RUN that grants: a fixed head, a pooled head, a gang, and the first eligible candidate of
a list. -/

namespace Sys2Proof.Machine

open State

theorem poolOf_fixedConv {h : Head} {c : Conv} (e : fixedConv h = some c) : poolOf c = none := by
  unfold fixedConv at e
  split at e
  · next low =>
    obtain rfl := Option.some.inj e
    exact dif_neg (by simpa using low)
  · nomatch e

theorem enterSeeking_granting_relays {s : State} {k : SlotIx} {c : Conv} {j : Job} (h : s.job k = some j) :
    (enterSeeking c k (s.granting k c j)).relays = s.relays := by
  rw [enterSeeking_frame (granting_change (c := c) h).after]
  change (s.granting k c j).relays = s.relays
  rw [State.granting, modJob_relays, modConv_relays]

/-! ## A single job on a fixed head -/

/-- The grant of a single job on a fixed head, or on a pooled one whose relay is closed to it already (R91, R102). -/
theorem finish_grants_seeking {s : State} {x : Cand} {k : SlotIx} {j : Job} {c : Conv} (cause : s.arbCause = true)
    (cands : s.cands = [x]) (members : x.members = [k]) (slot : x.slot = k) (job : s.job k = some j)
    (ready : j.state = .ready) (serves : s.stationServes j.station = true) (head : s.occupant j.head = none)
    (choice : s.choice j.head [] [] = some c) (fits : s.committed + j.reservation ≤ s.budget)
    (at_ : ∀ p, poolOf c = some p → (s.relay p).pos = .closed j.head) :
    (finish s).job k = some { j with state := .seeking, converter := some c } ∧
    (finish s).conv c = { s.conv c with
      state := .seeking, served := some (s.handleOf k), outputOn := true,
      command := (s.head j.head).seekPower, drive := (s.head j.head).startFreq,
      tun := ⟨.seek, 0, 0, some (s.now + (s.head j.head).settle)⟩,
      eng := ⟨.watch, none, .stopped, 0, false⟩, nextSample := some (s.now + 1) } ∧
    (finish s).relays = s.relays ∧ ((s.head j.head).guardEnable = true → j.head ∈ (finish s).scanSet) := by
  obtain ⟨u, takes, finished, same⟩ :=
    finish_grants_single cause cands members slot job ready serves head choice fits
  have granted : grantMember u (k, c) = enterSeeking c k (u.granting k c j) :=
    grantMember_seeks takes (by rw [same]; exact at_)
  rw [finished, granted]
  refine ⟨?_, ?_, ?_, fun guarded => ?_⟩
  · rw [scanSettle_job, enterSeeking_granting_job takes.job]
  · rw [scanSettle_conv, enterSeeking_granting_conv takes.job, same]
    rfl
  · rw [(scanSettle_sameGrants _).1.2.2.2, enterSeeking_granting_relays takes.job, same]
  · rw [scanSettle_only]
    refine (mem_scanSet_enterSeeking (granting_change takes.job).after j.head).2 (.inr ⟨rfl, ?_⟩)
    rw [same]
    exact guarded

/-- What the grant of a single job takes and leaves, whichever course it takes (R83, R91). -/
theorem finish_grants_one {s : State} {x : Cand} {k : SlotIx} {j : Job} {c : Conv} (cause : s.arbCause = true)
    (cands : s.cands = [x]) (members : x.members = [k]) (slot : x.slot = k) (job : s.job k = some j)
    (ready : j.state = .ready) (serves : s.stationServes j.station = true) (head : s.occupant j.head = none)
    (choice : s.choice j.head [] [] = some c) (fits : s.committed + j.reservation ≤ s.budget) :
    (finish s).cands = [] ∧ (finish s).committed = s.committed + j.reservation ∧
    (∀ d, d ≠ c → (finish s).conv d = s.conv d) ∧ (∀ m, m ≠ k → (finish s).slot m = s.slot m) := by
  obtain ⟨u, takes, finished, same⟩ :=
    finish_grants_single cause cands members slot job ready serves head choice fits
  obtain ⟨⟨convs, slots, committed, -⟩, left⟩ := scanSettle_sameGrants (grantMember u (k, c))
  rw [finished]
  refine ⟨?_, ?_, fun d other => ?_, fun m other => ?_⟩
  · rw [left, grantMember_cands, same]
  · rw [committed, grantMember_committed takes.job takes.ready takes.free takes.head, same]
  · rw [scanSettle_conv, grantMember_conv_ne other.symm, same]
    rfl
  · rw [State.slot, slots]
    exact (grantMember_slot_ne u (k, c) other).trans (by rw [same]; rfl)

/-! ## A single job on a pooled head -/

theorem matrixTry_planned_relay_ne {s : State} {k : SlotIx} {p q : Pool} {j : Job} (other : q ≠ p) :
    (matrixTry p (s.planned k p j)).relay q = s.relay q := by
  rw [matrixTry_relay_ne other.symm, State.planned, relay_modRelay_ne _ other.symm]
  rfl

/-- The grant of a single job on a pooled head leaves the other relay as it is. -/
theorem finish_grants_relay_ne {s : State} {x : Cand} {k : SlotIx} {j : Job} {p q : Pool} (cause : s.arbCause = true)
    (cands : s.cands = [x]) (members : x.members = [k]) (slot : x.slot = k) (job : s.job k = some j)
    (ready : j.state = .ready) (serves : s.stationServes j.station = true) (head : s.occupant j.head = none)
    (choice : s.choice j.head [] [] = some (poolConv p)) (fits : s.committed + j.reservation ≤ s.budget)
    (other : q ≠ p) : (finish s).relay q = s.relay q := by
  obtain ⟨u, takes, finished, same⟩ :=
    finish_grants_single cause cands members slot job ready serves head choice fits
  have relay : u.relay q = s.relay q := by rw [same]; rfl
  rw [finished, State.relay, (scanSettle_sameGrants _).1.2.2.2, ← relay]
  by_cases at_ : (u.relay p).pos = .closed j.head
  · rw [grantMember_seeks takes (by rw [poolOf_poolConv]; rintro _ ⟨⟩; exact at_), enterSeeking_granting_relays takes.job]
    rfl
  · rw [grantMember_connects takes at_]
    exact matrixTry_planned_relay_ne other

section
variable {s : State} {k : SlotIx} {p : Pool} {j : Job}

theorem connectPlan_ne_empty {r : Relay} {h : Head} (away : r.pos ≠ .closed h) : r.connectPlan h ≠ .empty := by
  unfold Relay.connectPlan
  split
  · nofun
  · next g at_ =>
    rw [if_neg (by rintro rfl; exact away at_)]
    nofun

theorem planned_readyAt : (s.planned k p j).relayReadyAt p = s.relayReadyAt p := by
  unfold State.relayReadyAt
  rw [planned_conv]

theorem planned_now : (s.planned k p j).now = s.now := by
  rw [State.planned, modRelay_now, State.connecting, modConv_now, modJob_now]
  exact modJob_now ..

theorem planned_relayHold : (s.planned k p j).relayHold = s.relayHold := by
  rw [State.planned, modRelay_relayHold, State.connecting, modConv_relayHold, modJob_relayHold]
  exact modJob_relayHold ..

/-- With the discharge interval over the first motion of the plan starts (R36, R38). -/
theorem planned_moves (may : s.MayMove p) (away : (s.relay p).pos ≠ .closed j.head) :
    (matrixTry p (s.planned k p j)).relay p =
      { s.relay p with plan := (s.relay p).connectPlan j.head }.startMotion s.now := by
  have moves : (s.planned k p j).MayMove p :=
    ⟨by rw [planned_relayHold]; exact may.hold, by rw [planned_relay]; exact may.rest,
      by rw [planned_conv]; exact may.off, by rw [planned_readyAt, planned_now]; exact may.waited⟩
  rw [matrixTry_of_mayMove moves (by rw [planned_relay]; exact connectPlan_ne_empty away), relay_setRelay_self,
    planned_relay, planned_now]

/-- Before the end of the discharge interval the plan waits for that end (R36). -/
theorem planned_waits (hold : s.relayHold = none) (rest : (s.relay p).motion = .none)
    (off : (s.conv (poolConv p)).outputOn = false) (early : s.now < s.relayReadyAt p)
    (away : (s.relay p).pos ≠ .closed j.head) : (matrixTry p (s.planned k p j)).relay p =
      { s.relay p with plan := (s.relay p).connectPlan j.head, condTimer := some (s.relayReadyAt p) } := by
  rw [matrixTry_waits (by rw [planned_relayHold]; exact hold) (by rw [planned_relay]; exact rest)
    (by rw [planned_relay]; exact connectPlan_ne_empty away) (by rw [planned_conv]; exact off)
    (by rw [planned_readyAt, planned_now]; exact early), relay_setRelay_self, planned_relay, planned_readyAt]

end

/-- The grant of a single job on a pooled head whose relay is elsewhere: job and converter wait in CONNECTING for the
plan, whose first motion starts or waits for the end of the discharge interval (R38). -/
theorem finish_grants_connecting {s : State} {x : Cand} {k : SlotIx} {j : Job} {p : Pool} (cause : s.arbCause = true)
    (cands : s.cands = [x]) (members : x.members = [k]) (slot : x.slot = k) (job : s.job k = some j)
    (ready : j.state = .ready) (serves : s.stationServes j.station = true) (head : s.occupant j.head = none)
    (choice : s.choice j.head [] [] = some (poolConv p)) (fits : s.committed + j.reservation ≤ s.budget)
    (away : (s.relay p).pos ≠ .closed j.head) :
    (finish s).job k = some { j with state := .connecting, converter := some (poolConv p) } ∧
    (finish s).conv (poolConv p) = { s.conv (poolConv p) with
      state := .connecting, served := some (s.handleOf k), drive := (s.head j.head).nominal } ∧
    (s.MayMove p → (finish s).relay p =
      { s.relay p with plan := (s.relay p).connectPlan j.head }.startMotion s.now) ∧
    (s.relayHold = none → (s.relay p).motion = .none → (s.conv (poolConv p)).outputOn = false →
      s.now < s.relayReadyAt p → (finish s).relay p =
        { s.relay p with plan := (s.relay p).connectPlan j.head, condTimer := some (s.relayReadyAt p) }) := by
  obtain ⟨u, takes, finished, same⟩ :=
    finish_grants_single cause cands members slot job ready serves head choice fits
  have off : (u.relay p).pos ≠ .closed j.head := by rwa [same]
  have relay : (finish s).relay p = (matrixTry p (u.planned k p j)).relay p := by
    rw [finished, grantMember_connects takes off, State.relay, (scanSettle_sameGrants _).1.2.2.2]
    rfl
  rw [relay, finished, grantMember_connects takes off]
  refine ⟨?_, ?_, fun may => ?_, fun hold rest dark early => ?_⟩
  · rw [scanSettle_job, matrixTry_job, planned_job takes.job]
  · rw [scanSettle_conv, matrixTry_conv, planned_conv, same]
    rfl
  · have moves : u.MayMove p := by
      rw [same]
      exact ⟨may.hold, may.rest, may.off, may.waited⟩
    rw [planned_moves moves off, same]
    rfl
  · rw [same] at off ⊢
    exact planned_waits hold rest dark early off

/-! ## The obligation -/

/-- Settles O53: the walk with one candidate that fits is the grant of its members, each of which takes its converter at
once or waits in CONNECTING for the relay; the choice of a pool converter is taken step by step. -/
theorem grantGivesConverter : Obligations.GrantGivesConverter := by
  unfold Obligations.GrantGivesConverter
  refine ⟨⟨?fixed, fun s h p available => ⟨choosePool_closed available, choosePool_open available,
    choosePool_earliest available⟩⟩, ?pooled, ?gang, ?first⟩
  case fixed =>
    intro s x k j c cause cands members slot job ready serves fixed free head fits
    have choice : s.choice j.head [] [] = some c := by rw [choice_fixed fixed, if_pos (by simp [free])]
    obtain ⟨left, committed, convs, slots⟩ :=
      finish_grants_one cause cands members slot job ready serves head choice fits
    obtain ⟨after, conv, relays, scan⟩ := finish_grants_seeking cause cands members slot job ready serves head choice fits
      (by rw [poolOf_fixedConv fixed]; nofun)
    exact ⟨left, committed, after, conv, convs, slots, relays, scan⟩
  case pooled =>
    intro s x k j p cause cands members slot job ready serves pooled chosen head fits
    have choice : s.choice j.head [] [] = some (poolConv p) := by rw [choice_pooled pooled, chosen]; rfl
    obtain ⟨left, committed, convs, slots⟩ :=
      finish_grants_one cause cands members slot job ready serves head choice fits
    refine ⟨left, committed, convs, slots,
      fun q => finish_grants_relay_ne cause cands members slot job ready serves head choice fits, fun at_ => ?_, fun away => ?_⟩
    · obtain ⟨after, conv, relays, -⟩ := finish_grants_seeking cause cands members slot job ready serves head choice fits
        (by rw [poolOf_poolConv]; rintro _ ⟨⟩; exact at_)
      exact ⟨after, by rw [conv], by rw [conv], by rw [State.relay, relays]; rfl⟩
    · obtain ⟨after, conv, moves, waits⟩ :=
        finish_grants_connecting cause cands members slot job ready serves head choice fits away
      refine ⟨after, conv, fun may at_ => ?_, fun g may at_ => ?_, fun hold rest dark early => ?_⟩
      · exact (moves may).trans (startMotion_of_close (h := j.head) (.inl (by simp only [Relay.connectPlan, at_])) _)
      · have other : g ≠ j.head := by rintro rfl; exact away at_
        have plan : (s.relay p).connectPlan j.head = .openThenClose j.head := by
          simp only [Relay.connectPlan, at_, if_neg other]
        exact (moves may).trans (startMotion_of_openThenClose
          (r := { s.relay p with plan := (s.relay p).connectPlan j.head }) plan at_ _)
      · rw [waits hold rest dark early]
        exact ⟨rest, rfl, rfl⟩
  case gang =>
    intro s x given cause cands member nodup heads eligible fits
    obtain ⟨committed, granted⟩ := grant_given (s := s.arbitrating) nodup heads ((eligible_arbitrating s x).trans eligible)
    obtain ⟨-, -, distinct⟩ := assign_spec (eligible_eq_some.1 eligible).2
    obtain ⟨kept, left⟩ := scanSettle_sameGrants (grant x given s.arbitrating)
    rw [finish_grants_only cause cands eligible fits]
    refine ⟨left.trans (grant_only_cands cands member), kept.2.2.1.trans committed, fun m hm => ?_⟩
    obtain ⟨c, mem, j, hj, after, served, -⟩ := granted m hm
    refine ⟨j, c, hj, mem, fun n d mem' other same => ?_, ?_, ?_⟩
    · exact other (congrArg Prod.fst (List.inj_on_of_nodup_map distinct mem' mem same))
    · rw [scanSettle_job]
      exact after
    · rw [scanSettle_conv]
      exact served
  case first =>
    intro s pre rest x given cause cands pass member nodup heads eligible fits
    obtain ⟨committed, granted⟩ := grant_given (s := s.arbitrating) nodup heads ((eligible_arbitrating s x).trans eligible)
    obtain ⟨kept, left⟩ := scanSettle_sameGrants (walk rest (grant x given s.arbitrating))
    rw [finish_grants_first cause cands pass eligible fits]
    refine ⟨fun y hy mem => ?_, ?_, fun m hm => ?_⟩
    · rw [left] at hy
      have before := walk_cands_subset _ _ hy
      rw [grant_cands, List.mem_filter] at before
      simp [mem] at before
    · rw [kept.2.2.1]
      exact committed.ge.trans (walk_committed_ge ..)
    · obtain ⟨c, mem, given_⟩ := granted m hm
      obtain ⟨j, hj, after, served, -⟩ := given_.keep (u := walk rest (grant x given s.arbitrating))
        (fun k j hj hr => walk_job_keep hj hr rest) fun c hc => walk_conv_busy hc rest
      rw [scanSettle_job]
      exact ⟨j, c, hj, mem, after, by rw [scanSettle_conv]; exact served⟩

end Sys2Proof.Machine
end

section
/-! PROOFS. The ends of discharge and of warm-up: what a converter resolves to (R23, R25, R26). -/

namespace Sys2Proof.Machine

open State

/-! ## Resolution -/

section
variable {s t u : State} {c : Conv}

theorem resolveConv_of_faulted (h : (s.conv c).pend = .faulted) : resolveConv c s = enterFaulted c s := by
  rw [resolveConv, h]

theorem resolveConv_of_held (h : (s.conv c).pend = .held) : resolveConv c s = enterHeld c s := by
  rw [resolveConv, h]

theorem resolveConv_of_off (h : (s.conv c).pend = .off) (unwanted : wantsService c s = false) :
    resolveConv c s = enterOff c s := by
  rw [resolveConv, h]
  exact if_neg (by simp [unwanted])

theorem resolveConv_of_idle (h : (s.conv c).pend = .none ∨ (s.conv c).pend = .off ∧ wantsService c s = true) :
    resolveConv c s = enterIdle c s := by
  rcases h with h | ⟨h, wanted⟩ <;> rw [resolveConv, h]
  exact if_pos wanted

theorem wantsService_eq_false : wantsService c s = false ↔ (s.conv c).enabled = false ∨ s.mode = .standby := by
  unfold wantsService
  simp only [Bool.and_eq_false_iff, bne_eq_false_iff_eq]

theorem wantsService_eq_true : wantsService c s = true ↔ (s.conv c).enabled = true ∧ s.mode ≠ .standby := by
  unfold wantsService
  simp only [Bool.and_eq_true, bne_iff_ne]

/-- A resolution goes where the pending target says (R25). -/
theorem resolveConv_resolved (c : Conv) (s : State) : s.Resolved (resolveConv c s) c where
  faulted h := by
    rw [resolveConv_of_faulted h, enterFaulted_conv]
    exact ⟨rfl, rfl⟩
  held h := by
    rw [resolveConv_of_held h, enterHeld_conv]
    exact ⟨rfl, rfl⟩
  off h unwanted := by
    have no := wantsService_eq_false.2 unwanted
    rw [resolveConv_of_off h no, enterOff_conv, no]
    exact ⟨rfl, rfl⟩
  idle h _ := by
    rw [resolveConv_of_idle (h.imp_right fun x => ⟨x.1, wantsService_eq_true.2 x.2⟩), enterIdle_conv]
    exact ⟨rfl, rfl⟩

/-- What a resolution reads of the state before it is the pending target, the enabled flag and the mode. -/
theorem State.Resolved.of_before (h : u.Resolved t c) (pend : (u.conv c).pend = (s.conv c).pend)
    (enabled : (u.conv c).enabled = (s.conv c).enabled) (mode : u.mode = s.mode) : s.Resolved t c := by
  obtain ⟨faulted, held, off, idle⟩ := h
  rw [pend] at faulted held
  rw [pend, enabled, mode] at off idle
  exact ⟨faulted, held, off, idle⟩

theorem State.Resolved.of_after (h : s.Resolved t c) (conv : u.conv c = t.conv c) : s.Resolved u c := by
  obtain ⟨faulted, held, off, idle⟩ := h
  rw [← conv] at faulted held off idle
  exact ⟨faulted, held, off, idle⟩

/-- Outside RUN an arbitration leaves every converter as it is (R87). -/
theorem finish_conv_unserved (h : s.mode ≠ .run) (c : Conv) : (finish s).conv c = s.conv c := by
  have kept : s.SameGrants (finish s) :=
    finish_sameGrants (walk_unserved (s := s.arbitrating) (.inl h)) ⟨rfl, rfl, rfl, rfl⟩
  rw [State.conv, kept.1]
  rfl

/-- The arbitration of the event takes a converter out of IDLE alone, and in RUN alone. -/
theorem State.Resolved.finish (h : s.Resolved t c) (mode : t.mode = s.mode) : s.Resolved (finish t) c where
  faulted e := by
    obtain ⟨state, pend⟩ := h.faulted e
    rw [finish_conv_busy (by rw [state]; nofun)]
    exact ⟨state, pend⟩
  held e := by
    obtain ⟨state, pend⟩ := h.held e
    rw [finish_conv_busy (by rw [state]; nofun)]
    exact ⟨state, pend⟩
  off e x := by
    obtain ⟨state, pend⟩ := h.off e x
    rw [finish_conv_busy (by rw [state]; nofun)]
    exact ⟨state, pend⟩
  idle e run := by
    rw [finish_conv_unserved (by rwa [mode])]
    exact h.idle e run

theorem resolveConv_mode (c : Conv) (s : State) : (resolveConv c s).mode = s.mode :=
  (resolveConv_settings (SameSettings.refl s)).line.1

/-- A resolved converter keeps what it was resolved to at the end of the event, unless an arbitration grants it. -/
theorem finish_resolveConv (pend : (u.conv c).pend = (s.conv c).pend) (enabled : (u.conv c).enabled = (s.conv c).enabled)
    (mode : u.mode = s.mode) : s.Resolved (finish (resolveConv c u)) c :=
  ((resolveConv_resolved c u).of_before pend enabled mode).finish ((resolveConv_mode c u).trans mode)

/-- Entry into IDLE from elsewhere than WARMUP and HELD posts nothing. -/
theorem enterIdle_silent (h : (s.conv c).state ≠ .warmup ∧ (s.conv c).state ≠ .held) :
    enterIdle c s = (s.setConv c { s.conv c with state := .idle, pend := .none }).raise := by
  unfold enterIdle
  dsimp only
  rw [if_neg (by tauto)]
  rfl

/-! ## The ends of discharge and of warm-up -/

/-- A timer that is not due yet. -/
theorem due_of_lt {e : Nat} {x : Option Nat} (timer : x = some e) (early : s.now < e) : s.due x = false := by
  rw [timer]
  exact decide_eq_false (Nat.not_le.2 early)

variable {e : Nat}

theorem exec_dischargeEnd_early (timer : (s.conv c).dischTimer = some e) (early : s.now < e) (settled : s.Settled) :
    exec (.dischargeEnd c) s = .next s := by
  refine (congrArg done (if_neg ?_)).trans (congrArg _ (finish_of_settled settled))
  rw [due_of_lt timer early]
  nofun

theorem exec_dischargeEnd_due (state : (s.conv c).state = .discharge) (timer : (s.conv c).dischTimer = some e)
    (time : e ≤ s.now) : exec (.dischargeEnd c) s =
      .next (finish (resolveConv c (s.setConv c { s.conv c with dischTimer := none }))) :=
  congrArg done (if_pos ⟨state, due_of_le timer time⟩)

theorem exec_warmupEnd_early (timer : (s.conv c).warmTimer = some e) (early : s.now < e) (settled : s.Settled) :
    exec (.warmupEnd c) s = .next s := by
  refine (congrArg done (if_neg ?_)).trans (congrArg _ (finish_of_settled settled))
  rw [due_of_lt timer early]
  nofun

/-- The state in which the end of a warm-up is decided: its timer has run. -/
def State.warmed (s : State) (c : Conv) : State := s.setConv c { s.conv c with warmTimer := none }

theorem exec_warmupEnd_due (state : (s.conv c).state = .warmup) (timer : (s.conv c).warmTimer = some e)
    (time : e ≤ s.now) : exec (.warmupEnd c) s = .next (finish (warmupCheck c (s.warmed c))) :=
  congrArg done (if_pos ⟨state, due_of_le timer time⟩)

theorem warmed_conv : (s.warmed c).conv c = { s.conv c with warmTimer := none } := conv_setConv_self ..

theorem warmupMayEnd_warmed : warmupMayEnd c (s.warmed c) = warmupMayEnd c s := rfl

theorem warmupCheck_may (state : (s.conv c).state = .warmup) (ran : (s.conv c).warmTimer = none)
    (may : warmupMayEnd c s = true) : warmupCheck c s = endWarmup c s := if_pos ⟨state, ran, may⟩

theorem warmupCheck_waits (wait : warmupMayEnd c s = false) : warmupCheck c s = s :=
  if_neg fun h => absurd (h.2.2.symm.trans wait) nofun

/-- A power-stage input that is on at the end of warm-up takes the converter to FAULTED (R23). -/
theorem endWarmup_faults {f : FaultCause} (first : (s.conv c).pins.firstFault = some f) :
    ((endWarmup c s).conv c).state = .faulted ∧ ((endWarmup c s).conv c).cause = f := by
  rw [endWarmup, first]
  dsimp only
  rw [enterFaulted_conv, conv_modConv_self]
  exact ⟨rfl, rfl⟩

theorem endWarmup_resolves (first : (s.conv c).pins.firstFault = none) : endWarmup c s = resolveConv c s := by
  rw [endWarmup, first]

/-- The end of a warm-up that may end. -/
theorem exec_warmupEnd_ends (state : (s.conv c).state = .warmup) (timer : (s.conv c).warmTimer = some e)
    (time : e ≤ s.now) (may : warmupMayEnd c s = true) :
    exec (.warmupEnd c) s = .next (finish (endWarmup c (s.warmed c))) := by
  rw [exec_warmupEnd_due state timer time,
    warmupCheck_may (by rw [warmed_conv]; exact state) (by rw [warmed_conv]) (warmupMayEnd_warmed.trans may)]

/-- A warm-up that ends with a power-stage input on. -/
theorem exec_warmupEnd_faults {f : FaultCause} (state : (s.conv c).state = .warmup)
    (timer : (s.conv c).warmTimer = some e) (time : e ≤ s.now) (may : warmupMayEnd c s = true)
    (first : (s.conv c).pins.firstFault = some f) : ∃ t, exec (.warmupEnd c) s = .next t ∧
      (t.conv c).state = .faulted ∧ (t.conv c).cause = f := by
  have faults := endWarmup_faults (s := s.warmed c) (c := c) (f := f) (by rw [warmed_conv]; exact first)
  refine ⟨_, exec_warmupEnd_ends state timer time may, ?_⟩
  rw [finish_conv_busy (by rw [faults.1]; nofun)]
  exact faults

/-- A warm-up that ends with the power-stage inputs off. -/
theorem exec_warmupEnd_resolves (state : (s.conv c).state = .warmup) (timer : (s.conv c).warmTimer = some e)
    (time : e ≤ s.now) (may : warmupMayEnd c s = true) (clear : (s.conv c).pins.firstFault = none) :
    exec (.warmupEnd c) s = .next (finish (resolveConv c (s.warmed c))) := by
  rw [exec_warmupEnd_ends state timer time may, endWarmup_resolves (by rw [warmed_conv]; exact clear)]

end

/-- Settles O41: by the timer, the power-stage inputs and the pending target. -/
theorem convertersResolve : Obligations.ConvertersResolve := by
  unfold Obligations.ConvertersResolve
  refine ⟨fun s c e state timer => ⟨fun early settled => exec_dischargeEnd_early timer early settled, fun time => ?_⟩,
    fun s c e state timer time may => ?_, fun s c e settled state timer => ⟨fun early => exec_warmupEnd_early timer early settled,
      fun time wait => ?_⟩⟩
  · have run := exec_dischargeEnd_due state timer time
    have conv : (s.setConv c { s.conv c with dischTimer := none }).conv c = { s.conv c with dischTimer := none } :=
      conv_setConv_self ..
    have resolved : s.Resolved (finish (resolveConv c (s.setConv c { s.conv c with dischTimer := none }))) c :=
      finish_resolveConv (by rw [conv]) (by rw [conv]) rfl
    refine ⟨fun pend => ⟨_, run, resolved.faulted pend⟩, fun pend => ⟨_, run, resolved.held pend⟩,
      fun pend unwanted => ⟨_, run, resolved.off pend unwanted⟩, fun idle => ?_⟩
    rw [run, resolveConv_of_idle, enterIdle_silent, conv, setConv_setConv]
    · rw [conv]
      exact ⟨by rw [state]; nofun, by rw [state]; nofun⟩
    · rw [wantsService_eq_true, conv]
      exact idle
  · refine ⟨fun over_ => ?_, fun over_ low => ?_, fun pins => ?_, fun pins pend => ?_, fun pins => ?_⟩
    · exact exec_warmupEnd_faults state timer time may (by rw [PowerPins.firstFault, over_]; rfl)
    · exact exec_warmupEnd_faults state timer time may (by rw [PowerPins.firstFault, over_, low]; rfl)
    · exact exec_warmupEnd_faults state timer time may (by rw [pins]; rfl)
    · rw [exec_warmupEnd_resolves state timer time may (by rw [pins]; rfl),
        resolveConv_of_idle (.inl (by rw [warmed_conv]; exact pend)),
        enterIdle_posts (.inl (by rw [warmed_conv]; exact state)), warmed_conv, State.warmed, setConv_setConv]
    · exact ⟨_, exec_warmupEnd_resolves state timer time may (by rw [pins]; rfl),
        finish_resolveConv (by rw [warmed_conv]) (by rw [warmed_conv]) rfl⟩
  · rw [exec_warmupEnd_due state timer time, warmupCheck_waits (warmupMayEnd_warmed.trans wait)]
    exact congrArg _ (finish_of_settled (settled.setConv c _))

end Sys2Proof.Machine
end

section
/-! PROOFS. Relay motions: what an opening and a closing complete, and what a withdrawn connection resolves to at the end
of a motion (R36, R38 to R40). -/

namespace Sys2Proof.Machine

open State

/-! ## Marks of a relay that motions and grants leave -/

theorem startMotion_openingDue (r : Relay) (now : Nat) : (r.startMotion now).openingDue = r.openingDue := by
  unfold Relay.startMotion
  split <;> rfl

theorem matrixTry_openingDue (p q : Pool) (s : State) : ((matrixTry p s).relay q).openingDue = (s.relay q).openingDue := by
  unfold matrixTry
  split
  · rfl
  · dsimp only
    split <;> rw [relay_modRelay] <;> split
    · next same =>
      subst same
      exact startMotion_openingDue ..
    · rfl
    · next same =>
      subst same
      rfl
    · rfl

theorem grantMember_openingDue (x : SlotIx × Conv) (q : Pool) (s : State) :
    ((grantMember s x).relay q).openingDue = (s.relay q).openingDue := by
  rcases grantMember_cases s x with same | ⟨j, h, ready, free, head⟩
  · rw [same]
  · rcases grantMember_course ⟨h, ready, free, head⟩ with e | ⟨p, -, e⟩ <;> rw [e]
    · rw [State.relay, enterSeeking_granting_relays h]
      rfl
    · rw [matrixTry_openingDue, State.planned, relay_modRelay]
      split
      · next same =>
        subst same
        rfl
      · rfl

theorem walk_openingDue (l : List Cand) (q : Pool) (s : State) :
    ((walk l s).relay q).openingDue = (s.relay q).openingDue := by
  have fold : ∀ (g : List (SlotIx × Conv)) (u : State),
      ((g.foldl grantMember u).relay q).openingDue = (u.relay q).openingDue := by
    intro g
    induction g with
    | nil => exact fun _ => rfl
    | cons x g ih => exact fun u => (ih _).trans (grantMember_openingDue x q u)
  induction l generalizing s with
  | nil => rfl
  | cons x l ih =>
    unfold walk
    split
    · exact ih s
    · split
      · next given _ _ => exact (ih _).trans (fold given (s.dropCand x.slot))
      · rfl

theorem finish_openingDue (q : Pool) (s : State) : ((finish s).relay q).openingDue = (s.relay q).openingDue := by
  unfold finish
  rw [State.relay, (scanSettle_sameGrants _).1.2.2.2]
  split
  · exact walk_openingDue s.cands q s.arbitrating
  · rfl

theorem disconnect_pos (c : Conv) (q : Pool) (s : State) : ((disconnect c s).relay q).pos = (s.relay q).pos := by
  unfold disconnect
  split
  · rfl
  · rw [matrixTry_pos, relay_modRelay]
    split
    · next same =>
      subst same
      unfold Relay.disconnect
      split <;> simp_all
    · rfl

/-- A resolution changes the position of no relay. -/
theorem resolveConv_pos (c : Conv) (q : Pool) (s : State) : ((resolveConv c s).relay q).pos = (s.relay q).pos := by
  unfold resolveConv
  split
  · exact disconnect_pos ..
  · split
    · rw [enterIdle_relay]
    · rw [enterOff_relay]
      exact disconnect_pos ..
  · exact disconnect_pos ..
  · rw [enterIdle_relay]

/-! ## A relay that has opened -/

/-- The relay is open and at rest with nothing planned, and the event that opened it has caused an arbitration. -/
structure State.OpenAt (s : State) (p : Pool) (n : Nat) : Prop where
  pos : (s.relay p).pos = .open
  rest : (s.relay p).motion = .none
  plan : (s.relay p).plan = .empty
  due : (s.relay p).openingDue = false
  count : s.arbSeq = n
  cause : s.arbCause = true

section
variable {s : State} {p : Pool} {n : Nat}

/-- A disconnect finds nothing to open (R37). -/
theorem State.OpenAt.disconnect (h : s.OpenAt p n) (c : Conv) : (Machine.disconnect c s).OpenAt p n := by
  have relay : ((Machine.disconnect c s).relay p).pos = .open ∧ ((Machine.disconnect c s).relay p).motion = .none ∧
      ((Machine.disconnect c s).relay p).plan = .empty ∧ ((Machine.disconnect c s).relay p).openingDue = false := by
    by_cases own : poolOf c = some p
    · rw [(disconnect_spec own s).opened h.pos h.rest]
      exact ⟨h.pos, h.rest, rfl, h.due⟩
    · rw [disconnect_relay_ne own]
      exact ⟨h.pos, h.rest, h.plan, h.due⟩
  obtain ⟨pos, rest, plan, due⟩ := relay
  exact ⟨pos, rest, plan, due, by rw [disconnect_only]; exact h.count, by rw [disconnect_only]; exact h.cause⟩

/-- What stays as it is for an opened relay: relays, the count and the cause of arbitrations. -/
theorem State.OpenAt.fields {t : State} (h : s.OpenAt p n) (relays : t.relays = s.relays := by exact rfl)
    (count : t.arbSeq = s.arbSeq := by exact rfl) (cause : t.arbCause = s.arbCause := by exact rfl) : t.OpenAt p n := by
  have relay : t.relay p = s.relay p := by rw [State.relay, relays]; rfl
  exact ⟨by rw [relay, h.pos], by rw [relay, h.rest], by rw [relay, h.plan], by rw [relay, h.due], by rw [count, h.count],
    by rw [cause, h.cause]⟩

theorem State.OpenAt.enterOff (h : s.OpenAt p n) (c : Conv) : (Machine.enterOff c s).OpenAt p n := by
  have off := (h.fields (t := s.modConv c fun v => { v with state := .off, pend := .none, warmTimer := none })).disconnect c
  unfold Machine.enterOff
  dsimp only
  split
  · exact off.fields
  · exact off

theorem State.OpenAt.enterFaulted (h : s.OpenAt p n) (c : Conv) : (Machine.enterFaulted c s).OpenAt p n :=
  h.fields.disconnect c

theorem State.OpenAt.enterIdle (h : s.OpenAt p n) (c : Conv) : (Machine.enterIdle c s).OpenAt p n := by
  unfold Machine.enterIdle
  dsimp only
  split
  · exact ⟨h.pos, h.rest, h.plan, h.due, h.count, rfl⟩
  · exact ⟨h.pos, h.rest, h.plan, h.due, h.count, rfl⟩

theorem State.OpenAt.resolveConv (h : s.OpenAt p n) (c : Conv) : (Machine.resolveConv c s).OpenAt p n := by
  unfold Machine.resolveConv
  split
  · exact h.enterFaulted c
  · split
    · exact h.enterIdle c
    · exact h.enterOff c
  · exact h.fields.disconnect c
  · exact h.enterIdle c

theorem State.OpenAt.connectionCheck (h : s.OpenAt p n) (c : Conv) : (Machine.connectionCheck c s).OpenAt p n := by
  unfold Machine.connectionCheck
  split
  · exact h.resolveConv c
  · exact h

theorem State.OpenAt.warmupCheck (h : s.OpenAt p n) (c : Conv) : (Machine.warmupCheck c s).OpenAt p n := by
  unfold Machine.warmupCheck endWarmup
  split
  · split
    · exact h.fields.enterFaulted c
    · exact h.resolveConv c
  · exact h

end

/-! ## Completion of a motion -/

section
variable {s : State} {p : Pool} {g h : Head} {e : Nat}

theorem exec_relayOpeningComplete_due (motion : (s.relay p).motion = .opening g e) (time : e ≤ s.now) :
    exec (.relayOpeningComplete p) s = .next (finish (openingDone p s)) := by
  change execRelayOpeningComplete p s = _
  unfold execRelayOpeningComplete
  rw [motion]
  exact congrArg done (if_pos time)

theorem exec_relayClosingComplete_due (motion : (s.relay p).motion = .closing h e) (time : e ≤ s.now) :
    exec (.relayClosingComplete p) s = .next (finish (closingDone p h s)) := by
  change execRelayClosingComplete p s = _
  unfold execRelayClosingComplete
  rw [motion]
  exact congrArg done (if_pos time)

/-- A condition timer that is due lets the matrix look at the relay again (R36). -/
theorem exec_relayConditionTimer_due (timer : (s.relay p).condTimer = some e) (time : e ≤ s.now) :
    exec (.relayConditionTimer p) s =
      .next (finish (matrixTry p (s.setRelay p { s.relay p with condTimer := none }))) :=
  congrArg done (if_pos (due_of_le timer time))

theorem setRelay_setRelay (v w : Relay) : (s.setRelay p v).setRelay p w = s.setRelay p w := by
  simp only [setRelay, Vector.set_set]

theorem State.Settled.setRelay (settled : s.Settled) (q : Pool) (v : Relay) : (s.setRelay q v).Settled :=
  ⟨settled.noCause, settled.scanner⟩

/-- The relay has opened, and the rest of its plan is still to start. -/
def State.opened (s : State) (p : Pool) : State :=
  s.setRelay p { s.relay p with pos := .open, motion := .none, openingDue := false }

/-- The relay has closed, and the rest of its plan is still to start. -/
def State.closed (s : State) (p : Pool) (h : Head) : State :=
  s.setRelay p { s.relay p with pos := .closed h, motion := .none, lastClose := some s.now }

theorem opened_relay : (s.opened p).relay p = { s.relay p with pos := .open, motion := .none, openingDue := false } :=
  relay_setRelay_self ..

theorem closed_relay : (s.closed p h).relay p =
    { s.relay p with pos := .closed h, motion := .none, lastClose := some s.now } := relay_setRelay_self ..

theorem openingDone_eq : openingDone p s =
    warmupCheck (poolConv p) (connectionCheck (poolConv p) (matrixTry p (s.opened p)).raise) := rfl

theorem matrixTry_opened_of_empty (plan : (s.relay p).plan = .empty) : matrixTry p (s.opened p) = s.opened p :=
  matrixTry_stays (.inl (by rw [opened_relay]; exact plan))

/-- An opening that completes with nothing planned leaves the relay open and causes an arbitration (R36, R40). -/
theorem openingDone_openAt (plan : (s.relay p).plan = .empty) : (openingDone p s).OpenAt p s.arbSeq := by
  rw [openingDone_eq, matrixTry_opened_of_empty plan]
  have start : (s.opened p).raise.OpenAt p s.arbSeq := by
    have relay : (s.opened p).raise.relay p =
      { s.relay p with pos := .open, motion := .none, openingDue := false } := opened_relay
    exact ⟨by rw [relay], by rw [relay], by rw [relay]; exact plan, by rw [relay], rfl, rfl⟩
  exact (start.connectionCheck _).warmupCheck _

theorem relayAtRest_poolConv {u : State} : relayAtRest (poolConv p) u = true ↔
    (u.relay p).motion = .none ∧ (u.relay p).plan = .empty := by
  unfold relayAtRest
  rw [poolOf_poolConv]
  simp

/-- A connection without a served job, its relay at rest, is resolved (R38). -/
theorem connectionCheck_resolves {u : State} (state : (u.conv (poolConv p)).state = .connecting)
    (served : (u.conv (poolConv p)).served = none) (motion : (u.relay p).motion = .none)
    (plan : (u.relay p).plan = .empty) : connectionCheck (poolConv p) u = resolveConv (poolConv p) u :=
  if_pos ⟨state, served, relayAtRest_poolConv.2 ⟨motion, plan⟩⟩

theorem connectionCheck_served {u : State} {c : Conv} (served : (u.conv c).served ≠ none) :
    connectionCheck c u = u := if_neg fun x => served x.2.1

theorem warmupCheck_other {u : State} {c : Conv} (state : (u.conv c).state ≠ .warmup) : warmupCheck c u = u :=
  if_neg fun x => state x.1

/-- A resolution goes on to no warm-up: one that goes to OFF finds no service wanted (R23, R25). -/
theorem resolveConv_not_warmup (c : Conv) (u : State) : ((resolveConv c u).conv c).state ≠ .warmup := by
  unfold resolveConv
  split
  · rw [enterFaulted_conv]
    nofun
  · split
    · rw [enterIdle_conv]
      nofun
    · next unwanted =>
      rw [enterOff_conv, if_neg unwanted]
      nofun
  · rw [enterHeld_conv]
    nofun
  · rw [enterIdle_conv]
    nofun

theorem closingDone_without (h' : (s.closed p h).connectingJob (poolConv p) = none) :
    closingDone p h s = matrixTry p (connectionCheck (poolConv p) (s.closed p h)) := by
  unfold closingDone
  dsimp only
  split
  · next k found => exact absurd (h'.symm.trans found) nofun
  · rfl

theorem closingDone_with {k : SlotIx} (h' : (s.closed p h).connectingJob (poolConv p) = some k) :
    closingDone p h s = matrixTry p (enterSeeking (poolConv p) k (s.closed p h)) := by
  unfold closingDone
  dsimp only
  split
  · next m found =>
    obtain rfl := Option.some.inj (h'.symm.trans found)
    rfl
  · next found => exact absurd (h'.symm.trans found) nofun

/-! ## Withdrawn connections -/

variable (state : (s.conv (poolConv p)).state = .connecting)
include state

/-- The opening that ends a withdrawn connection resolves the converter (R38). -/
theorem openingDone_resolves (served : (s.conv (poolConv p)).served = none) (plan : (s.relay p).plan = .empty) :
    openingDone p s = resolveConv (poolConv p) (s.opened p).raise := by
  rw [openingDone_eq, matrixTry_opened_of_empty plan, connectionCheck_resolves (u := (s.opened p).raise) state served,
    warmupCheck_other (resolveConv_not_warmup _ _)]
  · exact congrArg Relay.motion opened_relay
  · exact (congrArg Relay.plan opened_relay).trans plan

/-- The closing that ends a withdrawn connection resolves the converter (R38). -/
theorem closingDone_resolves (served : (s.conv (poolConv p)).served = none) (plan : (s.relay p).plan = .empty) :
    closingDone p h s = matrixTry p (resolveConv (poolConv p) (s.closed p h)) := by
  have noJob : (s.closed p h).connectingJob (poolConv p) = none := by
    have none_ : (s.closed p h).servedSlot (poolConv p) = none := by
      unfold State.servedSlot
      rw [show ((s.closed p h).conv (poolConv p)).served = none from served]
    unfold State.connectingJob
    rw [none_]
    exact ite_self _
  rw [closingDone_without noJob, connectionCheck_resolves (u := s.closed p h) state served]
  · rw [closed_relay]
  · rw [closed_relay]
    exact plan

/-! ## Connections that go on -/

/-- The opening of a reconnect starts the planned closing at the same event (R38, R39). -/
theorem openingDone_reconnects (plan : (s.relay p).plan = .close h) (hold : s.relayHold = none)
    (served : (s.conv (poolConv p)).served ≠ none) (off : (s.conv (poolConv p)).outputOn = false)
    (waited : s.relayReadyAt p ≤ s.now) : openingDone p s = (s.setRelay p { s.relay p with
      pos := .open, motion := .closing h (s.now + 15), plan := .empty, condTimer := none, openingDue := false }).raise := by
  have moves : (s.opened p).MayMove p := ⟨hold, by rw [opened_relay], off, waited⟩
  have planned : ((s.opened p).relay p).plan = .close h := by rw [opened_relay]; exact plan
  have starts : matrixTry p (s.opened p) = s.setRelay p { s.relay p with
      pos := .open, motion := .closing h (s.now + 15), plan := .empty, condTimer := none, openingDue := false } := by
    rw [matrixTry_of_mayMove moves (by rw [planned]; nofun), startMotion_of_close (.inl planned), opened_relay,
      State.opened, setRelay_setRelay]
    rfl
  rw [openingDone_eq, starts, connectionCheck_served, warmupCheck_other]
  · exact fun warm => nomatch state.symm.trans warm
  · exact served

/-- The closing of a connection with its job takes both to SEEKING (R38, R102). -/
theorem closingDone_seeks {k : SlotIx} {j : Job} (served : (s.conv (poolConv p)).served = some (s.handleOf k))
    (job : s.job k = some j) (connecting : j.state = .connecting) (plan : (s.relay p).plan = .empty) :
    closingDone p h s = enterSeeking (poolConv p) k (s.closed p h) := by
  have slot : (s.closed p h).servedSlot (poolConv p) = some k := servedSlot_of (s := s.closed p h) served job
  have found : (s.closed p h).connectingJob (poolConv p) = some k := by
    unfold State.connectingJob
    rw [if_pos (show ((s.closed p h).conv (poolConv p)).state = .connecting from state), slot]
    exact Option.filter_eq_some_iff.2 ⟨rfl, jobIs_iff.2 ⟨j, job, by rw [connecting]; rfl⟩⟩
  rw [closingDone_with found]
  refine matrixTry_stays (.inl ?_)
  have frame : enterSeeking (poolConv p) k (s.closed p h) = _ := enterSeeking_frame job
  rw [State.relay, frame]
  exact (congrArg Relay.plan closed_relay).trans plan

end

/-- Settles O42: by the motion that completes, what is planned after it and whether the connection still has its job. -/
theorem relayMotionsComplete : Obligations.RelayMotionsComplete := by
  unfold Obligations.RelayMotionsComplete
  refine ⟨⟨fun s p h e motion time plan => ?_, fun s p h e k j settled motion time plan state served job connecting => ?_,
    fun s p h e settled timer time hold rest plan pos off waited => ?_⟩,
    fun s p g h e motion time plan hold state served off waited => ?_, fun s p h e state served plan time =>
      ⟨fun motion => ?_, fun motion => ?_⟩⟩
  · have open_ := openingDone_openAt plan
    refine ⟨_, exec_relayOpeningComplete_due motion time, (finish_pos p _).trans open_.pos,
      (finish_openingDue p _).trans open_.due, ?_⟩
    rw [finish_arbSeq_of_cause open_.cause, open_.count]
  · have seeks := closingDone_seeks (h := h) state served job connecting plan
    have held : (s.closed p h).job k = some j := job
    have frame := enterSeeking_frame (c := poolConv p) held
    have conv := enterSeeking_conv (c := poolConv p) held (poolConv p)
    rw [if_pos rfl] at conv
    have quiet : (enterSeeking (poolConv p) k (s.closed p h)).arbCause = false := by
      rw [frame]
      exact settled.noCause
    have relay : (enterSeeking (poolConv p) k (s.closed p h)).relay p = (s.closed p h).relay p := by
      rw [frame]
      rfl
    refine ⟨_, exec_relayClosingComplete_due motion time, ?_⟩
    rw [seeks, finish_of_noCause quiet]
    have relays : (scanSettle (enterSeeking (poolConv p) k (s.closed p h))).relay p = (s.closed p h).relay p := by
      rw [State.relay, (scanSettle_sameGrants _).1.2.2.2]
      exact relay
    rw [relays, closed_relay, scanSettle_conv, conv, scanSettle_job, enterSeeking_job]
    refine ⟨rfl, rfl, rfl, rfl, rfl, rfl, rfl, rfl, ?_, fun guarded => ?_⟩
    · rw [held]
      rfl
    · rw [scanSettle_only]
      exact (mem_scanSet_enterSeeking held j.head).2 (.inr ⟨rfl, guarded⟩)
  · have relay : (s.setRelay p { s.relay p with condTimer := none }).relay p = { s.relay p with condTimer := none } :=
      relay_setRelay_self ..
    have moves : (s.setRelay p { s.relay p with condTimer := none }).MayMove p :=
      ⟨hold, by rw [relay]; exact rest, off, waited⟩
    rw [exec_relayConditionTimer_due timer time,
      matrixTry_of_mayMove moves (by rw [relay, plan]; nofun),
      startMotion_of_open (g := h) (by rw [relay]; exact plan) (by rw [relay]; exact pos), relay, setRelay_setRelay]
    exact congrArg _ (finish_of_settled (settled.setRelay p _))
  · refine ⟨_, exec_relayOpeningComplete_due motion time, ?_⟩
    rw [openingDone_reconnects state plan hold served off waited]
    have busy : ((s.setRelay p { s.relay p with
        pos := .open, motion := .closing h (s.now + 15), plan := .empty, condTimer := none,
        openingDue := false }).raise.conv (poolConv p)).state ≠ .idle := fun idle => nomatch state.symm.trans idle
    rw [finish_relay_busy busy, finish_conv_busy busy]
    exact ⟨relay_setRelay_self .., rfl⟩
  · refine ⟨_, exec_relayOpeningComplete_due motion time, ?_⟩
    rw [openingDone_resolves state served plan]
    exact finish_resolveConv rfl rfl rfl
  · refine ⟨_, exec_relayClosingComplete_due motion time, ?_⟩
    rw [closingDone_resolves state served plan]
    have resolved : s.Resolved (resolveConv (poolConv p) (s.closed p h)) (poolConv p) :=
      (resolveConv_resolved (poolConv p) (s.closed p h)).of_before rfl rfl rfl
    refine ⟨(resolved.of_after (matrixTry_conv ..)).finish ?_, ?_⟩
    · rw [matrixTry_only]
      exact resolveConv_mode (poolConv p) (s.closed p h)
    · rw [finish_pos, matrixTry_pos, resolveConv_pos, closed_relay]

end Sys2Proof.Machine
end

section
/-! PROOFS. Withdrawn connections and fault events at a converter (R27, R38, R154). -/

namespace Sys2Proof.Machine

open State

/-! ## Withdrawal of a connection -/

/-- The connection is gone: no served job, and no motion planned that has not started (R38). -/
def State.withdrawing (s : State) (c : Conv) (p : Pool) : State :=
  (clearServed c s).modRelay p fun r => { r with plan := .empty, condTimer := none }

section
variable {s : State} {c : Conv} {p : Pool} (hp : poolOf c = some p)

theorem withdrawing_conv : (s.withdrawing c p).conv c = { s.conv c with served := none } := by
  rw [State.withdrawing, modRelay_conv, clearServed_conv]

theorem withdrawing_relay : (s.withdrawing c p).relay p = { s.relay p with plan := .empty, condTimer := none } := by
  rw [State.withdrawing, relay_modRelay_self, clearServed_relay]

include hp

theorem withdrawConnection_eq : withdrawConnection c s = connectionCheck c (s.withdrawing c p) := by
  unfold withdrawConnection
  dsimp only
  rw [hp]
  rfl

/-- While the relay is in motion the converter waits (R38). -/
theorem withdrawConnection_moving (moving : (s.relay p).motion ≠ .none) :
    withdrawConnection c s = s.withdrawing c p := by
  rw [withdrawConnection_eq hp]
  refine if_neg fun x => moving ?_
  obtain rfl := poolConv_of_poolOf hp
  have rest := (relayAtRest_poolConv.1 x.2.2).1
  rwa [withdrawing_relay] at rest

/-- With the relay at rest the converter is resolved at once (R38). -/
theorem withdrawConnection_rest (state : (s.conv c).state = .connecting) (rest : (s.relay p).motion = .none) :
    withdrawConnection c s = resolveConv c (s.withdrawing c p) := by
  rw [withdrawConnection_eq hp]
  obtain rfl := poolConv_of_poolOf hp
  exact connectionCheck_resolves (by rw [withdrawing_conv]; exact state) (by rw [withdrawing_conv])
    (by rw [withdrawing_relay]; exact rest) (by rw [withdrawing_relay])

end

/-! ## What a fault event does by the state of the converter -/

section
variable {s : State} {c : Conv} {cause : FaultCause}

theorem pendFault_fresh (h : (s.conv c).pend ≠ .faulted) :
    (pendFault c cause s).conv c = { s.conv c with pend := .faulted, cause := cause } := by
  rw [pendFault, conv_modConv_self, if_neg h]

theorem pendFault_pending (h : (s.conv c).pend = .faulted) : (pendFault c cause s).conv c = s.conv c := by
  rw [pendFault, conv_modConv_self, if_pos h]

theorem convFault_rests (h : (s.conv c).state = .off ∨ (s.conv c).state = .faulted) : convFault c cause s = s := by
  rcases h with state | state <;> rw [convFault, state]

theorem convFault_enters (h : (s.conv c).state = .warmup ∨ (s.conv c).state = .held) :
    convFault c cause s = enterFaulted c (s.modConv c fun v => { v with cause := cause }) := by
  rcases h with state | state <;> rw [convFault, state]

theorem convFault_idle (h : (s.conv c).state = .idle) :
    convFault c cause s = enterDischarge c (pendFault c cause s) := by rw [convFault, h]

theorem convFault_discharge (h : (s.conv c).state = .discharge) : convFault c cause s = pendFault c cause s := by
  rw [convFault, h]

theorem convFault_connecting (h : (s.conv c).state = .connecting) :
    convFault c cause s = faultJob (s.servedSlot c) (pendFault c cause s) := by rw [convFault, h]

theorem convFault_drives (h : (s.conv c).state.drives = true) :
    convFault c cause s = faultJob (s.servedSlot c) (enterDischarge c (pendFault c cause s)) := by
  rw [convFault]
  cases state : (s.conv c).state
  case seeking | aligned | heating => rfl
  all_goals
    rw [state] at h
    nomatch h

theorem pendFault_settings {t : State} (h : s.SameSettings t) : s.SameSettings (pendFault c cause t) :=
  h.modConv fun v => by
    split <;> exact ⟨rfl, rfl, rfl, rfl⟩

theorem faultJob_some (k : SlotIx) (s : State) : faultJob (some k) s = failJob .converterFault k s := rfl

theorem faultJob_settings {t : State} (h : s.SameSettings t) (k : Option SlotIx) : s.SameSettings (faultJob k t) := by
  cases k with
  | none => exact h
  | some k => exact failJob_settings h

theorem convFault_settings (c : Conv) (cause : FaultCause) (s : State) : s.SameSettings (convFault c cause s) := by
  have same := SameSettings.refl s
  unfold convFault
  split
  · exact same
  · exact same
  · exact enterFaulted_settings same.modConv
  · exact enterFaulted_settings same.modConv
  · exact enterDischarge_settings (pendFault_settings same)
  · exact pendFault_settings same
  · exact faultJob_settings (pendFault_settings same) _
  all_goals exact faultJob_settings (enterDischarge_settings (pendFault_settings same)) _

/-- A converter that turned itself off with a fault pending. -/
def Converter.FaultPends (cause : FaultCause) (v : Converter) : Prop :=
  v.outputOn = false ∧ v.state = .discharge ∧ v.pend = .faulted ∧ v.cause = cause

theorem Converter.FaultPends.kept (cause : FaultCause) : AbortKept (FaultPends cause) where
  discharge v t n h := by
    obtain ⟨off, -, pend, same⟩ := h
    obtain ⟨state, out, -, pend', cause', -⟩ := discharge_fields v t n
    exact ⟨out, state, pend'.trans pend, cause'.trans same⟩
  served _ h := h
  notConnecting v h := by
    rw [h.2.1]
    nofun

theorem faultJob_conv {q : Converter → Prop} (hq : AbortKept q) (h : q (s.conv c)) (k : Option SlotIx) :
    q ((faultJob k s).conv c) := by
  cases k with
  | none => exact h
  | some k => exact failJob_conv hq h _ k

/-- A converter that is discharged with a fault pending. -/
theorem enterDischarge_pendFault (fresh : (s.conv c).pend ≠ .faulted) :
    Converter.FaultPends cause ((enterDischarge c (pendFault c cause s)).conv c) := by
  rw [enterDischarge_conv, pendFault_fresh fresh]
  obtain ⟨state, out, -, pend, cause', -⟩ := discharge_fields
    { s.conv c with pend := .faulted, cause := cause } (pendFault c cause s).lineClock (pendFault c cause s).now
  exact ⟨out, state, pend, cause'⟩

end

/-! ## The job of a connection that fails -/

section
variable {s : State} {c : Conv} {k : SlotIx} {j : Job} {p : Pool}

/-- The abort path of a job in CONNECTING withdraws its connection (R38, R148). -/
theorem abortPath_connecting_conv (hj : s.job k = some j) (state : j.state = .connecting)
    (hc : j.converter = some c) :
    (abortPath k s).conv c = (withdrawConnection c (s.releasePower j.reservation)).conv c := by
  have path : abortPath k s = endJob k .none (withdrawConnection c (s.releasePower j.reservation)) := by
    unfold abortPath
    rw [hj]
    dsimp only
    rw [state, hc]
  rw [path, State.conv, (endJob_frame ..).1]
  rfl

theorem giveAll_fields (o : JobOutcome) (l : List SlotIx) (s : State) :
    (l.foldl (giveOutcome o) s).convs = s.convs ∧ (l.foldl (giveOutcome o) s).relays = s.relays := by
  induction l generalizing s with
  | nil => exact ⟨rfl, rfl⟩
  | cons x l ih =>
    have first : (giveOutcome o s x).convs = s.convs ∧ (giveOutcome o s x).relays = s.relays := by
      unfold giveOutcome
      split <;> exact ⟨rfl, rfl⟩
    exact ⟨(ih _).1.trans first.1, (ih _).2.trans first.2⟩

/-- A failing job in CONNECTING withdraws the connection of its converter, and no other member of its gang touches that
converter when none names it (R38, R158, R159). -/
theorem failJob_connecting_conv (o : JobOutcome) (hj : s.job k = some j) (fresh : j.outcome = none)
    (state : j.state = .connecting) (hc : j.converter = some c)
    (alone : ∀ m i, m ∈ s.membersOf k → m ≠ k → s.job m = some i → i.converter ≠ some c) :
    ∃ u : State, u.convs = s.convs ∧ u.relays = s.relays ∧
      (failJob o k s).conv c = (withdrawConnection c u).conv c := by
  have path : failJob o k s =
      ((s.membersOf k).filter fun m => m != k && s.reachable m).foldl (fun s m => abortPath m s) (abortPath k
        (((s.membersOf k).filter fun m => m != k && s.reachable m).foldl (giveOutcome .gangAbort) (s.setOutcome k o))) :=
    if_pos (reachable_iff.2 ⟨j, hj, fresh, by rw [state]; nofun⟩)
  rw [path]
  generalize others : (s.membersOf k).filter (fun m => m != k && s.reachable m) = l
  have fresh' : k ∉ l := by rw [← others]; simp
  have given : (l.foldl (giveOutcome .gangAbort) (s.setOutcome k o)).job k = some { j with outcome := some o } := by
    rw [State.job, giveAll_slot, if_neg fun x => fresh' x.1]
    exact setOutcome_open hj fresh o
  have onward : s.Onward (abortPath k (l.foldl (giveOutcome .gangAbort) (s.setOutcome k o))) :=
    abortPath_onward ((setOutcome_onward (.refl s)).folds fun _ _ hu => giveOutcome_onward hu)
  obtain ⟨convs, relays⟩ := giveAll_fields .gangAbort l (s.setOutcome k o)
  refine ⟨(l.foldl (giveOutcome .gangAbort) (s.setOutcome k o)).releasePower j.reservation, convs, relays, ?_⟩
  rw [abortPaths_conv_ne fun m hm i hi named => ?_, abortPath_connecting_conv given state hc]
  obtain ⟨i', hi', -, -, -, -, -, same⟩ := onward m i hi
  rw [← others, List.mem_filter] at hm
  obtain ⟨member, other⟩ := hm
  rw [Bool.and_eq_true, bne_iff_ne] at other
  rcases same with same | none_
  · exact alone m i' member other.1 hi' (same.symm.trans named)
  · exact nomatch none_.symm.trans named

/-- A withdrawal reads of the state the converter and its relay. -/
theorem withdrawConnection_faulted (hp : poolOf c = some p) (state : (s.conv c).state = .connecting)
    (pend : (s.conv c).pend = .faulted) : ((withdrawConnection c s).conv c).served = none ∧
      ((withdrawConnection c s).conv c).cause = (s.conv c).cause ∧
      ((s.relay p).motion ≠ .none → ((withdrawConnection c s).conv c).state = .connecting ∧
        ((withdrawConnection c s).conv c).pend = .faulted) ∧
      ((s.relay p).motion = .none → ((withdrawConnection c s).conv c).state = .faulted ∧
        ((withdrawConnection c s).conv c).pend = .none) := by
  obtain ⟨-, served, -, -, cause, -⟩ := withdrawConnection_kept c s
  refine ⟨served, cause, fun moving => ?_, fun rest => ?_⟩
  · rw [withdrawConnection_moving hp moving, withdrawing_conv]
    exact ⟨state, pend⟩
  · rw [withdrawConnection_rest hp state rest, resolveConv_of_faulted (by rw [withdrawing_conv]; exact pend),
      enterFaulted_conv]
    exact ⟨rfl, rfl⟩

end

/-! ## The event -/

section
variable {s : State} {c : Conv} {cond : FaultCond}

/-- The condition is on at the input of the converter. -/
def State.wired (s : State) (c : Conv) (cond : FaultCond) : State :=
  s.setConv c { s.conv c with pins := (s.conv c).pins.put cond true }

theorem wired_conv : (s.wired c cond).conv c = { s.conv c with pins := (s.conv c).pins.put cond true } :=
  conv_setConv_self ..

theorem PowerPins.get_put (v : PowerPins) (cond : FaultCond) (x : Bool) : (v.put cond x).get cond = x := by
  cases cond <;> rfl

theorem exec_converterFault (low : (s.conv c).pins.get cond = false) : exec (.converterFaultEvent c cond true) s =
    .next (finish (convFault c (faultCauseOf cond) (s.wired c cond))) := by
  refine (congrArg done (if_neg ?_)).trans rfl
  rw [low]
  nofun

theorem finish_convFault_pins : ((finish (convFault c (faultCauseOf cond) (s.wired c cond))).conv c).pins.get cond = true := by
  obtain ⟨-, -, pins, -⟩ := (finish_settings (convFault_settings c (faultCauseOf cond) (s.wired c cond))).convs c
  rw [pins, wired_conv]
  exact PowerPins.get_put ..

end

/-- Settles O40: by the state of the converter. -/
theorem faultByState : Obligations.FaultByState := by
  unfold Obligations.FaultByState
  refine ⟨fun s c cond low => ⟨_, exec_converterFault low, finish_convFault_pins, fun rest settled => ?_, fun waits => ?_,
    fun idle fresh => ?_, fun discharge fresh => ?_, fun discharge pending => ?_, fun drives fresh => ?_⟩,
    fun s c cond k j low served job fresh warm => ⟨fun drives => ?_, fun connecting fresh' => ?_⟩⟩
  · rw [convFault_rests (by rw [wired_conv]; exact rest)]
    exact finish_of_settled (settled.setConv c _)
  · rw [convFault_enters (by rw [wired_conv]; exact waits)]
    have conv : (enterFaulted c ((s.wired c cond).modConv c fun v => { v with cause := faultCauseOf cond })).conv c =
        _ := enterFaulted_conv ..
    rw [conv_modConv_self] at conv
    rw [finish_conv_busy (by rw [conv]; nofun), conv]
    exact ⟨rfl, rfl, rfl⟩
  · rw [convFault_idle (by rw [wired_conv]; exact idle)]
    obtain ⟨-, state, pend, cause⟩ := enterDischarge_pendFault (s := s.wired c cond) (c := c) (cause := faultCauseOf cond)
      (by rw [wired_conv, fresh]; nofun)
    rw [finish_conv_busy (by rw [state]; nofun)]
    exact ⟨state, pend, cause⟩
  · rw [convFault_discharge (by rw [wired_conv]; exact discharge)]
    have conv := pendFault_fresh (s := s.wired c cond) (c := c) (cause := faultCauseOf cond) (by rw [wired_conv]; exact fresh)
    rw [finish_conv_busy (by rw [conv, wired_conv, discharge]; nofun), conv, wired_conv]
    exact ⟨discharge, rfl, rfl, rfl⟩
  · rw [convFault_discharge (by rw [wired_conv]; exact discharge)]
    have conv := pendFault_pending (s := s.wired c cond) (c := c) (cause := faultCauseOf cond)
      (by rw [wired_conv]; exact pending)
    rw [finish_conv_busy (by rw [conv, wired_conv, discharge]; nofun), conv, wired_conv]
  · rw [convFault_drives (by rw [wired_conv]; exact drives)]
    obtain ⟨off, state, pend, cause⟩ := faultJob_conv (Converter.FaultPends.kept _) (enterDischarge_pendFault (s := s.wired c cond) (c := c)
      (cause := faultCauseOf cond) (by rw [wired_conv]; exact fresh)) ((s.wired c cond).servedSlot c)
    rw [finish_conv_busy (by rw [state]; nofun)]
    exact ⟨off, state, pend, cause⟩
  · have slot : (s.wired c cond).servedSlot c = some k :=
      servedSlot_of (s := s.wired c cond) (by rw [wired_conv]; exact served) job
    refine ⟨_, exec_converterFault low, ?_⟩
    rw [convFault_drives (by rw [wired_conv]; exact drives), slot]
    exact ((failJob_reached _ k _).of_bank (enterDischarge_bank (.refl _)).jobs).of_slots.finish
  · have slot : (s.wired c cond).servedSlot c = some k :=
      servedSlot_of (s := s.wired c cond) (by rw [wired_conv]; exact served) job
    refine ⟨_, exec_converterFault low, ?_, fun p hp state hc alone => ?_⟩ <;>
      rw [convFault_connecting (by rw [wired_conv]; exact connecting), slot]
    · exact (failJob_reached _ k _).of_slots.finish
    · have pending := pendFault_fresh (s := s.wired c cond) (c := c) (cause := faultCauseOf cond)
        (by rw [wired_conv]; exact fresh')
      obtain ⟨u, convs, relays, failed⟩ := failJob_connecting_conv
        (s := pendFault c (faultCauseOf cond) (s.wired c cond)) .converterFault job fresh state hc alone
      have conv : u.conv c = (pendFault c (faultCauseOf cond) (s.wired c cond)).conv c := by
        rw [State.conv, convs]
        rfl
      have relay : u.relay p = s.relay p := by
        rw [State.relay, relays]
        rfl
      rw [pending, wired_conv] at conv
      obtain ⟨none_, cause, moving, rest⟩ := withdrawConnection_faulted (s := u) hp (by rw [conv]; exact connecting)
        (by rw [conv])
      rw [conv] at cause
      rw [relay] at moving rest
      have busy : ((withdrawConnection c u).conv c).state ≠ .idle := by
        by_cases still : (s.relay p).motion = .none
        · rw [(rest still).1]
          nofun
        · rw [(moving still).1]
          nofun
      rw [faultJob_some, finish_conv_busy (by rw [failed]; exact busy), failed]
      exact ⟨none_, cause, moving, rest⟩

end Sys2Proof.Machine
end

section
/-! PROOFS. Entry into STANDBY leaves the settings; LINE-RESET (R188, R198). -/

namespace Sys2Proof.Machine

open State

/-! ## What an entry into STANDBY leaves -/

theorem pendOff_settings {s t : State} {c : Conv} (h : s.SameSettings t) : s.SameSettings (pendOff c t) :=
  h.modConv fun v => by
    split <;> exact ⟨rfl, rfl, rfl, rfl⟩

theorem standbyConv_settings {s t : State} (h : s.SameSettings t) (c : Conv) : s.SameSettings (standbyConv c t) := by
  unfold standbyConv
  split
  · exact h
  · exact h
  · exact pendOff_settings h
  · exact pendOff_settings h
  · exact enterOff_settings h
  · exact enterOff_settings h
  · split
    · exact withdrawConnection_settings (pendOff_settings h)
    · exact pendOff_settings h
  all_goals exact enterDischarge_settings (pendOff_settings h)

/-- Of the settings an entry into STANDBY changes the mode alone. -/
theorem standby_settings (s : State) : State.SameSettings { s with mode := .standby } (standby s) :=
  (SameSettings.refl _).folds fun _ c hu => standbyConv_settings hu c

theorem pendOff_cause (c : Conv) (s : State) : ((pendOff c s).conv c).cause = (s.conv c).cause := by
  rw [pendOff, conv_modConv_self]
  split <;> rfl

/-- An entry into STANDBY keeps the cause of the last fault. -/
theorem standbyConv_cause (c : Conv) (s : State) : ((standbyConv c s).conv c).cause = (s.conv c).cause := by
  have off : ((enterOff c s).conv c).cause = (s.conv c).cause := by
    rw [enterOff_conv]
    split <;> rfl
  have discharged : ((enterDischarge c (pendOff c s)).conv c).cause = (s.conv c).cause := by
    rw [enterDischarge_conv]
    obtain ⟨-, -, -, -, cause, -⟩ := discharge_fields ((pendOff c s).conv c) (pendOff c s).lineClock (pendOff c s).now
    exact cause.trans (pendOff_cause c s)
  unfold standbyConv
  split
  · rfl
  · rfl
  · exact pendOff_cause c s
  · exact pendOff_cause c s
  · exact off
  · exact off
  · split
    · obtain ⟨-, -, -, -, cause, -⟩ := withdrawConnection_kept c (pendOff c s)
      exact cause.trans (pendOff_cause c s)
    · exact pendOff_cause c s
  all_goals exact discharged

theorem standby_cause (s : State) (c : Conv) : ((standby s).conv c).cause = (s.conv c).cause := by
  obtain ⟨u, same, -, -, -, e⟩ := standby_conv s c
  rw [e, standbyConv_cause, same]

/-! ## LINE-RESET -/

theorem lineCleared_convs (s : State) : s.lineCleared.convs = s.convs ∧ s.lineCleared.relays = s.relays := by
  obtain ⟨v, e⟩ := lineCleared_only s
  rw [e]
  exact ⟨rfl, rfl⟩

theorem lineCleared_settled (s : State) : s.lineCleared.Settled := by
  obtain ⟨v, e⟩ := lineCleared_only s
  rw [e]
  exact ⟨rfl, fun _ => ⟨rfl, rfl⟩⟩

/-- LINE-RESET is answered when it has cleared the line, and nothing follows it (R188, R198). -/
theorem exec_lineReset {s : State} (free : s.free .svp) : exec (.lineReset .svp []) s =
    .next ((standby (s.holdingIt .svp 0x50 [])).lineCleared.replying .svp 0x50 .accepted []) := by
  have effect : carryOut .svp 0x50 [] (s.holdingIt .svp 0x50 []) =
    accept [] (standby (s.holdingIt .svp 0x50 [])).lineCleared := rfl
  refine (exec_of_accepted (c := .lineReset .svp []) (exec_instrOfFrame .svp 0x50 [] s) free effect).trans
    (congrArg _ (finish_of_settled ?_))
  have replied : ((standby (s.holdingIt .svp 0x50 [])).lineCleared.replying .svp 0x50 .accepted []).Settled :=
    (lineCleared_settled _).setPort _ _
  exact replied

/-- A port is emptied at a LINE-RESET, and then MODE_CHANGED is posted to it (R188). -/
theorem PortSt.lineReset_emptied (t : PortSt) (answering : Bool) (n : Notice) :
    ((t.lineReset answering).post n).notices = [n] ∧ ((t.lineReset answering).post n).rx = t.rx ∧
      ((t.lineReset answering).post n).framing = false ∧ ((t.lineReset answering).post n).overrun = false ∧
      ((t.lineReset answering).post n).dropped = false :=
  ⟨rfl, rfl, rfl, rfl, rfl⟩

/-- The reply to a request changes nothing of a port but its reply. -/
theorem replying_port (s : State) (p q : Port) (kind : Byte) (code : ReplyCode) (data : List Byte) :
    (s.replying p kind code data).port q = { s.port q with reply := ((s.replying p kind code data).port q).reply } := by
  rw [State.replying, port_setPort]
  split
  · next e =>
    subst e
    rfl
  · rfl

/-- The holding of a request changes nothing of a port but its holding. -/
theorem holdingIt_port (s : State) (p q : Port) (kind : Byte) (b : List Byte) :
    (s.holdingIt p kind b).port q = { s.port q with holding := ((s.holdingIt p kind b).port q).holding } := by
  rw [State.holdingIt, port_setPort]
  split
  · next e =>
    subst e
    rfl
  · rfl

/-- What LINE-RESET leaves of a port, in terms of the machine in STANDBY before it clears the line. -/
theorem lineCleared_replying_port (u : State) (q : Port) :
    ((u.lineCleared.replying .svp 0x50 .accepted []).port q).notices = [⟨u.lineClock, .modeChanged .standby .lineReset⟩] ∧
      ((u.lineCleared.replying .svp 0x50 .accepted []).port q).rx = (u.port q).rx ∧
      ((u.lineCleared.replying .svp 0x50 .accepted []).port q).framing = false ∧
      ((u.lineCleared.replying .svp 0x50 .accepted []).port q).overrun = false ∧
      ((u.lineCleared.replying .svp 0x50 .accepted []).port q).dropped = false := by
  rw [replying_port, lineCleared_port]
  exact PortSt.lineReset_emptied ..

/-- A lease restarts at a LINE-RESET (R180, R198). -/
theorem Lease.restart_fields (l : Lease) (now : Nat) : (l.restart now).period = l.period ∧
    (l.restart now).action = l.action ∧ (l.restart now).hold = false ∧
    (l.period = 0 → (l.restart now).state = .off ∧ (l.restart now).timer = none) ∧
    (l.period ≠ 0 → (l.restart now).state = .live ∧ (l.restart now).timer = some (now + l.period)) := by
  unfold Lease.restart
  split
  · next zero => exact ⟨rfl, rfl, rfl, fun _ => ⟨rfl, rfl⟩, fun some_ => absurd zero some_⟩
  · next some_ => exact ⟨rfl, rfl, rfl, fun zero => absurd zero some_, fun _ => ⟨rfl, rfl⟩⟩

/-- An occupied slot is freed at a LINE-RESET and its generation rises (R56). -/
theorem Slot.lineReset_gen (x : Slot) : x.lineReset.gen = if x.job.isSome then x.gen + 1 else x.gen := by
  unfold Slot.lineReset
  split <;> rfl

/-- Settles O5: an entry into STANDBY, after which the line is cleared. -/
theorem lineResetFrees : Obligations.LineResetFrees := by
  unfold Obligations.LineResetFrees
  intro s free
  have wide := standby_wide (s.holdingIt .svp 0x50 [])
  have same := standby_settings (s.holdingIt .svp 0x50 [])
  have cause := standby_cause (s.holdingIt .svp 0x50 [])
  refine ⟨_, exec_lineReset free, ?_⟩
  generalize standby (s.holdingIt .svp 0x50 []) = u at wide same cause
  obtain ⟨v, e⟩ := lineCleared_only u
  obtain ⟨mode, estop, -, -, clock, now, -⟩ := same.line
  obtain ⟨segs, profs, budget, dwell, -⟩ := same.tables
  have heads : u.heads = s.heads := by rw [wide.only]; rfl
  have stations (n : Station) : u.station n = s.station n := by rw [wide.only]; rfl
  have convs (c : Conv) : u.lineCleared.conv c = u.conv c := by rw [State.conv, (lineCleared_convs u).1]; rfl
  have bare := lineCleared_bare u
  have mode' : u.lineCleared.mode = .standby := (congrArg State.mode e).trans mode
  have kind : u.lineCleared.resetKind = .lineReset := congrArg State.resetKind e
  have time : u.lineCleared.resetTime = s.lineClock := (congrArg State.resetTime e).trans clock
  have clock' : u.lineCleared.lineClock = s.lineClock := (congrArg State.lineClock e).trans clock
  have estop' : u.lineCleared.estop = s.estop := (congrArg State.estop e).trans estop
  have segs' : u.lineCleared.segs = s.segs := (congrArg State.segs e).trans segs
  have profs' : u.lineCleared.profs = s.profs := (congrArg State.profs e).trans profs
  have heads' : u.lineCleared.heads = s.heads := (congrArg State.heads e).trans heads
  have budget' : u.lineCleared.budget = s.budget := (congrArg State.budget e).trans budget
  have dwell' : u.lineCleared.guardDwell = s.guardDwell := (congrArg State.guardDwell e).trans dwell
  have pass : u.lineCleared.passList = [] := congrArg State.passList e
  have idle : u.lineCleared.conversion = none := congrArg State.conversion e
  have slot (k : SlotIx) : (u.lineCleared.slot k).gen = if (s.job k).isSome then (s.slot k).gen + 1 else (s.slot k).gen := by
    obtain ⟨gen, job⟩ := wide.jobs k
    have some_ : (u.job k).isSome = (s.job k).isSome := by
      rcases job with job | job <;> rw [job]
      · rfl
      · rw [Option.isSome_map]
        rfl
    rw [lineCleared_slot, Slot.lineReset_gen, gen]
    exact if_congr (by rw [← some_]; rfl) rfl rfl
  have station (n : Station) : u.lineCleared.station n = (s.station n).lineReset s.now :=
    (lineCleared_station u n).trans (congrArg₂ StationSt.lineReset (stations n) now)
  have port (p : Port) := lineCleared_replying_port u p
  generalize u.lineCleared = w at *
  refine ⟨by rw [State.replying, port_setPort_self], mode', kind, time, clock', estop', segs', profs', heads', budget',
    dwell', bare.committed, bare.cands, bare.scanSet, pass, idle, bare.segUse, bare.profUse,
    fun k => ⟨bare.jobs k, slot k⟩, fun n => ⟨bare.admitted n, ?_⟩, fun c => ?_, fun p => ?_⟩
  · obtain ⟨period, action, hold, off, live⟩ := (s.station n).lease.restart_fields s.now
    have same' : (w.replying .svp 0x50 .accepted []).station n = (s.station n).lineReset s.now := station n
    rw [same']
    exact ⟨rfl, rfl, rfl, rfl, period, action, hold, off, live⟩
  · obtain ⟨enabled, interval, -, -⟩ := same.convs c
    have conv : (w.replying .svp 0x50 .accepted []).conv c = u.conv c := convs c
    rw [conv]
    exact ⟨enabled, interval, cause c⟩
  · obtain ⟨notices, rx, framing, overrun, dropped⟩ := port p
    have link : (u.port p).rx = (s.port p).rx := by
      refine (same.links p).1.trans ?_
      change ((s.holdingIt .svp 0x50 []).port p).rx = _
      rw [holdingIt_port]
    rw [clock] at notices
    exact ⟨notices, rx.trans link, framing, overrun, dropped⟩

end Sys2Proof.Machine
end

section
/-! PROOFS. Entry into STANDBY, converter by converter (R28). -/

namespace Sys2Proof.Machine

open State

/-! ## One converter in a fold over the bank -/

theorem poolOf_ne {c d : Conv} {p : Pool} (other : d ≠ c) (hp : poolOf c = some p) : poolOf d ≠ some p := fun e =>
  other ((poolConv_of_poolOf e).symm.trans (poolConv_of_poolOf hp))

/-- An entry into STANDBY of other converters leaves a converter and its relay as they are. -/
theorem standbyFold_other {c : Conv} {l : List Conv} (other : c ∉ l) (s : State) :
    (l.foldl (fun s c => standbyConv c s) s).conv c = s.conv c ∧
      ∀ p, poolOf c = some p → (l.foldl (fun s c => standbyConv c s) s).relay p = s.relay p := by
  induction l generalizing s with
  | nil => exact ⟨rfl, fun _ _ => rfl⟩
  | cons d l ih =>
    obtain ⟨ne, other⟩ := not_or.1 (mt List.mem_cons.2 other)
    obtain ⟨conv, relay⟩ := ih other (standbyConv d s)
    exact ⟨conv.trans ((standbyConv_bank d s).other c ne), fun p hp =>
      (relay p hp).trans (standbyConv_relay_ne (poolOf_ne (Ne.symm ne) hp) s)⟩

/-- What a converter and its relay read of the line when the bank acts on them. -/
structure State.SameAt (s u : State) (c : Conv) : Prop where
  conv : u.conv c = s.conv c
  relay : ∀ p, poolOf c = some p → u.relay p = s.relay p
  now : u.now = s.now
  clock : u.lineClock = s.lineClock
  hold : u.relayHold = s.relayHold

/-- An entry into STANDBY acts on each converter once, as if on it alone (R28). -/
theorem standby_at (s : State) (c : Conv) : ∃ u : State, u.mode = .standby ∧ s.SameAt u c ∧
    (standby s).conv c = (standbyConv c u).conv c ∧
    ∀ p, poolOf c = some p → (standby s).relay p = (standbyConv c u).relay p := by
  obtain ⟨before, after, split⟩ := List.append_of_mem (List.mem_finRange c)
  have nodup : (before ++ c :: after).Nodup := split ▸ List.nodup_finRange 6
  obtain ⟨-, tail, apart⟩ := List.nodup_append'.1 nodup
  have notBefore : c ∉ before := fun mem => apart mem (List.mem_cons_self ..)
  have notAfter : c ∉ after := (List.nodup_cons.1 tail).1
  obtain ⟨conv, relay⟩ := standbyFold_other notBefore { s with mode := .standby }
  have wide := bankFold_wide (fun c s => standbyConv_bank c s) before { s with mode := .standby }
  have folded : standby s = after.foldl (fun s c => standbyConv c s)
      (standbyConv c (before.foldl (fun s c => standbyConv c s) { s with mode := .standby })) := by
    unfold standby bankStandby
    rw [show allConvs = before ++ c :: after from split, List.foldl_append, List.foldl_cons]
  obtain ⟨conv', relay'⟩ := standbyFold_other notAfter
    (standbyConv c (before.foldl (fun s c => standbyConv c s) { s with mode := .standby }))
  rw [folded]
  exact ⟨_, by rw [wide.only], ⟨conv, relay, by rw [wide.only], by rw [wide.only], by rw [wide.only]⟩, conv', relay'⟩

/-! ## The row of a converter -/

/-- A disconnect request reads of the state what the bank reads of a converter. -/
theorem State.Disconnects.of_sameAt {s u t : State} {c : Conv} {p : Pool} (h : u.Disconnects t p) (same : s.SameAt u c)
    (hp : poolOf c = some p) : s.Disconnects t p := by
  obtain rfl := poolConv_of_poolOf hp
  exact h.congr (same.relay p hp) same.now same.hold (by rw [same.conv]; exact ⟨rfl, rfl, rfl⟩)

/-- A row is a matter of the converter and its relay. -/
theorem State.StandbyRow.of_sameAt {s u v t : State} {c : Conv} (h : u.StandbyRow v c) (same : s.SameAt u c)
    (conv : t.conv c = v.conv c) (relay : ∀ p, poolOf c = some p → t.relay p = v.relay p) : s.StandbyRow t c where
  rest e := by
    rw [conv, ← same.conv]
    exact h.rest (by rwa [same.conv])
  timed e := by
    rw [conv, ← same.conv]
    exact h.timed (by rwa [same.conv])
  off e := by
    obtain ⟨off, disconnects⟩ := h.off (by rwa [same.conv])
    rw [conv, ← same.conv]
    exact ⟨off, fun p hp => ((disconnects p hp).of_relay (relay p hp)).of_sameAt same hp⟩
  drives e := by
    rw [conv, ← same.conv, ← same.now, ← same.clock]
    exact h.drives (by rwa [same.conv])
  connecting e := by
    rw [conv, ← same.conv]
    exact h.connecting (by rwa [same.conv])
  withdrawn e e' := by
    rw [conv, ← same.conv]
    exact h.withdrawn (by rwa [same.conv]) (by rwa [same.conv])
  moving p hp e e' moving := by
    rw [conv, relay p hp, ← same.conv, ← same.relay p hp]
    exact h.moving p hp (by rwa [same.conv]) (by rwa [same.conv]) (by rwa [same.relay p hp])
  stopped p hp e e' rest := by
    obtain ⟨pend, disconnects, state⟩ := h.stopped p hp (by rwa [same.conv]) (by rwa [same.conv])
      (by rwa [same.relay p hp])
    rw [conv, ← same.conv]
    exact ⟨pend, (disconnects.of_relay (relay p hp)).of_sameAt same hp, state⟩

/-- A row that the state of the converter decides by one of its clauses. -/
theorem State.StandbyRow.of_state {s t : State} {c : Conv} {x : ConvState} (state : (s.conv c).state = x)
    (rest : x = .off ∨ x = .faulted → t.conv c = s.conv c)
    (timed : x = .warmup ∨ x = .discharge → t.conv c = { s.conv c with pend := (s.conv c).offPending })
    (off : x = .idle ∨ x = .held → t.conv c = { s.conv c with state := .off, pend := .none, warmTimer := none } ∧
      ∀ p, poolOf c = some p → s.Disconnects t p)
    (notDrives : x.drives = false) (notConnecting : x ≠ .connecting) : s.StandbyRow t c where
  rest e := rest (state ▸ e)
  timed e := timed (state ▸ e)
  off e := off (state ▸ e)
  drives e := by
    rw [state, notDrives] at e
    nomatch e
  connecting e := absurd (state.symm.trans e) notConnecting
  withdrawn e := absurd (state.symm.trans e) notConnecting
  moving _ _ e := absurd (state.symm.trans e) notConnecting
  stopped _ _ e := absurd (state.symm.trans e) notConnecting

section
variable {u : State} {c : Conv}

/-- An energised converter stops and discharges towards the pending target that STANDBY leaves it (R26, R28). -/
theorem standbyRow_drives (drives : (u.conv c).state.drives = true) :
    u.StandbyRow (enterDischarge c (pendOff c u)) c := by
  have notRest : ∀ x : ConvState, x.drives = false → (u.conv c).state ≠ x := fun x no e =>
    absurd (drives.symm.trans ((congrArg ConvState.drives e).trans no)) nofun
  refine ⟨fun e => ?_, fun e => ?_, fun e => ?_, fun _ => ?_, fun e => absurd e (notRest _ rfl),
    fun e => absurd e (notRest _ rfl), fun _ _ e => absurd e (notRest _ rfl), fun _ _ e => absurd e (notRest _ rfl)⟩
  iterate 3 exact (e.elim (notRest _ rfl) (notRest _ rfl)).elim
  rw [enterDischarge_conv, pendOff_conv]
  obtain ⟨state, output, command, pend, -, timer, tuner, engine, -, sample, lastOff, -⟩ := discharge_fields
    { u.conv c with pend := (u.conv c).offPending } (pendOff c u).lineClock (pendOff c u).now
  refine ⟨state, output, command, rfl, pend, timer, tuner, engine, sample, fun on => ?_, fun off => ?_⟩
  · exact lastOff.trans (if_pos on)
  · exact lastOff.trans (if_neg (by rw [off]; nofun))

/-- A converter that waits without a served job goes on waiting (R28, R38). -/
theorem standbyRow_waits (state : (u.conv c).state = .connecting) (served : (u.conv c).served = none) :
    u.StandbyRow (pendOff c u) c := by
  have other : ∀ x : ConvState, x ≠ .connecting → (u.conv c).state ≠ x := fun x no e => no (e.symm.trans state)
  refine ⟨fun e => ?_, fun e => ?_, fun e => ?_, fun e => absurd (congrArg ConvState.drives state) (by rw [e]; nofun),
    fun _ => ?_, fun _ _ => ?_, fun _ _ _ some_ => absurd served some_, fun _ _ _ some_ => absurd served some_⟩
  iterate 3 exact (e.elim (other _ nofun) (other _ nofun)).elim
  · rw [pendOff_conv]
    exact ⟨served, rfl⟩
  · rw [pendOff_conv]
    exact ⟨state, rfl⟩

/-- What a disconnect makes of a relay at rest does not depend on what was planned (R37). -/
theorem State.Disconnects.of_unplanned {x t : State} {p : Pool} (h : x.Disconnects t p) (rest : (u.relay p).motion = .none)
    (relay : x.relay p = { u.relay p with plan := .empty, condTimer := none }) (now : x.now = u.now)
    (hold : x.relayHold = u.relayHold) (conv : (x.conv (poolConv p)).outputOn = (u.conv (poolConv p)).outputOn ∧
      (x.conv (poolConv p)).lastOffAt = (u.conv (poolConv p)).lastOffAt ∧
      (x.conv (poolConv p)).interval = (u.conv (poolConv p)).interval) : u.Disconnects t p := by
  obtain ⟨output, last, interval⟩ := conv
  have ready : x.relayReadyAt p = u.relayReadyAt p := by rw [State.relayReadyAt, State.relayReadyAt, last, interval]
  have rest' : (x.relay p).motion = .none := by rw [relay]; exact rest
  refine ⟨fun pos _ => ?_, fun g e moving => ?_, fun g e moving => ?_, fun g pos may => ?_,
    fun g pos _ free off early => ?_, fun g pos _ stays => ?_⟩
  · rw [h.opened (by rw [relay]; exact pos) rest', relay]
  · exact absurd (rest.symm.trans moving) nofun
  · exact absurd (rest.symm.trans moving) nofun
  · rw [h.moves g (by rw [relay]; exact pos)
      ⟨hold.trans may.hold, rest', output.trans may.off, by rw [ready, now]; exact may.waited⟩, relay, now]
  · rw [h.waits g (by rw [relay]; exact pos) rest' (hold.trans free) (output.trans off) (by rw [ready, now]; exact early),
      relay, ready]
  · obtain ⟨timer, e⟩ := h.stays g (by rw [relay]; exact pos) rest' (by rw [hold, output]; exact stays)
    exact ⟨timer, by rw [e, relay]⟩

/-- In STANDBY a connection that is withdrawn with its relay at rest ends in FAULTED or OFF, with a disconnect (R28, R37,
R38). -/
theorem withdraw_stopped {p : Pool} (mode : u.mode = .standby) (hp : poolOf c = some p)
    (state : (u.conv c).state = .connecting) (rest : (u.relay p).motion = .none) :
    ((withdrawConnection c (pendOff c u)).conv c).pend = .none ∧
      u.Disconnects (withdrawConnection c (pendOff c u)) p ∧
      ((withdrawConnection c (pendOff c u)).conv c).state = if (u.conv c).pend = .faulted then .faulted else .off := by
  have conv : ((pendOff c u).withdrawing c p).conv c = { u.conv c with pend := (u.conv c).offPending, served := none } := by
    rw [withdrawing_conv, pendOff_conv]
  have bank : u.BankAt c (State.withdrawing (pendOff c u) c p) := (clearServed_bank (pendOff_bank (.refl u))).modRelay
  have relay : ((pendOff c u).withdrawing c p).relay p = { u.relay p with plan := .empty, condTimer := none } :=
    withdrawing_relay
  have reads (f : Converter → Converter) (keeps : ∀ v, (f v).outputOn = v.outputOn ∧ (f v).lastOffAt = v.lastOffAt ∧
      (f v).interval = v.interval) (x : State) (hx : x.convs = (((pendOff c u).withdrawing c p).modConv c f).convs) :
      (x.conv (poolConv p)).outputOn = (u.conv (poolConv p)).outputOn ∧
        (x.conv (poolConv p)).lastOffAt = (u.conv (poolConv p)).lastOffAt ∧
        (x.conv (poolConv p)).interval = (u.conv (poolConv p)).interval := by
    have same : x.conv c = (((pendOff c u).withdrawing c p).modConv c f).conv c := by
      rw [State.conv, hx]
      rfl
    rw [poolConv_of_poolOf hp, same, conv_modConv_self, conv]
    exact keeps _
  rw [withdrawConnection_rest (s := pendOff c u) hp (by rw [pendOff_conv]; exact state) rest]
  by_cases faulted : (u.conv c).pend = .faulted
  · have pend : (((pendOff c u).withdrawing c p).conv c).pend = .faulted := by
      rw [conv]
      exact if_pos faulted
    rw [resolveConv_of_faulted pend, if_pos faulted, enterFaulted_conv]
    refine ⟨rfl, ?_, rfl⟩
    refine (disconnect_spec hp _).of_unplanned rest relay bank.now bank.relayHold ?_
    exact reads (fun v => { v with state := .faulted, pend := .none, warmTimer := none }) (fun _ => ⟨rfl, rfl, rfl⟩) _ rfl
  · have pend : (((pendOff c u).withdrawing c p).conv c).pend = .off := by
      rw [conv]
      exact if_neg faulted
    have unwanted : wantsService c ((pendOff c u).withdrawing c p) = false :=
      wantsService_eq_false.2 (.inr (bank.mode.trans mode))
    rw [resolveConv_of_off pend unwanted, if_neg faulted, enterOff_conv, unwanted, enterOff_of_unwanted unwanted]
    refine ⟨rfl, ?_, rfl⟩
    refine (disconnect_spec hp _).of_unplanned rest relay bank.now bank.relayHold ?_
    exact reads (fun v => { v with state := .off, pend := .none, warmTimer := none }) (fun _ => ⟨rfl, rfl, rfl⟩) _ rfl

/-- The connection of a served job is withdrawn (R28, R38). -/
theorem standbyRow_withdraws (mode : u.mode = .standby) (state : (u.conv c).state = .connecting)
    (served : (u.conv c).served ≠ none) : u.StandbyRow (withdrawConnection c (pendOff c u)) c := by
  have other : ∀ x : ConvState, x ≠ .connecting → (u.conv c).state ≠ x := fun x no e => no (e.symm.trans state)
  refine ⟨fun e => ?_, fun e => ?_, fun e => ?_, fun e => absurd (congrArg ConvState.drives state) (by rw [e]; nofun),
    fun _ => ?_, fun _ none_ => absurd none_ served, fun p hp _ _ moving => ?_,
    fun p hp _ _ rest => withdraw_stopped mode hp state rest⟩
  iterate 3 exact (e.elim (other _ nofun) (other _ nofun)).elim
  · obtain ⟨output, none_, -⟩ := withdrawConnection_kept c (pendOff c u)
    rw [pendOff_conv] at output
    exact ⟨none_, output⟩
  · rw [withdrawConnection_moving (s := pendOff c u) hp moving, withdrawing_conv, withdrawing_relay, pendOff_conv]
    exact ⟨state, rfl, rfl⟩

/-- A converter that may be off already goes to OFF, with a disconnect (R28, R37). -/
theorem enterOff_standby (mode : u.mode = .standby) :
    (enterOff c u).conv c = { u.conv c with state := .off, pend := .none, warmTimer := none } ∧
      ∀ p, poolOf c = some p → u.Disconnects (enterOff c u) p := by
  have unwanted : wantsService c u = false := wantsService_eq_false.2 (.inr mode)
  rw [enterOff_conv, unwanted, enterOff_of_unwanted unwanted]
  exact ⟨rfl, fun p hp => disconnect_setConv_spec hp ⟨rfl, rfl, rfl⟩⟩

/-- In STANDBY the bank acts on a converter by its state (R28). -/
theorem standbyConv_row (mode : u.mode = .standby) : u.StandbyRow (standbyConv c u) c := by
  unfold standbyConv
  cases state : (u.conv c).state
  case off => exact .of_state state (fun _ => rfl) nofun nofun rfl nofun
  case faulted => exact .of_state state (fun _ => rfl) nofun nofun rfl nofun
  case warmup => exact .of_state state nofun (fun _ => pendOff_conv c u) nofun rfl nofun
  case discharge => exact .of_state state nofun (fun _ => pendOff_conv c u) nofun rfl nofun
  case idle => exact .of_state state nofun nofun (fun _ => enterOff_standby mode) rfl nofun
  case held => exact .of_state state nofun nofun (fun _ => enterOff_standby mode) rfl nofun
  case connecting =>
    dsimp only
    split
    · next some_ => exact standbyRow_withdraws mode state (Option.isSome_iff_ne_none.1 some_)
    · next none_ => exact standbyRow_waits state (Option.not_isSome_iff_eq_none.1 none_)
  case seeking | aligned | heating => exact standbyRow_drives (by rw [state]; rfl)

end

/-- An entry into STANDBY acts on every converter by its state (R28). -/
theorem standby_row (s : State) (c : Conv) : s.StandbyRow (standby s) c := by
  obtain ⟨u, mode, same, conv, relay⟩ := standby_at s c
  exact (standbyConv_row mode).of_sameAt same conv relay

end Sys2Proof.Machine
end

section
/-! PROOFS. A SET-MODE and an ESTOP reach jobs after the entry into STANDBY, and touch no converter any more (R28, R151). -/

namespace Sys2Proof.Machine

open State

/-! ## Jobs without a converter -/

/-- No job has a converter. -/
def State.Unlinked (s : State) : Prop := ∀ k j, s.job k = some j → j.converter = none

theorem State.Onward.unlinked {s t : State} (h : s.Onward t) (none_ : s.Unlinked) : t.Unlinked := by
  intro k j hj
  obtain ⟨i, hi, -, -, -, -, -, same⟩ := h k j hj
  exact same.elim (fun e => e.trans (none_ k i hi)) id

/-- An entry into STANDBY leaves no converter a served job to drive or to connect. -/
theorem State.StandbyRow.not_serving {s t : State} {c : Conv} (row : s.StandbyRow t c) (served : (t.conv c).served ≠ none) :
    (t.conv c).state.serves = false := by
  cases state : (s.conv c).state
  case off | faulted =>
    rw [row.rest (by simp [state]), state]
    rfl
  case warmup | discharge =>
    have same : t.conv c = { s.conv c with pend := (s.conv c).offPending } := row.timed (by simp [state])
    rw [same]
    dsimp only
    rw [state]
    rfl
  case idle | held =>
    rw [(row.off (by simp [state])).1]
    rfl
  case connecting => exact absurd (row.connecting state).1 served
  case seeking | aligned | heating =>
    rw [(row.drives (by rw [state]; rfl)).1]
    rfl

/-- Where every job is the one that its converter serves, no job has a converter after an entry into STANDBY. -/
theorem standby_unlinked {s : State} (link : s.LinkLaw) : (standby s).Unlinked := by
  intro k j hj
  cases hc : j.converter with
  | none => rfl
  | some c =>
    obtain ⟨served, serves⟩ := (setStandby_laws (.only none) s).link link k j c hj hc
    have idle := State.StandbyRow.not_serving (standby_row s c) (by rw [served]; nofun)
    exact absurd (serves.symm.trans idle) nofun

/-- The bank and the relays are as they were, and jobs only went on. -/
structure State.StillBank (s t : State) : Prop where
  onward : s.Onward t
  convs : t.convs = s.convs
  relays : t.relays = s.relays

theorem State.StillBank.refl (s : State) : s.StillBank s := ⟨.refl s, rfl, rfl⟩

theorem State.StillBank.foldl {α : Type} {s : State} {f : State → α → State}
    (step : ∀ u x, s.StillBank u → s.StillBank (f u x)) (l : List α) {t : State} (h : s.StillBank t) :
    s.StillBank (l.foldl f t) := by
  induction l generalizing t with
  | nil => exact h
  | cons x l ih => exact ih (step t x h)

theorem State.StillBank.giveOutcome {s t : State} (h : s.StillBank t) (o : JobOutcome) (k : SlotIx) :
    s.StillBank (Machine.giveOutcome o t k) := by
  obtain ⟨convs, relays⟩ := giveAll_fields o [k] t
  exact ⟨giveOutcome_onward h.onward, convs.trans h.convs, relays.trans h.relays⟩

/-- The abort path of a job without a converter leaves the bank and the relays. -/
theorem abortPath_bank {k : SlotIx} {s : State} (h : ∀ j, s.job k = some j → j.converter = none) :
    (abortPath k s).convs = s.convs ∧ (abortPath k s).relays = s.relays := by
  have ended (u : State) (r : Release) : (endJob k r u).convs = u.convs ∧ (endJob k r u).relays = u.relays := by
    obtain ⟨convs, -, -, -, relays⟩ := endJob_frame k r u
    exact ⟨convs, relays⟩
  have cooled (u : State) : (enterCooling k u).convs = u.convs ∧ (enterCooling k u).relays = u.relays := by
    obtain ⟨convs, -, -, -, relays⟩ := enterCooling_frame k u
    exact ⟨convs, relays⟩
  unfold abortPath
  split
  · exact ⟨rfl, rfl⟩
  · next j hj =>
    rw [h j hj]
    split
    · exact ended ..
    · exact ended ..
    · exact ended ..
    iterate 3 exact cooled ..
    exact ⟨rfl, rfl⟩

theorem State.StillBank.abortPath {s t : State} (none_ : s.Unlinked) (h : s.StillBank t) (k : SlotIx) :
    s.StillBank (Machine.abortPath k t) := by
  obtain ⟨convs, relays⟩ := abortPath_bank fun j hj => h.onward.unlinked none_ k j hj
  exact ⟨abortPath_onward h.onward, convs.trans h.convs, relays.trans h.relays⟩

/-- An outside cause that finds no job with a converter leaves the bank and the relays (R151). -/
theorem reach_stillBank {s : State} (none_ : s.Unlinked) (o : JobOutcome) (p : Job → Bool) : s.StillBank (reach o p s) := by
  unfold reach
  refine .foldl (fun u k hu => ?_) _ (.foldl (fun u k hu => ?_) _ (.foldl (fun u k hu => hu.giveOutcome _ _) _ (.refl s)))
  · split
    · exact hu.abortPath none_ k
    · exact hu
  · exact .foldl (fun v m hv => hv.giveOutcome _ _) _ hu

/-! ## The rows at the end of the event -/

/-- A row is the same where the bank and the relays are, whatever the step that follows made of the rest. -/
theorem State.StandbyRow.of_bank {s t u : State} {c : Conv} (h : s.StandbyRow t c) (convs : u.convs = t.convs)
    (relays : u.relays = t.relays) : s.StandbyRow u c :=
  h.of_sameAt ⟨rfl, fun _ _ => rfl, rfl, rfl, rfl⟩ (by rw [State.conv, convs]; rfl)
    fun p _ => by rw [State.relay, relays]; rfl

/-- A row is the same for two states that agree on the converter, its relay and the line. -/
theorem State.StandbyRow.of_same {s u t : State} {c : Conv} (h : u.StandbyRow t c) (same : s.SameAt u c) : s.StandbyRow t c :=
  h.of_sameAt same rfl fun _ _ => rfl

/-- In STANDBY the end of an event leaves the bank and the relays (R87). -/
theorem finish_bank {s : State} (mode : s.mode = .standby) :
    (finish s).convs = s.convs ∧ (finish s).relays = s.relays := by
  obtain ⟨convs, -, -, relays⟩ : s.SameGrants (finish s) :=
    finish_sameGrants (walk_unserved (s := s.arbitrating) (.inl (by rw [show s.arbitrating.mode = _ from mode]; nofun)))
      ⟨rfl, rfl, rfl, rfl⟩
  exact ⟨convs, relays⟩

theorem postAll_bank (b : NoticeBody) (s : State) : (s.postAll b).convs = s.convs ∧ (s.postAll b).relays = s.relays ∧
    (s.postAll b).slots = s.slots ∧ (s.postAll b).mode = s.mode := by
  obtain ⟨v, e⟩ := postAll_only b s
  rw [e]
  exact ⟨rfl, rfl, rfl, rfl⟩

/-! ## SET-MODE to STANDBY -/

theorem parseMode_code (m : Mode) : parseMode [m.code] = some m := by
  cases m <;> rfl

theorem exec_setMode (b : List Byte) (s : State) :
    exec (.setMode .svp b) s = .next (finish (requestArrives .svp 0x40 b s)) := exec_instrOfFrame .svp 0x40 b s

theorem reqSetMode_changes {m : Mode} {s : State} (may : m = .standby ∨ s.estop = false) (other : m ≠ s.mode) :
    reqSetMode .svp [m.code] s = accept [s.mode.code, m.code] (changeMode m s) := by
  refine (withField_of_some (parseMode_code m) s _).trans ?_
  rw [if_neg, if_neg other]
  rintro ⟨away, stop⟩
  exact may.elim away fun calm => absurd (stop.symm.trans calm) nofun

/-- A SET-MODE that names another mode is answered when the mode has changed (R191). -/
theorem exec_setMode_changes {m : Mode} {s : State} (free : s.free .svp) (may : m = .standby ∨ s.estop = false)
    (other : m ≠ s.mode) : exec (.setMode .svp [m.code]) s = .next
      ((changeMode m (s.holdingIt .svp 0x40 [m.code])).accepted .svp 0x40 [s.mode.code, m.code]) :=
  exec_of_accepted (exec_setMode _ s) free (reqSetMode_changes (s := s.holdingIt .svp 0x40 [m.code]) may other)

/-- The machine in STANDBY, told of it, before the jobs are reached (R191, R192). -/
def State.stoodBy (s : State) : State := (standby s).postAll (.modeChanged .standby .setMode)

theorem changeMode_standby (s : State) : changeMode .standby s = reach .lineAbort Job.isRunning s.stoodBy := rfl

theorem stoodBy_bank (s : State) : s.stoodBy.convs = (standby s).convs ∧ s.stoodBy.relays = (standby s).relays ∧
    s.stoodBy.slots = (standby s).slots ∧ s.stoodBy.mode = .standby := by
  obtain ⟨convs, relays, slots, mode⟩ := postAll_bank (.modeChanged .standby .setMode) (standby s)
  exact ⟨convs, relays, slots, mode.trans (standby_mode s)⟩

theorem job_of_slots {s t : State} (slots : t.slots = s.slots) (k : SlotIx) : t.job k = s.job k := by
  rw [State.job, State.slot, slots]
  rfl

/-- The jobs are reached in a machine whose bank has gone to STANDBY: the bank stays there. -/
theorem reach_standby {s u : State} (link : s.LinkLaw) (convs : u.convs = (standby s).convs)
    (relays : u.relays = (standby s).relays) (slots : u.slots = (standby s).slots) (o : JobOutcome) (p : Job → Bool) :
    (reach o p u).convs = (standby s).convs ∧ (reach o p u).relays = (standby s).relays := by
  have none_ : u.Unlinked := fun k j hj => standby_unlinked link k j ((job_of_slots slots k).symm.trans hj)
  obtain ⟨-, convs', relays'⟩ := reach_stillBank none_ o p
  exact ⟨convs'.trans convs, relays'.trans relays⟩

theorem reach_mode (o : JobOutcome) (p : Job → Bool) (s : State) : (reach o p s).mode = s.mode :=
  (reach_settings (.refl s)).line.1

/-- A request of the supervisor that leaves STANDBY behind keeps the bank to the end of its event. -/
theorem accepted_bank {s : State} (mode : s.mode = .standby) (kind : Byte) (data : List Byte) :
    (s.accepted .svp kind data).convs = s.convs ∧ (s.accepted .svp kind data).relays = s.relays ∧
      (s.accepted .svp kind data).mode = .standby := by
  have replied : (s.replying .svp kind .accepted data).mode = .standby := mode
  obtain ⟨convs, relays⟩ := finish_bank replied
  exact ⟨convs, relays, (finish_mode _).trans replied⟩

/-! ## ESTOP -/

theorem exec_estopAssertion {s : State} (calm : s.estop = false) :
    exec .estopAssertion s = .next (finish (estopAssert s)) :=
  congrArg done (if_neg (by rw [calm]; nofun))

/-- The machine in STANDBY under an ESTOP, told of both, before the jobs are reached (R193). -/
def State.estopped (s : State) : State :=
  if s.mode = .standby then (standby { s with estop := true }).post .svp (.estop true s.mode)
  else ((standby { s with estop := true }).post .svp (.estop true s.mode)).postAll (.modeChanged .standby .estop)

theorem estopAssert_eq (s : State) : estopAssert s = reach .estop (fun _ => true) s.estopped := rfl

theorem estopped_bank (s : State) : s.estopped.convs = (standby { s with estop := true }).convs ∧
    s.estopped.relays = (standby { s with estop := true }).relays ∧
    s.estopped.slots = (standby { s with estop := true }).slots ∧ s.estopped.mode = .standby := by
  have mode := standby_mode { s with estop := true }
  unfold State.estopped
  generalize standby { s with estop := true } = u at mode ⊢
  split
  · exact ⟨rfl, rfl, rfl, mode⟩
  · obtain ⟨convs, relays, slots, mode'⟩ := postAll_bank (.modeChanged .standby .estop)
      (u.post .svp (.estop true s.mode))
    exact ⟨convs, relays, slots, mode'.trans mode⟩

/-- What the request in the holding and the level of the emergency stop are to a row: nothing. -/
theorem State.StandbyRow.of_holding {s t : State} {c : Conv} {p : Port} {kind : Byte} {b : List Byte}
    (h : (s.holdingIt p kind b).StandbyRow t c) : s.StandbyRow t c :=
  h.of_same ⟨rfl, fun _ _ => rfl, rfl, rfl, rfl⟩

theorem State.StandbyRow.of_estop {s t : State} {c : Conv} {x : Bool} (h : ({ s with estop := x } : State).StandbyRow t c) :
    s.StandbyRow t c :=
  h.of_same ⟨rfl, fun _ _ => rfl, rfl, rfl, rfl⟩

/-- After a SET-MODE to STANDBY every converter is as its row says (R28, R191). -/
theorem changeMode_standby_row {s : State} (link : s.LinkLaw) (kind : Byte) (data : List Byte) :
    ((changeMode .standby s).accepted .svp kind data).mode = .standby ∧
      ∀ c, s.StandbyRow ((changeMode .standby s).accepted .svp kind data) c := by
  rw [changeMode_standby]
  obtain ⟨convs, relays, slots, mode⟩ := stoodBy_bank s
  obtain ⟨convs', relays'⟩ := reach_standby link convs relays slots .lineAbort Job.isRunning
  have mode' := (reach_mode .lineAbort Job.isRunning s.stoodBy).trans mode
  generalize reach .lineAbort Job.isRunning s.stoodBy = u at convs' relays' mode' ⊢
  obtain ⟨convs'', relays'', mode''⟩ := accepted_bank mode' kind data
  exact ⟨mode'', fun c => (standby_row s c).of_bank (convs''.trans convs') (relays''.trans relays')⟩

/-- After an ESTOP every converter is as its row says (R28, R193). -/
theorem estopAssert_row {s : State} (link : s.LinkLaw) : (finish (estopAssert s)).mode = .standby ∧
    ∀ c, s.StandbyRow (finish (estopAssert s)) c := by
  rw [estopAssert_eq]
  obtain ⟨convs, relays, slots, mode⟩ := estopped_bank s
  obtain ⟨convs', relays'⟩ := reach_standby (s := { s with estop := true }) link convs relays slots .estop fun _ => true
  have mode' := (reach_mode .estop (fun _ => true) s.estopped).trans mode
  generalize reach .estop (fun _ => true) s.estopped = u at convs' relays' mode' ⊢
  obtain ⟨convs'', relays''⟩ := finish_bank mode'
  exact ⟨(finish_mode u).trans mode', fun c =>
    ((standby_row { s with estop := true } c).of_bank (convs''.trans convs') (relays''.trans relays')).of_estop⟩

theorem lineCleared_mode (s : State) : s.lineCleared.mode = s.mode := by
  obtain ⟨v, e⟩ := lineCleared_only s
  rw [e]
  rfl

/-- After a LINE-RESET every converter is as its row says (R28, R198). -/
theorem lineReset_row (s : State) : ((standby s).lineCleared.replying .svp 0x50 .accepted []).mode = .standby ∧
    ∀ c, s.StandbyRow ((standby s).lineCleared.replying .svp 0x50 .accepted []) c := by
  obtain ⟨convs, relays⟩ := lineCleared_convs (standby s)
  have mode : (standby s).lineCleared.mode = .standby := (lineCleared_mode _).trans (standby_mode s)
  generalize (standby s).lineCleared = u at convs relays mode ⊢
  exact ⟨mode, fun c => (standby_row s c).of_bank convs relays⟩

/-- A request in the holding of a port is nothing to jobs and converters. -/
theorem State.JobLaw.holding {s : State} (law : s.JobLaw) (p : Port) (kind : Byte) (b : List Byte) :
    (s.holdingIt p kind b).LinkLaw := fun k j c hj hc => law.converter k j c hj hc

/-- Settles O24: the bank acts on every converter by its state, and what follows in the event leaves the bank. -/
theorem standbyActsOnConverters : Obligations.StandbyActsOnConverters := by
  unfold Obligations.StandbyActsOnConverters
  refine ⟨fun s => ⟨standby_mode s, standby_row s⟩, fun s law => ⟨fun free other => ?_, fun calm => ?_⟩, fun s free => ?_⟩
  · obtain ⟨mode, rows⟩ := changeMode_standby_row (s := s.holdingIt .svp 0x40 [Mode.standby.code]) (law.holding _ _ _) 0x40
      [s.mode.code, Mode.standby.code]
    exact ⟨_, exec_setMode_changes free (.inl rfl) (Ne.symm other), mode, fun c => (rows c).of_holding⟩
  · obtain ⟨mode, rows⟩ := estopAssert_row law.converter
    exact ⟨_, exec_estopAssertion calm, mode, rows⟩
  · obtain ⟨mode, rows⟩ := lineReset_row (s.holdingIt .svp 0x50 [])
    exact ⟨_, exec_lineReset free, mode, fun c => (rows c).of_holding⟩

end Sys2Proof.Machine
end

section
/-! PROOFS. ESTOP: the notices that the bank posts before those of the event, and what the assertion and the release do
(R193, R194). -/

namespace Sys2Proof.Machine

open State

/-! ## Notices of the bank -/

/-- A notice that reports the state of a converter. -/
def Notice.OfConverter (x : Notice) : Prop := ∃ c v f, x.body = .converterState c v f

/-- The supervisor port has got at most `n` notices, all about states of converters. -/
def State.TellsOfBank (s t : State) (n : Nat) : Prop :=
  ∃ l : List Notice, l.length ≤ n ∧ (∀ x ∈ l, x.OfConverter) ∧ (t.port .svp).notices = (s.port .svp).notices ++ l

theorem State.TellsOfBank.of_ports {s t : State} (ports : t.ports = s.ports) (n : Nat) : s.TellsOfBank t n :=
  ⟨[], Nat.zero_le _, nofun, by rw [State.port, ports, List.append_nil]; rfl⟩

theorem State.TellsOfBank.trans {s t u : State} {m n : Nat} (h : s.TellsOfBank t m) (g : t.TellsOfBank u n) :
    s.TellsOfBank u (m + n) := by
  obtain ⟨l, few, all, e⟩ := h
  obtain ⟨l', few', all', e'⟩ := g
  refine ⟨l ++ l', by rw [List.length_append]; omega, fun x hx => ?_, by rw [e', e, List.append_assoc]⟩
  exact (List.mem_append.1 hx).elim (all x) (all' x)

section
variable (c : Conv) (s : State)

theorem postConverterState_tells : s.TellsOfBank (postConverterState c s) 1 := by
  have port : (postConverterState c s).port .svp =
    (s.port .svp).post ⟨s.lineClock, .converterState c (s.conv c).state (s.conv c).cause⟩ := port_post_self ..
  by_cases room : (s.port .svp).notices.length < 16
  · rw [post_room room] at port
    exact ⟨[_], le_rfl, fun x hx => ⟨_, _, _, congrArg Notice.body (List.mem_singleton.1 hx)⟩, by rw [port]⟩
  · rw [post_full (Nat.not_lt.1 room)] at port
    exact ⟨[], Nat.zero_le _, nofun, by rw [port, List.append_nil]⟩

theorem disconnect_ports : (disconnect c s).ports = s.ports := by
  rw [disconnect_only]

theorem enterOff_ports : (enterOff c s).ports = s.ports := by
  unfold enterOff
  dsimp only
  split <;> exact disconnect_ports ..

theorem clearServed_ports : (clearServed c s).ports = s.ports := by
  unfold clearServed
  dsimp only
  split <;> rfl

theorem enterFaulted_tells : s.TellsOfBank (enterFaulted c s) 1 :=
  (State.TellsOfBank.of_ports rfl 0).trans
    ((postConverterState_tells c (s.modConv c fun v => { v with state := .faulted, pend := .none, warmTimer := none })).trans
      (.of_ports (disconnect_ports c _) 0))

theorem enterIdle_tells : s.TellsOfBank (enterIdle c s) 1 := by
  unfold enterIdle
  dsimp only
  split
  · exact (State.TellsOfBank.of_ports rfl 0).trans
      ((postConverterState_tells c (s.modConv c fun v => { v with state := .idle, pend := .none })).trans (.of_ports rfl 0))
  · exact .of_ports rfl 1

theorem resolveConv_tells : s.TellsOfBank (resolveConv c s) 1 := by
  unfold resolveConv
  split
  · exact enterFaulted_tells c s
  · split
    · exact enterIdle_tells c s
    · exact .of_ports (enterOff_ports c s) 1
  · exact .of_ports (disconnect_ports c _) 1
  · exact enterIdle_tells c s

theorem connectionCheck_tells : s.TellsOfBank (connectionCheck c s) 1 := by
  unfold connectionCheck
  split
  · exact resolveConv_tells c s
  · exact .of_ports rfl 1

theorem withdrawConnection_tells : s.TellsOfBank (withdrawConnection c s) 1 := by
  have cleared := State.TellsOfBank.of_ports (clearServed_ports c s) 0
  unfold withdrawConnection
  dsimp only
  split
  · exact cleared.trans (connectionCheck_tells c _)
  · next p _ =>
    have withdrawn : s.TellsOfBank (s.withdrawing c p) 0 := .of_ports (clearServed_ports c s) 0
    exact withdrawn.trans (connectionCheck_tells c _)

/-- An entry into STANDBY posts at most one CONVERTER_STATE of a converter, and nothing else (R28, R30). -/
theorem standbyConv_tells : s.TellsOfBank (standbyConv c s) 1 := by
  unfold standbyConv
  split
  · exact .of_ports rfl 1
  · exact .of_ports rfl 1
  · exact .of_ports rfl 1
  · exact .of_ports rfl 1
  · exact .of_ports (enterOff_ports c s) 1
  · exact .of_ports (enterOff_ports c s) 1
  · split
    · exact (State.TellsOfBank.of_ports rfl 0).trans (withdrawConnection_tells c (pendOff c s))
    · exact .of_ports rfl 1
  all_goals exact .of_ports (clearServed_ports c (pendOff c s)) 1

theorem standby_tells : s.TellsOfBank (standby s) 6 := by
  have folded : ∀ (l : List Conv) (u : State), u.TellsOfBank (l.foldl (fun u c => standbyConv c u) u) l.length := by
    intro l
    induction l with
    | nil => exact fun u => .of_ports rfl 0
    | cons c l ih =>
      intro u
      rw [List.foldl_cons, List.length_cons, Nat.add_comm]
      exact (standbyConv_tells c u).trans (ih _)
  exact (State.TellsOfBank.of_ports rfl 0).trans (folded allConvs { s with mode := .standby })

end

/-! ## The assertion -/

section
variable {s : State}

theorem reach_line (o : JobOutcome) (p : Job → Bool) (s : State) : (reach o p s).mode = s.mode ∧
    (reach o p s).estop = s.estop := by
  obtain ⟨mode, estop, -⟩ := (reach_settings (o := o) (p := p) (.refl s)).line
  exact ⟨mode, estop⟩

theorem estopped_estop (s : State) : s.estopped.estop = true := by
  have stop : (standby { s with estop := true }).estop = true := by rw [(standby_wide { s with estop := true }).only]
  unfold State.estopped
  generalize standby { s with estop := true } = u at stop ⊢
  split
  · exact stop
  · obtain ⟨v, e⟩ := postAll_only (.modeChanged .standby .estop) (u.post .svp (.estop true s.mode))
    rw [e]
    exact stop

theorem estopped_notices (stands : s.mode ≠ .standby) : (s.estopped.port .svp) =
    (((standby { s with estop := true }).port .svp).post ⟨s.lineClock, .estop true s.mode⟩).post
      ⟨s.lineClock, .modeChanged .standby .estop⟩ := by
  have clock : (standby { s with estop := true }).lineClock = s.lineClock := by
    rw [(standby_wide { s with estop := true }).only]
  unfold State.estopped
  generalize standby { s with estop := true } = u at clock ⊢
  rw [if_neg stands, postAll_port, port_post_self, post_lineClock, clock]

/-- What is posted to a full queue is lost, and the loss is marked (R171). -/
theorem PortSt.post_notices_full {q : PortSt} (full : 16 ≤ q.notices.length) (n : Notice) :
    (q.post n).notices = q.notices ∧ (q.post n).dropped = true := by
  rw [post_full full]
  exact ⟨rfl, rfl⟩

theorem estopped_full (full : 16 ≤ (s.port .svp).notices.length) :
    (s.estopped.port .svp).notices = (s.port .svp).notices ∧ (s.estopped.port .svp).dropped = true := by
  obtain ⟨kept, -⟩ := (standby_wide { s with estop := true }).grown.full .svp full
  have full' : 16 ≤ ((standby { s with estop := true }).port .svp).notices.length := by rw [kept]; exact full
  unfold State.estopped
  generalize standby { s with estop := true } = u at kept full' ⊢
  obtain ⟨first, lost⟩ := PortSt.post_notices_full full' ⟨u.lineClock, .estop true s.mode⟩
  rw [← port_post_self] at first lost
  split
  · exact ⟨first.trans kept, lost⟩
  · rw [postAll_port]
    obtain ⟨second, lost'⟩ := PortSt.post_notices_full (by rw [first]; exact full')
      ⟨(u.post .svp (.estop true s.mode)).lineClock, .modeChanged .standby .estop⟩
    exact ⟨second.trans (first.trans kept), lost'⟩

/-- A machine in STANDBY that keeps the law of the outputs has every output off (R22, R190). -/
theorem output_off_of_standby (law : s.OutputLaw) (mode : s.mode = .standby) (c : Conv) : (s.conv c).outputOn = false := by
  have ok := (outputLaw_iff.1 law).2 c
  cases e : (s.conv c).outputOn with
  | false => rfl
  | true => exact absurd mode (ok.drives (ok.output e))

theorem released_settled (settled : s.Settled) (q : PortSt) :
    done { s.setPort .svp q with estop := false } = .next { s.setPort .svp q with estop := false } := by
  have quiet : State.Settled { s.setPort .svp q with estop := false } := ⟨settled.noCause, settled.scanner⟩
  exact congrArg _ (finish_of_settled quiet)

/-- ESTOP reaches every job that is not in COOLING (R152, R193). -/
theorem estopAssert_reached (s : State) : s.ReachedBy (finish (estopAssert s)) .estop fun _ => True := by
  obtain ⟨-, -, slots, -⟩ := estopped_bank s
  have jobs := (standby_wide { s with estop := true }).jobs
  rw [estopAssert_eq]
  have reached := reach_reached_of (s := s) (u := s.estopped) .estop (p := fun _ => true) (fun _ => rfl) fun k => by
    rw [State.job, State.slot, slots]
    exact jobs k
  exact (reached.congr fun k j hj => iff_of_true (jobIs_iff.2 ⟨j, hj, rfl⟩) trivial).finish

end

/-- Settles O38: the entry into STANDBY, the notices, and the jobs. -/
theorem estopActs : Obligations.EstopActs := by
  unfold Obligations.EstopActs
  refine ⟨fun s calm => ⟨_, exec_estopAssertion calm, ?_, ?_, fun law c => ?_, estopAssert_reached s, fun full => ?_,
    fun stands empty => ?_⟩, fun s stop settled room => ?_, fun s stop settled full => ?_,
    fun s settled => ⟨fun stop => ?_, fun calm => ?_⟩⟩
  · have line := reach_line .estop (fun _ => true) s.estopped
    exact (finish_settings (.refl _)).line.2.1.trans (line.2.trans (estopped_estop s))
  · rw [finish_mode, estopAssert_eq, reach_mode]
    exact (estopped_bank s).2.2.2
  · have law' := ((estopAssert_laws (q := none) s).trans (finish_laws _ _)).output law
    refine output_off_of_standby law' ?_ c
    rw [finish_mode, estopAssert_eq, reach_mode]
    exact (estopped_bank s).2.2.2
  · obtain ⟨kept, lost⟩ := estopped_full full
    obtain ⟨notices, dropped⟩ := (reach_port .estop (fun _ => true) s.estopped .svp).2 (by rw [kept]; exact full)
    rw [finish_port, estopAssert_eq]
    exact ⟨notices.trans kept, dropped lost⟩
  · obtain ⟨l, few, told, e⟩ := standby_tells { s with estop := true }
    have e' : ((standby { s with estop := true }).port .svp).notices = l := by
      rw [e, show (({ s with estop := true } : State).port .svp).notices = [] from empty, List.nil_append]
    have posted := congrArg PortSt.notices (estopped_notices stands)
    have first := post_room (q := (standby { s with estop := true }).port .svp) (by rw [e']; omega)
      ⟨s.lineClock, .estop true s.mode⟩
    rw [first, post_room (by rw [List.length_append, e', List.length_singleton]; omega)] at posted
    obtain ⟨rest, grown⟩ := (reach_port .estop (fun _ => true) s.estopped .svp).1
    rw [finish_port, estopAssert_eq, ← grown, posted, e', List.filter_append, List.filter_append, List.filter_append,
      List.filter_eq_nil_iff.2 fun x hx => ?_]
    · exact ⟨_, rfl⟩
    · obtain ⟨c, v, f, body⟩ := told x hx
      rw [body]
      nofun
  · refine (congrArg done (if_pos stop)).trans ?_
    have posted : estopRelease s = { s.setPort .svp { s.port .svp with
        notices := (s.port .svp).notices ++ [⟨s.lineClock, .estop false s.mode⟩] } with estop := false } := by
      have port := post_room room ⟨s.lineClock, .estop false s.mode⟩
      rw [← port]
      rfl
    rw [posted]
    exact released_settled settled _
  · refine (congrArg done (if_pos stop)).trans ?_
    have posted : estopRelease s = { s.setPort .svp { s.port .svp with dropped := true } with estop := false } := by
      have port := post_full full ⟨s.lineClock, .estop false s.mode⟩
      rw [← port]
      rfl
    rw [posted]
    exact released_settled settled _
  · exact (congrArg done (if_pos stop)).trans (congrArg _ (finish_of_settled settled))
  · exact (congrArg done (if_neg (by rw [calm]; nofun))).trans (congrArg _ (finish_of_settled settled))

end Sys2Proof.Machine
end

section
/-! PROOFS. SET-MODE (R29, R191, R192). -/

namespace Sys2Proof.Machine

open State

/-! ## The bank leaves STANDBY -/

/-- What the change to RUN or HOLD does to one converter (R29). -/
def startConv (s : State) (c : Conv) : State :=
  if (s.conv c).state = .off ∧ (s.conv c).enabled then enterWarmup c s else s

theorem startConv_bank (c : Conv) (s : State) : s.BankAt c (startConv s c) := by
  unfold startConv
  split
  · exact (State.BankAt.refl s).modConv
  · exact .refl s

theorem bankStart_eq (s : State) : bankStart s = allConvs.foldl startConv s := rfl

theorem bankStart_only (s : State) : ∃ v, bankStart s = { s with convs := v } := by
  have folded : ∀ (l : List Conv) (u : State), ∃ v, l.foldl startConv u = { u with convs := v } := by
    intro l
    induction l with
    | nil => exact fun u => ⟨u.convs, rfl⟩
    | cons c l ih =>
      intro u
      have first : ∃ v, startConv u c = { u with convs := v } := by
        unfold startConv
        split
        · exact ⟨_, rfl⟩
        · exact ⟨u.convs, rfl⟩
      obtain ⟨v, e⟩ := first
      obtain ⟨v', e'⟩ := ih (startConv u c)
      exact ⟨v', by rw [List.foldl_cons, e', e]⟩
  exact folded allConvs s

/-- An enabled converter in OFF warms up when the line leaves STANDBY (R29). -/
theorem bankStart_conv {s : State} {c : Conv} (off : (s.conv c).state = .off) (enabled : (s.conv c).enabled = true) :
    (bankStart s).conv c = { s.conv c with state := .warmup, warmTimer := some (s.now + 200) } := by
  rw [bankStart_eq]
  obtain ⟨u, conv, wide, e⟩ := (bankFold_conv startConv_bank allConvs (by decide) s c).2 (List.mem_finRange c)
  have now : u.now = s.now := by rw [wide.only]
  rw [e, startConv, if_pos ⟨by rw [conv]; exact off, by rw [conv]; exact enabled⟩, enterWarmup, conv_modConv_self, conv, now]
  rfl

/-! ## The change of the mode -/

/-- Before it is told of the mode, the machine changes the mode and converters alone. -/
theorem startedIn_only (s : State) (m : Mode) : ∃ v,
    (if s.mode = .standby then bankStart { s with mode := m } else { s with mode := m }) =
      { s with mode := m, convs := v } := by
  split
  · exact bankStart_only _
  · exact ⟨s.convs, rfl⟩

/-- The machine in RUN or HOLD, told of it (R29, R191, R192). -/
def State.servesIn (s : State) (m : Mode) : State :=
  (if s.mode = .standby then bankStart { s with mode := m } else { s with mode := m }).postAll (.modeChanged m .setMode)

theorem changeMode_serves {m : Mode} (away : m ≠ .standby) (s : State) :
    changeMode m s = if m = .run then (s.servesIn m).raise else s.servesIn m := by
  cases m
  case standby => exact absurd rfl away
  all_goals rfl

theorem servesIn_only (s : State) (m : Mode) : ∃ v w, s.servesIn m = { s with mode := m, convs := v, ports := w } := by
  obtain ⟨v, e⟩ := startedIn_only s m
  obtain ⟨w, e'⟩ := postAll_only (.modeChanged m .setMode) { s with mode := m, convs := v }
  exact ⟨v, w, by rw [State.servesIn, e, e']⟩

theorem servesIn_port (s : State) (m : Mode) (p : Port) :
    (s.servesIn m).port p = (s.port p).post ⟨s.lineClock, .modeChanged m .setMode⟩ := by
  obtain ⟨v, e⟩ := startedIn_only s m
  rw [State.servesIn, e, postAll_port]
  rfl

/-- Leaving STANDBY warms up an enabled converter in OFF (R29). -/
theorem servesIn_conv {s : State} {c : Conv} (mode : s.mode = .standby) (off : (s.conv c).state = .off)
    (enabled : (s.conv c).enabled = true) (m : Mode) :
    (s.servesIn m).conv c = { s.conv c with state := .warmup, warmTimer := some (s.now + 200) } := by
  rw [State.servesIn, if_pos mode, State.conv, (postAll_bank _ _).1]
  exact bankStart_conv (s := { s with mode := m }) off enabled

/-- What a change of the mode leaves: the emergency stop, the budget and the tables. -/
structure State.ModeOnly (s t : State) (m : Mode) : Prop where
  mode : t.mode = m
  estop : t.estop = s.estop
  budget : t.budget = s.budget
  heads : t.heads = s.heads
  segs : t.segs = s.segs
  profs : t.profs = s.profs

theorem servesIn_modeOnly (s : State) (m : Mode) : s.ModeOnly (s.servesIn m) m := by
  obtain ⟨v, w, e⟩ := servesIn_only s m
  rw [e]
  exact ⟨rfl, rfl, rfl, rfl, rfl, rfl⟩

theorem stoodBy_modeOnly (s : State) : s.ModeOnly s.stoodBy .standby := by
  have mode := standby_mode s
  have only := (standby_wide s).only
  unfold State.stoodBy
  generalize standby s = u at mode only ⊢
  obtain ⟨v, e⟩ := postAll_only (.modeChanged .standby .setMode) u
  rw [e, only]
  exact ⟨rfl, rfl, rfl, rfl, rfl, rfl⟩

/-- What follows a change of the mode in its event leaves what that left. -/
theorem State.ModeOnly.next {s t u : State} {m : Mode} (h : s.ModeOnly t m) (same : t.SameSettings u)
    (heads : u.heads = t.heads) : s.ModeOnly u m := by
  obtain ⟨mode, estop, -⟩ := same.line
  obtain ⟨segs, profs, budget, -⟩ := same.tables
  exact ⟨mode.trans h.mode, estop.trans h.estop, budget.trans h.budget, heads.trans h.heads, segs.trans h.segs,
    profs.trans h.profs⟩

theorem changeMode_modeOnly (s : State) (m : Mode) : s.ModeOnly (changeMode m s) m := by
  by_cases away : m = .standby
  · subst away
    rw [changeMode_standby]
    exact (stoodBy_modeOnly s).next (reach_settings (.refl _)) (reach_heads ..)
  · rw [changeMode_serves away]
    obtain ⟨mode, estop, budget, heads, segs, profs⟩ := servesIn_modeOnly s m
    split
    · exact ⟨mode, estop, budget, heads, segs, profs⟩
    · exact ⟨mode, estop, budget, heads, segs, profs⟩

theorem State.ModeOnly.accepted {s t : State} {m : Mode} (h : s.ModeOnly t m) (kind : Byte) (data : List Byte) :
    s.ModeOnly (t.accepted .svp kind data) m := by
  obtain ⟨mode, estop, budget, heads, segs, profs⟩ := h
  have replied : s.ModeOnly (t.replying .svp kind .accepted data) m := ⟨mode, estop, budget, heads, segs, profs⟩
  exact replied.next (finish_settings (.refl _)) (finish_heads _)

/-- The reply to a request and the end of its event post nothing at a port. -/
theorem accepted_notices (s : State) (p : Port) (kind : Byte) (data : List Byte) :
    ((s.accepted .svp kind data).port p).notices = (s.port p).notices := by
  have same : (s.accepted .svp kind data).port p = (s.replying .svp kind .accepted data).port p := finish_port ..
  rw [same, replying_port]

theorem changeMode_port {m : Mode} (away : m ≠ .standby) (s : State) (p : Port) :
    (changeMode m s).port p = (s.port p).post ⟨s.lineClock, .modeChanged m .setMode⟩ := by
  rw [changeMode_serves away, ← servesIn_port]
  split <;> rfl

theorem changeMode_conv {m : Mode} {s : State} {c : Conv} (away : m ≠ .standby) (mode : s.mode = .standby)
    (off : (s.conv c).state = .off) (enabled : (s.conv c).enabled = true) :
    (changeMode m s).conv c = { s.conv c with state := .warmup, warmTimer := some (s.now + 200) } := by
  rw [changeMode_serves away, ← servesIn_conv mode off enabled m]
  split <;> rfl

/-- A SET-MODE to STANDBY reaches the running jobs (R152). -/
theorem changeMode_reached (s : State) :
    s.ReachedBy (changeMode .standby s) .lineAbort fun k => s.jobIs k (fun j => j.state.running) = true := by
  obtain ⟨-, -, slots, -⟩ := stoodBy_bank s
  have jobs := (standby_wide s).jobs
  rw [changeMode_standby]
  refine reach_reached_of (p := Job.isRunning) .lineAbort (fun _ => rfl) fun k => ?_
  rw [State.job, State.slot, slots]
  exact jobs k

/-! ## The request -/

theorem parseMode_eq_none {b : List Byte} (bad : ∀ x, b = [x] → 2 < x.toNat) : parseMode b = none := by
  match b with
  | [] => rfl
  | [x] =>
    have large := bad x rfl
    refine List.find?_eq_none.2 fun m _ e => ?_
    have code : m.code = x := beq_iff_eq.1 e
    rw [← code] at large
    cases m <;> exact absurd large (by decide)
  | _ :: _ :: _ => rfl

theorem reqSetMode_stopped {m : Mode} {s : State} (away : m ≠ .standby) (stop : s.estop = true) :
    reqSetMode .svp [m.code] s = refuse .wrongMode 0 0 s :=
  (withField_of_some (parseMode_code m) s _).trans (if_pos ⟨away, stop⟩)

theorem reqSetMode_same {m : Mode} {s : State} (may : m = .standby ∨ s.estop = false) (same : m = s.mode) :
    reqSetMode .svp [m.code] s = accept [m.code, m.code] s := by
  refine (withField_of_some (parseMode_code m) s _).trans ?_
  rw [if_neg, if_pos same, same]
  rintro ⟨away, stop⟩
  exact may.elim away fun calm => absurd (stop.symm.trans calm) nofun

/-- Settles O23: by the mode that is asked for. -/
theorem setModeChanges : Obligations.SetModeChanges := by
  unfold Obligations.SetModeChanges
  intro s m free
  refine ⟨fun away stop settled => ?_, fun may same settled => ?_, fun may other => ?_, fun b settled bad => ?_⟩
  · exact refuses_of (exec_setMode _ s) settled free (by decide) (reqSetMode_stopped (s := s.holdingIt ..) away stop)
  · exact exec_of_accept (exec_setMode _ s) free settled (reqSetMode_same (s := s.holdingIt ..) may same)
  · obtain ⟨mode, estop, budget, heads, segs, profs⟩ :=
      (changeMode_modeOnly (s.holdingIt .svp 0x40 [m.code]) m).accepted 0x40 [s.mode.code, m.code]
    refine ⟨_, exec_setMode_changes free may other, mode, estop, accepted_reply .., budget, heads, segs, profs,
      fun away p room => ?_, fun stands => ?_, fun stood c enabled off => ?_⟩
    · have room' : ((s.holdingIt .svp 0x40 [m.code]).port p).notices.length < 16 := by
        rw [holdingIt_port]
        exact room
      rw [accepted_notices, changeMode_port away, post_room room', holdingIt_port]
      rfl
    · subst stands
      exact ((changeMode_reached (s.holdingIt ..)).accepted 0x40 _).of_slots
    · have away : m ≠ .standby := fun e => other (e.trans stood.symm)
      have conv : (changeMode m (s.holdingIt .svp 0x40 [m.code])).conv c =
        { s.conv c with state := .warmup, warmTimer := some (s.now + 200) } :=
        changeMode_conv (s := s.holdingIt ..) away stood off enabled
      rw [accepted_conv (by rw [conv]; nofun), conv]
      exact ⟨rfl, rfl⟩
  · exact refuses_of (exec_setMode b s) settled free (by decide) (withField_of_none (parseMode_eq_none bad) _ _)

end Sys2Proof.Machine
end

section
/-! PROOFS. Power-on, the pin reset, and the end of the reset hold of the relays (R23, R36, R197). -/

namespace Sys2Proof.Machine

open State

/-! ## Power-on and the pin reset -/

theorem powerOnState_settled (s : State) : (powerOnState s).Settled := ⟨rfl, fun _ => ⟨rfl, rfl⟩⟩

theorem exec_powerOn (s : State) : exec .powerOn s = .next (powerOnState s) :=
  congrArg Host.Outcome.next (finish_of_settled (powerOnState_settled s))

theorem exec_pinReset (s : State) : exec .pinReset s = .next (pinResetState s) := by
  have settled : (pinResetState s).Settled := ⟨rfl, fun _ => ⟨rfl, rfl⟩⟩
  exact congrArg Host.Outcome.next (finish_of_settled settled)

/-- A pin reset empties the plan of a relay, and what is closed or moves is due to open (R36). -/
theorem pinResetState_relay (s : State) (p : Pool) : (pinResetState s).relay p = { s.relay p with
    plan := .empty, condTimer := none,
    openingDue := !decide ((s.relay p).pos = .open ∧ (s.relay p).motion = .none) } := by
  have mapped : (pinResetState s).relay p = (s.relay p).pinReset := Vector.getElem_map ..
  have due : ((s.relay p).pos == .open && (s.relay p).motion == .none) =
      decide ((s.relay p).pos = .open ∧ (s.relay p).motion = .none) := by
    rw [Bool.decide_and]
    rfl
  rw [mapped, Relay.pinReset, due]

/-! ## Motions that an arbitration finds in progress -/

theorem matrixTry_motion {p q : Pool} {s : State} (moving : (s.relay q).motion ≠ .none) :
    (matrixTry p s).relay q = s.relay q := by
  by_cases same : p = q
  · subst same
    rw [matrixTry_stays (.inr (.inl moving))]
  · rw [matrixTry_relay_ne same]

theorem grantMember_motion {q : Pool} {s : State} (moving : (s.relay q).motion ≠ .none) (x : SlotIx × Conv) :
    ((grantMember s x).relay q).motion = (s.relay q).motion := by
  rcases grantMember_cases s x with same | ⟨j, h, ready, free, head⟩
  · rw [same]
  · rcases grantMember_course ⟨h, ready, free, head⟩ with e | ⟨p, -, e⟩ <;> rw [e]
    · rw [State.relay, enterSeeking_granting_relays h]
      rfl
    · have planned : ((s.planned x.1 p j).relay q).motion = (s.relay q).motion := by
        rw [State.planned, relay_modRelay]
        split
        · next same =>
          subst same
          rfl
        · rfl
      rw [matrixTry_motion (by rw [planned]; exact moving), planned]

theorem grants_motion {q : Pool} {s : State} (moving : (s.relay q).motion ≠ .none) (l : List (SlotIx × Conv)) :
    ((l.foldl grantMember s).relay q).motion = (s.relay q).motion := by
  induction l generalizing s with
  | nil => rfl
  | cons x l ih =>
    have first := grantMember_motion moving x
    exact (ih (by rw [first]; exact moving)).trans first

theorem walk_motion {q : Pool} {s : State} (moving : (s.relay q).motion ≠ .none) (l : List Cand) :
    ((walk l s).relay q).motion = (s.relay q).motion := by
  induction l generalizing s with
  | nil => rfl
  | cons x l ih =>
    unfold walk
    split
    · exact ih moving
    · split
      · next given _ _ =>
        have first : ((grant x given s).relay q).motion = (s.relay q).motion :=
          grants_motion (s := s.dropCand x.slot) moving given
        exact (ih (by rw [first]; exact moving)).trans first
      · rfl

/-- A motion in progress goes on through the arbitration of the event (R36). -/
theorem finish_motion {q : Pool} {s : State} (moving : (s.relay q).motion ≠ .none) :
    ((finish s).relay q).motion = (s.relay q).motion := by
  unfold finish
  rw [State.relay, (scanSettle_sameGrants _).1.2.2.2]
  split
  · exact walk_motion (s := s.arbitrating) moving _
  · rfl

/-! ## The end of the reset hold -/

theorem warmupCheck_relay_ne {c : Conv} {q : Pool} (other : poolOf c ≠ some q) (s : State) :
    (warmupCheck c s).relay q = s.relay q := by
  unfold warmupCheck endWarmup
  split
  · split
    · exact enterFaulted_relay_ne other _
    · exact resolveConv_relay_ne other s
  · rfl

theorem poolConv_one_ne : poolConv 1 ≠ poolConv 0 := by decide

/-- The reset hold is over. -/
def State.unheld (s : State) : State := { s with relayHold := none }

theorem holdDone_settings (s : State) : s.unheld.SameSettings (holdDone s) :=
  warmupCheck_settings (warmupCheck_settings (disconnect_settings (disconnect_settings (.refl _))))

/-- A disconnect of the other relay before it does not matter to a relay. -/
theorem disconnect_after {c d : Conv} {p : Pool} (hp : poolOf c = some p) (other : poolOf d ≠ some p) (s : State) :
    s.Disconnects (disconnect c (disconnect d s)) p := by
  have now : (disconnect d s).now = s.now := (disconnect_line d s).2
  have hold : (disconnect d s).relayHold = s.relayHold := by rw [disconnect_only]
  exact (disconnect_spec hp (disconnect d s)).congr (disconnect_relay_ne other s) now hold
    (by rw [disconnect_conv]; exact ⟨rfl, rfl, rfl⟩)

/-- What the warm-up of a pool converter finds at the end of the reset hold: a disconnect has reached its relay, and the
end of the other warm-up is nothing to it (R23, R36). -/
theorem holdDone_at (s : State) (p : Pool) : ∃ x : State, x.mode = s.mode ∧ x.relayHold = none ∧
    x.conv (poolConv p) = s.conv (poolConv p) ∧ s.unheld.Disconnects x p ∧
    (holdDone s).conv (poolConv p) = (warmupCheck (poolConv p) x).conv (poolConv p) ∧
    (holdDone s).relay p = (warmupCheck (poolConv p) x).relay p := by
  have eq : holdDone s = warmupCheck (poolConv 1) (warmupCheck (poolConv 0)
    (disconnect (poolConv 1) (disconnect (poolConv 0) s.unheld))) := rfl
  have same : s.unheld.SameSettings (disconnect (poolConv 1) (disconnect (poolConv 0) s.unheld)) :=
    disconnect_settings (disconnect_settings (.refl _))
  have conv (c : Conv) : (disconnect (poolConv 1) (disconnect (poolConv 0) s.unheld)).conv c = s.conv c := by
    rw [disconnect_conv, disconnect_conv]
    rfl
  rw [eq]
  by_cases zero : p = 0
  · subst zero
    refine ⟨_, same.line.1, same.tables.2.2.2.2, conv _, ?_, ?_, warmupCheck_relay_ne (by decide) _⟩
    · exact (disconnect_spec (poolOf_poolConv 0) s.unheld).of_relay (disconnect_relay_ne (by decide) _)
    · exact (warmupCheck_bank (.refl _)).other _ poolConv_one_ne.symm
  · have one : p = 1 := Fin.eq_one_of_ne_zero p zero
    subst one
    have same' := warmupCheck_settings (c := poolConv 0) same
    refine ⟨_, same'.line.1, same'.tables.2.2.2.2, ?_, ?_, rfl, rfl⟩
    · exact ((warmupCheck_bank (.refl _)).other _ poolConv_one_ne).trans (conv _)
    · exact (disconnect_after (poolOf_poolConv 1) (by decide) s.unheld).of_relay (warmupCheck_relay_ne (by decide) _)

theorem warmupMayEnd_poolConv (p : Pool) (s : State) :
    warmupMayEnd (poolConv p) s = (s.relayHold.isNone && !(s.relay p).openingDue) := by
  unfold warmupMayEnd
  rw [poolOf_poolConv]

section
variable {s : State} {p : Pool}

/-- A relay that is closed opens at the end of the reset hold, and the warm-up of its converter waits for that (R23, R36). -/
theorem holdDone_opens {h : Head} (pos : (s.relay p).pos = .closed h) (rest : (s.relay p).motion = .none)
    (off : (s.conv (poolConv p)).outputOn = false) (waited : s.relayReadyAt p ≤ s.now) :
    ((holdDone s).relay p).motion = .opening h (s.now + 10) := by
  obtain ⟨x, -, -, -, disconnects, -, relay⟩ := holdDone_at s p
  have moves := disconnects.moves h pos ⟨rfl, rest, off, waited⟩
  rw [relay, warmupCheck_waits (by rw [warmupMayEnd_poolConv, moves]; exact Bool.and_false _), moves]
  rfl

/-- A relay that is closed waits for the end of the discharge interval (R36). -/
theorem holdDone_waits {h : Head} (pos : (s.relay p).pos = .closed h) (rest : (s.relay p).motion = .none)
    (off : (s.conv (poolConv p)).outputOn = false) (early : s.now < s.relayReadyAt p) :
    (holdDone s).relay p = { s.relay p with
      plan := .open, condTimer := some (s.relayReadyAt p), openingDue := true } ∧
      (holdDone s).conv (poolConv p) = s.conv (poolConv p) := by
  obtain ⟨x, -, -, conv, disconnects, conv', relay⟩ := holdDone_at s p
  have waits := disconnects.waits h pos rest rfl off early
  have wait : warmupMayEnd (poolConv p) x = false := by
    rw [warmupMayEnd_poolConv, waits]
    exact Bool.and_false _
  rw [relay, conv', warmupCheck_waits wait]
  exact ⟨waits, conv⟩

/-- A warm-up that waited for the reset hold alone ends with it (R23). -/
theorem holdDone_ends (state : (s.conv (poolConv p)).state = .warmup) (ran : (s.conv (poolConv p)).warmTimer = none)
    (due : (s.relay p).openingDue = false) (pos : (s.relay p).pos = .open) (rest : (s.relay p).motion = .none) :
    ∃ x : State, x.mode = s.mode ∧ x.conv (poolConv p) = s.conv (poolConv p) ∧
      (holdDone s).conv (poolConv p) = (endWarmup (poolConv p) x).conv (poolConv p) := by
  obtain ⟨x, mode, hold, conv, disconnects, conv', -⟩ := holdDone_at s p
  have may : warmupMayEnd (poolConv p) x = true := by
    rw [warmupMayEnd_poolConv, hold, disconnects.opened pos rest]
    exact congrArg not due
  refine ⟨x, mode, conv, ?_⟩
  rw [conv', warmupCheck_may (by rw [conv]; exact state) (by rw [conv]; exact ran) may]

end

/-- Settles O4: the power-on values, the relays of a pin reset, and relay by relay the end of the reset hold. -/
theorem powerOnAndPinReset : Obligations.PowerOnAndPinReset := by
  unfold Obligations.PowerOnAndPinReset
  refine ⟨fun s => ⟨_, exec_powerOn s, rfl, rfl, rfl, fun c => ?_, fun n => ?_, rfl, rfl, rfl, rfl, rfl, rfl, rfl, rfl,
    rfl, rfl, rfl, rfl, rfl, rfl, rfl, rfl, rfl, rfl, rfl, rfl, rfl⟩,
    fun s => ⟨_, _, exec_powerOn s, exec_pinReset s, rfl, pinResetState_relay s⟩,
    fun s e held => ⟨fun early settled => ?_, fun time => ⟨finish (holdDone s), congrArg done (if_pos (due_of_le held time)),
      ?_, finish_settings (holdDone_settings s), fun p h pos rest off => ⟨fun waited => ?_, fun busy early => ?_⟩,
      fun p state ran due pos rest => ?_⟩⟩⟩
  · rw [powerOnState_conv, reset_conv]
    rfl
  · rw [powerOnState_station, reset_station]
    rfl
  · refine (congrArg done (if_neg ?_)).trans (congrArg _ (finish_of_settled settled))
    rw [due_of_lt held early]
    nofun
  · exact (finish_settings (holdDone_settings s)).tables.2.2.2.2
  · have opens := holdDone_opens pos rest off waited
    rw [finish_motion (by rw [opens]; nofun), opens]
  · obtain ⟨relay, conv⟩ := holdDone_waits pos rest off early
    rw [finish_relay_busy (by rw [conv]; exact busy), relay]
    exact ⟨rest, rfl, rfl⟩
  · obtain ⟨x, mode, conv, ended⟩ := holdDone_ends state ran due pos rest
    refine ⟨fun f first => ?_, fun clear => ?_⟩
    · obtain ⟨faulted, cause⟩ := endWarmup_faults (s := x) (c := poolConv p) (by rw [conv]; exact first)
      rw [← ended] at faulted cause
      rw [finish_conv_busy (by rw [faulted]; nofun)]
      exact ⟨faulted, cause⟩
    · rw [endWarmup_resolves (by rw [conv]; exact clear)] at ended
      have resolved : s.Resolved (resolveConv (poolConv p) x) (poolConv p) :=
        (resolveConv_resolved _ x).of_before (by rw [conv]) (by rw [conv]) mode
      exact (resolved.of_after ended).finish (holdDone_settings s).line.1

end Sys2Proof.Machine
end
